-- ==== Sys2Proof/Word.lean ====
section
/-! DEFINITION. The word types of the NS-480: the byte of its two ports and the 32-bit check value. -/

namespace Sys2Proof

/-- One byte of a line frame or shelf record. -/
abbrev Byte := BitVec 8

/-- A tile check or frame summary: 32 bits (R2, R3). -/
abbrev Word := BitVec 32

end Sys2Proof
end

