-- ==== Sys2Proof/Machine/Bytes.lean ====
section
/-! DEFINITION. Byte order: every multi-byte field of both streams is sent most significant byte first (spec/12). -/

namespace Sys2Proof.Machine

/-- The low k bytes of n, most significant first. -/
def bytesOf : Nat → Nat → List Byte
  | 0, _ => []
  | k + 1, n => BitVec.ofNat 8 (n / 256 ^ k) :: bytesOf k n

/-- The number a run of bytes spells, most significant byte first. -/
def natOf (bs : List Byte) : Nat :=
  bs.foldl (fun n b => n * 256 + b.toNat) 0

/-- The number in a field of `size` bytes at `offset` of a body. -/
def field (body : List Byte) (offset size : Nat) : Nat :=
  natOf ((body.drop offset).take size)

/-- The 32-bit value at `offset` of a body. -/
def wordAt (body : List Byte) (offset : Nat) : Word :=
  BitVec.ofNat 32 (field body offset 4)

/-- A flag byte reads as clear when it is 00h and as set for any other value (spec/12). -/
def flagAt (body : List Byte) (offset : Nat) : Bool :=
  field body offset 1 != 0

/-- One byte. -/
def byte1 (n : Nat) : List Byte := bytesOf 1 n

/-- Two bytes. -/
def byte2 (n : Nat) : List Byte := bytesOf 2 n

/-- Four bytes. -/
def byte4 (n : Nat) : List Byte := bytesOf 4 n

/-- The four bytes of a check value. -/
def wordBytes (w : Word) : List Byte := byte4 w.toNat

/-- An optional 32-bit value: 0 in its place when absent (R179). -/
def optWordBytes : Option Word → List Byte
  | some w => wordBytes w
  | none => byte4 0

/-- A flag sent as 00h or 01h. -/
def boolByte (b : Bool) : List Byte := byte1 b.toNat

/-- A list sent as a one-byte count and one byte for each entry (R179). -/
def countedBytes (ns : List Nat) : List Byte :=
  byte1 ns.length ++ ns.flatMap byte1

/-- A byte of bits, bit 0 first in the list. -/
def bitsByte (bs : List Bool) : List Byte :=
  byte1 (bs.foldr (fun b n => b.toNat + 2 * n) 0)

end Sys2Proof.Machine
end

