-- ==== Sys2Proof/Config.lean ====
section
/-! DEFINITION. What an implementation fixes: the capacities the manual states, the strap, and the one free value. -/

namespace Sys2Proof

/-- The four strap settings (R173). Every combination is valid. -/
structure Strap where
  /-- The own station number, 0 to 31. -/
  station : Fin 32
  /-- Line rate: true for 100 Mbit/s, false for 25 Mbit/s (R55). -/
  fast : Bool
  /-- Tile-size code, 0 to 3 (R1). -/
  tileCode : Fin 4
  /-- Hold polarity: true when the hold line is asserted low. -/
  holdLow : Bool
  deriving DecidableEq, Repr

namespace Config

/-- Largest number of holding records (R19). -/
def maxHoldings : Nat := 512
/-- Fetch slots (R4). -/
def fetchSlots : Nat := 4
/-- Largest number of votes (R78). -/
def maxVotes : Nat := 24
/-- Largest number of answers in one vote (R96). -/
def maxAnswers : Nat := 8
/-- Largest number of mend entries (R124). -/
def maxMends : Nat := 16
/-- Largest number of evidence entries (R136). -/
def maxEvidence : Nat := 64
/-- Check slots of the evidence pool (R137). -/
def evidenceSlots : Nat := 2048
/-- Largest number of queued reports (R169). -/
def maxReports : Nat := 64
/-- Queued reports at which the sweep backs off (R44, R50). -/
def backOffReports : Nat := 48
/-- Largest number of messages in the outbound line queue (R66). -/
def maxMessages : Nat := 32
/-- Quiet slots heard before JOINING (R71). -/
def listenSlots : Nat := 290
/-- The collision at which a message is discarded (R62). -/
def maxCollisions : Nat := 16
/-- Bits of the watch history (R158). -/
def historyBits : Nat := 256
/-- The value at which a 32-bit count stops (R163, R36, R42). -/
def countTop : Nat := 4294967295
/-- Largest tile count (R1, R22). -/
def maxTiles : Nat := 255
/-- A time shown in milliseconds stops here (R76, R103). -/
def timeTop : Nat := 65535

/-- FREE VALUE (log 8): whether a time that is not a whole number of units is shown rounded up.
The manual gives the unit of a time in a view, not how a part of a unit is shown. -/
opaque roundUp : Nat → Bool

end Config

end Sys2Proof
end

