-- ==== Sys2Proof/Syntax.lean ====
section
/-! DEFINITION. The commands of the NS-480: one constructor for each row of spec/opcode_table.json (log 12). -/

namespace Sys2Proof

/-- A command. The orders and data records carry the body bytes of the shelf record (spec/12); the four frame
commands carry the source byte and body of a line frame whose line check passed. -/
inductive Instr where
  | loadHolding (body : List Byte)
  | dropHolding (body : List Byte)
  | cadence (body : List Byte)
  | burst (body : List Byte)
  | suspend (body : List Byte)
  | resume (body : List Byte)
  | gapTimerExpiry
  | verify (body : List Byte)
  | rewritten (body : List Byte)
  | takeEvidence (body : List Byte)
  | pace (body : List Byte)
  | settle (body : List Byte)
  | timing (body : List Byte)
  | watch (body : List Byte)
  | clearCounters (body : List Byte)
  | view (body : List Byte)
  | peek (body : List Byte)
  | reset (body : List Byte)
  | resetOrderEffect (pins : Strap)
  | unknownOrder (kind : Byte) (body : List Byte)
  | block (body : List Byte)
  | fetchFailed (body : List Byte)
  | fetchTimeout
  | holdAsserted
  | holdReleased
  | sum (source : Byte) (body : List Byte)
  | call (source : Byte) (body : List Byte)
  | tiles (source : Byte) (body : List Byte)
  | present (source : Byte) (body : List Byte)
  | candidateFrame (endsInJam : Bool) (bytes : List Byte)
  | lineFrameStart
  | lineFrameSent
  | collision
  | enterJoining
  | beaconTimerExpiry
  | silenceExpiry
  | voteTimerExpiry
  | localisationTimeout
  | mendPatienceExpiry
  | recordSent
  | powerOn (pins : Strap)
  | resetLineAsserted
  | resetLineReleased (pins : Strap)
  | lineActivityBegins
  | recordCutShort
  deriving DecidableEq, Repr

end Sys2Proof
end

