-- ==== Sys2Proof/WellFormed.lean ====
section
/-! DEFINITION. Which commands can be sent: the bodies fit the length fields of their headers (spec/12). -/

namespace Sys2Proof

/-- The largest body a shelf record's 3-byte length can give. -/
def maxRecordBody : Nat := 16777215

/-- The largest body a line frame's 2-byte length can give. -/
def maxFrameBody : Nat := 65535

/-- The kinds of the order table and of the two data records: the kinds that are not UNKNOWN (R167, spec/12). -/
def knownKind (kind : Byte) : Bool :=
  (0x01 ≤ kind.toNat && kind.toNat ≤ 0x11) || kind == 0x40 || kind == 0x41

/-- A command that the outside can send. -/
def WellFormed : Instr → Bool
  | .loadHolding body | .dropHolding body | .cadence body | .burst body | .suspend body | .resume body
  | .verify body | .rewritten body | .takeEvidence body | .pace body | .settle body | .timing body
  | .watch body | .clearCounters body | .view body | .peek body | .reset body | .block body
  | .fetchFailed body => body.length ≤ maxRecordBody
  | .unknownOrder kind body => !knownKind kind && body.length ≤ maxRecordBody
  | .sum _ body | .call _ body | .tiles _ body | .present _ body => body.length ≤ maxFrameBody
  | .candidateFrame _ _ => true
  | .resetOrderEffect _ | .powerOn _ | .resetLineReleased _ => true
  | .gapTimerExpiry | .fetchTimeout | .holdAsserted | .holdReleased => true
  | .lineFrameStart | .lineFrameSent | .collision | .enterJoining | .beaconTimerExpiry | .silenceExpiry => true
  | .voteTimerExpiry | .localisationTimeout | .mendPatienceExpiry | .recordSent => true
  | .resetLineAsserted | .lineActivityBegins | .recordCutShort => true

end Sys2Proof
end

