-- ==== Sys2Proof/Decode.lean ====
section
/-! DEFINITION. Words and records that spell a command. No row of the opcode table gives bits, so no table word
spells one; a shelf record does, by its header (spec/12). -/

namespace Sys2Proof

/-- The command that a table word spells: no row gives bits. -/
def decodeTableWord (_nbits _w : Nat) : Option Instr := none

/-- The command a shelf record of a kind and body stands for (the table of kinds in spec/12). Every kind that is
neither a data record nor in the order table is an order of unknown kind (R165, R167). -/
def ofRecord (kind : Byte) (body : List Byte) : Instr :=
  match kind.toNat with
  | 0x01 => .loadHolding body
  | 0x02 => .dropHolding body
  | 0x03 => .cadence body
  | 0x04 => .burst body
  | 0x05 => .suspend body
  | 0x06 => .resume body
  | 0x07 => .verify body
  | 0x08 => .rewritten body
  | 0x09 => .takeEvidence body
  | 0x0A => .pace body
  | 0x0B => .settle body
  | 0x0C => .timing body
  | 0x0D => .watch body
  | 0x0E => .clearCounters body
  | 0x0F => .view body
  | 0x10 => .peek body
  | 0x11 => .reset body
  | 0x40 => .block body
  | 0x41 => .fetchFailed body
  | _ => .unknownOrder kind body

/-- The kind and body of a command that is a shelf record. -/
def toRecord : Instr → Option (Byte × List Byte)
  | .loadHolding body => some (0x01, body)
  | .dropHolding body => some (0x02, body)
  | .cadence body => some (0x03, body)
  | .burst body => some (0x04, body)
  | .suspend body => some (0x05, body)
  | .resume body => some (0x06, body)
  | .verify body => some (0x07, body)
  | .rewritten body => some (0x08, body)
  | .takeEvidence body => some (0x09, body)
  | .pace body => some (0x0A, body)
  | .settle body => some (0x0B, body)
  | .timing body => some (0x0C, body)
  | .watch body => some (0x0D, body)
  | .clearCounters body => some (0x0E, body)
  | .view body => some (0x0F, body)
  | .peek body => some (0x10, body)
  | .reset body => some (0x11, body)
  | .block body => some (0x40, body)
  | .fetchFailed body => some (0x41, body)
  | .unknownOrder kind body => some (kind, body)
  | .gapTimerExpiry | .resetOrderEffect _ | .fetchTimeout | .holdAsserted | .holdReleased => none
  | .sum _ _ | .call _ _ | .tiles _ _ | .present _ _ | .candidateFrame _ _ => none
  | .lineFrameStart | .lineFrameSent | .collision | .enterJoining | .beaconTimerExpiry | .silenceExpiry => none
  | .voteTimerExpiry | .localisationTimeout | .mendPatienceExpiry | .recordSent => none
  | .powerOn _ | .resetLineAsserted | .resetLineReleased _ | .lineActivityBegins | .recordCutShort => none

/-- The first record of a byte stream and the bytes behind it: a 4-byte header of kind and body length, then the
body. A stream that ends before the body does holds no whole record (R165: cut short). -/
def decodeRecord (stream : List Byte) : Option (Instr × List Byte) :=
  match stream with
  | kind :: rest =>
    let size := Machine.field rest 0 3
    if rest.length < 3 + size then none
    else some (ofRecord kind ((rest.drop 3).take size), rest.drop (3 + size))
  | [] => none

/-- The bytes of the record that a command is. -/
def encodeRecord (i : Instr) : Option (List Byte) :=
  (toRecord i).map fun (kind, body) => kind :: Machine.bytesOf 3 body.length ++ body

end Sys2Proof
end

