-- ==== Sys2Proof/Machine/State.lean ====
section
/-! DEFINITION. The state of the NS-480, block by block as the manual divides it, and its reset values. -/

namespace Sys2Proof.Machine

/-- A film frame's key: reel number and frame number. -/
structure Key where
  reel : Nat
  frame : Nat
  deriving DecidableEq, Repr

/-! ### Read engine (R4, R5) -/

/-- A BUSY fetch slot (R4). The owning vote is the one vote of the key. `issued` is in nanoseconds. -/
structure Fetch where
  tag : Byte
  key : Key
  next : Nat
  issued : Nat
  deriving DecidableEq, Repr

/-- The read engine. `fetches` holds the BUSY slots in the order of issue, at most four; the others are FREE (log 6). -/
structure ReadEngine where
  fetches : List Fetch
  tagCounter : Byte
  deriving DecidableEq, Repr

/-- The read engine after every reset (R18). -/
def ReadEngine.reset : ReadEngine := { fetches := [], tagCounter := 0 }

/-! ### Holding list (R19, R20) -/

/-- A holding record: eight given fields and two derived. -/
structure Holding where
  reel : Nat
  /-- Frame count F. -/
  frames : Nat
  /-- Frame length L in bytes. -/
  length : Nat
  tier : Nat
  peers : List Nat
  /-- Head leader H. -/
  head : Nat
  /-- Tail leader T. -/
  tail : Nat
  mendAllowed : Bool
  /-- Tile count n. -/
  tiles : Nat
  /-- Passes completed. -/
  passes : Nat
  deriving DecidableEq, Repr

/-! ### Sweep (R35 to R54) -/

/-- A running timer: the time it started, in nanoseconds, and its length in milliseconds. -/
structure Timer where
  start : Nat
  length : Nat
  deriving DecidableEq, Repr

/-- The six sweep states (R44). -/
inductive SweepState where
  | suspended | held | gap | idle | backedUp | running
  deriving DecidableEq, Repr

/-- The sweep. -/
structure Sweep where
  suspended : Bool
  gap : Option Timer
  cursorPos : Nat
  cursorFrame : Nat
  round : Nat
  /-- Rotation counter r. -/
  r : Nat
  /-- Cadence period P. -/
  period : Nat
  /-- Tier masks, tiers 0 to 3. -/
  masks : Vector (BitVec 16) 4
  /-- Burst count B. -/
  burst : Nat
  /-- Burst remainder R. -/
  remainder : Nat
  /-- Votes-opened tally of the round. -/
  opened : Nat
  /-- Covered tally of the round. -/
  covered : Nat
  deriving DecidableEq, Repr

/-- The sweep after every reset (R54). -/
def Sweep.reset : Sweep :=
  { suspended := true, gap := none, cursorPos := 0, cursorFrame := 0, round := 0, r := 0, period := 1
    masks := Vector.replicate 4 1, burst := 16, remainder := 16, opened := 0, covered := 0 }

/-! ### Vault line unit (R55 to R77) -/

/-- The status a SUM carries. -/
inductive SumStatus where
  | readOk | unreadable | notHeld | deferred
  deriving DecidableEq, Repr

/-- The reference state a SUM carries. -/
inductive RefState where
  | none | same | differ
  deriving DecidableEq, Repr

/-- The mode of a PRESENT. -/
inductive PresenceMode where
  | joining | beacon
  deriving DecidableEq, Repr

/-- The body of a line frame (R56). -/
inductive LineBody where
  | sum (key : Key) (status : SumStatus) (summary : Word) (tiles : Nat) (ref : RefState)
  | call (key : Key) (listed : List Nat)
  | tiles (key : Key) (summary : Word) (count : Nat) (first : Nat) (checks : List Word)
  | present (mode : PresenceMode) (holdings : Nat)
  deriving DecidableEq, Repr

/-- A message of the outbound line queue (R66). `owner` names the vote that offered a CALL (R82); `onLine` marks the
message whose frame is on the line. -/
structure Message where
  body : LineBody
  collisions : Nat
  owner : Option Nat
  onLine : Bool
  deriving DecidableEq, Repr

/-- The line states (R71 to R75). -/
inductive LineState where
  | listen | joining | active | mute
  deriving DecidableEq, Repr

/-- What the line carries besides the unit's own frame (R55, R58). -/
inductive LineActivity where
  | quiet | other | jam
  deriving DecidableEq, Repr

/-- What the roster holds of a station (R68), with the time it was last heard in nanoseconds. -/
inductive Heard where
  | unknown
  | present (last : Nat)
  | silent (last : Nat)
  | self
  deriving DecidableEq, Repr

/-- A roster entry: its state, and the holding count of the last valid PRESENT (R74). -/
structure RosterEntry where
  heard : Heard
  holdings : Option Nat
  deriving DecidableEq, Repr

/-- The vault line unit. -/
structure LineUnit where
  state : LineState
  listenCount : Nat
  quietCount : Nat
  activity : LineActivity
  queue : List Message
  roster : Vector RosterEntry 32
  beacon : Option Timer
  deriving DecidableEq, Repr

/-- The roster after a reset: every entry UNKNOWN (R77). -/
def emptyRoster : Vector RosterEntry 32 := Vector.replicate 32 { heard := .unknown, holdings := none }

/-- The roster at start: the own entry SELF, every other UNKNOWN (R68, R77). -/
def startRoster (own : Fin 32) : Vector RosterEntry 32 :=
  emptyRoster.set own.val { heard := .self, holdings := none } own.isLt

/-- The line unit after every reset, on a line in the state `activity` (R77). -/
def LineUnit.reset (activity : LineActivity) : LineUnit :=
  { state := .listen, listenCount := 0, quietCount := 0, activity := activity, queue := []
    roster := emptyRoster, beacon := none }

/-! ### Vote table (R78 to R104) -/

/-- Why a copy could not be read (R17). -/
inductive Reason where
  | length | timeout | unreadable | absent
  deriving DecidableEq, Repr

/-- The own status of a vote, with the own summary of a READ_OK and the reason of an UNREADABLE. -/
inductive OwnStatus where
  | pending
  | readOk (summary : Word)
  | unreadable (reason : Reason)
  deriving DecidableEq, Repr

/-- The vote states (R80). -/
inductive VoteState where
  | awaitingRead | reading | gathering | localising
  deriving DecidableEq, Repr

/-- What caused a vote. -/
inductive Origin where
  | sweep | peer | order | mend
  deriving DecidableEq, Repr

/-- The origin flags of a vote (R90). -/
structure Origins where
  sweep : Bool
  peer : Bool
  order : Bool
  mend : Bool
  deriving DecidableEq, Repr

/-- The flags of a vote (R78, R95, R107, R113, R116, R118). -/
structure VoteFlags where
  extra : Bool
  notHeldSeen : Bool
  deferredSeen : Bool
  refDiffers : Bool
  ordered : Bool
  geometryDiffers : Bool
  locateFailed : Bool
  mendListFull : Bool
  deriving DecidableEq, Repr

/-- An answer record (R93). -/
structure Answer where
  station : Nat
  status : SumStatus
  summary : Option Word
  tiles : Nat
  ref : RefState
  deriving DecidableEq, Repr

/-- The verdicts. -/
inductive Verdict where
  | good | bad | leaderBad | unreadable | split | unconfirmed | abandoned
  deriving DecidableEq, Repr

/-- What the verdict unit fixed at closure: the verdict, the agreed summary x, the good value, the leader and
mend-allowed tests, and the missing list (R100, R107 to R109). -/
structure Decision where
  verdict : Verdict
  agreed : Option Word
  good : Option Word
  leader : Bool
  mendAllowed : Bool
  missing : List Nat
  deriving DecidableEq, Repr

/-- The localisation fields of a vote (R112). An unmarked place of the received-check list is none. -/
structure Localisation where
  source : Option Nat
  received : List (Option Word)
  start : Nat
  deriving DecidableEq, Repr

/-- A vote record (R78). `id` is the model's own number of the vote (log 7); times are in nanoseconds. -/
structure Vote where
  id : Nat
  key : Key
  origins : Origins
  opened : Nat
  state : VoteState
  expected : List Nat
  callers : List Nat
  answers : List Answer
  own : OwnStatus
  checks : List Word
  reference : Option Word
  callPending : Bool
  sumSent : Bool
  timer : Option Nat
  localisation : Option Localisation
  decision : Option Decision
  flags : VoteFlags
  deriving DecidableEq, Repr

/-! ### Mend list (R124) -/

/-- The state of a mend entry, with its patience start in nanoseconds (R126). -/
inductive MendState where
  | awaitingRewrite (patienceStart : Nat)
  | rechecking
  deriving DecidableEq, Repr

/-- A mend entry. No bad-tile list stands for every tile. -/
structure MendEntry where
  key : Key
  agreed : Word
  badTiles : Option (List Nat)
  failed : Nat
  state : MendState
  deriving DecidableEq, Repr

/-! ### Evidence buffer (R136 to R138) -/

/-- An evidence entry. -/
structure EvidenceEntry where
  number : BitVec 16
  key : Key
  verdict : Verdict
  own : Word
  agreed : Option Word
  tiles : Nat
  checks : List Word
  source : Option (List Word)
  badTiles : Option (List Nat)
  deriving DecidableEq, Repr

/-- The evidence buffer: the entries, oldest first, and the entry-number counter. -/
structure Evidence where
  entries : List EvidenceEntry
  next : BitVec 16
  deriving DecidableEq, Repr

/-- The evidence buffer at power-on (R145). -/
def Evidence.reset : Evidence := { entries := [], next := 0 }

/-! ### Pace governor and timer settings (R146, R154) -/

/-- The governor's mode. -/
inductive PaceMode where
  | fixed | adaptive
  deriving DecidableEq, Repr

/-- The pace governor. -/
structure Governor where
  mode : PaceMode
  gmin : Nat
  gmax : Nat
  /-- Target depth Dt. -/
  target : Nat
  /-- Band b. -/
  band : Nat
  /-- Pace gap G. -/
  gap : Nat
  /-- Depth average A. -/
  average : Nat
  settle : Nat
  deriving DecidableEq, Repr

/-- The governor after every reset (R152). -/
def Governor.reset : Governor :=
  { mode := .adaptive, gmin := 0, gmax := 1000, target := 2, band := 8, gap := 100, average := 32, settle := 0 }

/-- The timer settings: four time codes, and mend patience in seconds. -/
structure TimerSettings where
  vote : Nat
  fetch : Nat
  localisation : Nat
  silence : Nat
  patience : Nat
  deriving DecidableEq, Repr

/-- The timer settings after every reset (R157). -/
def TimerSettings.reset : TimerSettings :=
  { vote := 1536, fetch := 2560, localisation := 1024, silence := 2048, patience := 3600 }

/-! ### Corruption watch and counters (R158, R163) -/

/-- The corruption watch. The count is the number of 1s in the history. -/
structure Watch where
  history : List Bool
  alarm : Bool
  /-- Rising threshold Tr. -/
  rising : Nat
  /-- Falling threshold Tf. -/
  falling : Nat
  reportEnable : Bool
  deriving DecidableEq, Repr

/-- The watch after every reset (R162). -/
def Watch.reset : Watch := { history := [], alarm := false, rising := 8, falling := 2, reportEnable := true }

/-- The 23 counters, in the order of the counter table. -/
inductive Counter where
  | votesOpened | good | bad | leaderBad | unreadable | split | unconfirmed | abandoned | refDiffers
  | lineSent | lineReceived | lineBadCheck | lineMalformed | collisions | lineDropped | deferredSent
  | stray | answersOverflow | lateBlocks | blockDiscarded | fetchTimeouts | reportsLost | evidenceEvicted
  deriving DecidableEq, Repr

/-- The values of the 23 counters. -/
abbrev Counters := Vector Nat 23

/-- The counters at power-on and after CLEAR COUNTERS (R164). -/
def Counters.reset : Counters := Vector.replicate 23 0

/-! ### Shelf port unit (R165 to R177) -/

/-- The reset-cause flags (R174). -/
structure ResetCauses where
  power : Bool
  pin : Bool
  order : Bool
  deriving DecidableEq, Repr

/-- The result of an order (R167). -/
inductive Result where
  | done | full | range | geometry | notHeld | busy | notPending | unknown | malformed
  deriving DecidableEq, Repr

/-- A reply: the kind of the order it answers, the result, and what a DONE to TAKE EVIDENCE or PEEK carries. -/
structure Reply where
  kind : Byte
  result : Result
  payload : List Byte
  deriving DecidableEq, Repr

/-- A request of the read engine (R8, R16). -/
inductive Request where
  | fetch (tag : Byte) (key : Key) (tiles : Nat)
  | cancel (tag : Byte) (key : Key)
  deriving DecidableEq, Repr

/-- The five mend reports (R133). -/
inductive MendReportKind where
  | mended | failed | abandoned | lapsed | dropped
  deriving DecidableEq, Repr

/-- The new state a STATION report carries (R70, R75). -/
inductive StationNews where
  | present | silent | duplicate
  deriving DecidableEq, Repr

/-- A report (R169), without its number. -/
inductive Report where
  | verdict (key : Key) (verdict : Verdict) (origins : Origins) (flags : VoteFlags) (own agreed : Option Word)
      (good missing : List Nat) (badTiles : Option (List Nat))
  | roundDone (round r visited opened covered : Nat)
  | station (station : Nat) (news : StationNews)
  | alarm (on : Bool) (count held rising falling : Nat) (key : Option Key)
  | mend (kind : MendReportKind) (key : Key) (agreed : Word) (failed : Nat) (verdict : Option Verdict)
      (own : Option Word) (badTiles : Option (List Nat))
  deriving DecidableEq, Repr

/-- A report in the queue, with its report number. -/
structure QueuedReport where
  number : BitVec 16
  report : Report
  deriving DecidableEq, Repr

/-- The START record (R176). -/
structure StartRecord where
  causes : ResetCauses
  strap : Strap
  evidence : Nat
  deriving DecidableEq, Repr

/-- A record on the outgoing link (R168). -/
inductive OutRecord where
  | start (record : StartRecord)
  | reply (reply : Reply)
  | request (request : Request)
  | report (report : QueuedReport)
  deriving DecidableEq, Repr

/-- The eight views (R170). -/
inductive View where
  | status | holdings | votes | mend | evidence | roster | counters | settings
  deriving DecidableEq, Repr

/-- The shelf port unit. `inbound` holds the records that wait on the incoming link, oldest first; `resetTaken` is set
from the taking of a RESET order to its effect. -/
structure ShelfPort where
  inbound : List Instr
  start : Option StartRecord
  reply : Option Reply
  requests : List Request
  reports : List QueuedReport
  nextReport : BitVec 16
  link : Option OutRecord
  resetTaken : Bool
  view : View
  index : Nat
  deriving DecidableEq, Repr

/-- The shelf port unit after every reset, with the records that stay on the incoming link (R176, R177). -/
def ShelfPort.reset (inbound : List Instr) : ShelfPort :=
  { inbound := inbound, start := none, reply := none, requests := [], reports := [], nextReport := 0, link := none
    resetTaken := false, view := .status, index := 0 }

/-! ### The whole station -/

/-- The state of the station. -/
structure State where
  /-- The commands that wait, first in first out. -/
  pending : List Instr
  /-- The time that has passed, in nanoseconds (log 2). -/
  now : Nat
  /-- The strap inputs as they stand. -/
  strapPins : Strap
  /-- The strap values read at the last reset. -/
  strap : Strap
  /-- The level of the hold line: true for high. -/
  holdHigh : Bool
  /-- The reset line is asserted. -/
  resetLine : Bool
  causes : ResetCauses
  read : ReadEngine
  holdings : List Holding
  sweep : Sweep
  line : LineUnit
  votes : List Vote
  /-- The number the next vote is given (log 7). -/
  nextVote : Nat
  mends : List MendEntry
  evidence : Evidence
  governor : Governor
  timers : TimerSettings
  watch : Watch
  counters : Counters
  port : ShelfPort
  deriving DecidableEq, Repr

/-- Why the station could stop with a fault. The manual stops it nowhere, so there is no reason (log 23). -/
inductive Fault where
  deriving DecidableEq, Repr

/-- Why the model could refuse a command. -/
inductive Refusal where
  /-- Raised by an arm of exec whose command has no meaning yet. Safe: no next state is claimed. No arm raises it. -/
  | notModelled (mnemonic : String)
  deriving DecidableEq, Repr

/-- The strap of the reset state: inputs, for which the manual can give no value (DESIGN CHOICE, log 1). -/
def State.defaultStrap : Strap := { station := 0, fast := false, tileCode := 0, holdLow := false }

/-- The START record of the reset state: POWER alone, no evidence held (R174, R176). -/
def State.firstStart : StartRecord :=
  { causes := { power := true, pin := false, order := false }, strap := State.defaultStrap, evidence := 0 }

/-- The station right after power-on, as start begins: every block at its power-on values, the START record on the
outgoing link, an empty queue of commands (R174, R176; inputs and model's own fields: log 1). -/
def State.reset : State :=
  { pending := [], now := 0, strapPins := State.defaultStrap, strap := State.defaultStrap
    holdHigh := false, resetLine := false, causes := State.firstStart.causes
    read := ReadEngine.reset, holdings := [], sweep := Sweep.reset
    line := { LineUnit.reset .quiet with roster := startRoster State.defaultStrap.station }
    votes := [], nextVote := 0, mends := [], evidence := Evidence.reset, governor := Governor.reset
    timers := TimerSettings.reset, watch := Watch.reset, counters := Counters.reset
    port := { ShelfPort.reset [] with link := some (.start State.firstStart) } }

end Sys2Proof.Machine
end

