-- ==== Sys2Proof/Machine/Flags.lean ====
section
/-! DEFINITION. The flag computations: origin flags, vote flags, reset-cause flags, and the bytes that carry them (spec/12). -/

namespace Sys2Proof.Machine

/-- No origin. -/
def Origins.none : Origins := { sweep := false, peer := false, order := false, mend := false }

/-- An origin added to the flags (R90): flags are added and never taken away. -/
def Origins.add (o : Origins) : Origin → Origins
  | .sweep => { o with sweep := true }
  | .peer => { o with peer := true }
  | .order => { o with order := true }
  | .mend => { o with mend := true }

/-- The issue class of a vote as a rank: MEND, ORDER, PEER, SWEEP (R6, R90). -/
def Origins.rank (o : Origins) : Nat :=
  if o.mend then 0 else if o.order then 1 else if o.peer then 2 else 3

/-- The origin flags byte (VERDICT report, spec/12). -/
def Origins.bytes (o : Origins) : List Byte := bitsByte [o.sweep, o.peer, o.order, o.mend]

/-- Every flag clear (R79). -/
def VoteFlags.none : VoteFlags :=
  { extra := false, notHeldSeen := false, deferredSeen := false, refDiffers := false, ordered := false
    geometryDiffers := false, locateFailed := false, mendListFull := false }

/-- The flags that recording an answer sets, and never clears (R95). -/
def VoteFlags.recordAnswer (f : VoteFlags) (outside : Bool) (status : SumStatus) : VoteFlags :=
  { f with extra := f.extra || outside
           notHeldSeen := f.notHeldSeen || decide (status = .notHeld)
           deferredSeen := f.deferredSeen || decide (status = .deferred) }

/-- The flags byte of a VERDICT report (spec/12). -/
def VoteFlags.reportBytes (f : VoteFlags) : List Byte :=
  bitsByte [f.extra, f.notHeldSeen, f.deferredSeen, f.refDiffers, f.ordered, f.geometryDiffers, f.locateFailed,
    f.mendListFull]

/-- The flags byte of a VOTES record (spec/12). -/
def Vote.flagBytes (v : Vote) : List Byte :=
  bitsByte [v.flags.extra, v.flags.notHeldSeen, v.flags.deferredSeen, v.flags.refDiffers, v.flags.ordered,
    v.callPending, v.sumSent]

/-- The reset-cause flags byte (START, spec/12). -/
def ResetCauses.bytes (c : ResetCauses) : List Byte := bitsByte [c.power, c.pin, c.order]

/-- The reset-cause flags after power-on: POWER alone (R174). -/
def ResetCauses.powerOn : ResetCauses := { power := true, pin := false, order := false }

/-- All three reset-cause flags clear (R164). -/
def ResetCauses.clear : ResetCauses := { power := false, pin := false, order := false }

/-- The own summary, present with READ_OK alone. -/
def OwnStatus.summary : OwnStatus → Option Word
  | .readOk x => some x
  | .pending | .unreadable _ => none

/-- The own status is known (R17). -/
def OwnStatus.known : OwnStatus → Bool
  | .pending => false
  | .readOk _ | .unreadable _ => true

end Sys2Proof.Machine
end

