-- ==== Sys2Proof/Machine/Checks.lean ====
section
/-! DEFINITION. The arithmetic of the manual: tile geometry, tile check, frame summary, line check, time codes, waits. -/

namespace Sys2Proof.Machine

/-! ### Tiles (R1) -/

/-- The tile size Z of a tile-size code: 64 KiB, 256 KiB, 1 MiB or 4 MiB (R1). -/
def tileSize (code : Fin 4) : Nat := 65536 * 4 ^ code.val

/-- The tile count n = ceil(L / Z) (R1). -/
def tileCount (length size : Nat) : Nat := (length + size - 1) / size

/-- The length of tile i of a frame of n tiles: Z, and L - (n-1) × Z for the last (R1, R11). -/
def tileLength (length size n i : Nat) : Nat :=
  if i + 1 < n then size else length - (n - 1) * size

/-! ### Cyclic redundancy checks (R2, R57) -/

/-- One bit of a check: shift left, and combine with the polynomial when the bit taken differs from the bit shifted
out (R2, R57). -/
def crcBit {w : Nat} (poly reg : BitVec w) (bit : Bool) : BitVec w :=
  if bit != reg.msb then (reg <<< 1) ^^^ poly else reg <<< 1

/-- The bits of a byte, most significant first. -/
def byteBits (b : Byte) : List Bool :=
  [b.getLsbD 7, b.getLsbD 6, b.getLsbD 5, b.getLsbD 4, b.getLsbD 3, b.getLsbD 2, b.getLsbD 1, b.getLsbD 0]

/-- One byte of a check. -/
def crcByte {w : Nat} (poly reg : BitVec w) (b : Byte) : BitVec w :=
  (byteBits b).foldl (crcBit poly) reg

/-- The check register after a run of bytes. -/
def crcRun {w : Nat} (poly start : BitVec w) (bytes : List Byte) : BitVec w :=
  bytes.foldl (crcByte poly) start

/-- The tile check of a tile's bytes (R2). -/
def tileCheck (bytes : List Byte) : Word :=
  ~~~ crcRun 0x04C11DB7#32 0xFFFFFFFF#32 bytes

/-- The line check over a header and body (R57). -/
def lineCheck (bytes : List Byte) : BitVec 16 :=
  crcRun 0x1021#16 0xFFFF#16 bytes

/-! ### The frame summary (R3) -/

/-- The sum of the checks from tile i on, each rotated left by its tile index mod 32 (R3). -/
def foldFrom : Nat → List Word → Word
  | _, [] => 0
  | i, c :: cs => c.rotateLeft (i % 32) + foldFrom (i + 1) cs

/-- The frame summary: the tile count plus the rotated checks, modulo 2^32 (R3). -/
def frameSummary (checks : List Word) : Word :=
  BitVec.ofNat 32 checks.length + foldFrom 0 checks

/-! ### Time codes and shown times (R153, R76) -/

/-- The milliseconds a time code stands for (R153). -/
def timeOfCode (code : Nat) : Nat :=
  if code / 512 = 0 then code % 512 else (512 + code % 512) * 2 ^ (code / 512 - 1)

/-- Nanoseconds in a millisecond. -/
def nsPerMs : Nat := 1000000

/-- Nanoseconds in a second. -/
def nsPerSecond : Nat := 1000000000

/-- A time shown in a unit of `unit` nanoseconds; how a part of a unit is shown is free (log 8). -/
def shownIn (unit ns : Nat) : Nat :=
  if ns % unit = 0 then ns / unit else ns / unit + (Config.roundUp ns).toNat

/-- A time shown in milliseconds, stopping at 65,535 (R76, R103). -/
def shownMs (ns : Nat) : Nat := min Config.timeTop (shownIn nsPerMs ns)

/-- The beacon interval: half the silence limit, truncated, and not less than 1 ms (R73). -/
def beaconInterval (silenceMs : Nat) : Nat := max 1 (silenceMs / 2)

/-! ### Classes and waits (R56, R58) -/

/-- The class of a line frame: SUM 0, CALL 1, TILES 2, PRESENT 3 (R56). -/
def LineBody.lineClass : LineBody → Nat
  | .sum _ _ _ _ _ => 0
  | .call _ _ => 1
  | .tiles _ _ _ _ _ => 2
  | .present _ _ => 3

/-- The wait W of a message, in slots (R58). -/
def Message.wait (station : Nat) (m : Message) : Nat :=
  6 + 36 * m.body.lineClass + station + 37 * m.collisions

/-! ### Sets of station numbers -/

/-- A station number added to a set kept in ascending order. -/
def insertStation (x : Nat) : List Nat → List Nat
  | [] => [x]
  | y :: ys => if x < y then x :: y :: ys else if x = y then y :: ys else y :: insertStation x ys

/-- The set of the station numbers of a list, in ascending order. -/
def stationSet (xs : List Nat) : List Nat := xs.foldr insertStation []

/-! ### Leader frames (R21) -/

/-- The leader test: below the head leader, or at or past F - T, compared as whole numbers that may be negative
(R21). -/
def Holding.isLeader (h : Holding) (frame : Nat) : Bool :=
  frame < h.head || ((h.frames : Int) - (h.tail : Int) ≤ (frame : Int))

end Sys2Proof.Machine
end

