-- ==== Sys2Proof/Machine/Operands.lean ====
section
/-! DEFINITION. The operand forms: what the station reads from the body of an incoming record or line frame (spec/12).
A body is judged for length before its fields are read. -/

namespace Sys2Proof.Machine

/-! ### Order bodies -/

/-- LOAD HOLDING: 19 bytes and one for each peer named by the peer count (R167, spec/12). -/
def fitsLoadHolding (body : List Byte) : Bool :=
  decide (19 ≤ body.length) && decide (body.length = 19 + field body 18 1)

/-- The record a LOAD HOLDING order describes, with the tile count of R20 and passes completed 0. -/
def loadedHolding (size : Nat) (body : List Byte) : Holding :=
  { reel := field body 0 4, frames := field body 4 4, length := field body 8 4, tier := field body 12 1
    peers := (body.drop 19).map BitVec.toNat, head := field body 13 2, tail := field body 15 2
    mendAllowed := flagAt body 17, tiles := tileCount (field body 8 4) size, passes := 0 }

/-- The key a VERIFY or REWRITTEN order carries. -/
def keyAt (body : List Byte) (offset : Nat) : Key :=
  { reel := field body offset 4, frame := field body (offset + 4) 4 }

/-- The view a view code names (R170). -/
def viewOfCode : Nat → Option View
  | 1 => some .status
  | 2 => some .holdings
  | 3 => some .votes
  | 4 => some .mend
  | 5 => some .evidence
  | 6 => some .roster
  | 7 => some .counters
  | 8 => some .settings
  | _ => none

/-- The mode a PACE mode byte names (spec/12). -/
def paceModeOfCode : Nat → Option PaceMode
  | 1 => some .fixed
  | 2 => some .adaptive
  | _ => none

/-! ### Data records -/

/-- A BLOCK whose header is whole. -/
structure BlockRecord where
  tag : Byte
  index : Nat
  depth : Nat
  reference : Option Word
  tile : List Byte
  deriving DecidableEq, Repr

/-- A BLOCK body; none when it is too short to hold the fixed fields, the marked reference among them (R165). -/
def readBlock (body : List Byte) : Option BlockRecord :=
  if body.length < 4 then none
  else if flagAt body 3 then
    if body.length < 8 then none
    else some { tag := BitVec.ofNat 8 (field body 0 1), index := field body 1 1, depth := field body 2 1
                reference := some (wordAt body 4), tile := body.drop 8 }
  else some { tag := BitVec.ofNat 8 (field body 0 1), index := field body 1 1, depth := field body 2 1
              reference := none, tile := body.drop 4 }

/-- A FETCH FAILED body: tag and reason; none when its length or reason is not of the kind (R165). -/
def readFetchFailed (body : List Byte) : Option (Byte × Reason) :=
  if body.length = 2 then
    match field body 1 1 with
    | 1 => some (BitVec.ofNat 8 (field body 0 1), .unreadable)
    | 2 => some (BitVec.ofNat 8 (field body 0 1), .absent)
    | _ => none
  else none

/-! ### Line frame bodies (R64, R178) -/

/-- The status a SUM status code names. -/
def sumStatusOfCode : Nat → Option SumStatus
  | 1 => some .readOk
  | 2 => some .unreadable
  | 3 => some .notHeld
  | 4 => some .deferred
  | _ => none

/-- The reference state a code names. -/
def refStateOfCode : Nat → Option RefState
  | 0 => some .none
  | 1 => some .same
  | 2 => some .differ
  | _ => none

/-- The mode a PRESENT mode code names. -/
def presenceOfCode : Nat → Option PresenceMode
  | 1 => some .joining
  | 2 => some .beacon
  | _ => none

/-- A key in the range the layouts give: reel 1 or more, frame 0 to 262,142. -/
def keyInRange (k : Key) : Bool := decide (1 ≤ k.reel) && decide (k.frame ≤ 262142)

/-- A SUM body; none when malformed. -/
def readSum (body : List Byte) : Option LineBody :=
  if body.length = 15 && keyInRange (keyAt body 0) then
    match sumStatusOfCode (field body 8 1), refStateOfCode (field body 14 1) with
    | some status, some ref => some (.sum (keyAt body 0) status (wordAt body 9) (field body 13 1) ref)
    | _, _ => none
  else none

/-- The stations in the counted places of a CALL. -/
def callListed (body : List Byte) : List Nat :=
  ((body.drop 9).take (field body 8 1)).map BitVec.toNat

/-- A CALL body; none when malformed. Places after the listed count are not tested (R178). -/
def readCall (body : List Byte) : Option LineBody :=
  if body.length = 13 && keyInRange (keyAt body 0) && decide (1 ≤ field body 8 1) && decide (field body 8 1 ≤ 4)
      && (callListed body).all (fun t => decide (t ≤ 31)) then
    some (.call (keyAt body 0) (callListed body))
  else none

/-- The k checks from byte `offset` on. -/
def checksAt (body : List Byte) : Nat → Nat → List Word
  | _, 0 => []
  | offset, k + 1 => wordAt body offset :: checksAt body (offset + 4) k

/-- A TILES body; none when malformed. No first index f makes it malformed: a value over 254 has f + k over n, which passes
the tests of form (R178). -/
def readTiles (body : List Byte) : Option LineBody :=
  if keyInRange (keyAt body 0) && decide (15 ≤ body.length) && decide (body.length = 15 + 4 * field body 14 1)
      && decide (1 ≤ field body 14 1) && decide (field body 14 1 ≤ 32) && decide (1 ≤ field body 12 1) then
    some (.tiles (keyAt body 0) (wordAt body 8) (field body 12 1) (field body 13 1)
      (checksAt body 15 (field body 14 1)))
  else none

/-- A PRESENT body; none when malformed. -/
def readPresent (body : List Byte) : Option LineBody :=
  if body.length = 3 && decide (field body 1 2 ≤ 512) then
    (presenceOfCode (field body 0 1)).map fun mode => .present mode (field body 1 2)
  else none

/-- The tests of form of R64 on a frame whose line check passed: none when it is malformed. -/
def readFrame (kind source : Byte) (body : List Byte) : Option LineBody :=
  if source.toNat ≤ 31 then
    match kind.toNat with
    | 1 => readSum body
    | 2 => readCall body
    | 3 => readTiles body
    | 4 => readPresent body
    | _ => none
  else none

/-- A candidate frame that passed its line check. -/
structure CheckedFrame where
  kind : Byte
  source : Byte
  body : List Byte
  deriving DecidableEq, Repr

/-- The check of R63 on a whole activity: delimiter, header, as many body bytes as the header gives, and two check
bytes that equal the line check over header and body; none when it fails (a wrong delimiter fails: log 15). -/
def checkCandidate (bytes : List Byte) : Option CheckedFrame :=
  match bytes with
  | delimiter :: kind :: source :: rest =>
    let size := field rest 0 2
    if decide (delimiter = 0xA5) && decide (rest.length = 2 + size + 2)
        && decide (BitVec.ofNat 16 (field rest (2 + size) 2) = lineCheck (kind :: source :: rest.take (2 + size))) then
      some { kind := kind, source := source, body := (rest.drop 2).take size }
    else none
  | _ => none

end Sys2Proof.Machine
end

