-- ==== Sys2Proof/Machine/Ops.lean ====
section
/-! DEFINITION. The operations that several blocks share: the block updates, time, counters, the report queue, replies and
the outbound arbiter. -/

namespace Sys2Proof.Machine

/-! ### Updates of one block -/

def State.setPending (s : State) (x : List Instr) : State := { s with pending := x }
def State.setNow (s : State) (x : Nat) : State := { s with now := x }
def State.setStrapPins (s : State) (x : Strap) : State := { s with strapPins := x }
def State.setStrap (s : State) (x : Strap) : State := { s with strap := x }
def State.setHoldHigh (s : State) (x : Bool) : State := { s with holdHigh := x }
def State.setResetLine (s : State) (x : Bool) : State := { s with resetLine := x }
def State.setCauses (s : State) (x : ResetCauses) : State := { s with causes := x }
def State.setRead (s : State) (x : ReadEngine) : State := { s with read := x }
def State.setHoldings (s : State) (x : List Holding) : State := { s with holdings := x }
def State.setSweep (s : State) (x : Sweep) : State := { s with sweep := x }
def State.setLine (s : State) (x : LineUnit) : State := { s with line := x }
def State.setVotes (s : State) (x : List Vote) : State := { s with votes := x }
def State.setNextVote (s : State) (x : Nat) : State := { s with nextVote := x }
def State.setMends (s : State) (x : List MendEntry) : State := { s with mends := x }
def State.setEvidence (s : State) (x : Evidence) : State := { s with evidence := x }
def State.setGovernor (s : State) (x : Governor) : State := { s with governor := x }
def State.setTimers (s : State) (x : TimerSettings) : State := { s with timers := x }
def State.setWatch (s : State) (x : Watch) : State := { s with watch := x }
def State.setCounters (s : State) (x : Counters) : State := { s with counters := x }
def State.setPort (s : State) (x : ShelfPort) : State := { s with port := x }

/-! ### Pins, time and limits -/

/-- The hold line is asserted: its level is the one the hold-polarity strap names (R7, R173). -/
def State.holdAsserted (s : State) : Bool := s.holdHigh != s.strap.holdLow

/-- The slot time in nanoseconds: 64 bit times (R55). -/
def State.slotTime (s : State) : Nat := if s.strap.fast then 640 else 2560

/-- The unit's own frame is on the line. -/
def LineUnit.transmitting (l : LineUnit) : Bool := l.queue.any Message.onLine

/-- The slots of a run of k in which the line is quiet: none while a station transmits, and all but the first while a
jam lasts its one slot (R58, R61). -/
def LineUnit.quietSlots (l : LineUnit) (k : Nat) : Nat :=
  if l.transmitting then 0
  else match l.activity with
    | .quiet => k
    | .jam => k - 1
    | .other => 0

/-- What the line carries after k slots: a jam ends after one (R61). -/
def LineUnit.activityAfter (l : LineUnit) (k : Nat) : LineActivity :=
  if l.activity = .jam ∧ 0 < k then .quiet else l.activity

/-- The line unit after k slots: the quiet count, and in LISTEN the listen count, go up at the end of each quiet slot
(R58, R71). -/
def LineUnit.passSlots (l : LineUnit) (k : Nat) : LineUnit :=
  { l with
    quietCount := l.quietCount + l.quietSlots k
    listenCount := if l.state = .listen then min Config.listenSlots (l.listenCount + l.quietSlots k) else l.listenCount
    activity := l.activityAfter k }

/-- k slots of the line pass (log 2). In reset nothing is counted. -/
def State.passSlots (s : State) (k : Nat) : State :=
  let s1 := s.setNow (s.now + k * s.slotTime)
  if s.resetLine then s1 else s1.setLine (s1.line.passSlots k)

/-- Time passes, by whole slots, until the time is `due` or later; no time passes when it is (log 3). -/
def State.passUntil (s : State) (due : Nat) : State :=
  s.passSlots ((due - s.now + s.slotTime - 1) / s.slotTime)

/-- The moment a timer of a limit in milliseconds expires. -/
def dueMs (start limit : Nat) : Nat := start + limit * nsPerMs

/-- The moment mend patience expires (R132). -/
def duePatience (start limit : Nat) : Nat := start + limit * nsPerSecond

/-- The vote timeout in milliseconds (R154). -/
def State.voteLimit (s : State) : Nat := timeOfCode s.timers.vote
/-- The fetch timeout in milliseconds (R154). -/
def State.fetchLimit (s : State) : Nat := timeOfCode s.timers.fetch
/-- The localisation timeout in milliseconds (R154). -/
def State.localisationLimit (s : State) : Nat := timeOfCode s.timers.localisation
/-- The silence limit in milliseconds (R154). -/
def State.silenceLimit (s : State) : Nat := timeOfCode s.timers.silence

/-- The entry with the earliest start, the first of them in the list where several have it. -/
def earliest {α : Type} (start : α → Nat) : List α → Option α
  | [] => none
  | x :: xs =>
    match earliest start xs with
    | some y => if start y < start x then some y else some x
    | none => some x

/-! ### Counters (R163) -/

/-- The name code of a counter (spec/12). -/
def Counter.code : Counter → Nat
  | .votesOpened => 1
  | .good => 2
  | .bad => 3
  | .leaderBad => 4
  | .unreadable => 5
  | .split => 6
  | .unconfirmed => 7
  | .abandoned => 8
  | .refDiffers => 9
  | .lineSent => 10
  | .lineReceived => 11
  | .lineBadCheck => 12
  | .lineMalformed => 13
  | .collisions => 14
  | .lineDropped => 15
  | .deferredSent => 16
  | .stray => 17
  | .answersOverflow => 18
  | .lateBlocks => 19
  | .blockDiscarded => 20
  | .fetchTimeouts => 21
  | .reportsLost => 22
  | .evidenceEvicted => 23

/-- The place of a counter in the counter table. -/
def Counter.place (c : Counter) : Fin 23 := ⟨c.code - 1, by cases c <;> decide⟩

/-- The value of a counter. -/
def State.count (s : State) (c : Counter) : Nat := s.counters.get c.place

/-- A counter goes up by k and stops at 4,294,967,295 (R163). -/
def Counters.add (cs : Counters) (c : Counter) (k : Nat) : Counters :=
  cs.set c.place.val (min Config.countTop (cs.get c.place + k)) c.place.isLt

/-- An event is counted k times. -/
def State.bumpBy (s : State) (c : Counter) (k : Nat) : State := s.setCounters (s.counters.add c k)

/-- An event is counted. -/
def State.bump (s : State) (c : Counter) : State := s.bumpBy c 1

/-! ### The report queue (R169) -/

/-- A report is handed to the shelf port unit: it takes the next report number, and joins the queue, or is lost when
64 are queued (R169). -/
def State.pushReport (s : State) (r : Report) : State :=
  if s.port.reports.length < Config.maxReports then
    s.setPort { s.port with
      reports := s.port.reports ++ [{ number := s.port.nextReport, report := r }]
      nextReport := s.port.nextReport + 1 }
  else
    (s.setPort { s.port with nextReport := s.port.nextReport + 1 }).bump .reportsLost

/-- A request of the read engine joins the requests that wait (R8, R16). -/
def State.pushRequest (s : State) (r : Request) : State :=
  s.setPort { s.port with requests := s.port.requests ++ [r] }

/-! ### The outbound arbiter (R168) -/

/-- The outbound arbiter acts when the outgoing link is free: START first, then a reply, then the oldest request, then
the report at the head of the queue, which stays there until it has gone out whole (R168, R169). Between the reply to
RESET and the reset nothing else is sent (R175, log 10). -/
def ShelfPort.arbitrate (p : ShelfPort) : ShelfPort :=
  match p.link with
  | some _ => p
  | none =>
    match p.start with
    | some record => { p with start := none, link := some (.start record) }
    | none =>
      match p.reply with
      | some reply => { p with reply := none, link := some (.reply reply) }
      | none =>
        if p.resetTaken then p
        else
          match p.requests with
          | request :: rest => { p with requests := rest, link := some (.request request) }
          | [] =>
            match p.reports with
            | report :: _ => { p with link := some (.report report) }
            | [] => p

/-- The outbound arbiter at the end of a command (log 5). -/
def State.arbitrate (s : State) : State := s.setPort s.port.arbitrate

/-! ### Intake of shelf records (R165, R166) -/

/-- A reply is not yet gone out whole: it waits or is on the link. -/
def ShelfPort.replyStands (p : ShelfPort) : Bool :=
  p.reply.isSome || match p.link with
    | some (.reply _) => true
    | some (.start _) | some (.request _) | some (.report _) | none => false

/-- The START record is not yet gone out whole (R176). -/
def ShelfPort.startStands (p : ShelfPort) : Bool :=
  p.start.isSome || match p.link with
    | some (.start _) => true
    | some (.reply _) | some (.request _) | some (.report _) | none => false

/-- The unit takes incoming records: not in reset (R174), not before START has gone (R176), not after RESET (R175). -/
def State.intakeOpen (s : State) : Bool :=
  !s.resetLine && !s.port.startStands && !s.port.resetTaken

/-- A command that is an order, and not a data record (R165). -/
def isOrder : Instr → Bool
  | .block _ | .fetchFailed _ => false
  | .loadHolding _ | .dropHolding _ | .cadence _ | .burst _ | .suspend _ | .resume _ | .verify _ | .rewritten _
  | .takeEvidence _ | .pace _ | .settle _ | .timing _ | .watch _ | .clearCounters _ | .view _ | .peek _ | .reset _
  | .unknownOrder _ _ => true
  | .gapTimerExpiry | .resetOrderEffect _ | .fetchTimeout | .holdAsserted | .holdReleased => false
  | .sum _ _ | .call _ _ | .tiles _ _ | .present _ _ | .candidateFrame _ _ => false
  | .lineFrameStart | .lineFrameSent | .collision | .enterJoining | .beaconTimerExpiry | .silenceExpiry => false
  | .voteTimerExpiry | .localisationTimeout | .mendPatienceExpiry | .recordSent => false
  | .powerOn _ | .resetLineAsserted | .resetLineReleased _ | .lineActivityBegins | .recordCutShort => false

/-- The record can be taken now: an order only when no reply stands (R166). -/
def State.mayTake (s : State) (i : Instr) : Bool :=
  s.intakeOpen && !(isOrder i && s.port.replyStands)

/-- A shelf record arrives: it is taken whole when it can be taken and no record waits ahead of it, and waits on the
link otherwise (R165, R166, log 4). -/
def State.arrive (s : State) (i : Instr) (take : State → State) : State :=
  if s.port.inbound = [] && s.mayTake i then (take s).arbitrate
  else s.setPort { s.port with inbound := s.port.inbound ++ [i] }

/-! ### Orders and replies (R166, R167) -/

/-- What the owning block of an order answers. -/
structure Answered where
  state : State
  result : Result
  payload : List Byte

/-- DONE, with nothing more. -/
def State.done (s : State) : Answered := { state := s, result := .done, payload := [] }

/-- DONE, with a payload. -/
def State.doneWith (s : State) (payload : List Byte) : Answered := { state := s, result := .done, payload := payload }

/-- REFUSED, with the state as it stands: a refused order changes nothing. -/
def State.refuse (s : State) (r : Result) : Answered := { state := s, result := r, payload := [] }

/-- The reply to an order, made after its owner has acted (R166). -/
def State.reply (kind : Byte) (a : Answered) : State :=
  a.state.setPort { a.state.port with reply := some { kind := kind, result := a.result, payload := a.payload } }

/-- An order of a known kind is taken: MALFORMED when its length does not fit, else its owner's answer (R167). -/
def State.takeOrder (s : State) (kind : Byte) (fits : Bool) (act : State → Answered) : State :=
  State.reply kind (if fits then act s else s.refuse .malformed)

/-! ### Look-ups -/

/-- The record of a reel, if it is held. -/
def State.holding? (s : State) (reel : Nat) : Option Holding := s.holdings.find? fun h => h.reel = reel

/-- The record that stands for a reel that is not held: no frames, no peers. No vote of such a reel exists (log 20). -/
def noHolding (reel : Nat) : Holding :=
  { reel := reel, frames := 0, length := 0, tier := 0, peers := [], head := 0, tail := 0, mendAllowed := false
    tiles := 0, passes := 0 }

/-- The record of a vote's reel. -/
def State.holdingOf (s : State) (reel : Nat) : Holding := (s.holding? reel).getD (noHolding reel)

/-- The vote of a key, if one is open. -/
def State.vote? (s : State) (k : Key) : Option Vote := s.votes.find? fun v => v.key = k

/-- The vote of a number. -/
def State.voteById? (s : State) (id : Nat) : Option Vote := s.votes.find? fun v => v.id = id

/-- A change to one vote record. -/
def State.modifyVote (s : State) (id : Nat) (f : Vote → Vote) : State :=
  s.setVotes (s.votes.map fun v => if v.id = id then f v else v)

/-- A vote leaves the table. -/
def State.removeVote (s : State) (id : Nat) : State :=
  s.setVotes (s.votes.filter fun v => v.id ≠ id)

/-- What the roster holds of a station. -/
def LineUnit.heardOf (l : LineUnit) (station : Nat) : Heard :=
  match l.roster[station]? with
  | some e => e.heard
  | none => .unknown

/-- A station is SILENT in the roster. -/
def LineUnit.isSilent (l : LineUnit) (station : Nat) : Bool :=
  match l.heardOf station with
  | .silent _ => true
  | .unknown | .present _ | .self => false

/-- A change to one roster entry. -/
def LineUnit.modifyRoster (l : LineUnit) (station : Nat) (f : RosterEntry → RosterEntry) : LineUnit :=
  match l.roster[station]? with
  | some e => { l with roster := l.roster.setIfInBounds station (f e) }
  | none => l

/-- A station has an answer recorded in the vote. -/
def Vote.answered (v : Vote) (station : Nat) : Bool := v.answers.any fun a => a.station = station

/-- The stations of the expected set that have no answer recorded, in order of station number (R100, R29). -/
def Vote.missing (v : Vote) : List Nat := v.expected.filter fun t => !v.answered t

end Sys2Proof.Machine
end

