-- ==== Sys2Proof/Machine/LineOps.lean ====
section
/-! DEFINITION. Offers to the outbound line queue: the discard rule, CALL pending, and the SUM a vote holds back
(R66, R67, R82, R91, R92). -/

namespace Sys2Proof.Machine

/-- The message is the PRESENT JOINING. -/
def Message.isJoining (m : Message) : Bool :=
  match m.body with
  | .present .joining _ => true
  | .present .beacon _ | .sum _ _ _ _ _ | .call _ _ | .tiles _ _ _ _ _ => false

/-- The message is a PRESENT BEACON. -/
def Message.isBeacon (m : Message) : Bool :=
  match m.body with
  | .present .beacon _ => true
  | .present .joining _ | .sum _ _ _ _ _ | .call _ _ | .tiles _ _ _ _ _ => false

/-- A new message, with no collisions. -/
def newMessage (body : LineBody) (owner : Option Nat) : Message :=
  { body := body, collisions := 0, owner := owner, onLine := false }

/-- A message joins behind every message of its own class and of higher priority, and ahead of the rest (R66). -/
def joinInOrder (m : Message) (q : List Message) : List Message :=
  q.takeWhile (fun x => decide (x.body.lineClass ≤ m.body.lineClass)) ++ m
    :: q.dropWhile (fun x => decide (x.body.lineClass ≤ m.body.lineClass))

/-- The last entry that passes a test, and the list without it. -/
def takeLast {α : Type} (p : α → Bool) : List α → Option (α × List α)
  | [] => none
  | x :: xs =>
    match takeLast p xs with
    | some (y, ys) => some (y, x :: ys)
    | none => if p x then some (x, xs) else none

/-- A candidate for discard: not the frame on the line, and not the PRESENT JOINING while the unit is in JOINING
(R67). -/
def LineUnit.mayDiscard (l : LineUnit) (m : Message) : Bool :=
  !m.onLine && !(decide (l.state = .joining) && m.isJoining)

/-- The head of the queue: the first message, and in JOINING the PRESENT JOINING (R59, R72). -/
def LineUnit.head? (l : LineUnit) : Option Message :=
  if l.state = .joining then l.queue.find? Message.isJoining else l.queue.head?

/-- The own SUM of a vote; none while the own status is PENDING (R91). -/
def State.ownSum? (s : State) (v : Vote) : Option LineBody :=
  match v.own with
  | .pending => none
  | .unreadable _ => some (.sum v.key .unreadable 0 (s.holdingOf v.key.reel).tiles .none)
  | .readOk x =>
    some (.sum v.key .readOk x (s.holdingOf v.key.reel).tiles
      (match v.reference with
        | none => .none
        | some q => if q = x then .same else .differ))

/-- The SUM a vote may offer now: its own status known, the unit not in MUTE, E not empty (R91). -/
def State.sumToOffer? (s : State) (v : Vote) : Option LineBody :=
  if s.line.state = .mute ∨ v.expected = [] then none else s.ownSum? v

/-- A message joins the queue; a CALL sets CALL pending in the vote that offered it (R66, R81). -/
def State.joinQueue (s : State) (m : Message) : State :=
  let s1 := s.setLine { s.line with queue := joinInOrder m s.line.queue }
  match m.body, m.owner with
  | .call _ _, some id => s1.modifyVote id fun v => { v with callPending := true }
  | .call _ _, none | .sum _ _ _ _ _, _ | .tiles _ _ _ _ _, _ | .present _ _, _ => s1

/-- A message has left the queue: a CALL clears CALL pending in its vote, which then owes the SUM it held back
(R82, R92). A CALL whose vote has been removed changes nothing. -/
def State.clearCall (s : State) (m : Message) : State × Option Message :=
  match m.body, m.owner with
  | .call _ _, some id =>
    match s.voteById? id with
    | some v =>
      let s1 := s.modifyVote id fun v => { v with callPending := false }
      match s1.sumToOffer? v with
      | some body => (s1.modifyVote id fun v => { v with sumSent := true }, some (newMessage body none))
      | none => (s1, none)
    | none => (s, none)
  | .call _ _, none | .sum _ _ _ _ _, _ | .tiles _ _ _ _ _, _ | .present _ _, _ => (s, none)

/-- An offer, with fuel for the SUMs that messages pushed out call forth. A message that pushes out a CALL joins before
the CALL's vote offers the SUM it held back (the model's choice: log 28). -/
def State.offerFuel : Nat → Message → State → State
  | 0, _, s => s
  | fuel + 1, m, s =>
    if s.line.state = .mute then s
    else if s.line.queue.length < Config.maxMessages then s.joinQueue m
    else
      match takeLast s.line.mayDiscard s.line.queue with
      | some (victim, rest) =>
        if m.body.lineClass < victim.body.lineClass then
          match (((s.setLine { s.line with queue := rest }).joinQueue m).bump .lineDropped).clearCall victim with
          | (s1, some held) => State.offerFuel fuel held s1
          | (s1, none) => s1
        else s.bump .lineDropped
      | none => s.bump .lineDropped

/-- More offers in a row than one offer can call forth: each after the first replaces a queued CALL. -/
def offerDepth : Nat := 34

/-- A message is offered to the line unit: it joins, or is discarded without a count in MUTE, or a full queue settles
which message is lost (R66, R67). The queue is in order of class and age, so the youngest candidate of the lowest
priority is its last candidate. -/
def State.offer (s : State) (m : Message) : State := State.offerFuel offerDepth m s

/-- A message that has left the queue is reported to the vote that offered it (R82, R92). -/
def State.messageLeft (s : State) (m : Message) : State :=
  match s.clearCall m with
  | (s1, some held) => s1.offer held
  | (s1, none) => s1

/-- A vote offers its own SUM, unless CALL pending holds it back (R91, R92). -/
def State.offerOwnSum (s : State) (id : Nat) : State :=
  match s.voteById? id with
  | some v =>
    if v.callPending then s
    else
      match s.sumToOffer? v with
      | some body => (s.modifyVote id fun v => { v with sumSent := true }).offer (newMessage body none)
      | none => s
  | none => s

/-- A vote removed while CALL pending is set offers its held-back SUM at removal (R92). `v` is the vote as it stood. -/
def State.offerHeldSum (s : State) (v : Vote) : State :=
  if v.callPending then
    match s.sumToOffer? v with
    | some body => s.offer (newMessage body none)
    | none => s
  else s

/-- A SUM NOT_HELD or DEFERRED for a key: tile count 0, reference state NONE, summary 0 (R85, R178). -/
def bareSum (k : Key) (status : SumStatus) : LineBody := .sum k status 0 0 .none

/-- A PRESENT of a mode, with the number of holdings loaded (R74). -/
def State.presentBody (s : State) (mode : PresenceMode) : LineBody := .present mode s.holdings.length

/-- A PRESENT BEACON is offered, unless one is queued (R73, R74). -/
def State.offerBeacon (s : State) : State :=
  if s.line.queue.any Message.isBeacon then s else s.offer (newMessage (s.presentBody .beacon) none)

/-- A PRESENT JOINING is made and placed in the queue; of a full queue the youngest message of the lowest priority is
first discarded (R72). When that is a CALL, the PRESENT JOINING is placed before the CALL's vote offers the SUM it held
back (the model's choice: log 28). -/
def State.placeJoining (s : State) : State :=
  let m := newMessage (s.presentBody .joining) none
  if s.line.queue.length < Config.maxMessages then s.joinQueue m
  else
    match takeLast (fun x => !x.onLine) s.line.queue with
    | some (victim, rest) =>
      (((s.setLine { s.line with queue := rest }).joinQueue m).bump .lineDropped).messageLeft victim
    | none => s

end Sys2Proof.Machine
end

