-- ==== Sys2Proof/Machine/VoteOps.lean ====
section
/-! DEFINITION. The issue arbiter and the opening of votes (R5 to R8, R79, R81, R84). -/

namespace Sys2Proof.Machine

/-! ### The issue arbiter -/

/-- The tags of the BUSY slots. -/
def ReadEngine.busyTags (e : ReadEngine) : List Byte := e.fetches.map Fetch.tag

/-- The tag counter steps past the tags of BUSY slots, by adding 1 modulo 256 each time (R5). -/
def stepPast : Nat → List Byte → Byte → Byte
  | 0, _, t => t
  | fuel + 1, busy, t => if t ∈ busy then stepPast fuel busy (t + 1) else t

/-- The tag the next fetch is given (R5). At most four values are busy, so four steps are enough. -/
def ReadEngine.nextTag (e : ReadEngine) : Byte := stepPast Config.fetchSlots e.busyTags e.tagCounter

/-- A waiting vote is eligible; while the hold line is asserted only with the PEER or MEND origin, and only while all
four slots are FREE (R6, R7). -/
def State.eligible (s : State) (v : Vote) : Bool :=
  decide (v.state = .awaitingRead) &&
    (!s.holdAsserted || ((v.origins.peer || v.origins.mend) && s.read.fetches.isEmpty))

/-- The vote the arbiter chooses: by issue class, MEND first, and within a class the one opened first (R6). -/
def State.chosen? (s : State) : Option Vote :=
  (List.range 4).findSome? fun rank => s.votes.find? fun v => s.eligible v && decide (v.origins.rank = rank)

/-- A fetch is issued for a vote: a slot becomes BUSY, the vote goes to READING with an empty check list, and a FETCH
is made (R5, R8). -/
def State.issueFor (s : State) (v : Vote) : State :=
  let tag := s.read.nextTag
  let s1 := s.setRead
    { fetches := s.read.fetches ++ [{ tag := tag, key := v.key, next := 0, issued := s.now }], tagCounter := tag + 1 }
  let s2 := s1.modifyVote v.id fun w => { w with state := .reading, checks := [] }
  s2.pushRequest (.fetch tag v.key (s.holdingOf v.key.reel).tiles)

/-- The arbiter's rounds, with fuel. -/
def State.issueFuel : Nat → State → State
  | 0, s => s
  | fuel + 1, s =>
    if s.read.fetches.length < Config.fetchSlots then
      match s.chosen? with
      | some v => State.issueFuel fuel (s.issueFor v)
      | none => s
    else s

/-- The issue arbiter acts: it issues fetches until no slot is FREE or no waiting vote is eligible (R6). Each fetch
takes a slot, so four rounds are enough. -/
def State.issue (s : State) : State := State.issueFuel Config.fetchSlots s

/-- The arbiter acts on a vote that has gained an origin, if it waits (R6). -/
def State.issueIfWaiting (s : State) (id : Nat) : State :=
  match s.voteById? id with
  | some v => if v.state = .awaitingRead then s.issue else s
  | none => s

/-! ### Opening votes -/

/-- The record of a vote as it is opened (R79, R84). -/
def State.newVote (s : State) (k : Key) (o : Origin) (caller : Option Nat) : Vote :=
  { id := s.nextVote, key := k, origins := Origins.none.add o, opened := s.now, state := .awaitingRead
    expected := stationSet ((s.holdingOf k.reel).peers ++ caller.toList), callers := caller.toList, answers := []
    own := .pending, checks := [], reference := none, callPending := false, sumSent := false, timer := none
    localisation := none, decision := none, flags := VoteFlags.none }

/-- The vote joins the table and is counted (R78, R79). -/
def State.addVote (s : State) (v : Vote) : State :=
  ((s.setVotes (s.votes ++ [v])).setNextVote (s.nextVote + 1)).bump .votesOpened

/-- A vote offers its CALL, listing the stations of the holding's peer list in ascending order (R81, R178). -/
def State.offerCall (s : State) (v : Vote) : State :=
  let peers := (s.holdingOf v.key.reel).peers
  if peers = [] then s else s.offer (newMessage (.call v.key (stationSet peers)) (some v.id))

/-- A SWEEP, ORDER or MEND vote is opened: it offers its CALL when its holding has peers, and waits for its read
(R81). -/
def State.openCalling (s : State) (k : Key) (o : Origin) : State :=
  let v := s.newVote k o none
  ((s.addVote v).offerCall v).issue

/-- A PEER vote is opened by a CALL from a station: E is the peer list and the caller, and no CALL is offered
(R84). -/
def State.openPeer (s : State) (k : Key) (caller : Nat) : State :=
  (s.addVote (s.newVote k .peer (some caller))).issue

end Sys2Proof.Machine
end

