-- ==== Sys2Proof/Machine/Walk.lean ====
section
/-! DEFINITION. The sweep's walk: the derived state, rounds, bursts and the governor's step (R35 to R50, R148, R149). -/

namespace Sys2Proof.Machine

/-! ### Cadence and state -/

/-- The mask of a tier. -/
def Sweep.mask (w : Sweep) (tier : Nat) : BitVec 16 := w.masks.toList.getD tier 0

/-- A holding is visited in the round in progress: bit r of the mask of its tier is set (R37). -/
def State.visited (s : State) (h : Holding) : Bool := (s.sweep.mask h.tier).getLsbD s.sweep.r

/-- Some holding has a tier whose mask is not zero (R44, R53). -/
def State.someTierSwept (s : State) : Bool := s.holdings.any fun h => s.sweep.mask h.tier != 0

/-- The sweep state, derived from the conditions as they stand (R44). -/
def State.sweepState (s : State) : SweepState :=
  if s.sweep.suspended then .suspended
  else if s.holdAsserted then .held
  else if s.sweep.gap.isSome then .gap
  else if !s.someTierSwept then .idle
  else if Config.maxVotes ≤ s.votes.length ∨ Config.backOffReports ≤ s.port.reports.length then .backedUp
  else .running

/-! ### The governor -/

/-- G clamped into [Gmin, Gmax] (R149). -/
def Governor.clamp (g : Governor) (gap : Nat) : Nat := min (max gap g.gmin) g.gmax

/-- The grown gap before the clamp (R148). -/
def grow (gap : Nat) : Nat := min 65535 (gap + gap / 4 + 1)

/-- The shrunk gap before the clamp (R148). -/
def shrink (gap : Nat) : Nat := gap - max 1 (gap / 8)

/-- The gap after a step: grown when A is over 16 × Dt + b, shrunk when it is under 16 × Dt - b, held otherwise
(R148). -/
def Governor.steppedGap (g : Governor) : Nat :=
  if 16 * g.target + g.band < g.average then g.clamp (grow g.gap)
  else if g.average + g.band < 16 * g.target then g.clamp (shrink g.gap)
  else g.gap

/-- The burst-end step: taken in ADAPTIVE mode or under a settle count, which then goes down by 1 (R148, R150). -/
def Governor.burstEnd (g : Governor) : Governor :=
  if g.mode = .adaptive ∨ 0 < g.settle then { g with gap := g.steppedGap, settle := g.settle - 1 } else g

/-- The update of the depth average by a depth (R147). -/
def Governor.takeDepth (g : Governor) (d : Nat) : Governor :=
  if g.average ≤ 16 * d then { g with average := g.average + (16 * d - g.average) / 8 }
  else { g with average := g.average - (g.average - 16 * d) / 8 }

/-! ### Rounds -/

/-- The holding after a round: a visited one gains a pass, up to 65,535 (R32). -/
def State.creditPass (s : State) (h : Holding) : Holding :=
  if s.visited h then { h with passes := min 65535 (h.passes + 1) } else h

/-- The round completes: passes, the ROUND_DONE report, then r, the round number, the tallies and the cursor (R39,
R43). -/
def State.completeRound (s : State) : State :=
  let visited := (s.holdings.filter s.visited).length
  let w := s.sweep
  let s1 := s.setHoldings (s.holdings.map s.creditPass)
  let s2 := s1.pushReport (.roundDone w.round w.r visited w.opened w.covered)
  s2.setSweep { s2.sweep with
    r := (w.r + 1) % w.period, round := min Config.countTop (w.round + 1), opened := 0, covered := 0
    cursorPos := 0, cursorFrame := 0 }

/-- The cursor moves to a position and frame; moving onto the end of the list completes the round, in whatever state
the sweep is in (R35, R39). -/
def State.moveCursor (s : State) (pos frame : Nat) : State :=
  let s1 := s.setSweep { s.sweep with cursorPos := pos, cursorFrame := frame }
  if pos < s.holdings.length then s1 else s1.completeRound

/-- The cursor moves on from a frame of a holding: to the next frame, or to frame 0 of the next position (R35). -/
def State.cursorOn (s : State) (h : Holding) : State :=
  if s.sweep.cursorFrame + 1 < h.frames then s.moveCursor s.sweep.cursorPos (s.sweep.cursorFrame + 1)
  else s.moveCursor (s.sweep.cursorPos + 1) 0

/-- The burst ends: the governor steps, and the gap timer starts for G milliseconds, or R is refilled at once when G
is 0 (R48). -/
def State.endBurst (s : State) : State :=
  let s1 := s.setGovernor s.governor.burstEnd
  if s1.governor.gap = 0 then s1.setSweep { s1.sweep with remainder := s1.sweep.burst }
  else s1.setSweep { s1.sweep with gap := some { start := s1.now, length := s1.governor.gap } }

/-- One is taken from R for a vote opened, when B is less than 255; R reaching 0 ends the burst (R41, R48, R49). -/
def State.spendBurst (s : State) : State :=
  if s.sweep.burst < 255 then
    let s1 := s.setSweep { s.sweep with remainder := s.sweep.remainder - 1 }
    if s1.sweep.remainder = 0 then s1.endBurst else s1
  else s

/-- A frame with an open vote is covered (R40). -/
def State.coverFrame (s : State) (h : Holding) : State :=
  (s.setSweep { s.sweep with covered := min Config.countTop (s.sweep.covered + 1) }).cursorOn h

/-- A frame is called: a SWEEP vote is opened, the tally and the cursor move on, and the burst is spent (R41). -/
def State.callFrame (s : State) (h : Holding) (k : Key) : State :=
  let s1 := s.openCalling k .sweep
  ((s1.setSweep { s1.sweep with opened := min Config.countTop (s1.sweep.opened + 1) }).cursorOn h).spendBurst

/-- One step of the walk: the first row of R38 that applies. -/
def State.walkStep (s : State) : State :=
  match s.holdings[s.sweep.cursorPos]? with
  | none => s.completeRound
  | some h =>
    if !s.visited h then s.moveCursor (s.sweep.cursorPos + 1) 0
    else if h.frames ≤ s.sweep.cursorFrame then s.moveCursor (s.sweep.cursorPos + 1) 0
    else
      let k : Key := { reel := h.reel, frame := s.sweep.cursorFrame }
      match s.vote? k with
      | some _ => s.coverFrame h
      | none => s.callFrame h k

/-- The walk: steps one after another while the state is RUNNING (R38, R44), with fuel. -/
def State.walkFuel : Nat → State → State
  | 0, s => s
  | fuel + 1, s => if s.sweepState = .running then State.walkFuel fuel s.walkStep else s

/-- More steps than a round can take. -/
def roundSteps (hs : List Holding) : Nat := (hs.map fun h => h.frames + 1).sum + 1

/-- More steps than the walk can take: every round it completes queues a report, and it stops at 48 (R43, R50). -/
def State.walkBound (s : State) : Nat := (Config.backOffReports + 1) * roundSteps s.holdings

/-- The sweep derives its state again, and walks if that is RUNNING (R44). -/
def State.walk (s : State) : State := State.walkFuel s.walkBound s

end Sys2Proof.Machine
end

