-- ==== Sys2Proof/Machine/Verdict.lean ====
section
/-! DEFINITION. Closure, decision, localisation and delivery of a vote: the verdict unit, with what it asks of the mend list,
the evidence buffer, the report queue and the corruption watch (R98 to R123, R125, R130, R131, R139, R159, R160); and the
end of a fetch, its timeout and the limits of 0 ms (R13, R15, R17, R156). -/

namespace Sys2Proof.Machine

/-! ### Counting copies (R105, R106) -/

/-- The summaries of the READ_OK answers. -/
def Vote.peerSummaries (v : Vote) : List Word :=
  v.answers.filterMap fun a => if a.status = .readOk then a.summary else none

/-- The READ_OK summaries of the own copy and of the answers (R106). -/
def Vote.summaries (v : Vote) : List Word := v.own.summary.toList ++ v.peerSummaries

/-- Copies heard: the own copy, and each answer of READ_OK or UNREADABLE (R105). -/
def Vote.copiesHeard (v : Vote) : Nat :=
  1 + (v.answers.filter fun a => decide (a.status = .readOk) || decide (a.status = .unreadable)).length

/-- The counted total N′: the larger of N and copies heard (R105). -/
def Vote.countedTotal (v : Vote) (h : Holding) : Nat := max (1 + h.peers.length) v.copiesHeard

/-- The agreed value: a summary x with 2 × c(x) greater than N′ (R106). At most one value can be. -/
def agreedValue (total : Nat) (summaries : List Word) : Option Word :=
  summaries.find? fun x => decide (total < 2 * summaries.count x)

/-! ### The decision (R107, R108) -/

/-- What the table of R107 gives: verdict, agreed summary x, good value, and REF_DIFFERS. -/
structure Judgement where
  verdict : Verdict
  agreed : Option Word
  good : Option Word
  refDiffers : Bool
  deriving DecidableEq, Repr

/-- The table of R107 (the good value is R109's). -/
def judge (own : OwnStatus) (agreed reference : Option Word) (peers : List Word) : Judgement :=
  match own with
  | .pending | .unreadable _ => { verdict := .unreadable, agreed := agreed, good := agreed, refDiffers := false }
  | .readOk x =>
    match agreed with
    | some a =>
      if x = a then
        { verdict := .good, agreed := some a, good := some a, refDiffers := reference.any fun q => q != x }
      else { verdict := .bad, agreed := some a, good := some a, refDiffers := false }
    | none =>
      match reference with
      | some q =>
        if x = q then { verdict := .good, agreed := none, good := some q, refDiffers := false }
        else if q ∈ peers then { verdict := .bad, agreed := some q, good := some q, refDiffers := false }
        else { verdict := .split, agreed := none, good := none, refDiffers := false }
      | none =>
        if peers.any fun p => p != x then { verdict := .split, agreed := none, good := none, refDiffers := false }
        else { verdict := .unconfirmed, agreed := none, good := none, refDiffers := false }

/-- The judgement of a vote against its holding. -/
def Vote.judgement (v : Vote) (h : Holding) : Judgement :=
  judge v.own (agreedValue (v.countedTotal h) v.summaries) v.reference v.peerSummaries

/-- The decision at closure: a BAD on a leader frame is LEADER_BAD, and the leader and mend tests are fixed
(R108, R118). -/
def Vote.decidedBy (v : Vote) (h : Holding) : Decision :=
  let j := v.judgement h
  { verdict := if j.verdict = .bad ∧ h.isLeader v.key.frame = true then .leaderBad else j.verdict
    agreed := j.agreed, good := j.good, leader := h.isLeader v.key.frame, mendAllowed := h.mendAllowed
    missing := v.missing }

/-! ### Sending tile checks (R110, R111) -/

/-- A READ_OK answer differs from the agreed value (R109, R110). -/
def Vote.hasDiffering (v : Vote) (x : Word) : Bool := v.peerSummaries.any fun p => p != x

/-- The stations whose answer is READ_OK with summary x. -/
def Vote.answerersWith (v : Vote) (x : Word) : List Nat :=
  (v.answers.filter fun a => decide (a.status = .readOk) && decide (a.summary = some x)).map Answer.station

/-- The station is the TILES sender: the lowest of the stations known to hold x (R110). -/
def Vote.isTilesSender (v : Vote) (own : Nat) (x : Word) : Bool :=
  v.hasDiffering x && (v.answerersWith x).all fun t => decide (own < t)

/-- The chunks of a check list: 32 checks each, the rest in the last, from tile `first` on, with fuel (R111). -/
def tileChunks (k : Key) (x : Word) (n : Nat) : Nat → Nat → List Word → List LineBody
  | 0, _, _ => []
  | fuel + 1, first, cs =>
    match cs with
    | [] => []
    | _ :: _ => .tiles k x n first (cs.take 32) :: tileChunks k x n fuel (first + 32) (cs.drop 32)

/-- The chunks the TILES sender offers, first index lowest (R111). -/
def Vote.chunks (v : Vote) (x : Word) : List LineBody :=
  tileChunks v.key x v.checks.length v.checks.length 0 v.checks

/-- Messages are offered one after another. -/
def State.offerAll (s : State) (bodies : List LineBody) : State :=
  bodies.foldl (fun s b => s.offer (newMessage b none)) s

/-- The TILES of a closing vote: sent when the verdict is GOOD by case 2a and the station is the sender (R109). -/
def State.offerTiles (s : State) (v : Vote) (d : Decision) : State :=
  match d.verdict, d.agreed with
  | .good, some x => if v.isTilesSender s.strap.station.val x then s.offerAll (v.chunks x) else s
  | .good, none => s
  | .bad, _ | .leaderBad, _ | .unreadable, _ | .split, _ | .unconfirmed, _ | .abandoned, _ => s

/-! ### The mend list at delivery (R118, R125, R130, R131, R133) -/

/-- What a completed localisation leaves: the source check list and the bad-tile list (R115). -/
structure Located where
  source : List Word
  badTiles : List Nat
  deriving DecidableEq, Repr

/-- The mend entry of a key. -/
def State.mend? (s : State) (k : Key) : Option MendEntry := s.mends.find? fun e => e.key = k

/-- A change to the mend entry of a key, which keeps its place. -/
def State.modifyMend (s : State) (k : Key) (f : MendEntry → MendEntry) : State :=
  s.setMends (s.mends.map fun e => if e.key = k then f e else e)

/-- The mend entry of a key leaves the list. -/
def State.removeMend (s : State) (k : Key) : State := s.setMends (s.mends.filter fun e => e.key ≠ k)

/-- A mend report shows its entry as it stands after the change (R133). -/
def MendEntry.report (e : MendEntry) (kind : MendReportKind) (verdict : Option Verdict) (own : Option Word) : Report :=
  .mend kind e.key e.agreed e.failed verdict own e.badTiles

/-- The entry after a failed MEND vote, with one more failed attempt (R131). -/
def MendEntry.fail (e : MendEntry) (now : Nat) (d : Decision) (badTiles : Option (List Nat)) : MendEntry :=
  { e with
    failed := e.failed + 1
    state := .awaitingRewrite now
    badTiles := if d.verdict = .bad ∧ badTiles.isSome ∧ d.agreed = some e.agreed then badTiles else e.badTiles }

/-- The outcome of a MEND vote: confirmed, failed, or abandoned at the third failure (R130, R131). -/
def State.settleMend (s : State) (v : Vote) (d : Decision) (badTiles : Option (List Nat)) : State :=
  match s.mend? v.key with
  | none => s
  | some e =>
    if d.verdict = .good ∧ v.own.summary = some e.agreed then
      (s.removeMend v.key).pushReport (e.report .mended none none)
    else if e.failed < 2 then
      (s.modifyMend v.key fun _ => e.fail s.now d badTiles).pushReport
        ((e.fail s.now d badTiles).report .failed (some d.verdict) v.own.summary)
    else
      (s.removeMend v.key).pushReport (e.report .abandoned (some d.verdict) v.own.summary)

/-- The verdict asks for a mend entry (R118). -/
def Decision.asksMend (d : Decision) : Bool :=
  (decide (d.verdict = .bad) || decide (d.verdict = .unreadable)) && d.agreed.isSome && !d.leader && d.mendAllowed

/-- The mend list has no room for a new entry of the key: R125's second step. -/
def State.mendFull (s : State) (k : Key) : Bool :=
  (s.mend? k).isNone && decide (Config.maxMends ≤ s.mends.length)

/-- A request for a mend entry: kept, made, or without room (R125). -/
def State.requestMend (s : State) (k : Key) (x : Word) (badTiles : Option (List Nat)) : State :=
  if (s.mend? k).isSome ∨ Config.maxMends ≤ s.mends.length then s
  else s.setMends (s.mends ++
    [{ key := k, agreed := x, badTiles := badTiles, failed := 0, state := .awaitingRewrite s.now }])

/-- The mend list's part of a delivery (R118). -/
def State.deliverMend (s : State) (v : Vote) (d : Decision) (badTiles : Option (List Nat)) : State :=
  if v.origins.mend then s.settleMend v d badTiles
  else
    match d.asksMend, d.agreed with
    | true, some x => s.requestMend v.key x badTiles
    | true, none | false, _ => s

/-- The flags a vote is reported with: MEND_LIST_FULL when its request found no room (R118, R125). -/
def State.deliveredFlags (s : State) (v : Vote) (d : Decision) : VoteFlags :=
  { v.flags with mendListFull :=
      v.flags.mendListFull || (!v.origins.mend && d.asksMend && s.mendFull v.key) }

/-! ### The evidence buffer at delivery (R119, R137 to R139) -/

/-- The check slots an entry uses: n, and n more with a source check list (R137). -/
def EvidenceEntry.slots (e : EvidenceEntry) : Nat :=
  e.checks.length + match e.source with
    | some cs => cs.length
    | none => 0

/-- The check slots in use (R137). -/
def slotsOf (es : List EvidenceEntry) : Nat := (es.map EvidenceEntry.slots).sum

/-- The check slots in use in the buffer. -/
def Evidence.slotsInUse (b : Evidence) : Nat := slotsOf b.entries

/-- The oldest entries are evicted until the buffer holds fewer than 64 entries and has `need` free slots; with the
number evicted (R139). -/
def makeRoom (need : Nat) : List EvidenceEntry → List EvidenceEntry × Nat
  | [] => ([], 0)
  | e :: es =>
    if Config.maxEvidence ≤ (e :: es).length ∨ Config.evidenceSlots < slotsOf (e :: es) + need then
      ((makeRoom need es).1, (makeRoom need es).2 + 1)
    else (e :: es, 0)

/-- An entry is added after the oldest have made way, and takes the next entry number (R138, R139). -/
def State.addEvidence (s : State) (e : EvidenceEntry) : State :=
  let room := makeRoom e.slots s.evidence.entries
  (s.setEvidence { entries := room.1 ++ [{ e with number := s.evidence.next }], next := s.evidence.next + 1 }).bumpBy
    .evidenceEvicted room.2

/-- The evidence buffer's part of a delivery: BAD, LEADER_BAD and SPLIT give an entry (R119). -/
def State.deliverEvidence (s : State) (v : Vote) (d : Decision) (located : Option Located) : State :=
  match d.verdict, v.own with
  | .bad, .readOk x | .leaderBad, .readOk x | .split, .readOk x =>
    s.addEvidence
      { number := 0, key := v.key, verdict := d.verdict, own := x, agreed := d.agreed, tiles := v.checks.length
        checks := v.checks, source := located.map Located.source, badTiles := located.map Located.badTiles }
  | .bad, .pending | .bad, .unreadable _ | .leaderBad, .pending | .leaderBad, .unreadable _
  | .split, .pending | .split, .unreadable _ => s
  | .good, _ | .unreadable, _ | .unconfirmed, _ | .abandoned, _ => s

/-! ### The VERDICT report (R120, R121) -/

/-- The verdict is reported for itself, when the origins do not decide (R120, last column). -/
def reportedVerdict (verdict : Verdict) (refDiffers : Bool) : Bool :=
  match verdict with
  | .good => refDiffers
  | .bad | .leaderBad | .unreadable | .split | .unconfirmed | .abandoned => true

/-- The table of R120. -/
def isReported (o : Origins) (verdict : Verdict) (refDiffers : Bool) : Bool :=
  o.order || (!o.mend && reportedVerdict verdict refDiffers)

/-- The good-station list: the stations whose READ_OK summary equals the good value, the own one included (R121). -/
def Vote.goodStations (v : Vote) (own : Nat) (good : Option Word) : List Nat :=
  match good with
  | none => []
  | some x => stationSet (v.answerersWith x ++ if v.own.summary = some x then [own] else [])

/-- The VERDICT report of a delivered vote (R121). -/
def State.verdictReport (s : State) (v : Vote) (d : Decision) (flags : VoteFlags) (badTiles : Option (List Nat)) :
    Report :=
  .verdict v.key d.verdict v.origins flags v.own.summary d.agreed (v.goodStations s.strap.station.val d.good) d.missing
    badTiles

/-- The report queue's part of a delivery (R120). -/
def State.deliverReport (s : State) (v : Vote) (d : Decision) (flags : VoteFlags) (badTiles : Option (List Nat)) :
    State :=
  if isReported v.origins d.verdict flags.refDiffers then s.pushReport (s.verdictReport v d flags badTiles) else s

/-! ### The corruption watch (R158 to R160) -/

/-- The count of 1s in the history (R158). -/
def Watch.count (w : Watch) : Nat := w.history.count true

/-- The alarm after the test against the thresholds in force (R160). -/
def Watch.testedAlarm (w : Watch) : Bool :=
  if !w.alarm && decide (w.rising ≤ w.count) then true
  else if w.alarm && decide (w.count ≤ w.falling) then false
  else w.alarm

/-- The ALARM report of the watch as it stands (R160). -/
def Watch.report (w : Watch) (key : Option Key) : Report :=
  .alarm w.alarm w.count w.history.length w.rising w.falling key

/-- The alarm test: a change is reported when the report-enable flag is set (R160). -/
def State.alarmTest (s : State) (key : Option Key) : State :=
  let w := { s.watch with alarm := s.watch.testedAlarm }
  if w.alarm = s.watch.alarm then s
  else if w.reportEnable then (s.setWatch w).pushReport (w.report key)
  else s.setWatch w

/-- The history with a new bit, the oldest leaving when 256 are held (R159). -/
def pushBit (history : List Bool) (bit : Bool) : List Bool :=
  (if Config.historyBits ≤ history.length then history.drop 1 else history) ++ [bit]

/-- The watch takes a history bit and makes the alarm test (R159, R160). -/
def State.watchBit (s : State) (bit : Bool) (key : Key) : State :=
  (s.setWatch { s.watch with history := pushBit s.watch.history bit }).alarmTest (some key)

/-- The watch's part of a delivery: one bit for a SWEEP or PEER vote whose frame was no leader frame (R122). -/
def State.deliverWatch (s : State) (v : Vote) (d : Decision) : State :=
  if (v.origins.sweep || v.origins.peer) && !d.leader then
    s.watchBit (decide (d.verdict = .bad) || decide (d.verdict = .unreadable)) v.key
  else s

/-! ### Delivery (R117) -/

/-- The counter of a verdict. -/
def Verdict.counter : Verdict → Counter
  | .good => .good
  | .bad => .bad
  | .leaderBad => .leaderBad
  | .unreadable => .unreadable
  | .split => .split
  | .unconfirmed => .unconfirmed
  | .abandoned => .abandoned

/-- The verdict is counted, and REF_DIFFERS with it (R117). -/
def State.countVerdict (s : State) (verdict : Verdict) (refDiffers : Bool) : State :=
  if refDiffers then (s.bump verdict.counter).bump .refDiffers else s.bump verdict.counter

/-- Everything a delivery does before the vote is removed, in the order of R117. -/
def State.deliverMarks (s : State) (v : Vote) (d : Decision) (located : Option Located) : State :=
  let badTiles := located.map Located.badTiles
  let s1 := s.countVerdict d.verdict v.flags.refDiffers
  let flags := s1.deliveredFlags v d
  let s2 := s1.deliverMend v d badTiles
  let s3 := s2.deliverEvidence v d located
  let s4 := s3.deliverReport v d flags badTiles
  s4.deliverWatch v d

/-- The verdict is delivered: counted, mend list, evidence, report, watch, and last the vote is removed, which offers
the SUM it held back (R92) and lets the sweep derive its state (R117). -/
def State.deliver (s : State) (v : Vote) (d : Decision) (located : Option Located) : State :=
  (((s.deliverMarks v d located).removeVote v.id).offerHeldSum v).walk

/-! ### Closure (R99, R100) -/

/-- The vote enters LOCALISING: no source, no place marked, the timer started (R112). -/
def Vote.enterLocalising (v : Vote) (now : Nat) (d : Decision) : Vote :=
  { v with state := .localising, decision := some d
           localisation := some { source := none, received := List.replicate v.checks.length none, start := now } }

/-- The vote with its timer stopped and REF_DIFFERS as decided (R100, R107). -/
def Vote.closed (v : Vote) (refDiffers : Bool) : Vote :=
  { v with timer := none, flags := { v.flags with refDiffers := refDiffers } }

/-- Localisation ends without a bad-tile list, with one flag set; the verdict stands and is delivered. -/
def State.endUnlocated (s : State) (v : Vote) (f : VoteFlags → VoteFlags) : State :=
  match v.decision with
  | some d =>
    let v1 := { v with flags := f v.flags, localisation := none }
    (s.modifyVote v.id fun _ => v1).deliver v1 d none
  | none => s

/-- LOCATE_FAILED is set (R116). -/
def VoteFlags.failLocate (f : VoteFlags) : VoteFlags := { f with locateFailed := true }

/-- A vote enters LOCALISING (R112). Under a localisation timeout of 0 ms its localisation ends with LOCATE_FAILED as it
begins (R156). -/
def State.localise (s : State) (v : Vote) : State :=
  let s1 := s.modifyVote v.id fun _ => v
  if s.localisationLimit = 0 then s1.endUnlocated v VoteFlags.failLocate else s1

/-- The vote closes: the missing list is built, the verdict decided at once, and the vote enters LOCALISING or is
delivered and removed (R100, R109). -/
def State.close (s : State) (v : Vote) : State :=
  let h := s.holdingOf v.key.reel
  let d := v.decidedBy h
  let v1 := v.closed (v.judgement h).refDiffers
  match d.verdict with
  | .bad | .leaderBad => s.localise (v1.enterLocalising s.now d)
  | .good | .unreadable | .split | .unconfirmed | .abandoned =>
    ((s.modifyVote v.id fun _ => v1).offerTiles v1 d).deliver v1 d none

/-- Every station of E has answered or is SILENT (R99). -/
def State.isComplete (s : State) (v : Vote) : Bool :=
  v.expected.all fun t => v.answered t || s.line.isSilent t

/-- The closure test of a vote in GATHERING (R99). -/
def State.closureTest (s : State) (id : Nat) : State :=
  match s.voteById? id with
  | some v => if v.state = .gathering ∧ s.isComplete v = true then s.close v else s
  | none => s

/-- A vote whose timer has expired closes whatever answers it lacks (R98). -/
def State.expireVote (s : State) (id : Nat) : State :=
  match s.voteById? id with
  | some v => if v.state = .gathering then s.close v else s
  | none => s

/-! ### The end of a localisation (R113 to R116) -/

/-- The localisation timer of a vote expires: LOCATE_FAILED (R116). -/
def State.expireLocalisation (s : State) (id : Nat) : State :=
  match s.voteById? id with
  | some v => if v.state = .localising then s.endUnlocated v VoteFlags.failLocate else s
  | none => s

/-- The indices, from `first` on, at which two check lists differ, in ascending order (R115). -/
def differingFrom : Nat → List Word → List Word → List Nat
  | i, a :: as, b :: bs => if a = b then differingFrom (i + 1) as bs else i :: differingFrom (i + 1) as bs
  | _, [], _ => []
  | _, _ :: _, [] => []

/-- A received check placed and marked. -/
def placeChecks : Nat → List Word → List (Option Word) → List (Option Word)
  | _, [], places => places
  | i, c :: cs, places => placeChecks (i + 1) cs (places.set i (some c))

/-- The received list when every place is marked. -/
def allMarked (places : List (Option Word)) : Option (List Word) :=
  if places.all Option.isSome then some (places.filterMap id) else none

/-- A complete received list is verified: its fold equals x and localisation is complete, or the source is dropped and
every place unmarked (R115). -/
def State.verifyReceived (s : State) (v : Vote) (l : Localisation) (d : Decision) (received : List Word) : State :=
  if d.agreed = some (frameSummary received) then
    let v1 := { v with localisation := some { l with received := received.map some } }
    (s.modifyVote v.id fun _ => v1).deliver v1 d
      (some { source := received, badTiles := differingFrom 0 v.checks received })
  else
    s.modifyVote v.id fun _ =>
      { v with localisation := some { l with source := none, received := List.replicate v.checks.length none } }

/-- A chunk is stored: ignored whole when f + k is over n, so that it changes nothing in the vote (R113, R114, log 16);
else its sender is the source, its checks are placed, and a full list is verified at once. -/
def State.storeChunk (s : State) (v : Vote) (l : Localisation) (d : Decision) (source first : Nat)
    (checks : List Word) : State :=
  if v.checks.length < first + checks.length then s
  else
    let places := placeChecks first checks l.received
    let l1 := { l with source := some source, received := places }
    match allMarked places with
    | some received => s.verifyReceived v l1 d received
    | none => s.modifyVote v.id fun _ => { v with localisation := some l1 }

/-- A TILES chunk from a station reaches a vote in LOCALISING (R113). -/
def State.takeChunk (s : State) (v : Vote) (station : Nat) (x : Word) (n first : Nat) (checks : List Word) : State :=
  match v.localisation, v.decision with
  | some l, some d =>
    let accepted :=
      match l.source with
      | none => d.agreed = some x && (v.answerersWith x).contains station
      | some t => decide (t = station) && d.agreed = some x
    if accepted then
      if n = v.checks.length then s.storeChunk v l d station first checks
      else s.endUnlocated v fun f => { f with geometryDiffers := true }
    else s
  | some _, none | none, _ => s

/-! ### The own status becomes known (R17) -/

/-- A fetch of a vote ends with an own status: its slot is FREE and the arbiter acts; the vote moves to GATHERING,
starts its vote timer, offers its SUM and tests whether it can close (R13, R17). Under a vote timeout of 0 ms it closes
whatever answers it lacks (R156). -/
def State.ownStatusKnown (s : State) (id : Nat) (own : OwnStatus) (checks : List Word) : State :=
  let s1 := s.modifyVote id fun v => { v with state := .gathering, own := own, checks := checks, timer := some s.now }
  let s2 := s1.issue.offerOwnSum id
  if s.voteLimit = 0 then s2.expireVote id else s2.closureTest id

/-- The slot of a tag becomes FREE. -/
def State.freeSlot (s : State) (tag : Byte) : State :=
  s.setRead { s.read with fetches := s.read.fetches.filter fun f => f.tag ≠ tag }

/-- A fetch ends UNREADABLE for a reason, with a CANCEL when the station ends it: the partial check list is emptied
and a reference stays (R11, R14 to R17). -/
def State.endUnreadable (s : State) (f : Fetch) (reason : Reason) (cancel : Bool) : State :=
  let s1 := s.freeSlot f.tag
  let s2 := if cancel then s1.pushRequest (.cancel f.tag f.key) else s1
  match s2.vote? f.key with
  | some v => s2.ownStatusKnown v.id (.unreadable reason) []
  | none => s2.issue

/-! ### Fetch timeouts (R15, R156) -/

/-- The BUSY slot of a tag. -/
def ReadEngine.slot? (e : ReadEngine) (tag : Byte) : Option Fetch := e.fetches.find? fun f => f.tag = tag

/-- The fetch of a tag ends by its timeout, with a CANCEL, and is counted (R15). -/
def State.expireFetch (s : State) (tag : Byte) : State :=
  match s.read.slot? tag with
  | some f => (s.bump .fetchTimeouts).endUnreadable f .timeout true
  | none => s

/-- The outstanding fetches end by their timeouts, one after another in the order of issue, those issued meanwhile
behind them, with fuel. -/
def State.expireFetches : Nat → State → State
  | 0, s => s
  | fuel + 1, s =>
    match s.read.fetches with
    | f :: _ => State.expireFetches fuel (s.expireFetch f.tag)
    | [] => s

/-- More fetches than can end in a row: each of them ends the read of a vote, and opens the way to other votes only by
the report of its own, which the sweep does at most 48 times (R50, R120, R133). -/
def expiryBound : Nat := (Config.maxVotes + 1) * Config.backOffReports + Config.maxVotes

/-- Under a fetch timeout of 0 ms every fetch that an action of the station has issued ends as it is issued
(R15, R156, log 27). -/
def State.expireIssued (s : State) : State := if s.fetchLimit = 0 then State.expireFetches expiryBound s else s

/-- The end of a command that can issue fetches: the outbound arbiter acts once those of 0 ms have ended (log 5). -/
def State.finish (s : State) : State := s.expireIssued.arbitrate

/-- The sweep derives its state and walks (R44), and the fetches of 0 ms that this issues end. -/
def State.sweepOn (s : State) : State := s.walk.expireIssued

end Sys2Proof.Machine
end

