-- ==== Sys2Proof/Machine/Clock.lean ====
section
/-! DEFINITION. The passing of time while no command waits: one slot, and the commands of the station's own timers and slot
clock that have then become due (log 2). -/

namespace Sys2Proof.Machine

/-- The commands of a kind that are due: one for each. -/
def dueEach {α : Type} (due : α → Bool) (xs : List α) (i : Instr) : List Instr :=
  List.replicate (xs.filter due).length i

/-- A moment has come. -/
def State.isDue (s : State) (due : Nat) : Bool := decide (due ≤ s.now)

/-- The vote timers that run: the vote's number and the start. -/
def State.voteTimers (s : State) : List (Nat × Nat) :=
  s.votes.filterMap fun v => v.timer.map fun t => (v.id, t)

/-- The localisation timers that run: the vote's number and the start. -/
def State.localisationTimers (s : State) : List (Nat × Nat) :=
  s.votes.filterMap fun v =>
    if v.state = .localising then v.localisation.map fun l => (v.id, l.start) else none

/-- The PRESENT roster entries: station and last-heard time (R69). -/
def LineUnit.heardStations (l : LineUnit) : List (Nat × Nat) :=
  (List.range 32).filterMap fun t =>
    match l.heardOf t with
    | .present last => some (t, last)
    | .unknown | .silent _ | .self => none

/-- The mend entries whose patience runs: key and patience start (R132). -/
def State.patienceTimers (s : State) : List (Key × Nat) :=
  s.mends.filterMap fun e =>
    match e.state with
    | .awaitingRewrite start => some (e.key, start)
    | .rechecking => none

/-- The unit may transmit: JOINING or ACTIVE (R59). -/
def LineState.mayTransmit : LineState → Bool
  | .joining | .active => true
  | .listen | .mute => false

/-- The quiet count has reached the head's wait on a quiet line (R59). -/
def State.frameDue (s : State) : Bool :=
  s.line.state.mayTransmit && !s.line.transmitting && decide (s.line.activity = .quiet) &&
    match s.line.head? with
    | some m => decide (m.wait s.strap.station.val ≤ s.line.quietCount)
    | none => false

/-- The timer commands due now: the kinds in the order of the table of R154, then the gap timer, the beacon timer, the
listen count and the slot boundary (log 2). -/
def State.dueCommands (s : State) : List Instr :=
  dueEach (fun x => s.isDue (dueMs x.2 s.voteLimit)) s.voteTimers .voteTimerExpiry
    ++ dueEach (fun f => s.isDue (dueMs f.issued s.fetchLimit)) s.read.fetches .fetchTimeout
    ++ dueEach (fun x => s.isDue (dueMs x.2 s.localisationLimit)) s.localisationTimers .localisationTimeout
    ++ dueEach (fun x => s.isDue (dueMs x.2 s.silenceLimit)) s.line.heardStations .silenceExpiry
    ++ dueEach (fun x => s.isDue (duePatience x.2 s.timers.patience)) s.patienceTimers .mendPatienceExpiry
    ++ dueEach (fun t => s.isDue (dueMs t.start t.length)) s.sweep.gap.toList .gapTimerExpiry
    ++ dueEach (fun t => s.isDue (dueMs t.start t.length)) s.line.beacon.toList .beaconTimerExpiry
    ++ (if s.line.state = .listen ∧ Config.listenSlots ≤ s.line.listenCount then [.enterJoining] else [])
    ++ (if s.frameDue then [.lineFrameStart] else [])

/-- No command waits: one slot passes, and what is due then waits to be taken (log 2). -/
def State.idle (s : State) : State :=
  let s1 := s.passSlots 1
  s1.setPending s1.dueCommands

end Sys2Proof.Machine
end

