-- ==== Sys2Proof/Machine/Records.lean ====
section
/-! DEFINITION. The bytes of what the station sends: line frames, replies, requests, reports, START, and the view records
(R178, R179, spec/12). -/

namespace Sys2Proof.Machine

/-- A key in a body: 4 bytes of reel, 4 of frame. -/
def Key.bytes (k : Key) : List Byte := byte4 k.reel ++ byte4 k.frame


/-! ### Codes -/

/-- The SUM status codes. -/
def SumStatus.code : SumStatus → Nat
  | .readOk => 1
  | .unreadable => 2
  | .notHeld => 3
  | .deferred => 4

/-- The reference state codes. -/
def RefState.code : RefState → Nat
  | .none => 0
  | .same => 1
  | .differ => 2

/-- The PRESENT mode codes. -/
def PresenceMode.code : PresenceMode → Nat
  | .joining => 1
  | .beacon => 2

/-- The verdict codes. -/
def Verdict.code : Verdict → Nat
  | .good => 1
  | .bad => 2
  | .leaderBad => 3
  | .unreadable => 4
  | .split => 5
  | .unconfirmed => 6
  | .abandoned => 7

/-- The result codes of a reply. -/
def Result.code : Result → Nat
  | .done => 0
  | .full => 1
  | .range => 2
  | .geometry => 3
  | .notHeld => 4
  | .busy => 5
  | .notPending => 6
  | .unknown => 7
  | .malformed => 8

/-- The reason codes of the VOTES record. -/
def OwnStatus.reasonCode : OwnStatus → Nat
  | .pending | .readOk _ => 0
  | .unreadable .length => 1
  | .unreadable .timeout => 2
  | .unreadable .unreadable => 3
  | .unreadable .absent => 4

/-- The own status codes of the VOTES record. -/
def OwnStatus.code : OwnStatus → Nat
  | .pending => 0
  | .readOk _ => 1
  | .unreadable _ => 2

/-- The vote state codes. -/
def VoteState.code : VoteState → Nat
  | .awaitingRead => 1
  | .reading => 2
  | .gathering => 3
  | .localising => 4

/-- The line state codes. -/
def LineState.code : LineState → Nat
  | .listen => 1
  | .joining => 2
  | .active => 3
  | .mute => 4

/-- The sweep state codes. -/
def SweepState.code : SweepState → Nat
  | .suspended => 1
  | .held => 2
  | .gap => 3
  | .idle => 4
  | .backedUp => 5
  | .running => 6

/-- The roster state codes. -/
def Heard.code : Heard → Nat
  | .unknown => 1
  | .present _ => 2
  | .silent _ => 3
  | .self => 4

/-- The view codes. -/
def View.code : View → Nat
  | .status => 1
  | .holdings => 2
  | .votes => 3
  | .mend => 4
  | .evidence => 5
  | .roster => 6
  | .counters => 7
  | .settings => 8

/-- The pace mode codes. -/
def PaceMode.code : PaceMode → Nat
  | .fixed => 1
  | .adaptive => 2

/-- The state codes of a STATION report. -/
def StationNews.code : StationNews → Nat
  | .present => 1
  | .silent => 2
  | .duplicate => 3

/-- The record kinds of the mend reports. -/
def MendReportKind.kind : MendReportKind → Nat
  | .mended => 0xC4
  | .failed => 0xC5
  | .abandoned => 0xC6
  | .lapsed => 0xC7
  | .dropped => 0xC8

/-! ### Line frames (R56, R57, R178) -/

/-- The kind byte of a line frame. -/
def LineBody.kind : LineBody → Nat
  | .sum _ _ _ _ _ => 1
  | .call _ _ => 2
  | .tiles _ _ _ _ _ => 3
  | .present _ _ => 4

/-- The body bytes of a line frame. A CALL fills each place after the listed count with FFh (R178). -/
def LineBody.bytes : LineBody → List Byte
  | .sum k status x n ref =>
    k.bytes ++ byte1 status.code ++ wordBytes x ++ byte1 n ++ byte1 ref.code
  | .call k listed =>
    k.bytes ++ byte1 listed.length ++ listed.flatMap byte1 ++ List.replicate (4 - listed.length) 0xFF
  | .tiles k x n first checks =>
    k.bytes ++ wordBytes x ++ byte1 n ++ byte1 first ++ byte1 checks.length ++ checks.flatMap wordBytes
  | .present mode holdings => byte1 mode.code ++ byte2 holdings

/-- The header and body of a frame from a station: what the line check covers. -/
def LineBody.covered (station : Nat) (b : LineBody) : List Byte :=
  byte1 b.kind ++ byte1 station ++ byte2 b.bytes.length ++ b.bytes

/-- The bytes of a frame on the line: delimiter, header, body, line check. -/
def LineBody.frameBytes (station : Nat) (b : LineBody) : List Byte :=
  [0xA5] ++ b.covered station ++ byte2 (lineCheck (b.covered station)).toNat

/-- The frame the unit sends for a message: its source is the station number strapped at the last reset (R56). -/
def State.frameFor (s : State) (m : Message) : List Byte := m.body.frameBytes s.strap.station.val

/-- The bytes of the unit's own frame on the line, while it sends one (R56, R59). -/
def State.frameOnLine? (s : State) : Option (List Byte) := (s.line.queue.find? Message.onLine).map s.frameFor

/-! ### Outgoing records (R179) -/

/-- The strap values, as START and SETTINGS carry them. -/
def Strap.bytes (p : Strap) : List Byte :=
  byte1 p.station.val ++ boolByte p.fast ++ byte1 p.tileCode.val ++ boolByte p.holdLow

/-- The START body. -/
def StartRecord.bytes (r : StartRecord) : List Byte := r.causes.bytes ++ Strap.bytes r.strap ++ byte1 r.evidence

/-- The reply body: the kind answered, the result, and what a DONE to TAKE EVIDENCE or PEEK carries. -/
def Reply.bytes (r : Reply) : List Byte := [r.kind] ++ byte1 r.result.code ++ r.payload

/-- The request bodies. -/
def Request.bytes : Request → List Byte
  | .fetch tag k n => [tag] ++ k.bytes ++ byte1 n
  | .cancel tag k => [tag] ++ k.bytes

/-- The record kind of a request. -/
def Request.kind : Request → Nat
  | .fetch _ _ _ => 0x90
  | .cancel _ _ => 0x91

/-- The record kind of a report. -/
def Report.kind : Report → Nat
  | .verdict _ _ _ _ _ _ _ _ _ => 0xC0
  | .roundDone _ _ _ _ _ => 0xC1
  | .station _ _ => 0xC2
  | .alarm _ _ _ _ _ _ => 0xC3
  | .mend kind _ _ _ _ _ _ => kind.kind

/-- A report body without its number. -/
def Report.bytes : Report → List Byte
  | .verdict k d origins flags own agreed good missing badTiles =>
    k.bytes ++ byte1 d.code ++ origins.bytes ++ flags.reportBytes ++ bitsByte [own.isSome, agreed.isSome]
      ++ optWordBytes own ++ optWordBytes agreed ++ countedBytes good ++ countedBytes missing
      ++ countedBytes (badTiles.getD [])
  | .roundDone round r visited opened covered =>
    byte4 round ++ byte1 r ++ byte2 visited ++ byte4 opened ++ byte4 covered
  | .station t news => byte1 t ++ byte1 news.code
  | .alarm on count held rising falling key =>
    boolByte on ++ byte2 count ++ byte2 held ++ byte2 rising ++ byte2 falling ++ bitsByte [key.isSome]
      ++ (key.getD { reel := 0, frame := 0 }).bytes
  | .mend _ k agreed failed d own badTiles =>
    k.bytes ++ wordBytes agreed ++ byte1 failed ++ byte1 ((d.map Verdict.code).getD 0) ++ bitsByte [own.isSome]
      ++ optWordBytes own ++ countedBytes (badTiles.getD [])

/-- The report body: the report number, then the report. -/
def QueuedReport.bytes (q : QueuedReport) : List Byte := byte2 q.number.toNat ++ q.report.bytes

/-- The record kind of an outgoing record. -/
def OutRecord.kind : OutRecord → Nat
  | .start _ => 0xA0
  | .reply _ => 0x80
  | .request r => r.kind
  | .report q => q.report.kind

/-- The body of an outgoing record. -/
def OutRecord.body : OutRecord → List Byte
  | .start r => r.bytes
  | .reply r => r.bytes
  | .request r => r.bytes
  | .report q => q.bytes

/-- The bytes of an outgoing record: a 4-byte header of kind and body length, then the body. -/
def OutRecord.bytes (o : OutRecord) : List Byte := byte1 o.kind ++ bytesOf 3 o.body.length ++ o.body

/-! ### The evidence entry -/

/-- An evidence entry, as TAKE EVIDENCE and the EVIDENCE view carry it. -/
def EvidenceEntry.bytes (e : EvidenceEntry) : List Byte :=
  byte2 e.number.toNat ++ e.key.bytes ++ byte1 e.verdict.code ++ bitsByte [true, e.agreed.isSome, e.source.isSome]
    ++ wordBytes e.own ++ optWordBytes e.agreed ++ byte1 e.tiles ++ e.checks.flatMap wordBytes
    ++ (e.source.getD []).flatMap wordBytes ++ countedBytes (e.badTiles.getD [])

/-! ### View records (R33, R76, R103, R134, R143, R163, R171, R172) -/

/-- The reel under the cursor; none at the end of the list (R35). -/
def State.cursorReel (s : State) : Option Nat := (s.holdings[s.sweep.cursorPos]?).map Holding.reel

/-- The STATUS record (R172). -/
def State.statusRecord (s : State) : List Byte :=
  byte1 s.strap.station.val ++ s.causes.bytes ++ boolByte s.holdAsserted ++ byte1 s.line.state.code
    ++ byte1 s.line.queue.length ++ byte1 s.sweepState.code ++ byte4 s.sweep.round ++ byte1 s.sweep.r
    ++ byte2 s.sweep.cursorPos ++ bitsByte [s.cursorReel.isSome] ++ byte4 (s.cursorReel.getD 0)
    ++ byte4 s.sweep.cursorFrame ++ byte2 s.governor.gap ++ byte2 s.governor.average ++ boolByte s.watch.alarm
    ++ byte2 s.watch.count ++ byte2 s.holdings.length ++ byte1 s.votes.length ++ byte1 s.read.fetches.length
    ++ byte1 s.mends.length ++ byte1 s.evidence.entries.length ++ byte2 s.evidence.slotsInUse
    ++ byte1 s.port.reports.length ++ byte2 s.port.nextReport.toNat

/-- A HOLDINGS record (R33). -/
def Holding.record (h : Holding) (position : Nat) : List Byte :=
  byte2 position ++ byte4 h.reel ++ byte4 h.frames ++ byte4 h.length ++ byte1 h.tiles ++ byte1 h.tier ++ byte2 h.head
    ++ byte2 h.tail ++ boolByte h.mendAllowed ++ byte2 h.passes ++ countedBytes h.peers

/-- An answer in a VOTES record. -/
def Answer.bytes (a : Answer) : List Byte :=
  byte1 a.station ++ byte1 a.status.code ++ optWordBytes a.summary ++ byte1 a.tiles ++ byte1 a.ref.code

/-- The source station of a vote in LOCALISING, when one is accepted. -/
def Vote.source (v : Vote) : Option Nat := v.localisation.bind Localisation.source

/-- The number of checks received in localisation. -/
def Vote.checksReceived (v : Vote) : Nat :=
  match v.localisation with
  | some l => (l.received.filter Option.isSome).length
  | none => 0

/-- The time left on the vote timer while it runs, in nanoseconds (R103). -/
def State.timerLeft (s : State) (v : Vote) : Option Nat :=
  v.timer.map fun start => dueMs start s.voteLimit - s.now

/-- A VOTES record (R103). -/
def State.voteRecord (s : State) (v : Vote) : List Byte :=
  v.key.bytes ++ v.origins.bytes ++ byte1 v.state.code ++ byte1 v.own.code ++ byte1 v.own.reasonCode ++ v.flagBytes
    ++ bitsByte [v.own.summary.isSome, v.reference.isSome, v.timer.isSome, v.source.isSome]
    ++ optWordBytes v.own.summary ++ optWordBytes v.reference ++ byte2 (shownMs (s.now - v.opened))
    ++ byte2 (((s.timerLeft v).map shownMs).getD 0) ++ byte1 (v.source.getD 0) ++ byte1 v.checksReceived
    ++ countedBytes v.expected ++ countedBytes v.callers ++ byte1 v.answers.length ++ v.answers.flatMap Answer.bytes

/-- The patience left of an entry in AWAITING_REWRITE, in seconds (R134). -/
def State.patienceLeft (s : State) (e : MendEntry) : Option Nat :=
  match e.state with
  | .awaitingRewrite start => some (shownIn nsPerSecond (duePatience start s.timers.patience - s.now))
  | .rechecking => none

/-- The state code of a mend entry. -/
def MendState.code : MendState → Nat
  | .awaitingRewrite _ => 1
  | .rechecking => 2

/-- A MEND record (R134). -/
def State.mendRecord (s : State) (e : MendEntry) : List Byte :=
  e.key.bytes ++ byte1 e.state.code ++ byte1 e.failed ++ wordBytes e.agreed ++ bitsByte [(s.patienceLeft e).isSome]
    ++ byte2 ((s.patienceLeft e).getD 0) ++ countedBytes (e.badTiles.getD [])

/-- An EVIDENCE record (R143). -/
def EvidenceEntry.record (e : EvidenceEntry) : List Byte := byte2 e.slots ++ e.bytes

/-- The time a roster entry was last heard, for a PRESENT or SILENT entry. -/
def Heard.last : Heard → Option Nat
  | .present t | .silent t => some t
  | .unknown | .self => none

/-- The holding count a ROSTER record shows: that of the last PRESENT heard, and for SELF the station's own (R76). -/
def State.rosterCount (s : State) (e : RosterEntry) : Option Nat :=
  match e.heard with
  | .self => some s.holdings.length
  | .unknown => none
  | .present _ | .silent _ => e.holdings

/-- A ROSTER record (R76). -/
def State.rosterRecord (s : State) (station : Nat) (e : RosterEntry) : List Byte :=
  byte1 station ++ byte1 e.heard.code ++ bitsByte [e.heard.last.isSome, (s.rosterCount e).isSome]
    ++ byte2 ((e.heard.last.map fun t => shownMs (s.now - t)).getD 0) ++ byte2 ((s.rosterCount e).getD 0)

/-- A COUNTERS record: name code and value (R163). -/
def counterRecord (code value : Nat) : List Byte := byte1 code ++ byte4 value

/-- The SETTINGS record. -/
def State.settingsRecord (s : State) : List Byte :=
  byte1 s.sweep.burst ++ byte1 s.sweep.period ++ s.sweep.masks.toList.flatMap (fun m => byte2 m.toNat)
    ++ byte1 s.governor.mode.code ++ byte2 s.governor.gmin ++ byte2 s.governor.gmax ++ byte1 s.governor.target
    ++ byte1 s.governor.band ++ byte1 s.governor.settle ++ boolByte (decide (0 < s.governor.settle))
    ++ byte2 s.timers.vote ++ byte2 s.timers.fetch ++ byte2 s.timers.localisation ++ byte2 s.timers.silence
    ++ byte2 s.voteLimit ++ byte2 s.fetchLimit ++ byte2 s.localisationLimit ++ byte2 s.silenceLimit
    ++ byte2 s.timers.patience ++ byte2 s.watch.rising ++ byte2 s.watch.falling ++ boolByte s.watch.reportEnable
    ++ Strap.bytes s.strap

/-- The record of a view at an index, or none past its last record (R171). -/
def State.viewRecord? (s : State) (view : View) (i : Nat) : Option (List Byte) :=
  match view with
  | .status => if i = 0 then some s.statusRecord else none
  | .holdings => (s.holdings[i]?).map fun h => h.record i
  | .votes => (s.votes[i]?).map s.voteRecord
  | .mend => (s.mends[i]?).map s.mendRecord
  | .evidence => (s.evidence.entries[i]?).map EvidenceEntry.record
  | .roster => (s.line.roster[i]?).map (s.rosterRecord i)
  | .counters => (s.counters[i]?).map (counterRecord (i + 1))
  | .settings => if i = 0 then some s.settingsRecord else none

end Sys2Proof.Machine
end

