-- ==== Sys2Proof/Machine/Buffer.lean ====
section
/-! DEFINITION. The evidence buffer's order: TAKE EVIDENCE (R141). -/

namespace Sys2Proof.Machine

/-- TAKE EVIDENCE removes the oldest entry and carries it, or carries EMPTY (R141). -/
def State.takeOldest (s : State) : Answered :=
  match s.evidence.entries with
  | [] => s.doneWith (byte1 0)
  | e :: rest => (s.setEvidence { s.evidence with entries := rest }).doneWith (byte1 1 ++ e.bytes)

/-- The taking of a TAKE EVIDENCE order. -/
def takeTakeEvidence (body : List Byte) (s : State) : State :=
  s.takeOrder 0x09 (decide (body.length = 0)) State.takeOldest

/-- TAKE_EVIDENCE (R141). -/
def execTakeEvidence (body : List Byte) (s : State) : Host.Outcome State Fault Refusal :=
  .next (s.arrive (.takeEvidence body) (takeTakeEvidence body))

end Sys2Proof.Machine
end

