-- ==== Sys2Proof/Machine/Holdings.lean ====
section
/-! DEFINITION. The holding list's orders: LOAD HOLDING and DROP HOLDING (R19 to R34). -/

namespace Sys2Proof.Machine

/-! ### LOAD HOLDING (R22 to R24) -/

/-- Step 1 of R22: every given field is in its range. -/
def Holding.inRange (h : Holding) (own : Nat) : Bool :=
  decide (1 ≤ h.reel) && decide (1 ≤ h.frames) && decide (h.frames ≤ 262143) && decide (1 ≤ h.length)
    && decide (h.tier ≤ 3) && decide (h.head ≤ 4095) && decide (h.tail ≤ 4095) && decide (h.peers.length ≤ 4)
    && h.peers.all (fun p => decide (p ≤ 31) && decide (p ≠ own)) && decide h.peers.Nodup

/-- A vote or a mend entry has a key of the reel (step 3 of R22). -/
def State.isBusy (s : State) (reel : Nat) : Bool :=
  s.votes.any (fun v => decide (v.key.reel = reel)) || s.mends.any (fun e => decide (e.key.reel = reel))

/-- The position of a reel's record. -/
def State.positionOf (s : State) (reel : Nat) : Nat := s.holdings.findIdx fun h => decide (h.reel = reel)

/-- A record is appended at the end of the list (R23). -/
def State.appendHolding (s : State) (h : Holding) : State := s.setHoldings (s.holdings ++ [h])

/-- A record is replaced in place; a cursor that stands in it leaves it when its frame is F or more or the new tier is
not visited in the round (R24). -/
def State.replaceHolding (s : State) (h : Holding) : State :=
  let s1 := s.setHoldings (s.holdings.map fun old => if old.reel = h.reel then h else old)
  if s1.sweep.cursorPos = s.positionOf h.reel ∧ (h.frames ≤ s1.sweep.cursorFrame ∨ s1.visited h = false) then
    s1.moveCursor (s1.sweep.cursorPos + 1) 0
  else s1

/-- The four steps of R22, and what is done when all pass (R23, R24). -/
def State.loadHolding (s : State) (h : Holding) : Answered :=
  if h.inRange s.strap.station.val = false then s.refuse .range
  else if Config.maxTiles < h.tiles then s.refuse .geometry
  else
    match s.holding? h.reel with
    | some _ => if s.isBusy h.reel then s.refuse .busy else (s.replaceHolding h).sweepOn.done
    | none =>
      if Config.maxHoldings ≤ s.holdings.length then s.refuse .full else (s.appendHolding h).sweepOn.done

/-- The taking of a LOAD HOLDING order. -/
def takeLoadHolding (body : List Byte) (s : State) : State :=
  s.takeOrder 0x01 (fitsLoadHolding body) fun s => s.loadHolding (loadedHolding (tileSize s.strap.tileCode) body)

/-- LOAD_HOLDING (R22). -/
def execLoadHolding (body : List Byte) (s : State) : Host.Outcome State Fault Refusal :=
  .next (s.arrive (.loadHolding body) (takeLoadHolding body))

/-! ### DROP HOLDING (R26 to R31) -/

/-- The VERDICT report of an abandoned vote: own summary when held, the stations of E that had not answered, nothing
agreed and no tiles (R29; origin and other flags as the vote holds them: log 13). -/
def Vote.abandonedReport (v : Vote) : Report :=
  .verdict v.key .abandoned v.origins v.flags v.own.summary none [] v.missing none

/-- The fetch of a vote in READING is ended by a CANCEL and its slot freed; the arbiter does not act yet (R16, R26). -/
def State.cancelFetch (s : State) (k : Key) : State :=
  match s.read.fetches.find? fun f => f.key = k with
  | some f => (s.freeSlot f.tag).pushRequest (.cancel f.tag f.key)
  | none => s

/-- An abandoned vote that has not offered a SUM of its own offers SUM NOT_HELD, not in MUTE and not when E is empty
(R28). -/
def State.offerNotHeld (s : State) (v : Vote) : State :=
  if v.sumSent ∨ s.line.state = .mute ∨ v.expected = [] then s
  else s.offer (newMessage (bareSum v.key .notHeld) none)

/-- A vote is abandoned: its CANCEL, its SUM and its VERDICT report, in that order (R26 to R29). -/
def State.abandon (s : State) (v : Vote) : State :=
  ((((s.cancelFetch v.key).removeVote v.id).offerNotHeld v).pushReport v.abandonedReport).bump .abandoned

/-- The vote of a number is abandoned, as it then stands. -/
def State.abandonById (s : State) (id : Nat) : State :=
  match s.voteById? id with
  | some v => s.abandon v
  | none => s

/-- Every vote of the reel is abandoned, oldest first (R26). -/
def State.abandonReel (s : State) (reel : Nat) : State :=
  ((s.votes.filter fun v => v.key.reel = reel).map Vote.id).foldl State.abandonById s

/-- A mend entry is removed with a MEND_DROPPED report (R30). -/
def State.dropMend (s : State) (e : MendEntry) : State :=
  (s.removeMend e.key).pushReport (e.report .dropped none none)

/-- Every mend entry of the reel is removed, in mend-list order (R30). -/
def State.dropMends (s : State) (reel : Nat) : State :=
  (s.mends.filter fun e => e.key.reel = reel).foldl State.dropMend s

/-- The record goes and the list closes up; a cursor in it moves to frame 0 of the next holding, or onto the end of the
list; a cursor behind it keeps its holding (R31, log 14). -/
def State.removeHolding (s : State) (reel : Nat) : State :=
  let pos := s.positionOf reel
  let s1 := s.setHoldings (s.holdings.eraseIdx pos)
  if s.sweep.cursorPos = pos then s1.moveCursor pos 0
  else if pos < s.sweep.cursorPos then s1.setSweep { s1.sweep with cursorPos := s1.sweep.cursorPos - 1 }
  else s1

/-- DROP HOLDING: refused for a reel that is not held; else the votes, the arbiter, the mend entries, the cursor and the
record, and at the end the sweep derives its state (R26, log 19). -/
def State.dropHolding (s : State) (reel : Nat) : Answered :=
  match s.holding? reel with
  | none => s.refuse .notHeld
  | some _ => ((((s.abandonReel reel).issue).dropMends reel).removeHolding reel).sweepOn.done

/-- The taking of a DROP HOLDING order. -/
def takeDropHolding (body : List Byte) (s : State) : State :=
  s.takeOrder 0x02 (decide (body.length = 4)) fun s => s.dropHolding (field body 0 4)

/-- DROP_HOLDING (R26). -/
def execDropHolding (body : List Byte) (s : State) : Host.Outcome State Fault Refusal :=
  .next (s.arrive (.dropHolding body) (takeDropHolding body))

end Sys2Proof.Machine
end

