-- ==== Sys2Proof/Machine/Line.lean ====
section
/-! DEFINITION. The vault line unit: receiving, sending, collisions, joining, beacons and silence (R55 to R77), and what the
vote table and verdict unit do with a frame (R83 to R87, R93 to R97, R113). -/

namespace Sys2Proof.Machine

/-! ### Delivery of a SUM (R93 to R97) -/

/-- The answer a SUM gives: its summary is read with READ_OK alone (R93, R178). -/
def answerOf (station : Nat) (status : SumStatus) (x : Word) (n : Nat) (ref : RefState) : Answer :=
  { station := station, status := status, summary := if status = .readOk then some x else none, tiles := n, ref := ref }

/-- An answer is recorded: it replaces the station's earlier one, or joins (R93, R94); it sets flags (R95). -/
def Vote.record (v : Vote) (a : Answer) : Vote :=
  { v with
    answers := if v.answered a.station then v.answers.map fun b => if b.station = a.station then a else b
      else v.answers ++ [a]
    flags := v.flags.recordAnswer (!v.expected.contains a.station) a.status }

/-- A SUM from a station: an answer in the vote for its key, ANSWERS_OVERFLOW for a ninth station, or STRAY
(R93 to R97). -/
def State.takeSum (s : State) (k : Key) (a : Answer) : State :=
  match s.vote? k with
  | none => s.bump .stray
  | some v =>
    if v.state = .localising then s.bump .stray
    else if v.answered a.station = false ∧ Config.maxAnswers ≤ v.answers.length then s.bump .answersOverflow
    else (s.modifyVote v.id fun _ => v.record a).closureTest v.id

/-! ### Delivery of a CALL (R83 to R87) -/

/-- A CALL merges into a vote: the caller joins E and the callers and PEER is added; in LOCALISING the callers alone
(R86). -/
def Vote.mergeCall (v : Vote) (caller : Nat) : Vote :=
  if v.state = .localising then { v with callers := insertStation caller v.callers }
  else
    { v with expected := insertStation caller v.expected, callers := insertStation caller v.callers
             origins := v.origins.add .peer }

/-- A CALL from a station for a key: merged (R86, R87), opening a PEER vote (R84), answered DEFERRED or NOT_HELD (R85),
or ignored, by the first row of R83. -/
def State.takeCall (s : State) (caller : Nat) (k : Key) (listed : List Nat) : State :=
  match s.vote? k with
  | some v => ((s.modifyVote v.id fun v => v.mergeCall caller).issueIfWaiting v.id).offerOwnSum v.id
  | none =>
    if k.frame < (s.holdingOf k.reel).frames then
      if s.votes.length < Config.maxVotes then s.openPeer k caller
      else (s.bump .deferredSent).offer (newMessage (bareSum k .deferred) none)
    else if listed.contains s.strap.station.val then s.offer (newMessage (bareSum k .notHeld) none)
    else s

/-! ### Delivery of a TILES (R97, R113) -/

/-- A TILES chunk: to the verdict unit when the vote is in LOCALISING, else STRAY (R97). -/
def State.takeTiles (s : State) (station : Nat) (k : Key) (x : Word) (n first : Nat) (checks : List Word) : State :=
  match s.vote? k with
  | some v => if v.state = .localising then s.takeChunk v station x n first checks else s.bump .stray
  | none => s.bump .stray

/-! ### Delivery of a PRESENT (R74) -/

/-- A PRESENT: its holding count is recorded, and a JOINING heard in ACTIVE calls forth a beacon (R74). -/
def State.takePresent (s : State) (station : Nat) (mode : PresenceMode) (count : Nat) : State :=
  let s1 := s.setLine (s.line.modifyRoster station fun e => { e with holdings := some count })
  if mode = .joining ∧ s1.line.state = .active then s1.offerBeacon else s1

/-! ### The roster (R68 to R70) -/

/-- A station is heard: its entry becomes PRESENT and its last-heard time restarts; from SILENT a STATION report is
queued (R68, R70). -/
def State.hear (s : State) (station : Nat) : State :=
  let s1 := s.setLine (s.line.modifyRoster station fun e => { e with heard := .present s.now })
  if s.line.isSilent station then s1.pushReport (.station station .present) else s1

/-- The votes in GATHERING whose E holds a station, in order of opening. -/
def State.gatheringWith (s : State) (station : Nat) : List Nat :=
  (s.votes.filter fun v => decide (v.state = .gathering) && v.expected.contains station).map Vote.id

/-- A PRESENT station becomes SILENT: a STATION report, then the closure tests of the votes that expect it (R69, R70,
R99). -/
def State.expireSilence (s : State) (station : Nat) : State :=
  match s.line.heardOf station with
  | .present last =>
    let s1 := s.setLine (s.line.modifyRoster station fun e => { e with heard := .silent last })
    let s2 := s1.pushReport (.station station .silent)
    (s2.gatheringWith station).foldl State.closureTest s2
  | .unknown | .silent _ | .self => s

/-- Under a silence limit of 0 ms a station is SILENT again as soon as its frame has been heard (R70, R156, log 27). -/
def State.silenceHeard (s : State) (station : Nat) : State :=
  if s.silenceLimit = 0 then s.expireSilence station else s

/-! ### MUTE (R75) -/

/-- The unit enters MUTE: the queue is emptied and counted, CALL pending clears in the votes that had offered a CALL, the
beacon timer stops, and STATION DUPLICATE is queued; once in MUTE nothing more happens (R75, R82, R102). -/
def State.enterMute (s : State) : State :=
  if s.line.state = .mute then s
  else
    let s1 := s.setLine { s.line with state := .mute, queue := [], beacon := none }
    let s2 := s.line.queue.foldl (fun s m => (s.clearCall m).1) s1
    (s2.bumpBy .lineDropped s.line.queue.length).pushReport (.station s.strap.station.val .duplicate)

/-! ### Receiving (R58, R63 to R65) -/

/-- The activity on the line ends: the line is quiet and the quiet count starts from 0 (R58). -/
def State.endActivity (s : State) : State :=
  s.setLine { s.line with activity := .quiet, quietCount := 0 }

/-- A valid frame from another station is delivered to the block that acts on its kind (R65). -/
def State.deliverBody (s : State) (station : Nat) : LineBody → State
  | .sum k status x n ref => s.takeSum k (answerOf station status x n ref)
  | .call k listed => s.takeCall station k listed
  | .tiles k x n first checks => s.takeTiles station k x n first checks
  | .present mode count => s.takePresent station mode count

/-- A valid frame is counted; with the own number as source it mutes the unit, else its station is heard and it is
delivered (R65, R75). -/
def State.takeFrame (s : State) (source : Nat) (b : LineBody) : State :=
  let s1 := s.bump .lineReceived
  if source = s.strap.station.val then s1.enterMute
  else ((s1.hear source).deliverBody source b).silenceHeard source

/-- A frame whose line check passed ends on the line: malformed, or valid (R64, R65). -/
def State.takeChecked (s : State) (kind source : Byte) (body : List Byte) : State :=
  match readFrame kind source body with
  | some b => s.takeFrame source.toNat b
  | none => s.bump .lineMalformed

/-- Activity of another station ends on the line, and is dealt with. In reset the unit hears nothing (log 11); while it
transmits, another station's activity is a collision and no frame (R75). -/
def State.heard (s : State) (act : State → State) : State :=
  if s.resetLine then s.endActivity
  else if s.line.transmitting then s
  else (act s.endActivity).finish

/-- SUM (R93). -/
def execSum (source : Byte) (body : List Byte) (s : State) : Host.Outcome State Fault Refusal :=
  .next (s.heard fun s => s.takeChecked 0x01 source body)

/-- CALL (R83). -/
def execCall (source : Byte) (body : List Byte) (s : State) : Host.Outcome State Fault Refusal :=
  .next (s.heard fun s => s.takeChecked 0x02 source body)

/-- TILES (R113). -/
def execTiles (source : Byte) (body : List Byte) (s : State) : Host.Outcome State Fault Refusal :=
  .next (s.heard fun s => s.takeChecked 0x03 source body)

/-- PRESENT (R74). -/
def execPresent (source : Byte) (body : List Byte) (s : State) : Host.Outcome State Fault Refusal :=
  .next (s.heard fun s => s.takeChecked 0x04 source body)

/-- A period of activity as a candidate: a fragment is discarded without a count, one that fails its check is counted,
and one that passes goes on to the tests of form (R63). -/
def State.takeCandidate (s : State) (endsInJam : Bool) (bytes : List Byte) : State :=
  if endsInJam then s
  else
    match checkCandidate bytes with
    | some f => s.takeChecked f.kind f.source f.body
    | none => s.bump .lineBadCheck

/-- CANDIDATE_FRAME (R63). -/
def execCandidateFrame (endsInJam : Bool) (bytes : List Byte) (s : State) : Host.Outcome State Fault Refusal :=
  .next (s.heard fun s => s.takeCandidate endsInJam bytes)

/-- LINE_ACTIVITY_BEGINS (R59): the quiet count stops and the unit defers. Activity heard while the unit transmits is a
collision, and COLLISION tells of it. -/
def execLineActivityBegins (s : State) : Host.Outcome State Fault Refusal :=
  .next (if s.line.transmitting then s else s.setLine { s.line with activity := .other })

/-! ### Sending (R59 to R62) -/

/-- The slots until `need` more quiet ones have passed: none is needed, or the line is quiet, or its jam ends first;
none can be told while a station transmits. -/
def LineUnit.slotsFor (l : LineUnit) (need : Nat) : Option Nat :=
  if need = 0 then some 0
  else if l.transmitting then none
  else
    match l.activity with
    | .quiet => some need
    | .jam => some (need + 1)
    | .other => none

/-- The first message that passes a test has its frame on the line. -/
def putOnLine (p : Message → Bool) : List Message → List Message
  | [] => []
  | m :: ms => if p m then { m with onLine := true } :: ms else m :: putOnLine p ms

/-- The head's frame starts (R59, R72). -/
def LineUnit.startHead (l : LineUnit) : LineUnit :=
  { l with queue := putOnLine (fun m => if l.state = .joining then m.isJoining else true) l.queue }

/-- LINE_FRAME_START (R59): the slots pass until the quiet count is the head's W or more, and the head's frame starts.
Nothing starts in LISTEN or MUTE, with no head, on a busy line, or while a frame of the unit is on the line. -/
def execLineFrameStart (s : State) : Host.Outcome State Fault Refusal :=
  if s.resetLine || !s.line.state.mayTransmit || s.line.transmitting then .next s
  else
    match s.line.head? with
    | none => .next s
    | some m =>
      match s.line.slotsFor (m.wait s.strap.station.val - s.line.quietCount) with
      | some k =>
        let s1 := s.passSlots k
        if s1.line.activity = .quiet then .next (s1.setLine s1.line.startHead) else .next s
      | none => .next s

/-- The beacon timer starts, with the interval of the silence limit in force (R73). -/
def State.startBeacon (s : State) : State :=
  s.setLine { s.line with beacon := some { start := s.now, length := beaconInterval s.silenceLimit } }

/-- The line state after a frame has been sent whole: the PRESENT JOINING makes it ACTIVE (R72). -/
def LineState.afterSent (state : LineState) (m : Message) : LineState :=
  if state = .joining ∧ m.isJoining = true then .active else state

/-- A frame of the unit has been sent whole: its message leaves the queue, the quiet count starts from 0, the beacon
timer starts again, and a CALL is reported to its vote (R60, R72, R73, R82). -/
def State.frameSent (s : State) (m : Message) (rest : List Message) : State :=
  let s1 := s.setLine
    { s.line with queue := rest, quietCount := 0, activity := .quiet, state := s.line.state.afterSent m }
  ((s1.bump .lineSent).startBeacon).messageLeft m

/-- LINE_FRAME_SENT (R60): the unit's own frame ends with every bit matched. -/
def execLineFrameSent (s : State) : Host.Outcome State Fault Refusal :=
  match takeLast Message.onLine s.line.queue with
  | some (m, rest) => .next (s.frameSent m rest)
  | none => .next s

/-- The message whose frame collided, off the line and with one more collision (R61). -/
def Message.collided (m : Message) : Message :=
  if m.onLine then { m with onLine := false, collisions := m.collisions + 1 } else m

/-- The line after a collision: a jam of one slot, and the quiet count from 0 at its end (R61, log 17). -/
def LineUnit.jammed (l : LineUnit) (q : List Message) : LineUnit :=
  { l with queue := q, activity := .jam, quietCount := 0 }

/-- COLLISION (R61, R62): the frame stops, the unit jams, and the message's collisions go up by 1; at the 16th it is
discarded, and a PRESENT JOINING is then made anew (R72). -/
def execCollision (s : State) : Host.Outcome State Fault Refusal :=
  match takeLast Message.onLine s.line.queue with
  | none => .next s
  | some (m, rest) =>
    let s1 := s.bump .collisions
    if m.collisions + 1 < Config.maxCollisions then
      .next (s1.setLine (s1.line.jammed (s1.line.queue.map Message.collided)))
    else
      let s2 := (s1.setLine (s1.line.jammed rest)).bump .lineDropped
      if s2.line.state = .joining ∧ m.isJoining = true then .next s2.placeJoining else .next (s2.messageLeft m)

/-! ### Line states, beacons and silence (R69, R71 to R73) -/

/-- ENTER_JOINING (R71, R72): in LISTEN, quiet slots pass until the listen count is 290, and the unit enters JOINING with
a PRESENT JOINING at the head of its queue. -/
def execEnterJoining (s : State) : Host.Outcome State Fault Refusal :=
  if s.resetLine || decide (s.line.state ≠ .listen) then .next s
  else
    match s.line.slotsFor (Config.listenSlots - s.line.listenCount) with
    | some k =>
      let s1 := s.passSlots k
      .next (s1.setLine { s1.line with state := .joining }).placeJoining
    | none => .next s

/-- BEACON_TIMER_EXPIRY (R73): time passes to the end of the beacon interval, a PRESENT BEACON is offered unless one is
queued, and the timer starts again (log 3). -/
def execBeaconTimerExpiry (s : State) : Host.Outcome State Fault Refusal :=
  match s.line.beacon with
  | some t => .next (s.passUntil (dueMs t.start t.length)).offerBeacon.startBeacon
  | none => .next s

/-- SILENCE_EXPIRY (R69): the entry whose silence limit is due first becomes SILENT, of several the lowest station
number (log 3). -/
def execSilenceExpiry (s : State) : Host.Outcome State Fault Refusal :=
  match earliest Prod.snd s.line.heardStations with
  | some (t, last) => .next ((s.passUntil (dueMs last s.silenceLimit)).expireSilence t).finish
  | none => .next s

end Sys2Proof.Machine
end

