-- ==== Sys2Proof/Machine/Reading.lean ====
section
/-! DEFINITION. The read engine's records, timeout and hold line: BLOCK, FETCH_FAILED, FETCH_TIMEOUT, HOLD_ASSERTED,
HOLD_RELEASED (R7, R9 to R17, R47). -/

namespace Sys2Proof.Machine

/-- The slot of a tag expects the next tile. -/
def State.nextTile (s : State) (tag : Byte) : State :=
  s.setRead { s.read with fetches := s.read.fetches.map fun f => if f.tag = tag then { f with next := f.next + 1 } else f }

/-- A good BLOCK in its vote: the tile check is appended, and a reference is stored from tile 0 alone (R12). -/
def Vote.takeTile (v : Vote) (b : BlockRecord) : Vote :=
  { v with
    checks := v.checks ++ [tileCheck b.tile]
    reference := if b.index = 0 then b.reference else v.reference }

/-- A good BLOCK: the last tile ends the fetch in success (R12, R13). -/
def State.takeGood (s : State) (f : Fetch) (b : BlockRecord) (n : Nat) : State :=
  match s.vote? f.key with
  | some v =>
    let s1 := s.modifyVote v.id fun v => v.takeTile b
    let checks := (v.takeTile b).checks
    if f.next + 1 = n then
      (s1.freeSlot f.tag).ownStatusKnown v.id (.readOk (frameSummary checks)) checks
    else s1.nextTile f.tag
  | none => s

/-- A BLOCK whose header is whole: the depth goes to the governor, and the tile is late, discarded, of a wrong length,
or good (R9 to R12). -/
def State.takeBlockRecord (s : State) (b : BlockRecord) : State :=
  let s1 := s.setGovernor (s.governor.takeDepth b.depth)
  match s1.read.slot? b.tag with
  | none => s1.bump .lateBlocks
  | some f =>
    if b.index ≠ f.next then s1.bump .blockDiscarded
    else
      let h := s1.holdingOf f.key.reel
      if b.tile.length ≠ tileLength h.length (tileSize s1.strap.tileCode) h.tiles f.next then
        s1.endUnreadable f .length true
      else s1.takeGood f b h.tiles

/-- The taking of a BLOCK: one too short for its fixed fields is discarded (R165). -/
def takeBlock (body : List Byte) (s : State) : State :=
  match readBlock body with
  | some b => (s.takeBlockRecord b).expireIssued
  | none => s

/-- BLOCK (R9). -/
def execBlock (body : List Byte) (s : State) : Host.Outcome State Fault Refusal :=
  .next (s.arrive (.block body) (takeBlock body))

/-- The taking of a FETCH FAILED: it ends the fetch of its tag, or is late; one of a wrong form is discarded
(R14, R165). -/
def takeFetchFailed (body : List Byte) (s : State) : State :=
  match readFetchFailed body with
  | some (tag, reason) =>
    match s.read.slot? tag with
    | some f => (s.endUnreadable f reason false).expireIssued
    | none => s.bump .lateBlocks
  | none => s

/-- FETCH_FAILED (R14). -/
def execFetchFailed (body : List Byte) (s : State) : Host.Outcome State Fault Refusal :=
  .next (s.arrive (.fetchFailed body) (takeFetchFailed body))

/-- FETCH_TIMEOUT (R15): the timeout that is due first expires, of several that of the fetch issued first (log 3). -/
def execFetchTimeout (s : State) : Host.Outcome State Fault Refusal :=
  match earliest Fetch.issued s.read.fetches with
  | some f => .next ((s.passUntil (dueMs f.issued s.fetchLimit)).expireFetch f.tag).finish
  | none => .next s

/-- HOLD_ASSERTED (R7, R47): the level changes to the asserted one. No fetch is touched, and the sweep, when it is not
SUSPENDED, is HELD. -/
def execHoldAsserted (s : State) : Host.Outcome State Fault Refusal :=
  .next (s.setHoldHigh (!s.strap.holdLow))

/-- HOLD_RELEASED (R7, R47): the arbiter acts without the limits of hold, and the sweep derives its state. Without a
change of level there is no release. -/
def execHoldReleased (s : State) : Host.Outcome State Fault Refusal :=
  if s.holdAsserted then .next (s.setHoldHigh s.strap.holdLow).issue.sweepOn.arbitrate else .next s

end Sys2Proof.Machine
end

