-- ==== Sys2Proof/Machine/Votes.lean ====
section
/-! DEFINITION. The vote table's and mend list's orders and timers: VERIFY, REWRITTEN, VOTE_TIMER_EXPIRY,
LOCALISATION_TIMEOUT, MEND_PATIENCE_EXPIRY (R88, R89, R98, R116, R128, R129, R132). -/

namespace Sys2Proof.Machine

/-- A VERIFY merges into a vote: ORDERED is set when it did not hold the ORDER origin, and ORDER is added (R88). -/
def Vote.mergeOrder (v : Vote) : Vote :=
  { v with origins := v.origins.add .order, flags := { v.flags with ordered := v.flags.ordered || !v.origins.order } }

/-- The four steps of R88. -/
def State.verifyKey (s : State) (k : Key) : Answered :=
  match s.holding? k.reel with
  | none => s.refuse .notHeld
  | some h =>
    if h.frames ≤ k.frame then s.refuse .range
    else
      match s.vote? k with
      | some v => ((s.modifyVote v.id Vote.mergeOrder).issueIfWaiting v.id).expireIssued.done
      | none =>
        if Config.maxVotes ≤ s.votes.length then s.refuse .full
        else (s.openCalling k .order).expireIssued.done

/-- The taking of a VERIFY order. -/
def takeVerify (body : List Byte) (s : State) : State :=
  s.takeOrder 0x07 (decide (body.length = 8)) fun s => s.verifyKey (keyAt body 0)

/-- VERIFY (R88). -/
def execVerify (body : List Byte) (s : State) : Host.Outcome State Fault Refusal :=
  .next (s.arrive (.verify body) (takeVerify body))

/-- A MEND origin merges into a vote (R89). -/
def Vote.mergeMend (v : Vote) : Vote := { v with origins := v.origins.add .mend }

/-- The entry of a key moves to RECHECKING, and its patience stops (R129). -/
def State.recheck (s : State) (k : Key) : State := s.modifyMend k fun e => { e with state := .rechecking }

/-- REWRITTEN: NOT_PENDING without an entry in AWAITING_REWRITE, FULL when the vote table does not take the request,
else the entry moves to RECHECKING and the key has a MEND vote (R89, R128, R129). -/
def State.rewritten (s : State) (k : Key) : Answered :=
  match (s.mend? k).map MendEntry.state with
  | some (.awaitingRewrite _) =>
    match s.vote? k with
    | some v => (((s.recheck k).modifyVote v.id Vote.mergeMend).issueIfWaiting v.id).expireIssued.done
    | none =>
      if Config.maxVotes ≤ s.votes.length then s.refuse .full
      else ((s.recheck k).openCalling k .mend).expireIssued.done
  | some .rechecking | none => s.refuse .notPending

/-- The taking of a REWRITTEN order. -/
def takeRewritten (body : List Byte) (s : State) : State :=
  s.takeOrder 0x08 (decide (body.length = 8)) fun s => s.rewritten (keyAt body 0)

/-- REWRITTEN (R128). -/
def execRewritten (body : List Byte) (s : State) : Host.Outcome State Fault Refusal :=
  .next (s.arrive (.rewritten body) (takeRewritten body))

/-- VOTE_TIMER_EXPIRY (R98): the vote timer that is due first expires, of several the one of the vote opened first, and
its vote closes (log 3). -/
def execVoteTimerExpiry (s : State) : Host.Outcome State Fault Refusal :=
  match earliest Prod.snd s.voteTimers with
  | some (id, start) => .next ((s.passUntil (dueMs start s.voteLimit)).expireVote id).finish
  | none => .next s

/-- LOCALISATION_TIMEOUT (R116): the localisation timer that is due first expires, of several the one of the vote
opened first (log 3). -/
def execLocalisationTimeout (s : State) : Host.Outcome State Fault Refusal :=
  match earliest Prod.snd s.localisationTimers with
  | some (id, start) => .next ((s.passUntil (dueMs start s.localisationLimit)).expireLocalisation id).finish
  | none => .next s

/-- An entry in AWAITING_REWRITE lapses: removed, with a MEND_LAPSED report (R132). -/
def State.lapse (s : State) (k : Key) : State :=
  match s.mend? k with
  | some e =>
    match e.state with
    | .awaitingRewrite _ => (s.removeMend k).pushReport (e.report .lapsed none none)
    | .rechecking => s
  | none => s

/-- MEND_PATIENCE_EXPIRY (R132): the patience that is due first expires, of several that of the entry first in the list
(log 3). -/
def execMendPatienceExpiry (s : State) : Host.Outcome State Fault Refusal :=
  match earliest Prod.snd s.patienceTimers with
  | some (k, start) => .next ((s.passUntil (duePatience start s.timers.patience)).lapse k).arbitrate
  | none => .next s

end Sys2Proof.Machine
end

