-- ==== Sys2Proof/Machine/Pacing.lean ====
section
/-! DEFINITION. The pace governor's and timer settings' orders: PACE, SETTLE, TIMING (R150, R151, R155, R156). -/

namespace Sys2Proof.Machine

/-- The governor a PACE order of a known mode sets, in the order of R151. -/
def Governor.paced (g : Governor) (mode : PaceMode) (body : List Byte) : Governor :=
  let g1 := { g with
    mode := mode, target := field body 5 1, band := field body 6 1, gmin := field body 1 2
    gmax := max (field body 1 2) (field body 3 2) }
  { g1 with
    gap := g1.clamp (if flagAt body 7 then field body 8 2 else g.gap)
    average := 16 * g1.target, settle := 0 }

/-- PACE: a mode other than FIXED and ADAPTIVE is refused RANGE (R151). -/
def State.pace (s : State) (body : List Byte) : Answered :=
  match paceModeOfCode (field body 0 1) with
  | some mode => (s.setGovernor (s.governor.paced mode body)).done
  | none => s.refuse .range

/-- The taking of a PACE order. -/
def takePace (body : List Byte) (s : State) : State :=
  s.takeOrder 0x0A (decide (body.length = 10)) fun s => s.pace body

/-- PACE (R151). -/
def execPace (body : List Byte) (s : State) : Host.Outcome State Fault Refusal :=
  .next (s.arrive (.pace body) (takePace body))

/-- SETTLE sets the settle count to 8 in FIXED mode, and has no effect in ADAPTIVE mode (R150). -/
def Governor.settled (g : Governor) : Governor := if g.mode = .fixed then { g with settle := 8 } else g

/-- The taking of a SETTLE order. -/
def takeSettle (body : List Byte) (s : State) : State :=
  s.takeOrder 0x0B (decide (body.length = 0)) fun s => (s.setGovernor s.governor.settled).done

/-- SETTLE (R150). -/
def execSettle (body : List Byte) (s : State) : Host.Outcome State Fault Refusal :=
  .next (s.arrive (.settle body) (takeSettle body))

/-- The settings a TIMING order carries: codes clamped to 4,095, a patience of 0 to 1 (R155). -/
def timingSettings (body : List Byte) : TimerSettings :=
  { vote := min 4095 (field body 0 2), fetch := min 4095 (field body 2 2), localisation := min 4095 (field body 4 2)
    silence := min 4095 (field body 6 2), patience := max 1 (field body 8 2) }

/-- The timer settings take their values, and each running timer that has reached its new limit expires at once: of one
kind in the order its rule gives (R15, R69, R98, R116, R132), the kinds in the order of the table of R154 (R155,
log 9). Timers that start on account of the order are not due, but for those of a limit of 0 ms (R156). -/
def State.setTiming (s : State) (t : TimerSettings) : State :=
  let s1 := s.setTimers t
  let votes := (s1.voteTimers.filter fun x => s1.isDue (dueMs x.2 s1.voteLimit)).map Prod.fst
  let fetches := (s1.read.fetches.filter fun f => s1.isDue (dueMs f.issued s1.fetchLimit)).map Fetch.tag
  let locals := (s1.localisationTimers.filter fun x => s1.isDue (dueMs x.2 s1.localisationLimit)).map Prod.fst
  let silents := (s1.line.heardStations.filter fun x => s1.isDue (dueMs x.2 s1.silenceLimit)).map Prod.fst
  let mends := (s1.patienceTimers.filter fun x => s1.isDue (duePatience x.2 s1.timers.patience)).map Prod.fst
  let s2 := votes.foldl State.expireVote s1
  let s3 := fetches.foldl State.expireFetch s2
  let s4 := locals.foldl State.expireLocalisation s3
  let s5 := silents.foldl State.expireSilence s4
  mends.foldl State.lapse s5

/-- The taking of a TIMING order. -/
def takeTiming (body : List Byte) (s : State) : State :=
  s.takeOrder 0x0C (decide (body.length = 10)) fun s => (s.setTiming (timingSettings body)).expireIssued.done

/-- TIMING (R155). -/
def execTiming (body : List Byte) (s : State) : Host.Outcome State Fault Refusal :=
  .next (s.arrive (.timing body) (takeTiming body))

end Sys2Proof.Machine
end

