-- ==== Sys2Proof/Machine/Sweep.lean ====
section
/-! DEFINITION. The sweep's orders and its gap timer: CADENCE, BURST, SUSPEND, RESUME, GAP_TIMER_EXPIRY (R45 to R53). -/

namespace Sys2Proof.Machine

/-- The cadence period clamped into 1 to 16 (R52). -/
def clampPeriod (p : Nat) : Nat := min 16 (max 1 p)

/-- A tier mask with the bits numbered P and above cleared (R52). -/
def trimMask (period : Nat) (m : BitVec 16) : BitVec 16 := m &&& BitVec.ofNat 16 (2 ^ period - 1)

/-- The four masks a CADENCE order carries, in tier order, trimmed to the period. -/
def cadenceMasks (period : Nat) (body : List Byte) : Vector (BitVec 16) 4 :=
  #v[trimMask period (BitVec.ofNat 16 (field body 1 2)), trimMask period (BitVec.ofNat 16 (field body 3 2)),
    trimMask period (BitVec.ofNat 16 (field body 5 2)), trimMask period (BitVec.ofNat 16 (field body 7 2))]

/-- CADENCE sets P and the masks and reduces r modulo P; the walk goes on under them (R52). -/
def State.setCadence (s : State) (body : List Byte) : State :=
  let p := clampPeriod (field body 0 1)
  s.setSweep { s.sweep with period := p, masks := cadenceMasks p body, r := s.sweep.r % p }

/-- The taking of a CADENCE order. -/
def takeCadence (body : List Byte) (s : State) : State :=
  s.takeOrder 0x03 (decide (body.length = 9)) fun s => (s.setCadence body).sweepOn.done

/-- CADENCE (R52). -/
def execCadence (body : List Byte) (s : State) : Host.Outcome State Fault Refusal :=
  .next (s.arrive (.cadence body) (takeCadence body))

/-- BURST sets B; R takes it at once unless the gap timer runs on; a B of 255 stops a running gap timer (R51). -/
def State.setBurst (s : State) (count : Nat) : State :=
  let b := max 1 count
  if s.sweep.gap.isSome ∧ b < 255 then s.setSweep { s.sweep with burst := b }
  else s.setSweep { s.sweep with burst := b, remainder := b, gap := none }

/-- The taking of a BURST order. -/
def takeBurst (body : List Byte) (s : State) : State :=
  s.takeOrder 0x04 (decide (body.length = 1)) fun s => (s.setBurst (field body 0 1)).sweepOn.done

/-- BURST (R51). -/
def execBurst (body : List Byte) (s : State) : Host.Outcome State Fault Refusal :=
  .next (s.arrive (.burst body) (takeBurst body))

/-- The suspend flag is set or cleared. -/
def State.setSuspended (s : State) (b : Bool) : State := s.setSweep { s.sweep with suspended := b }

/-- The taking of a SUSPEND order. -/
def takeSuspend (body : List Byte) (s : State) : State :=
  s.takeOrder 0x05 (decide (body.length = 0)) fun s => (s.setSuspended true).done

/-- SUSPEND (R45). -/
def execSuspend (body : List Byte) (s : State) : Host.Outcome State Fault Refusal :=
  .next (s.arrive (.suspend body) (takeSuspend body))

/-- The taking of a RESUME order. -/
def takeResume (body : List Byte) (s : State) : State :=
  s.takeOrder 0x06 (decide (body.length = 0)) fun s => (s.setSuspended false).sweepOn.done

/-- RESUME (R46). -/
def execResume (body : List Byte) (s : State) : Host.Outcome State Fault Refusal :=
  .next (s.arrive (.resume body) (takeResume body))

/-- The gap ends: the timer stops and R is set to the B in force (R48). -/
def State.endGap (s : State) : State :=
  s.setSweep { s.sweep with gap := none, remainder := s.sweep.burst }

/-- GAP_TIMER_EXPIRY (R48): time passes to the end of the running gap, and the walk goes on (log 3). -/
def execGapTimerExpiry (s : State) : Host.Outcome State Fault Refusal :=
  match s.sweep.gap with
  | some t => .next (s.passUntil (dueMs t.start t.length)).endGap.sweepOn.arbitrate
  | none => .next s

end Sys2Proof.Machine
end

