-- ==== Sys2Proof/Machine/WatchOrders.lean ====
section
/-! DEFINITION. The orders of the corruption watch and the counters: WATCH, CLEAR COUNTERS (R161, R164). -/

namespace Sys2Proof.Machine

/-- The rising threshold clamped into 1 to 256 (R161). -/
def clampRising (n : Nat) : Nat := min Config.historyBits (max 1 n)

/-- The falling threshold clamped below the rising one (R161). -/
def clampFalling (rising n : Nat) : Nat := min (rising - 1) n

/-- WATCH sets the thresholds and the flag and makes the alarm test; setting a clear flag while the alarm stays ON
queues one ALARM report without a key (R161). -/
def State.setWatching (s : State) (rising falling : Nat) (enable : Bool) : State :=
  let tr := clampRising rising
  let w := { s.watch with rising := tr, falling := clampFalling tr falling, reportEnable := enable }
  let s1 := (s.setWatch w).alarmTest none
  if s1.watch.alarm = w.alarm ∧ w.alarm = true ∧ enable = true ∧ s.watch.reportEnable = false then
    s1.pushReport (s1.watch.report none)
  else s1

/-- The taking of a WATCH order. -/
def takeWatch (body : List Byte) (s : State) : State :=
  s.takeOrder 0x0D (decide (body.length = 5)) fun s =>
    (s.setWatching (field body 0 2) (field body 2 2) (flagAt body 4)).done

/-- WATCH (R161). -/
def execWatch (body : List Byte) (s : State) : Host.Outcome State Fault Refusal :=
  .next (s.arrive (.watch body) (takeWatch body))

/-- All 23 counters are set to 0 and the reset-cause flags cleared (R164). -/
def State.clearCounters (s : State) : State := (s.setCounters Counters.reset).setCauses ResetCauses.clear

/-- The taking of a CLEAR COUNTERS order. -/
def takeClearCounters (body : List Byte) (s : State) : State :=
  s.takeOrder 0x0E (decide (body.length = 0)) fun s => s.clearCounters.done

/-- CLEAR_COUNTERS (R164). -/
def execClearCounters (body : List Byte) (s : State) : Host.Outcome State Fault Refusal :=
  .next (s.arrive (.clearCounters body) (takeClearCounters body))

end Sys2Proof.Machine
end

