-- ==== Sys2Proof/Machine/Port.lean ====
section
/-! DEFINITION. The shelf port unit: VIEW, PEEK, RESET, unknown orders, the outgoing link, and the resets and start
(R165 to R177). -/

namespace Sys2Proof.Machine

/-! ### Views (R170, R171) -/

/-- VIEW selects a view and sets the index to 0; any other code is refused RANGE (R170). -/
def State.selectView (s : State) (code : Nat) : Answered :=
  match viewOfCode code with
  | some view => (s.setPort { s.port with view := view, index := 0 }).done
  | none => s.refuse .range

/-- The taking of a VIEW order. -/
def takeView (body : List Byte) (s : State) : State :=
  s.takeOrder 0x0F (decide (body.length = 1)) fun s => s.selectView (field body 0 1)

/-- VIEW (R170). -/
def execView (body : List Byte) (s : State) : Host.Outcome State Fault Refusal :=
  .next (s.arrive (.view body) (takeView body))

/-- PEEK carries the record at the index and advances it, or END and sets it to 0 (R171). -/
def State.peek (s : State) : Answered :=
  match s.viewRecord? s.port.view s.port.index with
  | some record =>
    (s.setPort { s.port with index := s.port.index + 1 }).doneWith (byte1 s.port.view.code ++ record)
  | none => (s.setPort { s.port with index := 0 }).doneWith (byte1 0)

/-- The taking of a PEEK order. -/
def takePeek (body : List Byte) (s : State) : State :=
  s.takeOrder 0x10 (decide (body.length = 0)) State.peek

/-- PEEK (R171). -/
def execPeek (body : List Byte) (s : State) : Host.Outcome State Fault Refusal :=
  .next (s.arrive (.peek body) (takePeek body))

/-! ### RESET and unknown orders (R167, R175) -/

/-- The taking of a RESET order: DONE, and no further record is taken (R175). -/
def takeReset (body : List Byte) (s : State) : State :=
  s.takeOrder 0x11 (decide (body.length = 0)) fun s => (s.setPort { s.port with resetTaken := true }).done

/-- RESET (R175). -/
def execReset (body : List Byte) (s : State) : Host.Outcome State Fault Refusal :=
  .next (s.arrive (.reset body) (takeReset body))

/-- The taking of an order of unknown kind: REFUSED UNKNOWN (R167). -/
def takeUnknownOrder (kind : Byte) (s : State) : State := State.reply kind (s.refuse .unknown)

/-- UNKNOWN_ORDER (R167). -/
def execUnknownOrder (kind : Byte) (body : List Byte) (s : State) : Host.Outcome State Fault Refusal :=
  .next (s.arrive (.unknownOrder kind body) (takeUnknownOrder kind))

/-- RECORD_CUT_SHORT (R165): the record is discarded whole and counted nowhere. -/
def execRecordCutShort (s : State) : Host.Outcome State Fault Refusal := .next s

/-! ### The outgoing link and the records that wait (R166, R168) -/

/-- The taking of a shelf record. The other commands never wait on the link. -/
def takeRecord : Instr → State → State
  | .loadHolding body => takeLoadHolding body
  | .dropHolding body => takeDropHolding body
  | .cadence body => takeCadence body
  | .burst body => takeBurst body
  | .suspend body => takeSuspend body
  | .resume body => takeResume body
  | .verify body => takeVerify body
  | .rewritten body => takeRewritten body
  | .takeEvidence body => takeTakeEvidence body
  | .pace body => takePace body
  | .settle body => takeSettle body
  | .timing body => takeTiming body
  | .watch body => takeWatch body
  | .clearCounters body => takeClearCounters body
  | .view body => takeView body
  | .peek body => takePeek body
  | .reset body => takeReset body
  | .unknownOrder kind _ => takeUnknownOrder kind
  | .block body => takeBlock body
  | .fetchFailed body => takeFetchFailed body
  | .gapTimerExpiry | .resetOrderEffect _ | .fetchTimeout | .holdAsserted | .holdReleased => id
  | .sum _ _ | .call _ _ | .tiles _ _ | .present _ _ | .candidateFrame _ _ => id
  | .lineFrameStart | .lineFrameSent | .collision | .enterJoining | .beaconTimerExpiry | .silenceExpiry => id
  | .voteTimerExpiry | .localisationTimeout | .mendPatienceExpiry | .recordSent => id
  | .powerOn _ | .resetLineAsserted | .resetLineReleased _ | .lineActivityBegins | .recordCutShort => id

/-- The records that waited on the link are taken, in order, up to the first that must go on waiting with those behind it
(R166, log 4). The list of those that wait is empty meanwhile, so each is taken as one that arrives then. -/
def State.intake : List Instr → State → State
  | [], s => s
  | i :: rest, s =>
    if s.mayTake i then State.intake rest (takeRecord i s).arbitrate
    else s.setPort { s.port with inbound := i :: rest }

/-- The record on the outgoing link has gone out whole: a report leaves the queue, and the sweep derives its state
(R168, R169). -/
def State.recordGone (s : State) : State :=
  match s.port.link with
  | some (.report _) => (s.setPort { s.port with reports := s.port.reports.drop 1, link := none }).sweepOn
  | some (.start _) | some (.reply _) | some (.request _) => s.setPort { s.port with link := none }
  | none => s

/-- No record waits on the incoming link. -/
def State.clearInbound (s : State) : State := s.setPort { s.port with inbound := [] }

/-- RECORD_SENT (R168): the arbiter picks the next record, and then the records that waited are taken (log 4). -/
def execRecordSent (s : State) : Host.Outcome State Fault Refusal :=
  match s.port.link with
  | some _ => .next (State.intake s.port.inbound s.clearInbound.recordGone.arbitrate)
  | none => .next s

/-! ### Resets and start (R174 to R177) -/

/-- What every reset does to every block. The evidence buffer, the counters, the pins, the records on the incoming link
and another station's activity on the line stay (R174, R176). -/
def State.enterReset (s : State) : State :=
  { s with
    read := ReadEngine.reset, holdings := [], sweep := Sweep.reset
    line := LineUnit.reset (if s.line.activity = .other then .other else .quiet)
    votes := [], mends := [], governor := Governor.reset, timers := TimerSettings.reset, watch := Watch.reset
    port := ShelfPort.reset s.port.inbound }

/-- Start begins: the strap is read, the own roster entry is SELF, and the START record is made and sent first (R68,
R173, R176). -/
def State.begin (s : State) (pins : Strap) : State :=
  { s with
    strapPins := pins, strap := pins
    line := { s.line with roster := startRoster pins.station }
    port := { s.port with
      start := some { causes := s.causes, strap := pins, evidence := s.evidence.entries.length } } }.arbitrate

/-- The reset takes effect with the ORDER flag set (R174, R175). -/
def State.orderReset (s : State) : State := s.enterReset.setCauses { s.causes with order := true }

/-- RESET_ORDER_EFFECT (R175): once the RESET reply has gone out whole, the reset takes effect and start begins. -/
def execResetOrderEffect (pins : Strap) (s : State) : Host.Outcome State Fault Refusal :=
  if s.port.resetTaken && !s.port.replyStands then .next (s.orderReset.begin pins) else .next s

/-- The station at power-on: every block, the evidence buffer, the counters and the flags (R145, R164, R174). -/
def State.powerReset (s : State) : State :=
  { s.enterReset with causes := ResetCauses.powerOn, evidence := Evidence.reset, counters := Counters.reset }

/-- POWER_ON (R174): start begins, unless the reset line is asserted. -/
def execPowerOn (pins : Strap) (s : State) : Host.Outcome State Fault Refusal :=
  if s.resetLine then .next (s.powerReset.setStrapPins pins) else .next (s.powerReset.begin pins)

/-- RESET_LINE_ASSERTED (R174): the station enters reset, with PIN set, and stays there. On a line that is asserted already,
an event that cannot take place, the reset is made again, with PIN set (the model's choice: log 21). -/
def execResetLineAsserted (s : State) : Host.Outcome State Fault Refusal :=
  .next ((s.enterReset.setCauses { s.causes with pin := true }).setResetLine true)

/-- RESET_LINE_RELEASED (R176): start begins. -/
def execResetLineReleased (pins : Strap) (s : State) : Host.Outcome State Fault Refusal :=
  if s.resetLine then .next ((s.setResetLine false).begin pins) else .next s

end Sys2Proof.Machine
end

