-- ==== Sys2Proof/Machine/Dispatch.lean ====
section
/-! DEFINITION. The dispatch of every command to its meaning. -/

namespace Sys2Proof.Machine

def exec (i : Instr) (s : State) : Host.Outcome State Fault Refusal :=
  match i with
  | .loadHolding body => Sys2Proof.Machine.execLoadHolding body s
  | .dropHolding body => Sys2Proof.Machine.execDropHolding body s
  | .cadence body => Sys2Proof.Machine.execCadence body s
  | .burst body => Sys2Proof.Machine.execBurst body s
  | .suspend body => Sys2Proof.Machine.execSuspend body s
  | .resume body => Sys2Proof.Machine.execResume body s
  | .gapTimerExpiry => Sys2Proof.Machine.execGapTimerExpiry s
  | .verify body => Sys2Proof.Machine.execVerify body s
  | .rewritten body => Sys2Proof.Machine.execRewritten body s
  | .takeEvidence body => Sys2Proof.Machine.execTakeEvidence body s
  | .pace body => Sys2Proof.Machine.execPace body s
  | .settle body => Sys2Proof.Machine.execSettle body s
  | .timing body => Sys2Proof.Machine.execTiming body s
  | .watch body => Sys2Proof.Machine.execWatch body s
  | .clearCounters body => Sys2Proof.Machine.execClearCounters body s
  | .view body => Sys2Proof.Machine.execView body s
  | .peek body => Sys2Proof.Machine.execPeek body s
  | .reset body => Sys2Proof.Machine.execReset body s
  | .resetOrderEffect pins => Sys2Proof.Machine.execResetOrderEffect pins s
  | .unknownOrder kind body => Sys2Proof.Machine.execUnknownOrder kind body s
  | .block body => Sys2Proof.Machine.execBlock body s
  | .fetchFailed body => Sys2Proof.Machine.execFetchFailed body s
  | .fetchTimeout => Sys2Proof.Machine.execFetchTimeout s
  | .holdAsserted => Sys2Proof.Machine.execHoldAsserted s
  | .holdReleased => Sys2Proof.Machine.execHoldReleased s
  | .sum source body => Sys2Proof.Machine.execSum source body s
  | .call source body => Sys2Proof.Machine.execCall source body s
  | .tiles source body => Sys2Proof.Machine.execTiles source body s
  | .present source body => Sys2Proof.Machine.execPresent source body s
  | .candidateFrame endsInJam bytes => Sys2Proof.Machine.execCandidateFrame endsInJam bytes s
  | .lineFrameStart => Sys2Proof.Machine.execLineFrameStart s
  | .lineFrameSent => Sys2Proof.Machine.execLineFrameSent s
  | .collision => Sys2Proof.Machine.execCollision s
  | .enterJoining => Sys2Proof.Machine.execEnterJoining s
  | .beaconTimerExpiry => Sys2Proof.Machine.execBeaconTimerExpiry s
  | .silenceExpiry => Sys2Proof.Machine.execSilenceExpiry s
  | .voteTimerExpiry => Sys2Proof.Machine.execVoteTimerExpiry s
  | .localisationTimeout => Sys2Proof.Machine.execLocalisationTimeout s
  | .mendPatienceExpiry => Sys2Proof.Machine.execMendPatienceExpiry s
  | .recordSent => Sys2Proof.Machine.execRecordSent s
  | .powerOn pins => Sys2Proof.Machine.execPowerOn pins s
  | .resetLineAsserted => Sys2Proof.Machine.execResetLineAsserted s
  | .resetLineReleased pins => Sys2Proof.Machine.execResetLineReleased pins s
  | .lineActivityBegins => Sys2Proof.Machine.execLineActivityBegins s
  | .recordCutShort => Sys2Proof.Machine.execRecordCutShort s

end Sys2Proof.Machine
end

