-- ==== Sys2Proof/Machine/Step.lean ====
section
/-! DEFINITION. One step: the command at the front of the queue is taken, or a slot passes when none waits (log 2). -/

namespace Sys2Proof.Machine

/-- One step of the station. -/
def step (s : State) : Host.Outcome State Fault Refusal :=
  match s.pending with
  | i :: rest => exec i (s.setPending rest)
  | [] => .next s.idle

/-- The state with the command that a table word spells at the front of its queue: no row gives bits, so no word spells
one and the state is unchanged. Commands come from outside the station; State.reset holds none. -/
def State.withFetchWord (s : State) (nbits w : Nat) : State :=
  match decodeTableWord nbits w with
  | some i => s.setPending (i :: s.pending)
  | none => s

end Sys2Proof.Machine
end

