-- ==== Sys2Proof/Safety.lean ====
section
/-! DEFINITION. What claims are stated with: the parts of the state a command leaves alone, when a shelf record is taken at
once, and the capacities and ranges that every step keeps. -/

namespace Sys2Proof.Machine

/-! ### Frames -/

/-- The parts of the state, as the frames name them. -/
inductive Part where
  | pending | now | strapPins | strap | holdHigh | resetLine | causes | read
  /-- The holding list, but for the passes completed of each record. -/
  | holdings
  /-- The passes completed of each record. -/
  | passes
  | suspendFlag
  /-- Cadence period, tier masks and burst count. -/
  | cadence
  /-- Gap timer, cursor, round number, r, R and the round tallies. -/
  | sweepRun
  | lineState
  /-- Listen count, quiet count, and what the line carries. -/
  | lineClock
  | lineQueue | roster | beacon | votes | nextVote | mends | evidence
  /-- Mode, limits, target depth and band. -/
  | paceSettings
  /-- Pace gap and settle count. -/
  | paceGap
  | depthAverage | timers | watch
  | counter (c : Counter)
  /-- The outgoing link, and the START record and reply that wait for it. -/
  | link
  | requests
  /-- The report queue and the report-number counter. -/
  | reports
  /-- The records that wait on the incoming link, and the mark of a RESET order. -/
  | intake
  /-- View selector and index. -/
  | view
  deriving DecidableEq, Repr

/-- A holding record without its passes completed. -/
def Holding.given (h : Holding) : Holding := { h with passes := 0 }

/-- Two states agree on a part. -/
def Part.same : Part → State → State → Prop
  | .pending, s, t => t.pending = s.pending
  | .now, s, t => t.now = s.now
  | .strapPins, s, t => t.strapPins = s.strapPins
  | .strap, s, t => t.strap = s.strap
  | .holdHigh, s, t => t.holdHigh = s.holdHigh
  | .resetLine, s, t => t.resetLine = s.resetLine
  | .causes, s, t => t.causes = s.causes
  | .read, s, t => t.read = s.read
  | .holdings, s, t => t.holdings.map Holding.given = s.holdings.map Holding.given
  | .passes, s, t => t.holdings.map Holding.passes = s.holdings.map Holding.passes
  | .suspendFlag, s, t => t.sweep.suspended = s.sweep.suspended
  | .cadence, s, t =>
    t.sweep.period = s.sweep.period ∧ t.sweep.masks = s.sweep.masks ∧ t.sweep.burst = s.sweep.burst
  | .sweepRun, s, t =>
    t.sweep.gap = s.sweep.gap ∧ t.sweep.cursorPos = s.sweep.cursorPos ∧ t.sweep.cursorFrame = s.sweep.cursorFrame ∧
      t.sweep.round = s.sweep.round ∧ t.sweep.r = s.sweep.r ∧ t.sweep.remainder = s.sweep.remainder ∧
      t.sweep.opened = s.sweep.opened ∧ t.sweep.covered = s.sweep.covered
  | .lineState, s, t => t.line.state = s.line.state
  | .lineClock, s, t =>
    t.line.listenCount = s.line.listenCount ∧ t.line.quietCount = s.line.quietCount ∧
      t.line.activity = s.line.activity
  | .lineQueue, s, t => t.line.queue = s.line.queue
  | .roster, s, t => t.line.roster = s.line.roster
  | .beacon, s, t => t.line.beacon = s.line.beacon
  | .votes, s, t => t.votes = s.votes
  | .nextVote, s, t => t.nextVote = s.nextVote
  | .mends, s, t => t.mends = s.mends
  | .evidence, s, t => t.evidence = s.evidence
  | .paceSettings, s, t =>
    t.governor.mode = s.governor.mode ∧ t.governor.gmin = s.governor.gmin ∧ t.governor.gmax = s.governor.gmax ∧
      t.governor.target = s.governor.target ∧ t.governor.band = s.governor.band
  | .paceGap, s, t => t.governor.gap = s.governor.gap ∧ t.governor.settle = s.governor.settle
  | .depthAverage, s, t => t.governor.average = s.governor.average
  | .timers, s, t => t.timers = s.timers
  | .watch, s, t => t.watch = s.watch
  | .counter c, s, t => t.count c = s.count c
  | .link, s, t => t.port.link = s.port.link ∧ t.port.start = s.port.start ∧ t.port.reply = s.port.reply
  | .requests, s, t => t.port.requests = s.port.requests
  | .reports, s, t => t.port.reports = s.port.reports ∧ t.port.nextReport = s.port.nextReport
  | .intake, s, t => t.port.inbound = s.port.inbound ∧ t.port.resetTaken = s.port.resetTaken
  | .view, s, t => t.port.view = s.port.view ∧ t.port.index = s.port.index

/-- Two states agree on every part but those named. -/
def SameBut (parts : List Part) (s t : State) : Prop := ∀ p, p ∉ parts → p.same s t

/-- What a report handed to the shelf port unit can touch (R169). -/
def reportParts : List Part := [.reports, .counter .reportsLost]

/-- What an offer to the line can touch (R66, R67, R92). -/
def offerParts : List Part := [.lineQueue, .votes, .counter .lineDropped]

/-- What the issue arbiter can touch (R6, R8). -/
def issueParts : List Part := [.read, .votes, .requests]

/-- What opening a vote can touch (R79, R81, R6). -/
def openParts : List Part :=
  [.votes, .nextVote, .counter .votesOpened, .lineQueue, .counter .lineDropped, .read, .requests]

/-- What abandoning votes can touch (R26 to R29). -/
def abandonParts : List Part :=
  [.read, .votes, .requests, .reports, .lineQueue, .counter .lineDropped, .counter .reportsLost, .counter .abandoned]

/-- What the walk of the sweep can touch (R38 to R50). -/
def walkParts : List Part :=
  [.passes, .sweepRun, .paceGap, .votes, .nextVote, .counter .votesOpened, .lineQueue, .counter .lineDropped, .read,
    .requests, .reports, .counter .reportsLost]

/-- What the delivery of a verdict, with the walk behind it, can touch (R117). -/
def deliverParts : List Part :=
  [.mends, .evidence, .counter .evidenceEvicted, .watch, .counter .good, .counter .bad, .counter .leaderBad,
    .counter .unreadable, .counter .split, .counter .unconfirmed, .counter .abandoned, .counter .refDiffers,
    .passes, .sweepRun, .paceGap, .votes, .nextVote, .counter .votesOpened, .lineQueue, .counter .lineDropped, .read,
    .requests, .reports, .counter .reportsLost]

/-- What the end of fetches by their timeouts can touch (R15). -/
def expiryParts : List Part := .counter .fetchTimeouts :: deliverParts

/-! ### The passing of time -/

/-- From s to u time passes, by whole slots and at most to the end of the slot in which `due` comes; none passes when it
has come (the model's: log 2, log 3). On a quiet line out of reset each slot is counted (R58, R71). -/
structure PassesUntil (s u : State) (due : Nat) : Prop where
  reached : due ≤ u.now
  within : s.now < due → u.now < due + s.slotTime
  already : due ≤ s.now → u.now = s.now ∧ (s.line.listenCount ≤ 290 → u = s)
  frame : SameBut [.now, .lineClock] s u
  slots : ∃ k, u.now = s.now + k * s.slotTime ∧
    (s.resetLine = false → s.line.transmitting = false → s.line.activity = .quiet →
      u.line.activity = .quiet ∧ u.line.quietCount = s.line.quietCount + k ∧
        (s.line.state = .listen → u.line.listenCount = min 290 (s.line.listenCount + k)))

/-! ### Shelf records -/

/-- A shelf record is taken at once: no record waits ahead of it, and it can be taken (R165, R166). -/
def State.ready (s : State) (i : Instr) : Bool := decide (s.port.inbound = []) && s.mayTake i

/-- The port after a reply has been made and the arbiter has acted. -/
def ShelfPort.answer (p : ShelfPort) (kind : Byte) (result : Result) (payload : List Byte) : ShelfPort :=
  { p with reply := some { kind := kind, result := result, payload := payload } }.arbitrate

/-- The state once an order has been answered: its reply is made, and the outbound arbiter acts (R166, R168). -/
def State.answered (s : State) (kind : Byte) (result : Result) (payload : List Byte) : State :=
  s.setPort (s.port.answer kind result payload)

/-- A reply stands at the port: it is on the outgoing link, or waits behind the record that is. -/
def State.replied (s : State) (kind : Byte) (result : Result) (payload : List Byte) : Prop :=
  s.port.link = some (.reply { kind := kind, result := result, payload := payload }) ∨
    s.port.reply = some { kind := kind, result := result, payload := payload }

/-! ### Votes opened, and frames heard -/

/-- A vote as it is opened (R79), but for CALL pending; the issue arbiter may have given it a slot at once. -/
structure Vote.IsNew (v : Vote) (id : Nat) (k : Key) (o : Origin) (expected callers : List Nat) (now : Nat) : Prop where
  id : v.id = id
  key : v.key = k
  origins : v.origins = Origins.none.add o
  expected : v.expected = expected
  callers : v.callers = callers
  opened : v.opened = now
  state : v.state = .awaitingRead ∨ v.state = .reading
  answers : v.answers = []
  own : v.own = .pending
  checks : v.checks = []
  reference : v.reference = none
  sumSent : v.sumSent = false
  timer : v.timer = none
  localisation : v.localisation = none
  decision : v.decision = none
  flags : v.flags = VoteFlags.none

/-- From s to t one vote is opened, as the youngest, and counted (R78, R79). -/
def Opens (s t : State) (k : Key) (o : Origin) (expected callers : List Nat) : Prop :=
  t.votes.map Vote.key = s.votes.map Vote.key ++ [k] ∧ t.nextVote = s.nextVote + 1 ∧
    t.count .votesOpened = min 4294967295 (s.count .votesOpened + 1) ∧
    ∃ v ∈ t.votes, v.IsNew s.nextVote k o expected callers s.now

/-- The line is open to other stations' frames: the unit is not in reset, and has no frame of its own on the line. -/
def State.hears (s : State) : Bool := !s.resetLine && !s.line.transmitting

/-- The state once a valid frame of a station has ended: the line is quiet, the frame counted, the station heard
(R58, R65, R68). -/
def State.afterFrame (s : State) (station : Nat) : State := (s.endActivity.bump .lineReceived).hear station

/-- The end of the command that brought a frame of a station, once the frame has been dealt with: a silence limit of
0 ms makes the station SILENT, fetches of 0 ms end, and the outbound arbiter acts (R156, R168). -/
def State.frameDone (s : State) (station : Nat) : State := (s.silenceHeard station).finish

/-! ### Capacities and ranges -/

/-- The ranges of the pace governor (R146, R150). -/
structure Governor.InRange (g : Governor) : Prop where
  gapLow : g.gmin ≤ g.gap
  gapHigh : g.gap ≤ g.gmax
  limits : g.gmax ≤ 65535
  target : g.target ≤ 255
  band : g.band ≤ 255
  average : g.average ≤ 4080
  settle : g.settle ≤ 8
  adaptive : g.mode = .adaptive → g.settle = 0

/-- The ranges of the corruption watch (R158), and the alarm against its thresholds (R160). -/
structure Watch.InRange (w : Watch) : Prop where
  history : w.history.length ≤ 256
  falling : w.falling < w.rising
  rising : w.rising ≤ 256
  alarmOn : w.alarm = true → w.falling < w.count
  alarmOff : w.alarm = false → w.count < w.rising

/-- The ranges of the sweep (R36, R42, R48, R49, R51, R52). While a gap runs R is 0; else it is 1 to B. -/
structure Sweep.InRange (w : Sweep) : Prop where
  periodLow : 1 ≤ w.period
  periodHigh : w.period ≤ 16
  rotation : w.r < w.period
  round : w.round ≤ 4294967295
  opened : w.opened ≤ 4294967295
  covered : w.covered ≤ 4294967295
  burstLow : 1 ≤ w.burst
  burst : w.burst ≤ 255
  gapRuns : w.gap.isSome = true → w.remainder = 0
  gapStopped : w.gap = none → 1 ≤ w.remainder
  remainder : w.remainder ≤ w.burst
  continuous : w.burst = 255 → w.remainder = 255

/-- The ranges of the timer settings (R132, R153). -/
structure TimerSettings.InRange (t : TimerSettings) : Prop where
  vote : t.vote ≤ 4095
  fetch : t.fetch ≤ 4095
  localisation : t.localisation ≤ 4095
  silence : t.silence ≤ 4095
  patienceLow : 1 ≤ t.patience
  patienceHigh : t.patience ≤ 65535

/-- The ranges of a vote: 8 answers (R96), and a check, or a place for a received one, for each of at most 255 tiles (R20,
R12, R112). -/
structure Vote.InRange (v : Vote) : Prop where
  answers : v.answers.length ≤ 8
  checks : v.checks.length ≤ 255
  received : ∀ l, v.localisation = some l → l.received.length ≤ 255

/-- The ranges of the outbound line queue: 32 messages, in order of class (R66), at most 15 collisions each (R62), and at
most one frame of the unit on the line, since it sends one message at a time (R59). -/
structure QueueInRange (q : List Message) : Prop where
  messages : q.length ≤ 32
  collisions : ∀ m ∈ q, m.collisions ≤ 15
  sending : (q.filter Message.onLine).length ≤ 1
  ordered : (q.map fun m => m.body.lineClass).Pairwise (· ≤ ·)

/-- The capacities and ranges the manual gives every block. -/
structure Bounded (s : State) : Prop where
  /-- R19. -/
  holdings : s.holdings.length ≤ 512
  /-- R35. -/
  cursor : s.sweep.cursorPos ≤ s.holdings.length
  /-- R4. -/
  fetches : s.read.fetches.length ≤ 4
  /-- R78. -/
  votes : s.votes.length ≤ 24
  ranges : ∀ v ∈ s.votes, v.InRange
  /-- R124. -/
  mends : s.mends.length ≤ 16
  /-- R124. -/
  attempts : ∀ e ∈ s.mends, e.failed ≤ 2
  /-- R136. -/
  evidence : s.evidence.entries.length ≤ 64
  /-- The pool of check slots (R136, R137). -/
  slots : s.evidence.slotsInUse ≤ 2048
  /-- R169. -/
  reports : s.port.reports.length ≤ 64
  queue : QueueInRange s.line.queue
  /-- R71. -/
  listen : s.line.listenCount ≤ 290
  sweep : s.sweep.InRange
  watch : s.watch.InRange
  governor : s.governor.InRange
  timers : s.timers.InRange
  /-- R163. -/
  counters : ∀ c, s.count c ≤ 4294967295

/-! ### How the tables fit together -/

/-- A vote's fields against its state: its own status is known from GATHERING on, its timer runs in GATHERING alone, and
it holds a decision and localisation fields, with a place for each of its checks, in LOCALISING alone (R79, R98, R100,
R112). -/
structure Vote.Fits (v : Vote) : Prop where
  pending : v.own = .pending ↔ v.state = .awaitingRead ∨ v.state = .reading
  timer : v.timer.isSome = true ↔ v.state = .gathering
  localisation : v.localisation.isSome = true ↔ v.state = .localising
  decision : v.decision.isSome = true ↔ v.state = .localising
  received : ∀ l, v.localisation = some l → l.received.length = v.checks.length

/-- How the tables fit together. -/
structure Consistent (s : State) : Prop where
  /-- One record for a reel (R19). -/
  reels : (s.holdings.map Holding.reel).Nodup
  /-- One vote for a key (R78). -/
  keys : (s.votes.map Vote.key).Nodup
  /-- The model's own vote numbers are distinct, and below the next (log 7). -/
  ids : (s.votes.map Vote.id).Nodup
  idsBelow : ∀ v ∈ s.votes, v.id < s.nextVote
  fits : ∀ v ∈ s.votes, v.Fits
  /-- One entry for a key (R124). -/
  mendKeys : (s.mends.map MendEntry.key).Nodup
  /-- No two outstanding fetches have one tag or one vote (R4). -/
  tags : (s.read.fetches.map Fetch.tag).Nodup
  fetchKeys : (s.read.fetches.map Fetch.key).Nodup
  /-- A vote owns a slot exactly while it is in READING (R4). -/
  reading : ∀ k, (∃ f ∈ s.read.fetches, f.key = k) ↔ ∃ v ∈ s.votes, v.key = k ∧ v.state = .reading
  /-- An entry is in RECHECKING exactly while a vote of its key has the MEND origin (R127). -/
  rechecking : ∀ k, (∃ e ∈ s.mends, e.key = k ∧ e.state = .rechecking) ↔
    ∃ v ∈ s.votes, v.key = k ∧ v.origins.mend = true
  /-- Every vote and every mend entry is of a frame that is held (R22, R23, R26). -/
  votesHeld : ∀ v ∈ s.votes, ∃ h ∈ s.holdings, h.reel = v.key.reel ∧ v.key.frame < h.frames
  mendsHeld : ∀ e ∈ s.mends, ∃ h ∈ s.holdings, h.reel = e.key.reel ∧ e.key.frame < h.frames
  /-- Out of reset the own roster entry is SELF (R68). -/
  selfEntry : s.resetLine = false → s.line.heardOf s.strap.station.val = .self
  /-- A held frame has 1 to 255 tiles (R20, R22). -/
  tiles : ∀ h ∈ s.holdings, 1 ≤ h.tiles ∧ h.tiles ≤ 255
  /-- A BUSY slot expects a tile of its frame, and its vote holds a check for each tile before that one (R4, R12). -/
  expects : ∀ f ∈ s.read.fetches, ∀ h ∈ s.holdings, h.reel = f.key.reel → f.next < h.tiles
  taken : ∀ f ∈ s.read.fetches, ∀ v ∈ s.votes, v.key = f.key → v.checks.length = f.next

end Sys2Proof.Machine
end

