-- ==== Sys2Proof/Certificates/Slice0/Obligations.lean ====
section
/-! DEFINITION. The statements for the provers: the numbered rules of spec/ that say what the station does. -/

open Sys2Proof Sys2Proof.Machine

/-! ### The block as a machine -/

/-- A step takes the command at the front of the queue, and runs it on the state with the queue's rest. -/
def Obligations.StepRunsTheFrontCommand : Prop :=
  ∀ (c : Instr) (rest : List Instr) (s : State),
    step { s with pending := c :: rest } = exec c { s with pending := rest }

/-- With no command waiting one slot passes, and the timer commands then due come to wait. A slot is 2,560 ns at 25
Mbit/s and 640 ns at 100 Mbit/s, as the strap has it. Due is one command for each timer that has reached its limit, kind
after kind: the vote timers, the fetches, the localisations, the silence of the PRESENT stations, mend patience, the gap
timer and the beacon timer; then ENTER_JOINING after 290 quiet slots in LISTEN, and LINE_FRAME_START when the quiet
count is the head's wait or more on a quiet line. (Whole slots, one command for each timer and the order of the kinds
are the model's choice: log 2.) In reset nothing is counted. -/
def Obligations.IdleStepPassesOneSlot : Prop :=
  (∀ s : State, s.pending = [] → ∃ t, step s = .next t ∧ t.now = s.now + s.slotTime ∧
    t.pending = State.dueCommands { t with pending := [] } ∧ SameBut [.pending, .now, .lineClock] s t ∧
    (s.resetLine = true → t.line = s.line) ∧
    (s.resetLine = false → s.line.transmitting = false → s.line.activity = .quiet →
      t.line.quietCount = s.line.quietCount + 1 ∧
        (s.line.state = .listen → t.line.listenCount = min 290 (s.line.listenCount + 1))) ∧
    (s.line.activity = .other → t.line.quietCount = s.line.quietCount ∧ t.line.activity = .other)) ∧
  ∀ s : State,
    s.slotTime = (if s.strap.fast = true then 640 else 2560) ∧
    let past := fun start ms : Nat => decide (start + ms * 1000000 ≤ s.now)
    let timers :=
      List.replicate (s.votes.countP fun v => v.timer.any fun x => past x (timeOfCode s.timers.vote))
        Instr.voteTimerExpiry ++
      List.replicate (s.read.fetches.countP fun f => past f.issued (timeOfCode s.timers.fetch)) .fetchTimeout ++
      List.replicate (s.votes.countP fun v => decide (v.state = .localising) &&
        v.localisation.any fun l => past l.start (timeOfCode s.timers.localisation)) .localisationTimeout ++
      List.replicate ((List.range 32).countP fun x => match s.line.heardOf x with
        | .present last => past last (timeOfCode s.timers.silence)
        | .unknown | .silent _ | .self => false) .silenceExpiry ++
      List.replicate (s.mends.countP fun e => match e.state with
        | .awaitingRewrite start => past start (1000 * s.timers.patience)
        | .rechecking => false) .mendPatienceExpiry ++
      (if (s.sweep.gap.any fun g => past g.start g.length) = true then [.gapTimerExpiry] else []) ++
      (if (s.line.beacon.any fun b => past b.start b.length) = true then [.beaconTimerExpiry] else []) ++
      (if s.line.state = .listen ∧ 290 ≤ s.line.listenCount then [.enterJoining] else [])
    let starts := s.line.transmitting = false ∧ s.line.activity = .quiet ∧
      ∃ before m after, s.line.queue = before ++ m :: after ∧
        ((s.line.state = .joining ∧ m.isJoining = true ∧ ∀ y ∈ before, y.isJoining = false) ∨
          (s.line.state = .active ∧ before = [])) ∧
        6 + 36 * m.body.lineClass + s.strap.station.val + 37 * m.collisions ≤ s.line.quietCount
    (starts → s.dueCommands = timers ++ [.lineFrameStart]) ∧ (¬ starts → s.dueCommands = timers)

/-- Every step answers a next state: no command stops the station. -/
def Obligations.EveryStepAnswersANextState : Prop := ∀ s : State, ∃ t, step s = .next t

/-- The state right after reset keeps the capacities and ranges of every block, and its tables fit together. (It rests on
the inputs of log 1.) -/
def Obligations.ResetStateKeepsTheInvariants : Prop := Bounded State.reset ∧ Consistent State.reset

/-- Every step keeps the capacities and ranges of every block, from a state whose tables fit together. -/
def Obligations.StepKeepsTheBounds : Prop :=
  ∀ s t : State, Bounded s → Consistent s → step s = .next t → Bounded t

/-- Every step keeps the tables together: one vote for a key, a slot for each vote in READING and no other, an entry in
RECHECKING for each MEND vote and no other, and no vote or entry of a reel that is not held. -/
def Obligations.StepKeepsTheTablesConsistent : Prop :=
  ∀ s t : State, Bounded s → Consistent s → step s = .next t → Consistent t

/-- A record that is encoded is decoded as it was, in front of any other bytes. A record that the station sends is its
kind, the length of its body in 3 bytes, and its body, with the fields of its layout in order, most significant byte
first: the replies, FETCH and CANCEL, START, and the nine reports, each behind its report number. A value that is absent
is 0, with its presence bit clear, and a list is its count and its entries. (What a DONE to TAKE EVIDENCE or PEEK
carries is given by EvidenceLeavesOldestFirst and ViewAndPeekWalkTheViews.) -/
def Obligations.RecordsDecodeAsEncoded : Prop :=
  (∀ (i : Instr) (rest : List Byte), WellFormed i = true → (toRecord i).isSome = true →
    ∃ bytes, encodeRecord i = some bytes ∧ decodeRecord (bytes ++ rest) = some (i, rest)) ∧
  let record := fun (kind : Byte) (body : List Byte) => [kind] ++ bytesOf 3 body.length ++ body
  let bits := fun bs : List Bool => bytesOf 1 ((bs.zipIdx.map fun x : Bool × Nat => x.1.toNat * 2 ^ x.2).sum)
  let listed := fun xs : List Nat => bytesOf 1 xs.length ++ xs.flatMap (bytesOf 1)
  let word := fun x : Option Word => bytesOf 4 ((x.map BitVec.toNat).getD 0)
  let key := fun k : Key => bytesOf 4 k.reel ++ bytesOf 4 k.frame
  let verdict := fun d : Verdict => match d with
    | .good => 1 | .bad => 2 | .leaderBad => 3 | .unreadable => 4 | .split => 5 | .unconfirmed => 6 | .abandoned => 7
  (∀ r : Reply, (OutRecord.reply r).bytes = record 0x80 ([r.kind] ++ (match r.result with
      | .done => [0] | .full => [1] | .range => [2] | .geometry => [3] | .notHeld => [4] | .busy => [5]
      | .notPending => [6] | .unknown => [7] | .malformed => [8]) ++ r.payload)) ∧
  (∀ (tag : Byte) (k : Key) (n : Nat),
    (OutRecord.request (.fetch tag k n)).bytes = record 0x90 ([tag] ++ key k ++ bytesOf 1 n) ∧
    (OutRecord.request (.cancel tag k)).bytes = record 0x91 ([tag] ++ key k)) ∧
  (∀ r : StartRecord, (OutRecord.start r).bytes = record 0xA0 (bits [r.causes.power, r.causes.pin, r.causes.order] ++
    bytesOf 1 r.strap.station.val ++ bits [r.strap.fast] ++ bytesOf 1 r.strap.tileCode.val ++ bits [r.strap.holdLow] ++
    bytesOf 1 r.evidence)) ∧
  ∀ q : QueuedReport, (OutRecord.report q).bytes = match q.report with
    | .verdict k d o f own agreed good missing tiles => record 0xC0 (bytesOf 2 q.number.toNat ++ key k ++ [verdict d] ++
      bits [o.sweep, o.peer, o.order, o.mend] ++ bits [f.extra, f.notHeldSeen, f.deferredSeen, f.refDiffers, f.ordered,
        f.geometryDiffers, f.locateFailed, f.mendListFull] ++
      bits [own.isSome, agreed.isSome] ++ word own ++ word agreed ++ listed good ++ listed missing ++
      listed (tiles.getD []))
    | .roundDone round r visited opened covered => record 0xC1 (bytesOf 2 q.number.toNat ++ bytesOf 4 round ++
      bytesOf 1 r ++ bytesOf 2 visited ++ bytesOf 4 opened ++ bytesOf 4 covered)
    | .station station news => record 0xC2 (bytesOf 2 q.number.toNat ++ bytesOf 1 station ++
      (match news with | .present => [1] | .silent => [2] | .duplicate => [3]))
    | .alarm on count held rising falling k => record 0xC3 (bytesOf 2 q.number.toNat ++ bits [on] ++ bytesOf 2 count ++
      bytesOf 2 held ++ bytesOf 2 rising ++ bytesOf 2 falling ++
      (match k with | some x => bits [true] ++ key x | none => bits [false] ++ bytesOf 8 0))
    | .mend kind k agreed failed d own tiles => record
      (match kind with | .mended => 0xC4 | .failed => 0xC5 | .abandoned => 0xC6 | .lapsed => 0xC7 | .dropped => 0xC8)
      (bytesOf 2 q.number.toNat ++ key k ++ word (some agreed) ++ bytesOf 1 failed ++ [(d.map verdict).getD 0] ++
        bits [own.isSome] ++ word own ++ listed (tiles.getD []))

/-! ### Records in and records out (R165 to R169) -/

/-- A record that cannot be taken, or that has others ahead of it, waits behind them and changes nothing else. A record
that the link delivers cut short changes nothing at all. -/
def Obligations.RecordsWaitInOrderOrAreCutShort : Prop :=
  ∀ s : State,
    (∀ i, (toRecord i).isSome = true → s.ready i = false →
      exec i s = .next { s with port := { s.port with inbound := s.port.inbound ++ [i] } }) ∧
    exec .recordCutShort s = .next s

/-- An order that is taken gets one reply, which stands at the port once its effects are done; and a reply other than
DONE is the only change a refused order makes. -/
def Obligations.EveryOrderTakenIsAnswered : Prop :=
  ∀ (i : Instr) (kind : Byte) (body : List Byte) (s : State), isOrder i = true → toRecord i = some (kind, body) →
    s.ready i = true →
      ∃ t result payload, exec i s = .next t ∧ t.replied kind result payload ∧
        (result ≠ .done → t = s.answered kind result [] ∧ payload = [])

/-- An order of unknown kind is refused UNKNOWN, whatever its body; one of a known kind whose body is not of the length
of its kind is refused MALFORMED. Neither changes anything. (That UNKNOWN_ORDER with a known kind, which is no well-formed
command, is answered UNKNOWN too is the model's choice: log 24.) -/
def Obligations.UnfitOrdersAreRefused : Prop :=
  ∀ (body : List Byte) (s : State),
    (∀ kind, s.ready (.unknownOrder kind body) = true →
      exec (.unknownOrder kind body) s = .next (s.answered kind .unknown [])) ∧
    (s.ready (.loadHolding body) = true → (body.length < 19 ∨ body.length ≠ 19 + (body.getD 18 0).toNat) →
      exec (.loadHolding body) s = .next (s.answered 0x01 .malformed [])) ∧
    (s.ready (.dropHolding body) = true → body.length ≠ 4 →
      exec (.dropHolding body) s = .next (s.answered 0x02 .malformed [])) ∧
    (s.ready (.cadence body) = true → body.length ≠ 9 →
      exec (.cadence body) s = .next (s.answered 0x03 .malformed [])) ∧
    (s.ready (.burst body) = true → body.length ≠ 1 →
      exec (.burst body) s = .next (s.answered 0x04 .malformed [])) ∧
    (s.ready (.suspend body) = true → body.length ≠ 0 →
      exec (.suspend body) s = .next (s.answered 0x05 .malformed [])) ∧
    (s.ready (.resume body) = true → body.length ≠ 0 →
      exec (.resume body) s = .next (s.answered 0x06 .malformed [])) ∧
    (s.ready (.verify body) = true → body.length ≠ 8 →
      exec (.verify body) s = .next (s.answered 0x07 .malformed [])) ∧
    (s.ready (.rewritten body) = true → body.length ≠ 8 →
      exec (.rewritten body) s = .next (s.answered 0x08 .malformed [])) ∧
    (s.ready (.takeEvidence body) = true → body.length ≠ 0 →
      exec (.takeEvidence body) s = .next (s.answered 0x09 .malformed [])) ∧
    (s.ready (.pace body) = true → body.length ≠ 10 →
      exec (.pace body) s = .next (s.answered 0x0A .malformed [])) ∧
    (s.ready (.settle body) = true → body.length ≠ 0 →
      exec (.settle body) s = .next (s.answered 0x0B .malformed [])) ∧
    (s.ready (.timing body) = true → body.length ≠ 10 →
      exec (.timing body) s = .next (s.answered 0x0C .malformed [])) ∧
    (s.ready (.watch body) = true → body.length ≠ 5 →
      exec (.watch body) s = .next (s.answered 0x0D .malformed [])) ∧
    (s.ready (.clearCounters body) = true → body.length ≠ 0 →
      exec (.clearCounters body) s = .next (s.answered 0x0E .malformed [])) ∧
    (s.ready (.view body) = true → body.length ≠ 1 →
      exec (.view body) s = .next (s.answered 0x0F .malformed [])) ∧
    (s.ready (.peek body) = true → body.length ≠ 0 →
      exec (.peek body) s = .next (s.answered 0x10 .malformed [])) ∧
    (s.ready (.reset body) = true → body.length ≠ 0 →
      exec (.reset body) s = .next (s.answered 0x11 .malformed []))

/-- The outbound arbiter on a free link: START first, then the reply, then the oldest request, then the report at the
head of the queue, which stays in the queue while it is sent; nothing but the reply goes out once a RESET order has been
taken (that last is the model's reading: log 10). A link that is not free is left as it is. -/
def Obligations.OutboundArbiterOrder : Prop :=
  ∀ p : ShelfPort,
    (∀ x, p.link = some x → p.arbitrate = p) ∧
    (p.link = none →
      (∀ x, p.start = some x → p.arbitrate = { p with start := none, link := some (.start x) }) ∧
      (p.start = none →
        (∀ x, p.reply = some x → p.arbitrate = { p with reply := none, link := some (.reply x) }) ∧
        (p.reply = none →
          (p.resetTaken = true → p.arbitrate = p) ∧
          (p.resetTaken = false →
            (∀ x rest, p.requests = x :: rest →
              p.arbitrate = { p with requests := rest, link := some (.request x) }) ∧
            (p.requests = [] →
              (∀ x rest, p.reports = x :: rest → p.arbitrate = { p with link := some (.report x) }) ∧
              (p.reports = [] → p.arbitrate = p))))))

/-- A report takes the next report number, and joins the queue at its tail while fewer than 64 are queued; else it is
lost and counted, and its number is used up all the same. -/
def Obligations.ReportsAreNumberedAndQueued : Prop :=
  ∀ (r : Report) (s : State),
    (s.port.reports.length < 64 →
      s.pushReport r = { s with port := { s.port with
        reports := s.port.reports ++ [{ number := s.port.nextReport, report := r }]
        nextReport := s.port.nextReport + 1 } }) ∧
    (64 ≤ s.port.reports.length →
      (s.pushReport r).port = { s.port with nextReport := s.port.nextReport + 1 } ∧
        (s.pushReport r).count .reportsLost = min 4294967295 (s.count .reportsLost + 1) ∧
        SameBut [.reports, .counter .reportsLost] s (s.pushReport r))

/-- RECORD_SENT frees the link, and the arbiter puts the next record on it. A report leaves the queue once it has gone
out whole: sent is the state without it. The sweep then derives its state and may walk on until it is not RUNNING, which
can only add reports behind those left; sent.walk is the state before fetches of 0 ms end, and it is sent itself when
the sweep is suspended. Then the records that waited on the incoming link, orders and data records, are taken in turn
(that the arbiter has picked the next record before them is the model's reading: log 4), each as if it arrived then, up
to the first that must go on waiting with those behind it: in reset, before START has gone and after a RESET order none
is taken, and an order not while a reply stands. So the first of them is taken when START has gone, and an order that
waited for a reply to go out is taken and answered. -/
def Obligations.RecordSentMovesTheLinkOn : Prop :=
  (∀ (x : OutRecord) (s : State), s.port.link = some x → s.port.inbound = [] → (∀ q, x ≠ .report q) →
     exec .recordSent s = .next { s with port := { s.port with link := none }.arbitrate }) ∧
  (∀ (q : QueuedReport) (s : State), s.port.link = some (.report q) → s.port.inbound = [] →
     let sent : State := { s with port := { s.port with reports := s.port.reports.drop 1, link := none } }
     (s.sweep.suspended = true → exec .recordSent s = .next sent.finish) ∧
     exec .recordSent s = .next sent.walk.finish ∧ sent.walk.sweepState ≠ .running ∧
     (∃ later, sent.walk.port.reports = s.port.reports.drop 1 ++ later) ∧ sent.walk.port.link = none ∧
     SameBut (.link :: walkParts) s sent.walk) ∧
  (∀ (r : Reply) (i : Instr) (kind : Byte) (body : List Byte) (s : State), s.port.link = some (.reply r) →
     s.port.reply = none → s.port.start = none → s.port.requests = [] → s.port.reports = [] → s.resetLine = false →
     s.port.resetTaken = false → s.port.inbound = [i] → isOrder i = true → toRecord i = some (kind, body) →
       ∃ t result payload, exec .recordSent s = .next t ∧ t.port.inbound = [] ∧ t.replied kind result payload) ∧
  (∀ (r : StartRecord) (i : Instr) (rest : List Instr) (s : State), s.port.link = some (.start r) →
     s.port.start = none → s.port.reply = none → s.resetLine = false → s.port.resetTaken = false →
     s.port.inbound = i :: rest → (toRecord i).isSome = true →
       ∃ u, exec i { s with port := { s.port with link := none, inbound := [] }.arbitrate } = .next u ∧
         exec .recordSent s = .next (State.intake rest u)) ∧
  (∀ (x : OutRecord) (s : State), s.port.link = some x →
     let gone : State := match x with
       | .report _ => (State.walk { s with
           port := { s.port with reports := s.port.reports.drop 1, link := none, inbound := [] } }).expireIssued
       | .start _ | .reply _ | .request _ => { s with port := { s.port with link := none, inbound := [] } }
     exec .recordSent s = .next (State.intake s.port.inbound gone.arbitrate)) ∧
  (∀ s : State, State.intake [] s = s) ∧
  ∀ (i : Instr) (rest : List Instr) (s : State), (toRecord i).isSome = true → s.port.inbound = [] →
    (s.mayTake i = true ↔ s.resetLine = false ∧ s.port.start = none ∧ (∀ r, s.port.link ≠ some (.start r)) ∧
      s.port.resetTaken = false ∧ (isOrder i = true → s.port.reply = none ∧ ∀ r, s.port.link ≠ some (.reply r))) ∧
    (s.mayTake i = true → ∃ u, exec i s = .next u ∧ u.port.inbound = [] ∧
      State.intake (i :: rest) s = State.intake rest u) ∧
    (s.mayTake i = false → State.intake (i :: rest) s = { s with port := { s.port with inbound := i :: rest } })

/-! ### Orders to the holding list (R19 to R31) -/

/-- LOAD HOLDING is refused by the first of the four steps that fails: RANGE, GEOMETRY, BUSY, FULL. A refused order
changes nothing. -/
def Obligations.LoadHoldingRefusals : Prop :=
  ∀ (body : List Byte) (s : State), s.ready (.loadHolding body) = true → 19 ≤ body.length →
    body.length = 19 + (body.getD 18 0).toNat →
    let h := loadedHolding (tileSize s.strap.tileCode) body
    let inRange := 1 ≤ h.reel ∧ 1 ≤ h.frames ∧ h.frames ≤ 262143 ∧ 1 ≤ h.length ∧ h.tier ≤ 3 ∧ h.head ≤ 4095 ∧
      h.tail ≤ 4095 ∧ h.peers.length ≤ 4 ∧ (∀ p ∈ h.peers, p ≤ 31 ∧ p ≠ s.strap.station.val) ∧ h.peers.Nodup
    let held := ∃ x ∈ s.holdings, x.reel = h.reel
    let busy := (∃ v ∈ s.votes, v.key.reel = h.reel) ∨ (∃ e ∈ s.mends, e.key.reel = h.reel)
    (¬ inRange → exec (.loadHolding body) s = .next (s.answered 0x01 .range [])) ∧
    (inRange → 255 < h.tiles → exec (.loadHolding body) s = .next (s.answered 0x01 .geometry [])) ∧
    (inRange → h.tiles ≤ 255 → held → busy → exec (.loadHolding body) s = .next (s.answered 0x01 .busy [])) ∧
    (inRange → h.tiles ≤ 255 → ¬ held → 512 ≤ s.holdings.length →
      exec (.loadHolding body) s = .next (s.answered 0x01 .full []))

/-- LOAD HOLDING that passes its four steps is DONE: for a reel that is not held the record is appended, for a held one
it takes the old record's place; either way its passes completed start at 0. A cursor that does not stand in a replaced
record stays. One that stands in it keeps its position and frame when its frame is below the new F and the new tier is
visited in the round; else it leaves as after the last frame, which completes the round at the end of the list. Then the
sweep derives its state and may walk, before fetches of 0 ms end (log 27); while it is suspended the walk changes
nothing. -/
def Obligations.LoadHoldingStoresTheRecord : Prop :=
  ∀ (body : List Byte) (s : State), s.ready (.loadHolding body) = true → 19 ≤ body.length →
    body.length = 19 + (body.getD 18 0).toNat →
    let h := loadedHolding (tileSize s.strap.tileCode) body
    let held := ∃ x ∈ s.holdings, x.reel = h.reel
    let done := fun u : State => u.expireIssued.answered 0x01 .done []
    h.inRange s.strap.station.val = true → h.tiles ≤ 255 →
    (∀ u : State, u.sweep.suspended = true → u.walk = u) ∧
    (¬ held → s.holdings.length < 512 →
      let u := State.walk { s with holdings := s.holdings ++ [h] }
      exec (.loadHolding body) s = .next (done u) ∧ (done u).replied 0x01 .done [] ∧
        u.holdings.map Holding.given = s.holdings.map Holding.given ++ [h.given] ∧ u.sweepState ≠ .running ∧
        SameBut (.holdings :: walkParts) s u) ∧
    (held → s.isBusy h.reel = false →
      let replaced : State := { s with holdings := s.holdings.map fun x : Holding => if x.reel = h.reel then h else x }
      let moved : State := { replaced with
        sweep := { s.sweep with cursorPos := s.sweep.cursorPos + 1, cursorFrame := 0 } }
      let stays := s.sweep.cursorFrame < h.frames ∧ (s.sweep.masks.toList.getD h.tier 0).getLsbD s.sweep.r = true
      ((∀ x, s.holdings[s.sweep.cursorPos]? = some x → x.reel ≠ h.reel) →
        exec (.loadHolding body) s = .next (done replaced.walk)) ∧
      ((s.holdings.map Holding.reel).Nodup →
        (∃ x, s.holdings[s.sweep.cursorPos]? = some x ∧ x.reel = h.reel) →
        (stays → exec (.loadHolding body) s = .next (done replaced.walk)) ∧
        (¬ stays → s.sweep.cursorPos + 1 < s.holdings.length →
          exec (.loadHolding body) s = .next (done moved.walk)) ∧
        (¬ stays → s.sweep.cursorPos + 1 = s.holdings.length →
          exec (.loadHolding body) s = .next (done moved.completeRound.walk))) ∧
      ∃ u, exec (.loadHolding body) s = .next (done u) ∧ (done u).replied 0x01 .done [] ∧
        u.holdings.map Holding.given =
          s.holdings.map (fun x : Holding => if x.reel = h.reel then h.given else x.given) ∧ u.sweepState ≠ .running ∧
        SameBut (.holdings :: walkParts) s u)

/-- The tile count n of a loaded record is ceil(L / Z) for the strapped tile size Z, and the tiles of the frame are Z
bytes long but for the last, which takes the 1 to Z bytes that are left. The tile check and line check over "123456789"
are those the manual gives, and the fold of R3 rotates tile i by i mod 32 places and adds the tile count. -/
def Obligations.TilesAndCheckValues : Prop :=
  ((∀ (size : Nat) (body : List Byte),
     (loadedHolding size body).tiles = tileCount (loadedHolding size body).length size) ∧
   (tileSize 0 = 65536 ∧ tileSize 1 = 262144 ∧ tileSize 2 = 1048576 ∧ tileSize 3 = 4194304) ∧
   ∀ (code : Fin 4) (len : Nat), 1 ≤ len →
     let z := tileSize code
     let n := tileCount len z
     1 ≤ n ∧ (n - 1) * z < len ∧ len ≤ n * z ∧
     (∀ i, i + 1 < n → tileLength len z n i = z) ∧
     tileLength len z n (n - 1) = len - (n - 1) * z ∧
     1 ≤ tileLength len z n (n - 1) ∧ tileLength len z n (n - 1) ≤ z) ∧
  let digits : List Byte := [0x31, 0x32, 0x33, 0x34, 0x35, 0x36, 0x37, 0x38, 0x39]
  tileCheck digits = 0xFC891918 ∧ lineCheck digits = 0x29B1 ∧
  (∀ c : Word, frameSummary [c] = 1 + c) ∧
  ∀ (cs : List Word) (c : Word), frameSummary (cs ++ [c]) = frameSummary cs + 1 + c.rotateLeft (cs.length % 32)

/-- DROP HOLDING for a reel that is not held is refused NOT_HELD and changes nothing. For a held one it is DONE: the
reel's record, votes and mend entries are gone, every one of its votes is counted ABANDONED, and no other vote has left
the table. Each abandoned vote, oldest first, leaves the CANCEL of its fetch when it was READING, a VERDICT report
ABANDONED, and a SUM NOT_HELD unless it had offered its SUM, its E is empty or the unit is in MUTE; each mend entry
leaves a MEND_DROPPED report behind those. u is the state that the sweep's walk leaves, before fetches of 0 ms end (log
27). (The origins and flags of the VERDICT report are the model's reading: log 13. So is that the sweep derives its
state once, when all this is done, so that the walk's requests and reports stand behind those of the order: log 19.) -/
def Obligations.DropHoldingClearsTheReel : Prop :=
  ∀ (body : List Byte) (s : State), s.ready (.dropHolding body) = true → body.length = 4 →
    let reel := field body 0 4
    let votes := s.votes.filter fun v : Vote => v.key.reel = reel
    let entries := s.mends.filter fun e : MendEntry => e.key.reel = reel
    let done := fun u : State => u.expireIssued.answered 0x02 .done []
    ((∀ x ∈ s.holdings, x.reel ≠ reel) → exec (.dropHolding body) s = .next (s.answered 0x02 .notHeld [])) ∧
    ((∃ x ∈ s.holdings, x.reel = reel) → Bounded s → Consistent s →
      ∃ u, exec (.dropHolding body) s = .next (done u) ∧ (done u).replied 0x02 .done [] ∧
        u.holdings.map Holding.given = (s.holdings.filter fun x : Holding => x.reel ≠ reel).map Holding.given ∧
        (∀ v ∈ u.votes, v.key.reel ≠ reel) ∧ u.mends = (s.mends.filter fun e : MendEntry => e.key.reel ≠ reel) ∧
        (∀ v ∈ s.votes, v.key.reel ≠ reel → ∃ w ∈ u.votes, w.id = v.id ∧ w.key = v.key) ∧
        u.count .abandoned = min 4294967295 (s.count .abandoned + votes.length) ∧
        (∃ later, u.port.requests = s.port.requests ++ (votes.flatMap fun v : Vote =>
          (s.read.fetches.filter fun f : Fetch => f.key = v.key).map fun f => .cancel f.tag f.key) ++ later) ∧
        (s.port.reports.length + votes.length + entries.length ≤ 64 →
          ∃ later, u.port.reports.map QueuedReport.report = s.port.reports.map QueuedReport.report ++
            votes.map (fun v : Vote => .verdict v.key .abandoned v.origins v.flags v.own.summary none []
              (v.expected.filter fun x => !v.answered x) none) ++
            entries.map (fun e : MendEntry => .mend .dropped e.key e.agreed e.failed none none e.badTiles) ++ later) ∧
        (∀ v ∈ votes, let body := LineBody.sum v.key .notHeld 0 0 .none
          (v.sumSent = false → s.line.state ≠ .mute → v.expected ≠ [] → s.line.queue.length + votes.length ≤ 32 →
            ∃ m ∈ u.line.queue, m = { body := body, collisions := 0, owner := none, onLine := false }) ∧
          (v.sumSent = true ∨ s.line.state = .mute ∨ v.expected = [] →
            ∀ m ∈ u.line.queue, m.body = body → m ∈ s.line.queue)) ∧
        u.sweepState ≠ .running ∧ SameBut (.holdings :: .mends :: .counter .abandoned :: walkParts) s u)

/-- The cursor at DROP HOLDING, with the sweep suspended: in the dropped record it moves to frame 0 of the record that
follows, or, when none follows, the round completes; behind it, it keeps its record and frame; before it, it stays. (That
the record that follows is entered whatever its tier, and that the walk passes over it later, is the model's reading:
log 14.) -/
def Obligations.DropHoldingMovesTheCursor : Prop :=
  ∀ (body : List Byte) (s : State), s.ready (.dropHolding body) = true → body.length = 4 →
    s.sweep.suspended = true → (∃ x ∈ s.holdings, x.reel = field body 0 4) →
    let pos := s.holdings.findIdx fun x : Holding => x.reel = field body 0 4
    ∃ t, exec (.dropHolding body) s = .next t ∧
      (s.sweep.cursorPos = pos → pos + 1 < s.holdings.length →
        t.sweep = { s.sweep with cursorPos := pos, cursorFrame := 0 }) ∧
      (s.sweep.cursorPos = pos → pos + 1 = s.holdings.length →
        t.sweep.cursorPos = 0 ∧ t.sweep.cursorFrame = 0 ∧
          t.sweep.round = min 4294967295 (s.sweep.round + 1) ∧
          t.sweep.r = (s.sweep.r + 1) % s.sweep.period ∧ t.sweep.remainder = s.sweep.remainder) ∧
      (pos < s.sweep.cursorPos → t.sweep = { s.sweep with cursorPos := s.sweep.cursorPos - 1 }) ∧
      (s.sweep.cursorPos < pos → t.sweep = s.sweep)

/-! ### Orders to the sweep, and the gap timer (R45 to R53) -/

/-- SUSPEND sets the suspend flag and changes nothing else; RESUME clears it, and the walk goes on until the sweep is not
RUNNING, before fetches of 0 ms end (log 27). Where the sweep is not RUNNING once the flag is clear, RESUME changes
nothing else. Both are DONE. -/
def Obligations.SuspendAndResumeMoveTheFlag : Prop :=
  ∀ s : State,
    (s.ready (.suspend []) = true →
      exec (.suspend []) s =
        .next ({ s with sweep := { s.sweep with suspended := true } }.answered 0x05 .done [])) ∧
    (s.ready (.resume []) = true →
      let done := fun u : State => u.expireIssued.answered 0x06 .done []
      let resumed : State := { s with sweep := { s.sweep with suspended := false } }
      let u := resumed.walk
      (resumed.sweepState ≠ .running → exec (.resume []) s = .next (done resumed)) ∧
      exec (.resume []) s = .next (done u) ∧ (done u).replied 0x06 .done [] ∧ u.sweep.suspended = false ∧
        u.sweepState ≠ .running ∧ SameBut (.suspendFlag :: walkParts) s u)

/-- CADENCE sets the period, clamped into 1 to 16, and the four masks with the bits numbered P and above cleared, and
reduces r modulo P; then the sweep derives its state and may walk, before fetches of 0 ms end (log 27). With the sweep
suspended nothing else changes. -/
def Obligations.CadenceSetsPeriodAndMasks : Prop :=
  ∀ (body : List Byte) (s : State), s.ready (.cadence body) = true → body.length = 9 →
    let p := min 16 (max 1 (field body 0 1))
    let masks : Vector (BitVec 16) 4 := #v[
      BitVec.ofNat 16 (field body 1 2 % 2 ^ p), BitVec.ofNat 16 (field body 3 2 % 2 ^ p),
      BitVec.ofNat 16 (field body 5 2 % 2 ^ p), BitVec.ofNat 16 (field body 7 2 % 2 ^ p)]
    let done := fun u : State => u.expireIssued.answered 0x03 .done []
    let set : State := { s with sweep := { s.sweep with period := p, masks := masks, r := s.sweep.r % p } }
    let u := set.walk
    (s.sweep.suspended = true → exec (.cadence body) s = .next (done set)) ∧
    exec (.cadence body) s = .next (done u) ∧ (done u).replied 0x03 .done [] ∧ u.sweep.period = p ∧
      u.sweep.masks = masks ∧ u.sweep.burst = s.sweep.burst ∧ u.sweepState ≠ .running ∧
      SameBut (.cadence :: walkParts) s u

/-- BURST sets B, clamped to 1 or more. Under a running gap and a B below 255 the gap runs on and R stays; else R takes
B at once, and a B of 255 stops a running gap. Then the sweep derives its state and may walk, before fetches of 0 ms
end (log 27). -/
def Obligations.BurstSetsTheCount : Prop :=
  ∀ (b : Byte) (s : State), s.ready (.burst [b]) = true →
    let n := max 1 b.toNat
    let done := fun u : State => u.expireIssued.answered 0x04 .done []
    let set : State := { s with sweep :=
      if s.sweep.gap.isSome = true ∧ n < 255 then { s.sweep with burst := n }
      else { s.sweep with burst := n, remainder := n, gap := none } }
    let u := set.walk
    (s.sweep.suspended = true → exec (.burst [b]) s = .next (done set)) ∧
    exec (.burst [b]) s = .next (done u) ∧ (done u).replied 0x04 .done [] ∧ u.sweep.burst = n ∧
      u.sweep.period = s.sweep.period ∧ u.sweep.masks = s.sweep.masks ∧ u.sweepState ≠ .running ∧
      SameBut (.cadence :: walkParts) s u

/-- GAP_TIMER_EXPIRY ends a running gap at its moment (time passes to the end of the slot in which that comes, and none
when it has come already: log 2, log 3): the timer stops, R takes the B in force, and from there the sweep derives its
state and may walk, before fetches of 0 ms end (log 27). Suspended or under hold nothing else of the sweep changes. -/
def Obligations.GapTimerExpiryEndsTheGap : Prop :=
  ∀ (g : Timer) (s : State), s.sweep.gap = some g →
    let due := g.start + g.length * 1000000
    let u := s.passUntil due
    let ended : State := { u with sweep := { s.sweep with gap := none, remainder := s.sweep.burst } }
    (s.sweep.suspended = true ∨ s.holdAsserted = true → exec .gapTimerExpiry s = .next ended.finish) ∧
    PassesUntil s u due ∧
    exec .gapTimerExpiry s = .next ended.walk.finish ∧ ended.walk.sweepState ≠ .running ∧
    SameBut walkParts u ended.walk

/-- The sweep state is the first of the six conditions that applies. The walk is steps one after another, each from a
RUNNING state, until the state is not RUNNING. -/
def Obligations.SweepWalksWhileRunning : Prop :=
  (∀ s : State,
     let idle := ∀ h ∈ s.holdings, s.sweep.masks.toList.getD h.tier 0 = 0
     let full := 24 ≤ s.votes.length ∨ 48 ≤ s.port.reports.length
     (s.sweep.suspended = true → s.sweepState = .suspended) ∧
     (s.sweep.suspended = false →
       (s.holdAsserted = true → s.sweepState = .held) ∧
       (s.holdAsserted = false →
         (s.sweep.gap.isSome = true → s.sweepState = .gap) ∧
         (s.sweep.gap = none →
           (idle → s.sweepState = .idle) ∧
           (¬ idle → (full → s.sweepState = .backedUp) ∧ (¬ full → s.sweepState = .running)))))) ∧
  ∀ s : State, ∃ n, s.walk = Nat.repeat State.walkStep n s ∧ s.walk.sweepState ≠ .running ∧
    ∀ k < n, (Nat.repeat State.walkStep k s).sweepState = .running

/-- A step of the walk does the first of its rows that applies: at the end of the list the round completes; a record
that is not visited, or whose frames are all called, is passed over; a frame with an open vote is covered; any other
frame is called, with a SWEEP vote, the tally of votes opened goes up by 1 and the cursor moves on: from the last frame of
a record to frame 0 of the next record, and from that of the last record the round completes. A call takes 1 from R while
B is below 255; R reaching 0 ends the burst, with the governor's step and a gap of G milliseconds, or R filled again at
once when G is 0. -/
def Obligations.WalkStepRows : Prop :=
  ∀ s : State,
    (s.holdings[s.sweep.cursorPos]? = none → s.walkStep = s.completeRound) ∧
    ∀ h, s.holdings[s.sweep.cursorPos]? = some h →
      let visited := (s.sweep.masks.toList.getD h.tier 0).getLsbD s.sweep.r = true
      let open? := ∃ v ∈ s.votes, v.key = { reel := h.reel, frame := s.sweep.cursorFrame }
      (¬ visited ∨ h.frames ≤ s.sweep.cursorFrame → s.walkStep = s.moveCursor (s.sweep.cursorPos + 1) 0) ∧
      (visited → s.sweep.cursorFrame < h.frames → open? →
        s.walkStep = State.cursorOn
          { s with sweep := { s.sweep with covered := min 4294967295 (s.sweep.covered + 1) } } h) ∧
      (visited → s.sweep.cursorFrame < h.frames → ¬ open? →
        let t := s.walkStep
        let tally := min 4294967295 (s.sweep.opened + 1)
        let going := t.sweep.opened = tally ∧ t.sweep.covered = s.sweep.covered ∧ t.sweep.round = s.sweep.round ∧
          t.sweep.r = s.sweep.r ∧ t.holdings = s.holdings ∧ t.port.reports = s.port.reports
        let inRound := fun x : Holding => (s.sweep.masks.toList.getD x.tier 0).getLsbD s.sweep.r
        Opens s t { reel := h.reel, frame := s.sweep.cursorFrame } .sweep
          (stationSet (s.holdingOf h.reel).peers) [] ∧
        (s.sweep.cursorFrame + 1 < h.frames →
          t.sweep.cursorPos = s.sweep.cursorPos ∧ t.sweep.cursorFrame = s.sweep.cursorFrame + 1 ∧ going) ∧
        (h.frames ≤ s.sweep.cursorFrame + 1 → s.sweep.cursorPos + 1 < s.holdings.length →
          t.sweep.cursorPos = s.sweep.cursorPos + 1 ∧ t.sweep.cursorFrame = 0 ∧ going) ∧
        (h.frames ≤ s.sweep.cursorFrame + 1 → s.holdings.length ≤ s.sweep.cursorPos + 1 →
          t.sweep.cursorPos = 0 ∧ t.sweep.cursorFrame = 0 ∧ t.sweep.opened = 0 ∧ t.sweep.covered = 0 ∧
            t.sweep.round = min 4294967295 (s.sweep.round + 1) ∧ t.sweep.r = (s.sweep.r + 1) % s.sweep.period ∧
            t.holdings = s.holdings.map (fun x : Holding =>
              if inRound x then { x with passes := min 65535 (x.passes + 1) } else x) ∧
            (s.port.reports.length < 64 → t.port.reports = s.port.reports ++ [{
              number := s.port.nextReport
              report := .roundDone s.sweep.round s.sweep.r (s.holdings.filter inRound).length tally
                s.sweep.covered }])) ∧
        (s.sweep.burst = 255 → t.sweep.remainder = s.sweep.remainder ∧ t.sweep.gap = s.sweep.gap ∧
          t.governor = s.governor) ∧
        (s.sweep.burst < 255 → 1 < s.sweep.remainder → t.sweep.remainder = s.sweep.remainder - 1 ∧
          t.sweep.gap = s.sweep.gap ∧ t.governor = s.governor) ∧
        (s.sweep.burst < 255 → s.sweep.remainder = 1 → t.governor = s.governor.burstEnd ∧
          (t.governor.gap = 0 → t.sweep.remainder = s.sweep.burst ∧ t.sweep.gap = s.sweep.gap) ∧
          (t.governor.gap ≠ 0 → t.sweep.remainder = 0 ∧
            t.sweep.gap = some { start := s.now, length := t.governor.gap })))

/-- The cursor moves on to the next frame of its record, or to frame 0 of the next record; onto the end of the list it
completes the round. A round that completes credits a pass, up to 65,535, to each record it visited, reports its number,
its r, the records visited and its tallies, and starts the next round at position 0. -/
def Obligations.CursorMovesOnAndRoundsComplete : Prop :=
  (∀ (h : Holding) (pos frame : Nat) (s : State),
    (s.sweep.cursorFrame + 1 < h.frames →
      s.cursorOn h = s.moveCursor s.sweep.cursorPos (s.sweep.cursorFrame + 1)) ∧
    (h.frames ≤ s.sweep.cursorFrame + 1 → s.cursorOn h = s.moveCursor (s.sweep.cursorPos + 1) 0) ∧
    (pos < s.holdings.length →
      s.moveCursor pos frame = { s with sweep := { s.sweep with cursorPos := pos, cursorFrame := frame } }) ∧
    (s.holdings.length ≤ pos →
      s.moveCursor pos frame =
        State.completeRound { s with sweep := { s.sweep with cursorPos := pos, cursorFrame := frame } })) ∧
  ∀ s : State,
    let visited := fun h : Holding => (s.sweep.masks.toList.getD h.tier 0).getLsbD s.sweep.r
    let t := s.completeRound
    t.holdings = s.holdings.map (fun h => if visited h then { h with passes := min 65535 (h.passes + 1) } else h) ∧
    t.sweep = { s.sweep with
      r := (s.sweep.r + 1) % s.sweep.period, round := min 4294967295 (s.sweep.round + 1), opened := 0, covered := 0
      cursorPos := 0, cursorFrame := 0 } ∧
    (s.port.reports.length < 64 → t.port.reports = s.port.reports ++ [{
      number := s.port.nextReport
      report := .roundDone s.sweep.round s.sweep.r (s.holdings.filter visited).length s.sweep.opened
        s.sweep.covered }]) ∧
    SameBut [.passes, .sweepRun, .reports, .counter .reportsLost] s t

/-! ### Votes: opening, orders and timers (R78 to R104) -/

/-- A vote that the sweep, a VERIFY or a REWRITTEN opens begins as R79 sets out, and offers a CALL to the stations of the
peer list when there are any; one that a CALL opens has the caller in E and in the callers list, and offers none. CALL
pending is set when the CALL joins the queue, and stays clear when none is offered, in MUTE, and when a full queue
discards the CALL itself. -/
def Obligations.VotesOpenWithTheirCall : Prop :=
  ∀ (k : Key) (s : State),
    let peers := (s.holdingOf k.reel).peers
    let pending := fun (t : State) (b : Bool) => ∃ w ∈ t.votes, w.id = s.nextVote ∧ w.key = k ∧ w.callPending = b
    (∀ o, let t := s.openCalling k o
      Opens s t k o (stationSet peers) [] ∧ SameBut openParts s t ∧
      (peers = [] ∨ s.line.state = .mute → t.line = s.line ∧ pending t false) ∧
      (peers ≠ [] → s.line.state ≠ .mute →
        (s.line.queue.length < 32 → pending t true ∧ t.line.queue = joinInOrder
          { body := .call k (stationSet peers), collisions := 0, owner := some s.nextVote, onLine := false }
          s.line.queue) ∧
        (32 ≤ s.line.queue.length →
          (∀ before victim after, s.line.queue = before ++ victim :: after → s.line.mayDiscard victim = true →
            (∀ y ∈ after, s.line.mayDiscard y = false) →
            (2 ≤ victim.body.lineClass → pending t true) ∧ (victim.body.lineClass ≤ 1 → pending t false)) ∧
          ((∀ y ∈ s.line.queue, s.line.mayDiscard y = false) → pending t false)))) ∧
    (∀ c, let t := s.openPeer k c
      Opens s t k .peer (stationSet (peers ++ [c])) [c] ∧ SameBut openParts s t ∧ t.line = s.line ∧ pending t false)

/-- VERIFY is refused NOT_HELD, then RANGE; for a key with an open vote it merges, in any state and also in a full table,
and raises ORDERED where the vote did not hold the ORDER origin; in a full table it is refused FULL; else it opens an
ORDER vote. (u is the state before fetches of 0 ms end: log 27.) -/
def Obligations.VerifyMergesOrOpens : Prop :=
  ∀ (body : List Byte) (s : State), s.ready (.verify body) = true → body.length = 8 →
    let k : Key := { reel := field body 0 4, frame := field body 4 4 }
    let done := fun u : State => u.expireIssued.answered 0x07 .done []
    ((∀ h ∈ s.holdings, h.reel ≠ k.reel) → exec (.verify body) s = .next (s.answered 0x07 .notHeld [])) ∧
    (∀ h, s.holding? k.reel = some h →
      (h.frames ≤ k.frame → exec (.verify body) s = .next (s.answered 0x07 .range [])) ∧
      (k.frame < h.frames →
        (∀ v, s.vote? k = some v →
          let merged := fun w : Vote => { w with
            origins := { w.origins with order := true }
            flags := { w.flags with ordered := w.flags.ordered || !w.origins.order } }
          ((s.votes.map Vote.id).Nodup → v.state ≠ .awaitingRead → exec (.verify body) s = .next (done { s with
            votes := s.votes.map fun w : Vote => if w.id = v.id then merged w else w })) ∧
          ∃ u, exec (.verify body) s = .next (done u) ∧ (done u).replied 0x07 .done [] ∧
            SameBut [.votes, .read, .requests] s u ∧ u.votes.map Vote.key = s.votes.map Vote.key ∧
            ∃ w ∈ u.votes, w.id = v.id ∧ w.origins = (merged v).origins ∧ w.flags = (merged v).flags) ∧
        ((∀ v ∈ s.votes, v.key ≠ k) → 24 ≤ s.votes.length →
          exec (.verify body) s = .next (s.answered 0x07 .full [])) ∧
        ((∀ v ∈ s.votes, v.key ≠ k) → s.votes.length < 24 →
          ∃ u, exec (.verify body) s = .next (done u) ∧ (done u).replied 0x07 .done [] ∧
            Opens s u k .order (stationSet h.peers) [] ∧ SameBut openParts s u)))

/-- REWRITTEN is refused NOT_PENDING without an entry in AWAITING_REWRITE, and FULL when a vote would have to be opened
in a full table. Else the entry goes to RECHECKING, its failed attempts, agreed summary and tiles kept, and the key's
vote gains the MEND origin, or a MEND vote is opened. (u is the state before fetches of 0 ms end: log 27.) -/
def Obligations.RewrittenStartsTheRecheck : Prop :=
  ∀ (body : List Byte) (s : State), s.ready (.rewritten body) = true → body.length = 8 →
    let k : Key := { reel := field body 0 4, frame := field body 4 4 }
    let rechecked := s.mends.map fun e : MendEntry => if e.key = k then { e with state := .rechecking } else e
    let done := fun u : State => u.expireIssued.answered 0x08 .done []
    ((∀ e, s.mend? k = some e → e.state = .rechecking) →
      exec (.rewritten body) s = .next (s.answered 0x08 .notPending [])) ∧
    (∀ e start, s.mend? k = some e → e.state = .awaitingRewrite start →
      (∀ v, s.vote? k = some v →
        ((s.votes.map Vote.id).Nodup → v.state ≠ .awaitingRead → exec (.rewritten body) s = .next (done { s with
          mends := rechecked
          votes := s.votes.map fun w : Vote => if w.id = v.id then
            { w with origins := { w.origins with mend := true } } else w })) ∧
        ∃ u, exec (.rewritten body) s = .next (done u) ∧ (done u).replied 0x08 .done [] ∧ u.mends = rechecked ∧
          SameBut [.mends, .votes, .read, .requests] s u ∧ u.votes.map Vote.key = s.votes.map Vote.key ∧
          ∃ w ∈ u.votes, w.id = v.id ∧ w.origins = { v.origins with mend := true } ∧ w.flags = v.flags) ∧
      ((∀ v ∈ s.votes, v.key ≠ k) → 24 ≤ s.votes.length →
        exec (.rewritten body) s = .next (s.answered 0x08 .full [])) ∧
      ((∀ v ∈ s.votes, v.key ≠ k) → s.votes.length < 24 →
        ∃ u, exec (.rewritten body) s = .next (done u) ∧ (done u).replied 0x08 .done [] ∧ u.mends = rechecked ∧
          Opens s u k .mend (stationSet (s.holdingOf k.reel).peers) [] ∧ SameBut (.mends :: openParts) s u))

/-- A timer command lets time pass to the end of the timer of its kind that is due first (of several that are due
together the rules' order: the vote opened first, the entry first in the list), and that timer alone expires: the vote
closes, the localisation ends with LOCATE_FAILED, the mend entry is removed with a MEND_LAPSED report. (That time passes
in whole slots, to the first at which the limit is reached and not at all when it has been, and that no command is due
before, are the model's: log 2, log 3.) -/
def Obligations.VoteAndMendTimersExpire : Prop :=
  (∀ (before after : List Vote) (v : Vote) (start : Nat) (s : State), Consistent s → s.votes = before ++ v :: after →
    v.timer = some start → (∀ w ∈ before, ∀ x, w.timer = some x → start < x) →
    (∀ w ∈ after, ∀ x, w.timer = some x → start ≤ x) →
    let due := start + timeOfCode s.timers.vote * 1000000
    let u := s.passUntil due
    PassesUntil s u due ∧ exec .voteTimerExpiry s = .next (u.close v).finish) ∧
  (∀ (before after : List Vote) (v : Vote) (l : Localisation) (d : Decision) (s : State), Consistent s →
    s.votes = before ++ v :: after → v.localisation = some l → v.decision = some d →
    (∀ w ∈ before, ∀ x, w.localisation = some x → l.start < x.start) →
    (∀ w ∈ after, ∀ x, w.localisation = some x → l.start ≤ x.start) →
    let due := l.start + timeOfCode s.timers.localisation * 1000000
    let u := s.passUntil due
    let failed : Vote := { v with localisation := none, flags := { v.flags with locateFailed := true } }
    PassesUntil s u due ∧ exec .localisationTimeout s = .next (({ u with
      votes := u.votes.map fun w : Vote => if w.id = v.id then failed else w }.deliver failed d none).finish)) ∧
  (∀ (before after : List MendEntry) (e : MendEntry) (start : Nat) (s : State), Consistent s →
    s.mends = before ++ e :: after → e.state = .awaitingRewrite start →
    (∀ x ∈ before, ∀ y, x.state = .awaitingRewrite y → start < y) →
    (∀ x ∈ after, ∀ y, x.state = .awaitingRewrite y → start ≤ y) →
    let due := start + s.timers.patience * 1000000000
    let u := s.passUntil due
    PassesUntil s u due ∧ exec .mendPatienceExpiry s = .next
      ((({ u with mends := before ++ after } : State).pushReport
        (.mend .lapsed e.key e.agreed e.failed none none e.badTiles)).arbitrate))

/-- At closure a vote that is decided BAD or LEADER_BAD stops its timer and enters LOCALISING, with no source and no
check received, and nothing else changes; under a localisation timeout of 0 ms its localisation ends with LOCATE_FAILED
as it begins. Any other is delivered and removed at once, a GOOD one after the TILES chunks are offered: they are, when
some READ_OK answer differs from the agreed value and the station is the lowest known to hold it, and chunk j then holds
the checks of the 32 tiles from 32j on. The missing list is the stations of E that have not answered, and the leader
test and the mend-allowed flag are those of the holding record. (VerdictIsTheFirstCase says when REF_DIFFERS is set.) -/
def Obligations.ClosureDecidesTheVote : Prop :=
  ∀ (v : Vote) (s : State), Consistent s → v ∈ s.votes →
    let h := s.holdingOf v.key.reel
    let d := v.decidedBy h
    let put := fun x : Vote => ({ s with votes := s.votes.map fun w : Vote => if w.id = v.id then x else w } : State)
    d.missing = v.expected.filter (fun t => !(v.answers.map Answer.station).contains t) ∧
    d.leader = h.isLeader v.key.frame ∧ d.mendAllowed = h.mendAllowed ∧
    (d.verdict = .bad ∨ d.verdict = .leaderBad →
      let failed : Vote := { v with
        timer := none, flags := { v.flags with refDiffers := false, locateFailed := true }, state := .localising
        decision := some d, localisation := none }
      (timeOfCode s.timers.localisation ≠ 0 → s.close v = put { v with
        timer := none, flags := { v.flags with refDiffers := false }, state := .localising, decision := some d
        localisation := some
          { source := none, received := List.replicate v.checks.length none, start := s.now } }) ∧
      (timeOfCode s.timers.localisation = 0 → s.close v = (put failed).deliver failed d none)) ∧
    (d.verdict ≠ .bad → d.verdict ≠ .leaderBad →
      let closed : Vote := { v with
        timer := none, flags := { v.flags with refDiffers := (v.judgement h).refDiffers } }
      let sends := fun x : Word => d.verdict = .good ∧ d.agreed = some x ∧
        (∃ a ∈ v.answers, a.status = .readOk ∧ ∃ p, a.summary = some p ∧ p ≠ x) ∧
        (∀ a ∈ v.answers, a.status = .readOk → a.summary = some x → s.strap.station.val < a.station)
      let n := v.checks.length
      s.close v = ((put closed).offerTiles closed d).deliver closed d none ∧
      (∀ x, sends x → (put closed).offerTiles closed d =
        ((List.range ((n + 31) / 32)).map fun j =>
          LineBody.tiles v.key x n (32 * j) ((v.checks.drop (32 * j)).take 32)).foldl
            (fun (u : State) b => u.offer { body := b, collisions := 0, owner := none, onLine := false }) (put closed)) ∧
      ((∀ x, ¬ sends x) → (put closed).offerTiles closed d = put closed) ∧
      (∀ w ∈ (s.close v).votes, w.id ≠ v.id) ∧ (s.close v).sweepState ≠ .running ∧
      (s.close v).count d.verdict.counter = min 4294967295 (s.count d.verdict.counter + 1) ∧
      SameBut deliverParts s (s.close v))

/-- At most one summary value is agreed: a value x is when twice the number of READ_OK summaries equal to x, over the own
copy and the answers, is greater than N', and N' is the larger of 1 plus the number of peers and the copies heard. -/
def Obligations.OneAgreedValueAtMost : Prop :=
  ∀ (v : Vote) (h : Holding) (x y : Word), (∀ a ∈ v.answers, a.status ≠ .readOk → a.summary = none) →
    let agreed := fun z : Word =>
      v.countedTotal h <
        2 * ((if v.own = .readOk z then 1 else 0) + (v.answers.countP fun a : Answer => a.summary = some z))
    (agreed x → agreed y → x = y) ∧
    (agreedValue (v.countedTotal h) v.summaries = some x ↔ agreed x) ∧
    v.countedTotal h = max (1 + h.peers.length)
      (1 + v.answers.countP fun a : Answer => a.status = .readOk || a.status = .unreadable)

/-- The verdict is the first case of the table that applies, and a BAD on a leader frame is LEADER_BAD. REF_DIFFERS is
set in the case of GOOD by an agreed value, by a reference that differs from it, and is clear in every other case. The
decision keeps the leader test and the mend-allowed flag of the holding record. -/
def Obligations.VerdictIsTheFirstCase : Prop :=
  ∀ (v : Vote) (h : Holding), v.own ≠ .pending →
    let x := agreedValue (v.countedTotal h) v.summaries
    let d := v.decidedBy h
    let differs := ∃ p ∈ v.peerSummaries, v.own ≠ .readOk p
    (∀ r, v.own = .unreadable r → d.verdict = .unreadable ∧ d.agreed = x ∧ d.good = x) ∧
    (∀ o, v.own = .readOk o →
      (∀ a, x = some a →
        (o = a → d.verdict = .good ∧ d.agreed = some a ∧ d.good = some a) ∧
        (o ≠ a → d.verdict = (if h.isLeader v.key.frame = true then .leaderBad else .bad) ∧ d.agreed = some a ∧
          d.good = some a)) ∧
      (x = none →
        (∀ q, v.reference = some q →
          (o = q → d.verdict = .good ∧ d.agreed = none ∧ d.good = some q) ∧
          (o ≠ q → q ∈ v.peerSummaries →
            d.verdict = (if h.isLeader v.key.frame = true then .leaderBad else .bad) ∧ d.agreed = some q ∧
              d.good = some q) ∧
          (o ≠ q → q ∉ v.peerSummaries → d.verdict = .split ∧ d.agreed = none ∧ d.good = none)) ∧
        (v.reference = none →
          (differs → d.verdict = .split ∧ d.agreed = none ∧ d.good = none) ∧
          (¬ differs → d.verdict = .unconfirmed ∧ d.agreed = none ∧ d.good = none)))) ∧
    ((v.judgement h).refDiffers = true ↔ ∃ a q, x = some a ∧ v.own = .readOk a ∧ v.reference = some q ∧ q ≠ a) ∧
    d.leader = h.isLeader v.key.frame ∧ d.mendAllowed = h.mendAllowed ∧
    (h.isLeader v.key.frame = true ↔
      v.key.frame < h.head ∨ (h.frames : Int) - (h.tail : Int) ≤ (v.key.frame : Int))

/-! ### Delivery, mending and evidence (R117 to R145) -/

/-- What the delivery of a verdict leaves: its counters, a mend entry when one is asked for and there is room, an
evidence entry for BAD, LEADER_BAD and SPLIT, a VERDICT report when the table of R120 calls for one, a history bit for a
SWEEP or PEER vote off the leader frames, and the vote gone from the table. A mend entry is asked for by a BAD or
UNREADABLE with an agreed summary, off the leader frames of a holding that allows it; the list is full for a key without
an entry when it holds 16; the good stations are those, the own one among them, whose READ_OK summary is the good value,
in ascending order. A vote removed while its CALL is pending offers the SUM it held back, at removal; of another nothing
but the walk's CALLs join the line. (The mend list's part for a MEND vote is MendVotesSettleTheirEntry.) -/
def Obligations.DeliveryLeavesItsMarks : Prop :=
  ∀ (v : Vote) (d : Decision) (located : Option Located) (s : State), v.id < s.nextVote →
    let t := s.deliver v d located
    let badTiles := located.map Located.badTiles
    let asks := (d.verdict = .bad ∨ d.verdict = .unreadable) ∧ d.leader = false ∧ d.mendAllowed = true
    let reported := v.origins.order = true ∨ (v.origins.mend = false ∧ (d.verdict ≠ .good ∨ v.flags.refDiffers = true))
    let flags := { v.flags with mendListFull := v.flags.mendListFull || (!v.origins.mend && d.asksMend &&
      s.mendFull v.key) }
    let good := v.goodStations s.strap.station.val d.good
    (d.asksMend = true ↔ asks ∧ d.agreed ≠ none) ∧
    (s.mendFull v.key = true ↔ (∀ e ∈ s.mends, e.key ≠ v.key) ∧ 16 ≤ s.mends.length) ∧
    good.Pairwise (· < ·) ∧
    (∀ x, x ∈ good ↔ ∃ y, d.good = some y ∧ ((x = s.strap.station.val ∧ v.own = .readOk y) ∨
      ∃ a ∈ v.answers, a.station = x ∧ a.status = .readOk ∧ a.summary = some y)) ∧
    t.count d.verdict.counter = min 4294967295 (s.count d.verdict.counter + 1) ∧
    (v.flags.refDiffers = true → t.count .refDiffers = min 4294967295 (s.count .refDiffers + 1)) ∧
    (v.origins.mend = false →
      (∀ x, asks → d.agreed = some x → (∀ e ∈ s.mends, e.key ≠ v.key) → s.mends.length < 16 →
        t.mends = s.mends ++
          [{ key := v.key, agreed := x, badTiles := badTiles, failed := 0, state := .awaitingRewrite s.now }]) ∧
      (¬ asks ∨ d.agreed = none ∨ (∃ e ∈ s.mends, e.key = v.key) ∨ 16 ≤ s.mends.length → t.mends = s.mends)) ∧
    (∀ x, (d.verdict = .bad ∨ d.verdict = .leaderBad ∨ d.verdict = .split) → v.own = .readOk x →
      t.evidence = (s.addEvidence { number := 0, key := v.key, verdict := d.verdict, own := x, agreed := d.agreed
                                    tiles := v.checks.length, checks := v.checks, source := located.map Located.source
                                    badTiles := badTiles }).evidence) ∧
    (d.verdict = .good ∨ d.verdict = .unreadable ∨ d.verdict = .unconfirmed → t.evidence = s.evidence) ∧
    (reported → s.port.reports.length < 63 → ∃ q ∈ t.port.reports, q.report = .verdict v.key d.verdict v.origins flags
      v.own.summary d.agreed good d.missing badTiles) ∧
    (¬ reported → ∀ q ∈ t.port.reports, q ∈ s.port.reports ∨ q.report.kind ≠ 0xC0) ∧
    ((v.origins.sweep = true ∨ v.origins.peer = true) → d.leader = false →
      t.watch = (s.watchBit (decide (d.verdict = .bad ∨ d.verdict = .unreadable)) v.key).watch) ∧
    ((v.origins.sweep = false ∧ v.origins.peer = false) ∨ d.leader = true → t.watch = s.watch) ∧
    (v.callPending = true → s.line.state ≠ .mute → v.expected ≠ [] → s.line.queue.length < 32 →
      ∀ body, s.ownSum? v = some body →
        ∃ m ∈ t.line.queue, m = { body := body, collisions := 0, owner := none, onLine := false }) ∧
    (v.callPending = false ∨ s.line.state = .mute ∨ v.expected = [] →
      ∀ m ∈ t.line.queue, m ∈ s.line.queue ∨ m.body.lineClass = 1) ∧
    (∀ w ∈ t.votes, w.id ≠ v.id) ∧ SameBut deliverParts s t

/-- The verdict of a MEND vote settles its entry: GOOD with the entry's agreed summary removes it with a MENDED report;
any other outcome is a failure, which returns the entry to AWAITING_REWRITE with its patience started afresh, or at the
third failure removes it. A failure by BAD with a bad-tile list and the entry's agreed summary gives the entry that list;
after any other failure it keeps its own. -/
def Obligations.MendVotesSettleTheirEntry : Prop :=
  ∀ (v : Vote) (d : Decision) (located : Option Located) (e : MendEntry) (before after : List MendEntry) (s : State),
    v.origins.mend = true → (s.mends.map MendEntry.key).Nodup → s.mends = before ++ e :: after → e.key = v.key →
    let t := s.deliver v d located
    let confirmed := d.verdict = .good ∧ v.own.summary = some e.agreed
    let report := fun (kind : MendReportKind) (x : MendEntry) (dv : Option Verdict) (own : Option Word) =>
      s.port.reports.length < 64 → ∃ q ∈ t.port.reports, q.report = .mend kind x.key x.agreed x.failed dv own x.badTiles
    (confirmed → t.mends = before ++ after ∧ report .mended e none none) ∧
    (¬ confirmed → 2 ≤ e.failed →
      t.mends = before ++ after ∧ report .abandoned e (some d.verdict) v.own.summary) ∧
    (¬ confirmed → e.failed < 2 → ∃ x, t.mends = before ++ x :: after ∧ x.key = e.key ∧ x.agreed = e.agreed ∧
      x.failed = e.failed + 1 ∧ x.state = .awaitingRewrite s.now ∧ report .failed x (some d.verdict) v.own.summary ∧
      (∀ l, located = some l → d.verdict = .bad → d.agreed = some e.agreed → x.badTiles = some l.badTiles) ∧
      (located = none ∨ d.verdict ≠ .bad ∨ d.agreed ≠ some e.agreed → x.badTiles = e.badTiles))

/-- The evidence buffer evicts its oldest entries, one after another and each counted, until it holds fewer than 64
entries and has the check slots the new entry needs; the new entry then joins as the youngest, with the next entry
number. An entry that finds room evicts nothing. TAKE EVIDENCE removes the oldest entry and carries it whole; with an
empty buffer it changes nothing and carries EMPTY. It is DONE either way. -/
def Obligations.EvidenceLeavesOldestFirst : Prop :=
  (∀ (e : EvidenceEntry) (s : State), e.slots ≤ 510 →
     let t := s.addEvidence e
     let full := fun rest : List EvidenceEntry => 64 ≤ rest.length ∨ 2048 < slotsOf rest + e.slots
     ∃ n, n ≤ s.evidence.entries.length ∧
       t.evidence.entries = s.evidence.entries.drop n ++ [{ e with number := s.evidence.next }] ∧
       t.evidence.next = s.evidence.next + 1 ∧
       t.count .evidenceEvicted = min 4294967295 (s.count .evidenceEvicted + n) ∧
       (∀ k < n, full (s.evidence.entries.drop k)) ∧ ¬ full (s.evidence.entries.drop n) ∧
       SameBut [.evidence, .counter .evidenceEvicted] s t) ∧
  ∀ s : State, s.ready (.takeEvidence []) = true →
    (s.evidence.entries = [] → exec (.takeEvidence []) s = .next (s.answered 0x09 .done [0])) ∧
    (∀ e rest, s.evidence.entries = e :: rest →
      exec (.takeEvidence []) s = .next ({ s with
        evidence := { entries := rest, next := s.evidence.next } }.answered 0x09 .done (1 :: e.bytes)))

/-! ### Pace governor and timer settings (R146 to R157) -/

/-- PACE of a mode other than FIXED and ADAPTIVE is refused RANGE; else it sets the mode, Dt, b, the limits, with Gmax
raised to Gmin, and G, carried or kept, clamped into them; A is set to 16 × Dt and the settle count to 0. SETTLE sets the
settle count to 8 in FIXED mode and does nothing in ADAPTIVE mode. -/
def Obligations.PaceAndSettleSetTheGovernor : Prop :=
  ∀ (body : List Byte) (s : State),
    (s.ready (.pace body) = true → body.length = 10 →
      let gmin := field body 1 2
      let gmax := max gmin (field body 3 2)
      let asked := if field body 7 1 ≠ 0 then field body 8 2 else s.governor.gap
      let paced := fun mode : PaceMode => ({ s with governor :=
        { mode := mode, gmin := gmin, gmax := gmax, target := field body 5 1, band := field body 6 1
          gap := min (max asked gmin) gmax, average := 16 * field body 5 1, settle := 0 } } : State)
      (field body 0 1 = 1 → exec (.pace body) s = .next ((paced .fixed).answered 0x0A .done [])) ∧
      (field body 0 1 = 2 → exec (.pace body) s = .next ((paced .adaptive).answered 0x0A .done [])) ∧
      (field body 0 1 ≠ 1 → field body 0 1 ≠ 2 → exec (.pace body) s = .next (s.answered 0x0A .range []))) ∧
    (s.ready (.settle []) = true →
      (s.governor.mode = .fixed → exec (.settle []) s =
        .next ({ s with governor := { s.governor with settle := 8 } }.answered 0x0B .done [])) ∧
      (s.governor.mode = .adaptive → exec (.settle []) s = .next (s.answered 0x0B .done [])))

/-- A burst end brings a step in ADAPTIVE mode, or with a settle count of 1 or more, which then goes down by 1; in FIXED
mode with a settle count of 0 nothing changes. The step grows G when A is over 16 × Dt + b, shrinks it when A is under
16 × Dt - b, and holds it otherwise. Grow adds a quarter of G and 1, up to 65,535; shrink takes away an eighth of G, and 1
at least. After a grow or a shrink G is clamped into the range in force. A step that would carry G past a limit, or that
starts at a limit and moves towards it, leaves G at the limit; with Gmin equal to Gmax every step leaves G at that
value. -/
def Obligations.StepsLeaveTheGapInRange : Prop :=
  (∀ g : Governor,
    (g.mode = .adaptive ∨ 1 ≤ g.settle → g.burstEnd = { g with gap := g.steppedGap, settle := g.settle - 1 }) ∧
    (g.mode = .fixed → g.settle = 0 → g.burstEnd = g)) ∧
  (∀ (g : Governor) (x : Nat), g.gmin ≤ g.gmax →
    (x < g.gmin → g.clamp x = g.gmin) ∧ (g.gmax < x → g.clamp x = g.gmax) ∧
    (g.gmin ≤ x → x ≤ g.gmax → g.clamp x = x)) ∧
  (∀ x, grow x = min 65535 (x + x / 4 + 1) ∧ shrink x = x - max 1 (x / 8)) ∧
  (∀ x, x < 65535 → x + 1 ≤ grow x ∧ grow x ≤ 65535) ∧ (∀ x, 0 < x → shrink x + 1 ≤ x) ∧
  grow 0 = 1 ∧ shrink 1 = 0 ∧ grow 65535 = 65535 ∧ shrink 0 = 0 ∧
  ∀ g : Governor, g.InRange →
    (16 * g.target + g.band < g.average →
      g.steppedGap = g.clamp (grow g.gap) ∧ (g.gmax ≤ grow g.gap → g.steppedGap = g.gmax)) ∧
    ((g.average : Int) < 16 * (g.target : Int) - (g.band : Int) →
      g.steppedGap = g.clamp (shrink g.gap) ∧ (shrink g.gap ≤ g.gmin → g.steppedGap = g.gmin)) ∧
    (16 * (g.target : Int) - (g.band : Int) ≤ (g.average : Int) → g.average ≤ 16 * g.target + g.band →
      g.steppedGap = g.gap) ∧
    (g.gmin = g.gmax → g.steppedGap = g.gmin)

/-- Every code from 0 to 4,095 stands for a time: m ms for e = 0, else (512 + m) × 2^(e-1) ms. The times rise with the
code and no two codes give one time; 511 and 512 give 511 and 512 ms, and 4,095 the longest, 65,472 ms. -/
def Obligations.TimeCodesRise : Prop :=
  (∀ e m, e < 8 → m < 512 →
    (e = 0 → timeOfCode (512 * e + m) = m) ∧ (1 ≤ e → timeOfCode (512 * e + m) = (512 + m) * 2 ^ (e - 1))) ∧
  (∀ a b, a < b → b ≤ 4095 → timeOfCode a < timeOfCode b) ∧
  (∀ a b, a ≤ 4095 → b ≤ 4095 → timeOfCode a = timeOfCode b → a = b) ∧
  timeOfCode 511 = 511 ∧ timeOfCode 512 = 512 ∧ timeOfCode 4095 = 65472 ∧ ∀ a ≤ 4095, timeOfCode a ≤ 65472

/-- TIMING sets the four codes, clamped to 4,095, and mend patience, a 0 clamped to 1, and is DONE; where no timer it
limits is running, nothing else changes. -/
def Obligations.TimingSetsTheLimits : Prop :=
  ∀ (body : List Byte) (s : State), s.ready (.timing body) = true → body.length = 10 →
    let limits : TimerSettings := { vote := min 4095 (field body 0 2), fetch := min 4095 (field body 2 2)
                                    localisation := min 4095 (field body 4 2), silence := min 4095 (field body 6 2)
                                    patience := max 1 (field body 8 2) }
    (s.votes = [] → s.read.fetches = [] → s.mends = [] →
      (∀ station last, s.line.heardOf station ≠ .present last) →
      exec (.timing body) s = .next ({ s with timers := limits }.answered 0x0C .done [])) ∧
    ∃ t, exec (.timing body) s = .next t ∧ t.replied 0x0C .done [] ∧ t.timers = limits ∧
      SameBut (.timers :: .roster :: .counter .fetchTimeouts :: .link :: deliverParts) s t

/-- The timers that have reached their new limits when TIMING is taken expire at once: no vote whose timer has is still
GATHERING, no fetch that has is still outstanding for its vote, no localisation that has goes on, every station whose
silence has come is SILENT, and every mend entry whose patience has run out is gone: an entry of its key can only be one
made anew, under a fetch timeout of 0 ms. (The order among the kinds is the model's choice: log 9. That fetches of 0 ms
issued on account of the order end after its own expiries is the model's reading: log 27.) -/
def Obligations.TimingExpiresWhatIsDue : Prop :=
  ∀ (body : List Byte) (s : State), s.ready (.timing body) = true → body.length = 10 → Bounded s → Consistent s →
    let ms := fun offset => timeOfCode (min 4095 (field body offset 2)) * 1000000
    ∃ t, exec (.timing body) s = .next t ∧
      (∀ v ∈ s.votes, ∀ start, v.timer = some start → start + ms 0 ≤ s.now →
        ∀ w ∈ t.votes, w.id = v.id → w.state = .localising) ∧
      (∀ f ∈ s.read.fetches, f.issued + ms 2 ≤ s.now → ∀ v ∈ s.votes, v.key = f.key →
        ∀ w ∈ t.votes, w.id = v.id → w.own = .unreadable .timeout) ∧
      (∀ v ∈ s.votes, ∀ l, v.localisation = some l → l.start + ms 4 ≤ s.now → ∀ w ∈ t.votes, w.id ≠ v.id) ∧
      (∀ station last, s.line.heardOf station = .present last → last + ms 6 ≤ s.now →
        t.line.heardOf station = .silent last) ∧
      (∀ e ∈ s.mends, ∀ start, e.state = .awaitingRewrite start →
        start + max 1 (field body 8 2) * 1000000000 ≤ s.now → ∀ x ∈ t.mends, x.key = e.key →
          ms 2 = 0 ∧ x.failed = 0 ∧ x.state = .awaitingRewrite s.now)

/-! ### Corruption watch, counters and views (R158 to R164, R170, R171) -/

/-- WATCH sets the thresholds, clamped, and the flag, and makes the alarm test; a change, or the setting of a clear flag
under an alarm that stays ON, is reported once without a key when the flag is set. A history bit joins behind the bits
held, the oldest of 256 leaving first, and the test is made again; a change is reported with the bit's key. -/
def Obligations.AlarmFollowsTheCount : Prop :=
  (∀ (body : List Byte) (s : State), s.ready (.watch body) = true → body.length = 5 →
    let tr := min 256 (max 1 (field body 0 2))
    let tf := min (tr - 1) (field body 2 2)
    let enable := decide (field body 4 1 ≠ 0)
    let ones := s.watch.history.count true
    let on := if s.watch.alarm = true then decide (tf < ones) else decide (tr ≤ ones)
    let u : State := { s with watch :=
      { history := s.watch.history, alarm := on, rising := tr, falling := tf, reportEnable := enable } }
    let report := enable = true ∧ (on ≠ s.watch.alarm ∨ (on = true ∧ s.watch.reportEnable = false))
    (report → exec (.watch body) s = .next
      ((u.pushReport (.alarm on ones s.watch.history.length tr tf none)).answered 0x0D .done [])) ∧
    (¬ report → exec (.watch body) s = .next (u.answered 0x0D .done []))) ∧
  ∀ (bit : Bool) (k : Key) (s : State),
    let held := (if 256 ≤ s.watch.history.length then s.watch.history.drop 1 else s.watch.history) ++ [bit]
    let ones := held.count true
    let on := if s.watch.alarm = true then decide (s.watch.falling < ones) else decide (s.watch.rising ≤ ones)
    let u : State := { s with watch := { s.watch with history := held, alarm := on } }
    (on ≠ s.watch.alarm → s.watch.reportEnable = true →
      s.watchBit bit k = u.pushReport (.alarm on ones held.length s.watch.rising s.watch.falling (some k))) ∧
    (on = s.watch.alarm ∨ s.watch.reportEnable = false → s.watchBit bit k = u)

/-- CLEAR COUNTERS sets all 23 counters to 0 and clears the reset-cause flags, and touches nothing else. An event counts
1 in its own counter, which stops at 4,294,967,295, and in no other. -/
def Obligations.CountersCountAndClear : Prop :=
  (∀ s : State, s.ready (.clearCounters []) = true →
    exec (.clearCounters []) s = .next ({ s with
      counters := Vector.replicate 23 0, causes := { power := false, pin := false, order := false } }.answered
        0x0E .done [])) ∧
  (∀ c, State.count { State.reset with counters := Vector.replicate 23 0 } c = 0) ∧
  ∀ (c : Counter) (s : State), (s.bump c).count c = min 4294967295 (s.count c + 1) ∧
    (∀ d, d ≠ c → (s.bump c).count d = s.count d)

/-- VIEW selects one of the eight views from its first record, and refuses any other code RANGE. PEEK carries the record
at the index and moves on; past the last record of the view as it stands it carries END and goes back to the first. Each
record carries the fields of its layout in order, most significant byte first, as its block holds them at that moment.
(How a time that is no whole number of its unit is rounded is free: log 8. The order of the answers is log 18.) -/
def Obligations.ViewAndPeekWalkTheViews : Prop :=
  ∀ s : State,
    (∀ b : Byte, s.ready (.view [b]) = true →
      (∀ v : View, b.toNat = v.code → exec (.view [b]) s =
        .next ({ s with port := { s.port with view := v, index := 0 } }.answered 0x0F .done [])) ∧
      (b.toNat = 0 ∨ 8 < b.toNat → exec (.view [b]) s = .next (s.answered 0x0F .range []))) ∧
    (s.ready (.peek []) = true →
      (∀ record, s.viewRecord? s.port.view s.port.index = some record → exec (.peek []) s =
        .next ({ s with port := { s.port with index := s.port.index + 1 } }.answered 0x10 .done
          (BitVec.ofNat 8 s.port.view.code :: record))) ∧
      (s.viewRecord? s.port.view s.port.index = none → exec (.peek []) s =
        .next ({ s with port := { s.port with index := 0 } }.answered 0x10 .done [0]))) ∧
    (∀ i, ((s.viewRecord? .status i).isSome = true ↔ i < 1) ∧
      ((s.viewRecord? .holdings i).isSome = true ↔ i < s.holdings.length) ∧
      ((s.viewRecord? .votes i).isSome = true ↔ i < s.votes.length) ∧
      ((s.viewRecord? .mend i).isSome = true ↔ i < s.mends.length) ∧
      ((s.viewRecord? .evidence i).isSome = true ↔ i < s.evidence.entries.length) ∧
      ((s.viewRecord? .roster i).isSome = true ↔ i < 32) ∧
      ((s.viewRecord? .counters i).isSome = true ↔ i < 23) ∧
      ((s.viewRecord? .settings i).isSome = true ↔ i < 1)) ∧
    let bits := fun bs : List Bool => bytesOf 1 ((bs.zipIdx.map fun x : Bool × Nat => x.1.toNat * 2 ^ x.2).sum)
    let listed := fun xs : List Nat => bytesOf 1 xs.length ++ xs.flatMap (bytesOf 1)
    let word := fun x : Option Word => bytesOf 4 ((x.map BitVec.toNat).getD 0)
    let words := fun xs : List Word => xs.flatMap fun x => bytesOf 4 x.toNat
    let key := fun k : Key => bytesOf 4 k.reel ++ bytesOf 4 k.frame
    let slots := fun e : EvidenceEntry => e.checks.length + ((e.source.map List.length).getD 0)
    s.viewRecord? .status 0 = some (bytesOf 1 s.strap.station.val ++ bits [s.causes.power, s.causes.pin, s.causes.order]
      ++ bits [s.holdAsserted]
      ++ bytesOf 1 (match s.line.state with | .listen => 1 | .joining => 2 | .active => 3 | .mute => 4)
      ++ bytesOf 1 s.line.queue.length
      ++ bytesOf 1 (match s.sweepState with
        | .suspended => 1 | .held => 2 | .gap => 3 | .idle => 4 | .backedUp => 5 | .running => 6)
      ++ bytesOf 4 s.sweep.round ++ bytesOf 1 s.sweep.r ++ bytesOf 2 s.sweep.cursorPos
      ++ (match s.holdings[s.sweep.cursorPos]? with
        | some h => bits [true] ++ bytesOf 4 h.reel
        | none => bits [false] ++ bytesOf 4 0)
      ++ bytesOf 4 s.sweep.cursorFrame ++ bytesOf 2 s.governor.gap ++ bytesOf 2 s.governor.average
      ++ bits [s.watch.alarm] ++ bytesOf 2 (s.watch.history.count true) ++ bytesOf 2 s.holdings.length
      ++ bytesOf 1 s.votes.length ++ bytesOf 1 s.read.fetches.length ++ bytesOf 1 s.mends.length
      ++ bytesOf 1 s.evidence.entries.length ++ bytesOf 2 (s.evidence.entries.map slots).sum
      ++ bytesOf 1 s.port.reports.length ++ bytesOf 2 s.port.nextReport.toNat) ∧
    (∀ i h, s.holdings[i]? = some h → s.viewRecord? .holdings i = some (bytesOf 2 i ++ bytesOf 4 h.reel
      ++ bytesOf 4 h.frames ++ bytesOf 4 h.length ++ bytesOf 1 h.tiles ++ bytesOf 1 h.tier ++ bytesOf 2 h.head
      ++ bytesOf 2 h.tail ++ bits [h.mendAllowed] ++ bytesOf 2 h.passes ++ listed h.peers)) ∧
    (∀ i v, s.votes[i]? = some v →
      let source := v.localisation.bind Localisation.source
      s.viewRecord? .votes i = some (key v.key
        ++ bits [v.origins.sweep, v.origins.peer, v.origins.order, v.origins.mend]
        ++ bytesOf 1 (match v.state with | .awaitingRead => 1 | .reading => 2 | .gathering => 3 | .localising => 4)
        ++ (match v.own with
          | .pending => [0, 0]
          | .readOk _ => [1, 0]
          | .unreadable .length => [2, 1]
          | .unreadable .timeout => [2, 2]
          | .unreadable .unreadable => [2, 3]
          | .unreadable .absent => [2, 4])
        ++ bits [v.flags.extra, v.flags.notHeldSeen, v.flags.deferredSeen, v.flags.refDiffers, v.flags.ordered,
          v.callPending, v.sumSent]
        ++ bits [v.own.summary.isSome, v.reference.isSome, v.timer.isSome, source.isSome]
        ++ word v.own.summary ++ word v.reference ++ bytesOf 2 (shownMs (s.now - v.opened))
        ++ bytesOf 2 (match v.timer with
          | some start => shownMs (start + timeOfCode s.timers.vote * 1000000 - s.now)
          | none => 0)
        ++ bytesOf 1 (source.getD 0)
        ++ bytesOf 1 (match v.localisation with
          | some l => l.received.countP Option.isSome
          | none => 0)
        ++ listed v.expected ++ listed v.callers ++ bytesOf 1 v.answers.length
        ++ v.answers.flatMap fun a : Answer => bytesOf 1 a.station
          ++ bytesOf 1 (match a.status with | .readOk => 1 | .unreadable => 2 | .notHeld => 3 | .deferred => 4)
          ++ word a.summary ++ bytesOf 1 a.tiles
          ++ bytesOf 1 (match a.ref with | .none => 0 | .same => 1 | .differ => 2))) ∧
    (∀ i e, s.mends[i]? = some e → s.viewRecord? .mend i = some (key e.key
      ++ (match e.state with | .awaitingRewrite _ => [1] | .rechecking => [2]) ++ bytesOf 1 e.failed
      ++ bytesOf 4 e.agreed.toNat
      ++ (match e.state with
        | .awaitingRewrite start => bits [true]
          ++ bytesOf 2 (shownIn 1000000000 (start + s.timers.patience * 1000000000 - s.now))
        | .rechecking => bits [false] ++ bytesOf 2 0)
      ++ listed (e.badTiles.getD []))) ∧
    (∀ i e, s.evidence.entries[i]? = some e → s.viewRecord? .evidence i = some (bytesOf 2 (slots e)
      ++ bytesOf 2 e.number.toNat ++ key e.key ++ bytesOf 1 e.verdict.code
      ++ bits [true, e.agreed.isSome, e.source.isSome] ++ bytesOf 4 e.own.toNat ++ word e.agreed ++ bytesOf 1 e.tiles
      ++ words e.checks ++ words (e.source.getD []) ++ listed (e.badTiles.getD []))) ∧
    [Verdict.bad, .leaderBad, .split].map Verdict.code = [2, 3, 5] ∧
    (∀ (i : Nat) (e : RosterEntry), s.line.roster[i]? = some e → s.viewRecord? .roster i = some (bytesOf 1 i
      ++ (match e.heard with
        | .unknown => [1] ++ bits [false, false] ++ bytesOf 2 0 ++ bytesOf 2 0
        | .present last => [2] ++ bits [true, e.holdings.isSome] ++ bytesOf 2 (shownMs (s.now - last))
          ++ bytesOf 2 (e.holdings.getD 0)
        | .silent last => [3] ++ bits [true, e.holdings.isSome] ++ bytesOf 2 (shownMs (s.now - last))
          ++ bytesOf 2 (e.holdings.getD 0)
        | .self => [4] ++ bits [false, true] ++ bytesOf 2 0 ++ bytesOf 2 s.holdings.length))) ∧
    ([Counter.votesOpened, .good, .bad, .leaderBad, .unreadable, .split, .unconfirmed, .abandoned, .refDiffers, .lineSent,
      .lineReceived, .lineBadCheck, .lineMalformed, .collisions, .lineDropped, .deferredSent, .stray, .answersOverflow,
      .lateBlocks, .blockDiscarded, .fetchTimeouts, .reportsLost, .evidenceEvicted].zipIdx.all fun x =>
        s.viewRecord? .counters x.2 = some (bytesOf 1 (x.2 + 1) ++ bytesOf 4 (s.count x.1))) = true ∧
    s.viewRecord? .settings 0 = some (bytesOf 1 s.sweep.burst ++ bytesOf 1 s.sweep.period
      ++ (s.sweep.masks.toList.flatMap fun m => bytesOf 2 m.toNat)
      ++ (match s.governor.mode with | .fixed => [1] | .adaptive => [2]) ++ bytesOf 2 s.governor.gmin
      ++ bytesOf 2 s.governor.gmax ++ bytesOf 1 s.governor.target ++ bytesOf 1 s.governor.band
      ++ bytesOf 1 s.governor.settle ++ bits [decide (1 ≤ s.governor.settle)]
      ++ bytesOf 2 s.timers.vote ++ bytesOf 2 s.timers.fetch ++ bytesOf 2 s.timers.localisation
      ++ bytesOf 2 s.timers.silence ++ bytesOf 2 (timeOfCode s.timers.vote) ++ bytesOf 2 (timeOfCode s.timers.fetch)
      ++ bytesOf 2 (timeOfCode s.timers.localisation) ++ bytesOf 2 (timeOfCode s.timers.silence)
      ++ bytesOf 2 s.timers.patience ++ bytesOf 2 s.watch.rising ++ bytesOf 2 s.watch.falling
      ++ bits [s.watch.reportEnable] ++ bytesOf 1 s.strap.station.val ++ bits [s.strap.fast]
      ++ bytesOf 1 s.strap.tileCode.val ++ bits [s.strap.holdLow]) ∧
    ∀ m : Nat, shownMs (m * 1000000) = min 65535 m ∧ shownIn 1000000000 (m * 1000000000) = m

/-! ### Resets (R174 to R177) -/

/-- RESET is DONE, and no further record is taken; its effect, once the reply has gone, and the release of the reset line
and power-on, let start begin: the START record is on the outgoing link, and every block stands at its values after
reset. The evidence buffer and the counters are kept but at power-on. (What becomes of the line's activity and of the
inputs is the model's: log 1, log 25; that RESET_ORDER_EFFECT without a RESET that has been answered, and
RESET_LINE_RELEASED on a line that is not asserted, leave the state as it is, and that RESET_LINE_ASSERTED on a line that
is asserted already makes the reset again, is the model's choice: log 21.) -/
def Obligations.ResetsLeaveTheResetValues : Prop :=
  let roster := fun pins : Strap =>
    (Vector.replicate 32 { heard := .unknown, holdings := none } : Vector RosterEntry 32).set pins.station.val
      { heard := .self, holdings := none } pins.station.isLt
  let blank := fun s : State => ({ s with
    read := { fetches := [], tagCounter := 0 }, holdings := [], votes := [], mends := []
    sweep := { suspended := true, gap := none, cursorPos := 0, cursorFrame := 0, round := 0, r := 0, period := 1
               masks := #v[1, 1, 1, 1], burst := 16, remainder := 16, opened := 0, covered := 0 }
    line := { state := .listen, listenCount := 0, quietCount := 0
              activity := if s.line.activity = .other then .other else .quiet, queue := []
              roster := Vector.replicate 32 { heard := .unknown, holdings := none }, beacon := none }
    governor := { mode := .adaptive, gmin := 0, gmax := 1000, target := 2, band := 8, gap := 100, average := 32
                  settle := 0 }
    timers := { vote := 1536, fetch := 2560, localisation := 1024, silence := 2048, patience := 3600 }
    watch := { history := [], alarm := false, rising := 8, falling := 2, reportEnable := true }
    port := { inbound := s.port.inbound, start := none, reply := none, requests := [], reports := []
              nextReport := 0, link := none, resetTaken := false, view := .status, index := 0 } } : State)
  let begun := fun (s : State) (pins : Strap) => ({ s with
    strapPins := pins, strap := pins, line := { s.line with roster := roster pins }
    port := { s.port with link := some (.start
      { causes := s.causes, strap := pins, evidence := s.evidence.entries.length }) } } : State)
  ∀ (pins : Strap) (s : State),
    (s.ready (.reset []) = true →
      exec (.reset []) s = .next ({ s with port := { s.port with resetTaken := true } }.answered 0x11 .done [])) ∧
    (s.port.resetTaken = true → s.port.replyStands = false →
      exec (.resetOrderEffect pins) s =
        .next (begun { blank s with causes := { s.causes with order := true } } pins)) ∧
    (s.port.resetTaken = false ∨ s.port.replyStands = true → exec (.resetOrderEffect pins) s = .next s) ∧
    (let powered : State := { blank s with
      causes := { power := true, pin := false, order := false }, evidence := { entries := [], next := 0 }
      counters := Vector.replicate 23 0 }
     (s.resetLine = false → exec (.powerOn pins) s = .next (begun powered pins)) ∧
     (s.resetLine = true → exec (.powerOn pins) s = .next { powered with strapPins := pins })) ∧
    exec .resetLineAsserted s =
      .next { blank s with causes := { s.causes with pin := true }, resetLine := true } ∧
    (s.resetLine = true → s.port.link = none → s.port.start = none →
      exec (.resetLineReleased pins) s = .next (begun { s with resetLine := false } pins)) ∧
    (s.resetLine = false → exec (.resetLineReleased pins) s = .next s)

/-! ### The read engine (R4 to R17) -/

/-- The parts of a BLOCK, and how it is sorted: one too short for its fixed fields is discarded; its depth moves A an
eighth of the way to 16 × d; one whose tag is no BUSY slot's is late; one of another tile index is discarded and counted;
one of a wrong byte count ends the fetch with LENGTH; a good one gives its tile check, and from tile 0 its reference, to
the vote, and the last tile ends the fetch with READ_OK and the summary folded from all the checks. (FetchesEndUnreadable
says what State.finish does.) -/
def Obligations.BlocksAreSortedByTagIndexAndLength : Prop :=
  (∀ (tag index depth q0 q1 q2 q3 mark : Byte) (tile : List Byte), mark ≠ 0 →
    readBlock (tag :: index :: depth :: 0 :: tile) =
      some { tag := tag, index := index.toNat, depth := depth.toNat, reference := none, tile := tile } ∧
    readBlock (tag :: index :: depth :: mark :: q0 :: q1 :: q2 :: q3 :: tile) =
      some { tag := tag, index := index.toNat, depth := depth.toNat, reference := some (q0 ++ q1 ++ q2 ++ q3)
             tile := tile }) ∧
  ∀ (body : List Byte) (s : State), s.ready (.block body) = true →
    (body.length < 4 ∨ (body.getD 3 0 ≠ 0 ∧ body.length < 8) →
      exec (.block body) s = .next { s with port := s.port.arbitrate }) ∧
    ∀ b, readBlock body = some b →
      let a := s.governor.average
      let u : State := { s with governor := { s.governor with
        average := if a ≤ 16 * b.depth then a + (16 * b.depth - a) / 8 else a - (a - 16 * b.depth) / 8 } }
      ((∀ f ∈ s.read.fetches, f.tag ≠ b.tag) → exec (.block body) s = .next (u.bump .lateBlocks).finish) ∧
      ∀ f v, Consistent s → f ∈ s.read.fetches → f.tag = b.tag → v ∈ s.votes → v.key = f.key →
        let h := s.holdingOf f.key.reel
        let length := tileLength h.length (tileSize s.strap.tileCode) h.tiles f.next
        let taken : Vote := { v with
          checks := v.checks ++ [tileCheck b.tile], reference := if f.next = 0 then b.reference else v.reference }
        let stored : State := { u with votes := s.votes.map fun w : Vote => if w.id = v.id then taken else w }
        (b.index ≠ f.next → exec (.block body) s = .next (u.bump .blockDiscarded).finish) ∧
        (b.index = f.next → b.tile.length ≠ length →
          exec (.block body) s = .next (u.endUnreadable f .length true).finish) ∧
        (b.index = f.next → b.tile.length = length → f.next + 1 ≠ h.tiles →
          exec (.block body) s = .next (State.finish { stored with
            read := { s.read with fetches := s.read.fetches.map fun g : Fetch =>
              if g.tag = f.tag then { g with next := g.next + 1 } else g } })) ∧
        (b.index = f.next → b.tile.length = length → f.next + 1 = h.tiles →
          exec (.block body) s = .next ((State.ownStatusKnown { stored with
            read := { s.read with fetches := s.read.fetches.filter fun g : Fetch => g.tag ≠ f.tag } } v.id
              (.readOk (frameSummary taken.checks)) taken.checks).finish))

/-- FETCH FAILED ends the fetch of its tag with its reason and no CANCEL, is late when no BUSY slot has the tag, and is
discarded when its form is wrong. FETCH_TIMEOUT ends, with TIMEOUT, a CANCEL and a count, the fetch whose timeout is due
first, of several the one issued first. (That time passes to the end of the slot in which that comes, and not at all
when it has come, is the model's: log 2, log 3.) A fetch that ends so frees its slot, its CANCEL is made first, and its
vote's own status is UNREADABLE with the reason. At the end of a command that can issue fetches, a fetch timeout of 0 ms
ends every outstanding fetch, one after another in the order of issue, until none is left (that no other record is taken
meanwhile is the model's reading: log 27); any other timeout ends none. -/
def Obligations.FetchesEndUnreadable : Prop :=
  (∀ (tag code : Byte) (s : State), s.ready (.fetchFailed [tag, code]) = true →
    (code.toNat ≠ 1 → code.toNat ≠ 2 →
      exec (.fetchFailed [tag, code]) s = .next { s with port := s.port.arbitrate }) ∧
    (code.toNat = 1 ∨ code.toNat = 2 →
      ((∀ f ∈ s.read.fetches, f.tag ≠ tag) →
        exec (.fetchFailed [tag, code]) s = .next (s.bump .lateBlocks).arbitrate) ∧
      ∀ f, Consistent s → f ∈ s.read.fetches → f.tag = tag → exec (.fetchFailed [tag, code]) s = .next
        (s.endUnreadable f (if code.toNat = 1 then .unreadable else .absent) false).finish)) ∧
  (∀ (body : List Byte) (s : State), s.ready (.fetchFailed body) = true → body.length ≠ 2 →
    exec (.fetchFailed body) s = .next { s with port := s.port.arbitrate }) ∧
  (∀ (before after : List Fetch) (f : Fetch) (s : State), Consistent s → s.read.fetches = before ++ f :: after →
    (∀ g ∈ before, f.issued < g.issued) → (∀ g ∈ after, f.issued ≤ g.issued) →
    let due := f.issued + timeOfCode s.timers.fetch * 1000000
    let u := s.passUntil due
    PassesUntil s u due ∧ exec .fetchTimeout s = .next (((u.bump .fetchTimeouts).endUnreadable f .timeout true).finish)) ∧
  (∀ s : State, s.finish = s.expireIssued.arbitrate ∧ SameBut expiryParts s s.expireIssued ∧
    (timeOfCode s.timers.fetch ≠ 0 ∨ s.read.fetches = [] → s.expireIssued = s) ∧
    (timeOfCode s.timers.fetch = 0 → Bounded s → Consistent s → s.expireIssued.read.fetches = [] ∧
      ∀ f rest, s.read.fetches = f :: rest →
        s.expireIssued = ((s.bump .fetchTimeouts).endUnreadable f .timeout true).expireIssued) ∧
    (s.sweepState ≠ .running → s.expireIssued.sweepState ≠ .running)) ∧
  ∀ (f : Fetch) (v : Vote) (reason : Reason) (cancel : Bool) (s : State), Consistent s → v ∈ s.votes →
    v.key = f.key → s.endUnreadable f reason cancel = State.ownStatusKnown { s with
      read := { s.read with fetches := s.read.fetches.filter fun g : Fetch => g.tag ≠ f.tag }
      port := { s.port with
        requests := s.port.requests ++ if cancel = true then [.cancel f.tag f.key] else [] } } v.id
      (.unreadable reason) []

/-- Once a vote's own status is known it is GATHERING and its timer runs, the arbiter acts, and it offers its SUM, unless
its CALL is pending, the unit is in MUTE or E is empty: u is the state that leaves, and w the vote in it. While a station
of E has neither answered nor fallen SILENT the vote goes on gathering in u; else, and under a vote timeout of 0 ms in any
case, it closes from u. (That under 0 ms it closes after its SUM has been offered is the model's reading: log 27.) -/
def Obligations.OwnStatusMovesTheVoteOn : Prop :=
  ∀ (v : Vote) (own : OwnStatus) (checks : List Word) (s : State), (s.votes.map Vote.id).Nodup → v ∈ s.votes →
    own ≠ .pending →
    let t := s.ownStatusKnown v.id own checks
    let u := ((s.modifyVote v.id fun x =>
      { x with state := .gathering, own := own, checks := checks, timer := some s.now }).issue).offerOwnSum v.id
    let waits := ∃ x ∈ v.expected, v.answered x = false ∧ s.line.isSilent x = false
    let n := (s.holdingOf v.key.reel).tiles
    let body := match own with
      | .readOk x => LineBody.sum v.key .readOk x n
        (match v.reference with | none => .none | some q => if q = x then .same else .differ)
      | .pending | .unreadable _ => LineBody.sum v.key .unreadable 0 n .none
    let offers := v.callPending = false ∧ s.line.state ≠ .mute ∧ v.expected ≠ []
    SameBut deliverParts s t ∧ SameBut [.read, .votes, .requests, .lineQueue, .counter .lineDropped] s u ∧
    (∃ w ∈ u.votes, w.id = v.id ∧ w.key = v.key ∧ w.state = .gathering ∧ w.own = own ∧ w.checks = checks ∧
      w.reference = v.reference ∧ w.timer = some s.now ∧ w.answers = v.answers ∧ w.expected = v.expected ∧
      w.flags = v.flags ∧ w.origins = v.origins ∧ w.callers = v.callers ∧ w.callPending = v.callPending ∧
      (w.sumSent = true ↔ v.sumSent = true ∨ offers) ∧
      (waits → timeOfCode s.timers.vote ≠ 0 → t = u) ∧
      (¬ waits ∨ timeOfCode s.timers.vote = 0 → t = u.close w)) ∧
    (¬ offers → u.line = s.line) ∧
    (offers → s.line.queue.length < 32 → u.line.queue = joinInOrder
      { body := body, collisions := 0, owner := none, onLine := false } s.line.queue) ∧
    s.ownSum? { v with own := own } = some body

/-- The arbiter chooses among the waiting votes that are eligible by issue class, MEND, ORDER, PEER, SWEEP, and within a
class the one opened first; under hold only a vote of the PEER or MEND origin is eligible, and only while all four slots
are FREE. A fetch takes the next tag that no BUSY slot has, expects tile 0, and is asked for with a FETCH. It issues to
the vote it chooses, again and again, until no slot is FREE or no vote is eligible. -/
def Obligations.ArbiterIssuesByClassAndAge : Prop :=
  ∀ s : State,
    let eligible := fun v : Vote => v.state = .awaitingRead ∧
      (s.holdAsserted = true → (v.origins.peer = true ∨ v.origins.mend = true) ∧ s.read.fetches = [])
    let rank := fun v : Vote =>
      if v.origins.mend = true then 0 else if v.origins.order = true then 1 else if v.origins.peer = true then 2 else 3
    (s.chosen? = none ↔ ∀ v ∈ s.votes, ¬ eligible v) ∧
    (∀ v, s.chosen? = some v ↔ ∃ before after, s.votes = before ++ v :: after ∧ eligible v ∧
      (∀ w ∈ before, eligible w → rank v < rank w) ∧ (∀ w ∈ after, eligible w → rank v ≤ rank w)) ∧
    (∀ v, ∃ tag, s.issueFor v = { s with
        read := { fetches := s.read.fetches ++ [{ tag := tag, key := v.key, next := 0, issued := s.now }]
                  tagCounter := tag + 1 }
        votes := s.votes.map fun w : Vote => if w.id = v.id then { w with state := .reading, checks := [] } else w
        port := { s.port with requests := s.port.requests ++ [.fetch tag v.key (s.holdingOf v.key.reel).tiles] } } ∧
      (s.read.fetches.length < 4 →
        (∀ f ∈ s.read.fetches, f.tag ≠ tag) ∧
        ∃ j : Nat, tag = s.read.tagCounter + BitVec.ofNat 8 j ∧
          ∀ i < j, ∃ f ∈ s.read.fetches, f.tag = s.read.tagCounter + BitVec.ofNat 8 i)) ∧
    (∀ v, s.read.fetches.length < 4 → s.chosen? = some v → s.issue = (s.issueFor v).issue) ∧
    (4 ≤ s.read.fetches.length ∨ s.chosen? = none → s.issue = s) ∧
    (4 ≤ s.issue.read.fetches.length ∨ s.issue.chosen? = none) ∧
    (∃ n ≤ 4, s.issue.read.fetches.length = s.read.fetches.length + n)

/-- HOLD_ASSERTED moves the hold line to its asserted level and nothing else. HOLD_RELEASED moves it back: the arbiter
acts without the limits of hold and the sweep derives its state and may walk, so that no vote waits while a slot is FREE
and the sweep does not stay RUNNING: u is the state that leaves, before fetches of 0 ms end (log 27). Without an
assertion there is no release, and HOLD_RELEASED leaves the state as it is (the model's choice: log 21). -/
def Obligations.HoldLineStopsAndReleases : Prop :=
  ∀ s : State,
    (exec .holdAsserted s = .next { s with holdHigh := !s.strap.holdLow } ∧
      State.holdAsserted { s with holdHigh := !s.strap.holdLow } = true) ∧
    (s.holdAsserted = false → exec .holdReleased s = .next s) ∧
    (s.holdAsserted = true →
      let u := (State.issue { s with holdHigh := s.strap.holdLow }).walk
      exec .holdReleased s = .next u.finish ∧ u.holdHigh = s.strap.holdLow ∧ u.holdAsserted = false ∧
      u.sweepState ≠ .running ∧ (4 ≤ u.read.fetches.length ∨ ∀ v ∈ u.votes, v.state ≠ .awaitingRead) ∧
      SameBut (.holdHigh :: walkParts) s u)

/-! ### The vault line: receiving (R63 to R75, R83 to R97, R113 to R115) -/

/-- Activity on the line is sorted: a fragment of a collision changes nothing but that the line is quiet again; a frame
that fails its line check, and one that is malformed, are counted and nothing else; a frame whose check passes is
handled as the frame of its kind that it carries. In reset none of them is taken: each leaves the line quiet and changes
nothing else (the model's reading: log 11). While a frame of the unit is on the line each leaves the state as it is (the
model's reading: log 17). An activity fails the line check when it does not begin with the start delimiter, is shorter
or longer than its length field says, or carries another line check than that of its header and body. A frame is
malformed just when its kind is unlisted, its source is over 31, its body is not of the length of its kind, its key is
out of range, or a status, reference state, listed count, counted station, tile count, check count, mode or holdings
count is; no first index makes it so. (That CANDIDATE_FRAME with a check that passes is handled as the frame it carries
is the model's reading: log 22; so are that a wrong start delimiter fails the line check, and that no summary makes a
SUM malformed: log 15.) -/
def Obligations.FramesAreCheckedAndTestedForForm : Prop :=
  (∀ s : State,
    (∀ jam bytes source body, ∀ i ∈ [Instr.candidateFrame jam bytes, .sum source body, .call source body,
        .tiles source body, .present source body],
      (s.resetLine = true →
        exec i s = .next { s with line := { s.line with activity := .quiet, quietCount := 0 } }) ∧
      (s.resetLine = false → s.line.transmitting = true → exec i s = .next s)) ∧
    (s.hears = true →
      let quiet : State := { s with line := { s.line with activity := .quiet, quietCount := 0 } }
      (∀ bytes, exec (.candidateFrame true bytes) s = .next quiet.finish) ∧
      (∀ bytes, checkCandidate bytes = none →
        exec (.candidateFrame false bytes) s = .next (quiet.bump .lineBadCheck).finish) ∧
      (∀ (kind source : Byte) (body : List Byte), body.length ≤ 65535 →
        let covered := [kind, source] ++ bytesOf 2 body.length ++ body
        let frame := [0xA5] ++ covered ++ bytesOf 2 (lineCheck covered).toNat
        (∀ other, other ≠ frame → other.take (4 + 1 + body.length) = [0xA5] ++ covered → checkCandidate other = none) ∧
        (readFrame kind source body = none →
          exec (.candidateFrame false frame) s = .next (quiet.bump .lineMalformed).finish) ∧
        (kind = 1 → exec (.candidateFrame false frame) s = exec (.sum source body) s) ∧
        (kind = 2 → exec (.candidateFrame false frame) s = exec (.call source body) s) ∧
        (kind = 3 → exec (.candidateFrame false frame) s = exec (.tiles source body) s) ∧
        (kind = 4 → exec (.candidateFrame false frame) s = exec (.present source body) s) ∧
        (readFrame 1 source body = none → exec (.sum source body) s = .next (quiet.bump .lineMalformed).finish) ∧
        (readFrame 2 source body = none → exec (.call source body) s = .next (quiet.bump .lineMalformed).finish) ∧
        (readFrame 3 source body = none → exec (.tiles source body) s = .next (quiet.bump .lineMalformed).finish) ∧
        (readFrame 4 source body = none → exec (.present source body) s = .next (quiet.bump .lineMalformed).finish)))) ∧
  (∀ bytes : List Byte, let size := field bytes 3 2
    (checkCandidate bytes = none ↔ bytes.head? ≠ some 0xA5 ∨ bytes.length ≠ 7 + size ∨
      field bytes (5 + size) 2 ≠ (lineCheck ((bytes.drop 1).take (4 + size))).toNat)) ∧
  ∀ (kind source : Byte) (body : List Byte),
    let badKey := field body 0 4 = 0 ∨ 262142 < field body 4 4
    readFrame kind source body = none ↔ kind.toNat = 0 ∨ 4 < kind.toNat ∨ 31 < source.toNat ∨
      (kind.toNat = 1 ∧ (body.length ≠ 15 ∨ badKey ∨ field body 8 1 = 0 ∨ 4 < field body 8 1 ∨
        2 < field body 14 1)) ∨
      (kind.toNat = 2 ∧ (body.length ≠ 13 ∨ badKey ∨ field body 8 1 = 0 ∨ 4 < field body 8 1 ∨
        ∃ x ∈ (body.drop 9).take (field body 8 1), 31 < x.toNat)) ∨
      (kind.toNat = 3 ∧ (body.length ≠ 15 + 4 * field body 14 1 ∨ badKey ∨ field body 12 1 = 0 ∨
        field body 14 1 = 0 ∨ 32 < field body 14 1)) ∨
      (kind.toNat = 4 ∧ (body.length ≠ 3 ∨ (field body 0 1 ≠ 1 ∧ field body 0 1 ≠ 2) ∨ 512 < field body 1 2))

/-- Every line frame whose fields are in range, all that the station can build among them, passes the line check and the
tests of form of a receiver, and is read as the message it was built from. (That a SUM of UNREADABLE, NOT_HELD or
DEFERRED is read with a summary other than 0 too, which no station builds, is the model's reading: log 15.) -/
def Obligations.LineFramesReadAsBuilt : Prop :=
  ∀ (station : Nat) (b : LineBody), station ≤ 31 →
    (match b with
      | .sum k _ _ n _ => 1 ≤ k.reel ∧ k.reel < 4294967296 ∧ k.frame ≤ 262142 ∧ n ≤ 255
      | .call k listed => 1 ≤ k.reel ∧ k.reel < 4294967296 ∧ k.frame ≤ 262142 ∧ 1 ≤ listed.length ∧ listed.length ≤ 4 ∧
        ∀ x ∈ listed, x ≤ 31
      | .tiles k _ n first checks => 1 ≤ k.reel ∧ k.reel < 4294967296 ∧ k.frame ≤ 262142 ∧ 1 ≤ n ∧ n ≤ 255 ∧
        first ≤ 255 ∧ 1 ≤ checks.length ∧ checks.length ≤ 32
      | .present _ holdings => holdings ≤ 512) →
    ∃ f, checkCandidate (b.frameBytes station) = some f ∧ f.kind.toNat = b.kind ∧ f.source.toNat = station ∧
      readFrame f.kind f.source f.body = some b

/-- A valid frame of another station makes its roster entry PRESENT and restarts its last-heard time; from SILENT that
is reported. It is then delivered, and under a silence limit of 0 ms the station is SILENT again as soon as that is done
(that the delivery comes first is the model's reading: log 27). One with the own station number mutes the unit: its
queue is discarded and counted, its beacon stops, a CALL lost clears CALL pending in its vote and the votes are
otherwise as before, and DUPLICATE is reported; in MUTE it is counted and nothing else. -/
def Obligations.StationsAreHeardAndDuplicatesMute : Prop :=
  ∀ (kind source : Byte) (body : List Byte) (b : LineBody) (s : State), readFrame kind source body = some b →
    s.hears = true →
    let u := s.afterFrame source.toNat
    let i : Instr := match b with
      | .sum _ _ _ _ _ => .sum source body
      | .call _ _ => .call source body
      | .tiles _ _ _ _ _ => .tiles source body
      | .present _ _ => .present source body
    (source.toNat ≠ s.strap.station.val →
      let v := u.deliverBody source.toNat b
      exec i s = .next (v.frameDone source.toNat) ∧
      (timeOfCode s.timers.silence ≠ 0 → v.frameDone source.toNat = v.finish) ∧
      (timeOfCode s.timers.silence = 0 → v.frameDone source.toNat = (v.expireSilence source.toNat).finish ∧
        (v.expireSilence source.toNat).line.heardOf source.toNat = .silent s.now) ∧
      u.line.heardOf source.toNat = .present s.now ∧
      (∀ x, x ≠ source.toNat → u.line.heardOf x = s.line.heardOf x) ∧
      u.count .lineReceived = min 4294967295 (s.count .lineReceived + 1) ∧
      u.line.quietCount = 0 ∧ u.line.activity = .quiet ∧
      (s.line.isSilent source.toNat = false →
        SameBut [.roster, .lineClock, .counter .lineReceived] s u) ∧
      (s.line.isSilent source.toNat = true →
        SameBut [.roster, .lineClock, .counter .lineReceived, .reports, .counter .reportsLost] s u ∧
        (s.port.reports.length < 64 → u.port.reports = s.port.reports ++
          [{ number := s.port.nextReport, report := .station source.toNat .present }]))) ∧
    (source.toNat = s.strap.station.val →
      let quiet : State := { s with line := { s.line with activity := .quiet, quietCount := 0 } }
      (s.line.state = .mute → exec i s = .next (quiet.bump .lineReceived).finish) ∧
      (s.line.state ≠ .mute → ∃ t, exec i s = .next t.finish ∧ t.line.state = .mute ∧ t.line.queue = [] ∧
        t.line.beacon = none ∧ t.line.roster = s.line.roster ∧
        t.count .lineDropped = min 4294967295 (s.count .lineDropped + s.line.queue.length) ∧
        t.count .lineReceived = min 4294967295 (s.count .lineReceived + 1) ∧
        (s.port.reports.length < 64 → t.port.reports = s.port.reports ++
          [{ number := s.port.nextReport, report := .station s.strap.station.val .duplicate }]) ∧
        (t.votes = s.votes.map fun w : Vote =>
          if s.line.queue.any (fun m => decide (m.body.lineClass = 1 ∧ m.owner = some w.id)) = true
          then { w with callPending := false } else w) ∧
        SameBut [.lineState, .lineQueue, .beacon, .lineClock, .votes, .counter .lineReceived, .counter .lineDropped,
          .reports, .counter .reportsLost] s t))

/-- A SUM for a key without a vote, or whose vote is in LOCALISING, is STRAY; one of a ninth station is discarded; any
other is recorded, in place of the station's earlier answer, with its flags, and in GATHERING the closure test follows.
(StationsAreHeardAndDuplicatesMute says what State.frameDone does.) -/
def Obligations.SumsAreRecordedOrStray : Prop :=
  ∀ (source : Byte) (body : List Byte) (k : Key) (status : SumStatus) (x : Word) (n : Nat) (ref : RefState) (s : State),
    readFrame 1 source body = some (.sum k status x n ref) → s.hears = true → source.toNat ≠ s.strap.station.val →
    let station := source.toNat
    let u := s.afterFrame station
    let a : Answer := { station := station, status := status, summary := if status = .readOk then some x else none
                        tiles := n, ref := ref }
    ((∀ v ∈ s.votes, v.key ≠ k) → exec (.sum source body) s = .next ((u.bump .stray).frameDone station)) ∧
    ∀ v, Consistent s → v ∈ s.votes → v.key = k →
      let answers := if v.answered station = true then
        v.answers.map fun b : Answer => if b.station = station then a else b else v.answers ++ [a]
      let recorded : Vote := { v with
        answers := answers
        flags := { v.flags with
          extra := v.flags.extra || !v.expected.contains station
          notHeldSeen := v.flags.notHeldSeen || decide (status = .notHeld)
          deferredSeen := v.flags.deferredSeen || decide (status = .deferred) } }
      let stored : State := { u with votes := s.votes.map fun w : Vote => if w.id = v.id then recorded else w }
      let complete := ∀ y ∈ v.expected, y = station ∨ v.answered y = true ∨ u.line.isSilent y = true
      (v.state = .localising → exec (.sum source body) s = .next ((u.bump .stray).frameDone station)) ∧
      (v.state ≠ .localising → v.answered station = false → 8 ≤ v.answers.length →
        exec (.sum source body) s = .next ((u.bump .answersOverflow).frameDone station)) ∧
      (v.state ≠ .localising → v.answered station = true ∨ v.answers.length < 8 →
        (v.state ≠ .gathering ∨ ¬ complete → exec (.sum source body) s = .next (stored.frameDone station)) ∧
        (v.state = .gathering → complete → exec (.sum source body) s = .next ((stored.close recorded).frameDone station)))

/-- A CALL for a key with a vote merges: the caller joins E and the callers and PEER is added, in LOCALISING the callers
alone; a vote whose own status is known offers its SUM again. For a key without one: a held frame opens a PEER vote, or
is answered DEFERRED from a full table; another is answered NOT_HELD when the station is listed, and else ignored. -/
def Obligations.CallsMergeOpenOrAreAnswered : Prop :=
  ∀ (source : Byte) (body : List Byte) (k : Key) (listed : List Nat) (s : State),
    readFrame 2 source body = some (.call k listed) → s.hears = true → source.toNat ≠ s.strap.station.val →
    let c := source.toNat
    let u := s.afterFrame c
    let held := k.frame < (s.holdingOf k.reel).frames
    let answer := fun status : SumStatus => ({
      body := .sum k status 0 0 .none, collisions := 0, owner := none, onLine := false } : Message)
    ((∀ v ∈ s.votes, v.key ≠ k) →
      (held → s.votes.length < 24 → ∃ t, exec (.call source body) s = .next (t.frameDone c) ∧
        Opens s t k .peer (stationSet ((s.holdingOf k.reel).peers ++ [c])) [c] ∧ t.line = u.line ∧
        SameBut openParts u t) ∧
      (held → 24 ≤ s.votes.length →
        exec (.call source body) s = .next (((u.bump .deferredSent).offer (answer .deferred)).frameDone c)) ∧
      (¬ held → s.strap.station.val ∈ listed →
        exec (.call source body) s = .next ((u.offer (answer .notHeld)).frameDone c)) ∧
      (¬ held → s.strap.station.val ∉ listed → exec (.call source body) s = .next (u.frameDone c))) ∧
    ∀ v, Consistent s → v ∈ s.votes → v.key = k →
      ∃ t, exec (.call source body) s = .next (t.frameDone c) ∧ SameBut (.read :: .requests :: offerParts) u t ∧
        ∃ w ∈ t.votes, w.id = v.id ∧ w.key = k ∧ w.answers = v.answers ∧ w.own = v.own ∧
          w.callers = insertStation c v.callers ∧
          (v.state = .localising → w.expected = v.expected ∧ w.origins = v.origins) ∧
          (v.state ≠ .localising → w.expected = insertStation c v.expected ∧
            w.origins = { v.origins with peer := true }) ∧
          (v.own = .pending → t.line = u.line) ∧
          (v.own ≠ .pending → s.line.state ≠ .mute → v.callPending = false →
            w.expected ≠ [] → s.line.queue.length < 32 →
            w.sumSent = true ∧ ∃ m ∈ t.line.queue, s.ownSum? v = some m.body)

/-- A TILES chunk is STRAY but for a vote in LOCALISING. There it is ignored unless it carries the vote's agreed summary
and comes from the source, or, when there is no source yet, from a station whose answer is READ_OK with that summary.
With another tile count it ends the localisation with GEOMETRY_DIFFERS. Else its checks are placed, check j in place f +
j and every other place as it was; when every place is marked the list is verified: a fold equal to the agreed summary
completes the localisation with the tiles that differ, any other drops the source. (A chunk that runs past the end
changes nothing at all: log 16.) -/
def Obligations.TileChunksLocaliseTheBadTiles : Prop :=
  ∀ (source : Byte) (body : List Byte) (k : Key) (x : Word) (n first : Nat) (checks : List Word) (s : State),
    readFrame 3 source body = some (.tiles k x n first checks) → s.hears = true →
    source.toNat ≠ s.strap.station.val →
    let station := source.toNat
    let u := s.afterFrame station
    ((∀ v ∈ s.votes, v.key = k → v.state ≠ .localising) →
      exec (.tiles source body) s = .next ((u.bump .stray).frameDone station)) ∧
    ∀ v l d, Consistent s → v ∈ s.votes → v.key = k → v.localisation = some l → v.decision = some d →
      let candidate := d.agreed = some x ∧ (l.source = some station ∨ (l.source = none ∧
        ∃ a ∈ v.answers, a.station = station ∧ a.status = .readOk ∧ a.summary = some x))
      let put := fun w : Vote => ({ u with
        votes := s.votes.map fun y : Vote => if y.id = v.id then w else y } : State)
      let ended : Vote := { v with localisation := none, flags := { v.flags with geometryDiffers := true } }
      let places := placeChecks first checks l.received
      let marked : Vote := { v with localisation := some { l with source := some station, received := places } }
      places.length = l.received.length ∧
      (∀ j c, checks[j]? = some c → first + j < l.received.length → places[first + j]? = some (some c)) ∧
      (∀ i, i < first ∨ first + checks.length ≤ i → places[i]? = l.received[i]?) ∧
      (¬ candidate → exec (.tiles source body) s = .next (u.frameDone station)) ∧
      (candidate → n ≠ v.checks.length →
        exec (.tiles source body) s = .next (((put ended).deliver ended d none).frameDone station)) ∧
      (candidate → n = v.checks.length → n < first + checks.length →
        exec (.tiles source body) s = .next (u.frameDone station)) ∧
      (candidate → n = v.checks.length → first + checks.length ≤ n →
        (none ∈ places → exec (.tiles source body) s = .next ((put marked).frameDone station)) ∧
        (∀ full, places = full.map some →
          (frameSummary full ≠ x → exec (.tiles source body) s = .next ((put { v with
            localisation := some { l with source := none, received := List.replicate n none } }).frameDone station)) ∧
          (frameSummary full = x → exec (.tiles source body) s = .next (((put marked).deliver marked d
            (some { source := full
                    badTiles := (List.range full.length).filter fun i => v.checks[i]? ≠ full[i]? })).frameDone station))))

/-- A PRESENT of another station records its holding count in the roster; one of mode JOINING heard in ACTIVE calls forth
a PRESENT BEACON with the own holding count, unless one is queued. -/
def Obligations.PresentRecordsTheHoldingCount : Prop :=
  ∀ (source : Byte) (body : List Byte) (mode : PresenceMode) (count : Nat) (s : State),
    readFrame 4 source body = some (.present mode count) → s.hears = true → source.toNat ≠ s.strap.station.val →
    let u := s.afterFrame source.toNat
    ∃ t, exec (.present source body) s = .next (t.frameDone source.toNat) ∧ SameBut (.roster :: offerParts) u t ∧
      t.line.roster[source.toNat]? = some { heard := .present s.now, holdings := some count } ∧
      (∀ x, x ≠ source.toNat → t.line.roster[x]? = s.line.roster[x]?) ∧
      (mode = .beacon ∨ s.line.state ≠ .active ∨ (∃ m ∈ s.line.queue, m.isBeacon = true) →
        t.line.queue = s.line.queue) ∧
      (mode = .joining → s.line.state = .active → (∀ m ∈ s.line.queue, m.isBeacon = false) →
        s.line.queue.length < 32 → t.line.queue = s.line.queue ++
          [{ body := .present .beacon s.holdings.length, collisions := 0, owner := none, onLine := false }])

/-! ### The vault line: sending (R58 to R62, R66, R67, R71 to R73) -/

/-- A message offered to the line is taken by no unit in MUTE; joins a queue of fewer than 32 behind its own class and
higher priority; and in a full queue the youngest candidate of the lowest priority gives way to a message of higher
priority, and the message offered is lost to any other, each loss counted. A CALL that gives way leaves the queue for
its vote once the message offered has joined, so that a SUM the vote held back is offered after it (the model's choice:
log 28; FramesStartAndAreSent says what State.messageLeft does). -/
def Obligations.OffersJoinByClassAndAge : Prop :=
  ∀ (m : Message) (s : State),
    (s.line.state = .mute → s.offer m = s) ∧
    (s.line.state ≠ .mute → s.line.queue.length < 32 → (s.offer m).line.queue = joinInOrder m s.line.queue) ∧
    (s.line.state ≠ .mute → 32 ≤ s.line.queue.length →
      (∀ before victim after, s.line.queue = before ++ victim :: after →
        s.line.mayDiscard victim = true → (∀ y ∈ after, s.line.mayDiscard y = false) →
        (victim.body.lineClass ≤ m.body.lineClass → s.offer m = s.bump .lineDropped) ∧
        (m.body.lineClass < victim.body.lineClass →
          2 ≤ victim.body.lineClass ∨
            (∀ id, victim.owner = some id → ∀ w ∈ s.votes, w.id = id → w.own = .pending) →
          (s.offer m).line.queue = joinInOrder m (before ++ after) ∧
          (s.offer m).count .lineDropped = min 4294967295 (s.count .lineDropped + 1)) ∧
        (m.body.lineClass < victim.body.lineClass → victim.body.lineClass ≤ 1 → s.line.queue.length = 32 →
          s.offer m = (State.bump { s with line := { s.line with queue := joinInOrder m (before ++ after) } }
            .lineDropped).messageLeft victim)) ∧
      ((∀ y ∈ s.line.queue, s.line.mayDiscard y = false) → s.offer m = s.bump .lineDropped)) ∧
    SameBut offerParts s (s.offer m) ∧
    (∀ q : List Message, (q.map fun y => y.body.lineClass).Pairwise (· ≤ ·) →
      ((joinInOrder m q).map fun y => y.body.lineClass).Pairwise (· ≤ ·) ∧
      ∃ before after, q = before ++ after ∧ joinInOrder m q = before ++ m :: after ∧
        (∀ y ∈ before, y.body.lineClass ≤ m.body.lineClass) ∧ (∀ y ∈ after, m.body.lineClass < y.body.lineClass))

/-- LINE_FRAME_START lets quiet slots pass until the quiet count is the head's wait, 6 + 36 × class + station + 37 × q,
or more, and the head's frame is then on the line, with the strapped station number as its source; the class is 0 for a
SUM, 1 for a CALL, 2 for TILES and 3 for a PRESENT; the head is the first message, in JOINING the PRESENT JOINING. From
a line under a jam one slot more passes, which ends the jam (log 17). LINE_ACTIVITY_BEGINS makes the unit defer: while
another station's activity is on the line nothing starts. LINE_FRAME_SENT takes the message out of the queue, counts it,
starts the quiet count from 0 and the beacon timer afresh, and after the PRESENT JOINING makes the unit ACTIVE. A CALL
that leaves the queue clears CALL pending in its vote, which then offers the SUM it held back, if its own status is
known. (That LINE_FRAME_START lets the slots pass is log 3; that LINE_ACTIVITY_BEGINS under the unit's own frame,
LINE_FRAME_SENT with none on the line and LINE_FRAME_START when nothing can start leave the state as it is, are log 17
and log 21.) -/
def Obligations.FramesStartAndAreSent : Prop :=
  ∀ s : State,
    (∀ before m after, s.resetLine = false → s.line.transmitting = false → s.line.activity ≠ .other →
      s.line.queue = before ++ m :: after →
      (s.line.state = .joining ∧ m.isJoining = true ∧ ∀ y ∈ before, y.isJoining = false) ∨
        (s.line.state = .active ∧ before = []) →
      let wait := 6 + 36 * m.body.lineClass + s.strap.station.val + 37 * m.collisions
      (s.line.activity = .jam → s.line.quietCount < wait) →
      let k := wait - s.line.quietCount + if s.line.activity = .jam then 1 else 0
      let t : State := { s with
        now := s.now + k * s.slotTime
        line := { s.line with
          activity := .quiet, quietCount := max wait s.line.quietCount
          queue := before ++ { m with onLine := true } :: after } }
      exec .lineFrameStart s = .next t ∧ t.frameOnLine? = some (m.body.frameBytes s.strap.station.val)) ∧
    (s.line.state = .listen ∨ s.line.state = .mute ∨ s.line.transmitting = true ∨ s.line.queue = [] ∨
        s.line.activity = .other → exec .lineFrameStart s = .next s) ∧
    (s.line.transmitting = false →
      exec .lineActivityBegins s = .next { s with line := { s.line with activity := .other } }) ∧
    (s.line.transmitting = true → exec .lineActivityBegins s = .next s) ∧
    (∀ before m after, s.line.queue = before ++ m :: after → m.onLine = true → (∀ y ∈ after, y.onLine = false) →
      let u : State := { s with line := { s.line with
        queue := before ++ after, quietCount := 0, activity := .quiet
        state := if s.line.state = .joining ∧ m.isJoining = true then .active else s.line.state
        beacon := some { start := s.now, length := max 1 (timeOfCode s.timers.silence / 2) } } }
      exec .lineFrameSent s = .next ((u.bump .lineSent).messageLeft m) ∧
      (m.owner = none → exec .lineFrameSent s = .next (u.bump .lineSent)) ∧
      ∃ t, exec .lineFrameSent s = .next t ∧ t.count .lineSent = min 4294967295 (s.count .lineSent + 1) ∧
        SameBut (.counter .lineSent :: offerParts) u t ∧
        (∀ k l id, m.body = .call k l → m.owner = some id → ∀ w ∈ t.votes, w.id = id → w.callPending = false)) ∧
    (∀ m k l id, m.body = .call k l → m.owner = some id → (s.votes.map Vote.id).Nodup →
      ((∀ w ∈ s.votes, w.id ≠ id) → s.messageLeft m = s) ∧
      ∀ w ∈ s.votes, w.id = id →
        let cleared := fun sent : Bool => s.votes.map fun x : Vote =>
          if x.id = id then { x with callPending := false, sumSent := sent } else x
        (w.own = .pending ∨ s.line.state = .mute ∨ w.expected = [] →
          s.messageLeft m = { s with votes := cleared w.sumSent }) ∧
        (s.line.state ≠ .mute → w.expected ≠ [] → ∀ body, s.ownSum? w = some body →
          let held : Message := { body := body, collisions := 0, owner := none, onLine := false }
          s.messageLeft m = State.offer { s with votes := cleared true } held ∧
          (s.line.queue.length < 32 → s.messageLeft m = { s with
            votes := cleared true, line := { s.line with queue := joinInOrder held s.line.queue } }))) ∧
    (s.line.transmitting = false → exec .lineFrameSent s = .next s) ∧
    ∀ b : LineBody, b.lineClass = match b with
      | .sum _ _ _ _ _ => 0 | .call _ _ => 1 | .tiles _ _ _ _ _ => 2 | .present _ _ => 3

/-- A collision takes the unit's frame off the line, jams it, and is counted; the message keeps its place with one more
collision, and at its 16th leaves the queue and is counted lost, a PRESENT JOINING being made anew; a CALL so lost is
reported to its vote, which clears CALL pending and offers the SUM it held back (FramesStartAndAreSent says what
State.messageLeft does). (The state of the line under the jam is the model's reading: log 17. That COLLISION with no
frame of the unit on the line leaves the state as it is, is the model's choice: log 21.) -/
def Obligations.CollisionsAreCountedToSixteen : Prop :=
  ∀ s : State,
    (∀ before m after, s.line.queue = before ++ m :: after → m.onLine = true → (∀ y ∈ before, y.onLine = false) →
      (∀ y ∈ after, y.onLine = false) →
      let jammed := fun q : List Message =>
        ({ s with line := { s.line with queue := q, activity := .jam, quietCount := 0 } } : State)
      (m.collisions + 1 < 16 → exec .collision s = .next ((jammed (before ++
        { m with onLine := false, collisions := m.collisions + 1 } :: after)).bump .collisions)) ∧
      (16 ≤ m.collisions + 1 → s.line.state ≠ .joining ∨ m.isJoining = false →
        let lost := ((jammed (before ++ after)).bump .collisions).bump .lineDropped
        exec .collision s = .next (lost.messageLeft m) ∧ (m.owner = none → exec .collision s = .next lost)) ∧
      (16 ≤ m.collisions + 1 → s.line.state = .joining → m.isJoining = true → (before ++ after).length < 32 →
        exec .collision s = .next (((jammed (joinInOrder
          { body := .present .joining s.holdings.length, collisions := 0, owner := none, onLine := false }
          (before ++ after))).bump .collisions).bump .lineDropped)) ∧
      ∃ t, exec .collision s = .next t ∧ t.count .collisions = min 4294967295 (s.count .collisions + 1) ∧
        SameBut (.lineClock :: .counter .collisions :: offerParts) s t ∧
        (16 ≤ m.collisions + 1 → ∀ k l id, m.body = .call k l → m.owner = some id →
          ∀ w ∈ t.votes, w.id = id → w.callPending = false)) ∧
    (s.line.transmitting = false → exec .collision s = .next s)

/-- ENTER_JOINING lets quiet slots pass until 290 have been heard, and the unit is JOINING, with a PRESENT JOINING in
its queue; of a full queue the youngest message of the lowest priority, the last, is first discarded and counted lost,
and a CALL so lost leaves the queue for its vote once the PRESENT JOINING has its place (the model's choice: log 28;
FramesStartAndAreSent says what State.messageLeft does). From a line under a jam one slot more passes, which ends the
jam (log 17). BEACON_TIMER_EXPIRY offers a PRESENT BEACON, unless one is queued, and starts the timer again.
SILENCE_EXPIRY makes the station whose silence limit is due first SILENT, of several the lowest, with a report and the
closure tests of the votes that expect it. (That time passes to the end of the slot in which a limit is reached, and not
at all when it has been, is the model's: log 2, log 3. That ENTER_JOINING outside LISTEN, an event that cannot take
place, leaves the state as it is, is the model's choice: log 21.) -/
def Obligations.ListenBeaconAndSilenceTimersExpire : Prop :=
  ∀ s : State,
    (s.resetLine = false → s.line.state = .listen → s.line.transmitting = false → s.line.activity ≠ .other →
      s.line.listenCount ≤ 290 → (s.line.activity = .jam → s.line.listenCount < 290) →
      let quiet := 290 - s.line.listenCount
      let k := quiet + if s.line.activity = .jam then 1 else 0
      let joined := fun q : List Message => ({ s with
        now := s.now + k * s.slotTime
        line := { s.line with
          state := .joining, listenCount := 290, activity := .quiet, quietCount := s.line.quietCount + quiet
          queue := joinInOrder
            { body := .present .joining s.holdings.length, collisions := 0, owner := none, onLine := false }
            q } } : State)
      (s.line.queue.length < 32 → exec .enterJoining s = .next (joined s.line.queue)) ∧
      (∀ kept last, s.line.queue = kept ++ [last] → 32 ≤ s.line.queue.length →
        exec .enterJoining s = .next (((joined kept).bump .lineDropped).messageLeft last) ∧
        (last.owner = none → exec .enterJoining s = .next ((joined kept).bump .lineDropped)) ∧
        (QueueInRange s.line.queue → ∀ m ∈ kept, m.body.lineClass ≤ last.body.lineClass)) ∧
      ∃ t, exec .enterJoining s = .next t ∧ t.line.state = .joining ∧ (∃ m ∈ t.line.queue, m.isJoining = true) ∧
        SameBut (.now :: .lineClock :: .lineState :: offerParts) s t) ∧
    (s.line.state ≠ .listen → exec .enterJoining s = .next s) ∧
    (∀ b : Timer, s.line.beacon = some b →
      let due := b.start + b.length * 1000000
      let u := s.passUntil due
      PassesUntil s u due ∧ ∃ t, exec .beaconTimerExpiry s = .next t ∧
        t.line.beacon = some { start := u.now, length := max 1 (timeOfCode s.timers.silence / 2) } ∧
        SameBut (.beacon :: offerParts) u t ∧
        ((∃ m ∈ s.line.queue, m.isBeacon = true) → t.line.queue = s.line.queue) ∧
        ((∀ m ∈ s.line.queue, m.isBeacon = false) → s.line.state ≠ .mute → s.line.queue.length < 32 →
          t.line.queue = joinInOrder
            { body := .present .beacon s.holdings.length, collisions := 0, owner := none, onLine := false }
            s.line.queue)) ∧
    (∀ station last, s.line.heardOf station = .present last →
      (∀ x y, x < station → s.line.heardOf x = .present y → last < y) →
      (∀ x y, station < x → s.line.heardOf x = .present y → last ≤ y) →
      let due := last + timeOfCode s.timers.silence * 1000000
      let u := s.passUntil due
      let silent := fun t : State => t.line.heardOf station = .silent last ∧
        (∀ x, x ≠ station → t.line.heardOf x = s.line.heardOf x)
      PassesUntil s u due ∧
      ((∀ v ∈ s.votes, v.state = .gathering → station ∉ v.expected) →
        ∃ t, exec .silenceExpiry s = .next t.finish ∧ silent t ∧
        SameBut [.roster, .reports, .counter .reportsLost] u t ∧
        (s.port.reports.length < 64 → t.port.reports = s.port.reports ++
          [{ number := s.port.nextReport, report := .station station .silent }])) ∧
      ∃ t, exec .silenceExpiry s = .next t.finish ∧ silent t ∧ SameBut (.roster :: deliverParts) u t ∧
        (Consistent s → ∀ v ∈ s.votes, v.state = .gathering → station ∈ v.expected →
          (∀ x ∈ v.expected, v.answered x = true ∨ t.line.isSilent x = true) →
          ∀ w ∈ t.votes, w.id = v.id → w.state = .localising))
end

