-- ==== Sys2Proof/Laws/State.lean ====
section
/-! SUPPORT. The updates of one block: what each does to each field of the state. -/

namespace Sys2Proof.Machine

/-! ### setPending -/

section
variable (s : State) (x : List Instr)

@[simp] theorem State.setPending_pending : (s.setPending x).pending = x := rfl
@[simp] theorem State.setPending_now : (s.setPending x).now = s.now := rfl
@[simp] theorem State.setPending_strapPins : (s.setPending x).strapPins = s.strapPins := rfl
@[simp] theorem State.setPending_strap : (s.setPending x).strap = s.strap := rfl
@[simp] theorem State.setPending_holdHigh : (s.setPending x).holdHigh = s.holdHigh := rfl
@[simp] theorem State.setPending_resetLine : (s.setPending x).resetLine = s.resetLine := rfl
@[simp] theorem State.setPending_causes : (s.setPending x).causes = s.causes := rfl
@[simp] theorem State.setPending_read : (s.setPending x).read = s.read := rfl
@[simp] theorem State.setPending_holdings : (s.setPending x).holdings = s.holdings := rfl
@[simp] theorem State.setPending_sweep : (s.setPending x).sweep = s.sweep := rfl
@[simp] theorem State.setPending_line : (s.setPending x).line = s.line := rfl
@[simp] theorem State.setPending_votes : (s.setPending x).votes = s.votes := rfl
@[simp] theorem State.setPending_nextVote : (s.setPending x).nextVote = s.nextVote := rfl
@[simp] theorem State.setPending_mends : (s.setPending x).mends = s.mends := rfl
@[simp] theorem State.setPending_evidence : (s.setPending x).evidence = s.evidence := rfl
@[simp] theorem State.setPending_governor : (s.setPending x).governor = s.governor := rfl
@[simp] theorem State.setPending_timers : (s.setPending x).timers = s.timers := rfl
@[simp] theorem State.setPending_watch : (s.setPending x).watch = s.watch := rfl
@[simp] theorem State.setPending_counters : (s.setPending x).counters = s.counters := rfl
@[simp] theorem State.setPending_port : (s.setPending x).port = s.port := rfl

end

/-! ### setNow -/

section
variable (s : State) (x : Nat)

@[simp] theorem State.setNow_pending : (s.setNow x).pending = s.pending := rfl
@[simp] theorem State.setNow_now : (s.setNow x).now = x := rfl
@[simp] theorem State.setNow_strapPins : (s.setNow x).strapPins = s.strapPins := rfl
@[simp] theorem State.setNow_strap : (s.setNow x).strap = s.strap := rfl
@[simp] theorem State.setNow_holdHigh : (s.setNow x).holdHigh = s.holdHigh := rfl
@[simp] theorem State.setNow_resetLine : (s.setNow x).resetLine = s.resetLine := rfl
@[simp] theorem State.setNow_causes : (s.setNow x).causes = s.causes := rfl
@[simp] theorem State.setNow_read : (s.setNow x).read = s.read := rfl
@[simp] theorem State.setNow_holdings : (s.setNow x).holdings = s.holdings := rfl
@[simp] theorem State.setNow_sweep : (s.setNow x).sweep = s.sweep := rfl
@[simp] theorem State.setNow_line : (s.setNow x).line = s.line := rfl
@[simp] theorem State.setNow_votes : (s.setNow x).votes = s.votes := rfl
@[simp] theorem State.setNow_nextVote : (s.setNow x).nextVote = s.nextVote := rfl
@[simp] theorem State.setNow_mends : (s.setNow x).mends = s.mends := rfl
@[simp] theorem State.setNow_evidence : (s.setNow x).evidence = s.evidence := rfl
@[simp] theorem State.setNow_governor : (s.setNow x).governor = s.governor := rfl
@[simp] theorem State.setNow_timers : (s.setNow x).timers = s.timers := rfl
@[simp] theorem State.setNow_watch : (s.setNow x).watch = s.watch := rfl
@[simp] theorem State.setNow_counters : (s.setNow x).counters = s.counters := rfl
@[simp] theorem State.setNow_port : (s.setNow x).port = s.port := rfl

end

/-! ### setStrapPins -/

section
variable (s : State) (x : Strap)

@[simp] theorem State.setStrapPins_pending : (s.setStrapPins x).pending = s.pending := rfl
@[simp] theorem State.setStrapPins_now : (s.setStrapPins x).now = s.now := rfl
@[simp] theorem State.setStrapPins_strapPins : (s.setStrapPins x).strapPins = x := rfl
@[simp] theorem State.setStrapPins_strap : (s.setStrapPins x).strap = s.strap := rfl
@[simp] theorem State.setStrapPins_holdHigh : (s.setStrapPins x).holdHigh = s.holdHigh := rfl
@[simp] theorem State.setStrapPins_resetLine : (s.setStrapPins x).resetLine = s.resetLine := rfl
@[simp] theorem State.setStrapPins_causes : (s.setStrapPins x).causes = s.causes := rfl
@[simp] theorem State.setStrapPins_read : (s.setStrapPins x).read = s.read := rfl
@[simp] theorem State.setStrapPins_holdings : (s.setStrapPins x).holdings = s.holdings := rfl
@[simp] theorem State.setStrapPins_sweep : (s.setStrapPins x).sweep = s.sweep := rfl
@[simp] theorem State.setStrapPins_line : (s.setStrapPins x).line = s.line := rfl
@[simp] theorem State.setStrapPins_votes : (s.setStrapPins x).votes = s.votes := rfl
@[simp] theorem State.setStrapPins_nextVote : (s.setStrapPins x).nextVote = s.nextVote := rfl
@[simp] theorem State.setStrapPins_mends : (s.setStrapPins x).mends = s.mends := rfl
@[simp] theorem State.setStrapPins_evidence : (s.setStrapPins x).evidence = s.evidence := rfl
@[simp] theorem State.setStrapPins_governor : (s.setStrapPins x).governor = s.governor := rfl
@[simp] theorem State.setStrapPins_timers : (s.setStrapPins x).timers = s.timers := rfl
@[simp] theorem State.setStrapPins_watch : (s.setStrapPins x).watch = s.watch := rfl
@[simp] theorem State.setStrapPins_counters : (s.setStrapPins x).counters = s.counters := rfl
@[simp] theorem State.setStrapPins_port : (s.setStrapPins x).port = s.port := rfl

end

/-! ### setStrap -/

section
variable (s : State) (x : Strap)

@[simp] theorem State.setStrap_pending : (s.setStrap x).pending = s.pending := rfl
@[simp] theorem State.setStrap_now : (s.setStrap x).now = s.now := rfl
@[simp] theorem State.setStrap_strapPins : (s.setStrap x).strapPins = s.strapPins := rfl
@[simp] theorem State.setStrap_strap : (s.setStrap x).strap = x := rfl
@[simp] theorem State.setStrap_holdHigh : (s.setStrap x).holdHigh = s.holdHigh := rfl
@[simp] theorem State.setStrap_resetLine : (s.setStrap x).resetLine = s.resetLine := rfl
@[simp] theorem State.setStrap_causes : (s.setStrap x).causes = s.causes := rfl
@[simp] theorem State.setStrap_read : (s.setStrap x).read = s.read := rfl
@[simp] theorem State.setStrap_holdings : (s.setStrap x).holdings = s.holdings := rfl
@[simp] theorem State.setStrap_sweep : (s.setStrap x).sweep = s.sweep := rfl
@[simp] theorem State.setStrap_line : (s.setStrap x).line = s.line := rfl
@[simp] theorem State.setStrap_votes : (s.setStrap x).votes = s.votes := rfl
@[simp] theorem State.setStrap_nextVote : (s.setStrap x).nextVote = s.nextVote := rfl
@[simp] theorem State.setStrap_mends : (s.setStrap x).mends = s.mends := rfl
@[simp] theorem State.setStrap_evidence : (s.setStrap x).evidence = s.evidence := rfl
@[simp] theorem State.setStrap_governor : (s.setStrap x).governor = s.governor := rfl
@[simp] theorem State.setStrap_timers : (s.setStrap x).timers = s.timers := rfl
@[simp] theorem State.setStrap_watch : (s.setStrap x).watch = s.watch := rfl
@[simp] theorem State.setStrap_counters : (s.setStrap x).counters = s.counters := rfl
@[simp] theorem State.setStrap_port : (s.setStrap x).port = s.port := rfl

end

/-! ### setHoldHigh -/

section
variable (s : State) (x : Bool)

@[simp] theorem State.setHoldHigh_pending : (s.setHoldHigh x).pending = s.pending := rfl
@[simp] theorem State.setHoldHigh_now : (s.setHoldHigh x).now = s.now := rfl
@[simp] theorem State.setHoldHigh_strapPins : (s.setHoldHigh x).strapPins = s.strapPins := rfl
@[simp] theorem State.setHoldHigh_strap : (s.setHoldHigh x).strap = s.strap := rfl
@[simp] theorem State.setHoldHigh_holdHigh : (s.setHoldHigh x).holdHigh = x := rfl
@[simp] theorem State.setHoldHigh_resetLine : (s.setHoldHigh x).resetLine = s.resetLine := rfl
@[simp] theorem State.setHoldHigh_causes : (s.setHoldHigh x).causes = s.causes := rfl
@[simp] theorem State.setHoldHigh_read : (s.setHoldHigh x).read = s.read := rfl
@[simp] theorem State.setHoldHigh_holdings : (s.setHoldHigh x).holdings = s.holdings := rfl
@[simp] theorem State.setHoldHigh_sweep : (s.setHoldHigh x).sweep = s.sweep := rfl
@[simp] theorem State.setHoldHigh_line : (s.setHoldHigh x).line = s.line := rfl
@[simp] theorem State.setHoldHigh_votes : (s.setHoldHigh x).votes = s.votes := rfl
@[simp] theorem State.setHoldHigh_nextVote : (s.setHoldHigh x).nextVote = s.nextVote := rfl
@[simp] theorem State.setHoldHigh_mends : (s.setHoldHigh x).mends = s.mends := rfl
@[simp] theorem State.setHoldHigh_evidence : (s.setHoldHigh x).evidence = s.evidence := rfl
@[simp] theorem State.setHoldHigh_governor : (s.setHoldHigh x).governor = s.governor := rfl
@[simp] theorem State.setHoldHigh_timers : (s.setHoldHigh x).timers = s.timers := rfl
@[simp] theorem State.setHoldHigh_watch : (s.setHoldHigh x).watch = s.watch := rfl
@[simp] theorem State.setHoldHigh_counters : (s.setHoldHigh x).counters = s.counters := rfl
@[simp] theorem State.setHoldHigh_port : (s.setHoldHigh x).port = s.port := rfl

end

/-! ### setResetLine -/

section
variable (s : State) (x : Bool)

@[simp] theorem State.setResetLine_pending : (s.setResetLine x).pending = s.pending := rfl
@[simp] theorem State.setResetLine_now : (s.setResetLine x).now = s.now := rfl
@[simp] theorem State.setResetLine_strapPins : (s.setResetLine x).strapPins = s.strapPins := rfl
@[simp] theorem State.setResetLine_strap : (s.setResetLine x).strap = s.strap := rfl
@[simp] theorem State.setResetLine_holdHigh : (s.setResetLine x).holdHigh = s.holdHigh := rfl
@[simp] theorem State.setResetLine_resetLine : (s.setResetLine x).resetLine = x := rfl
@[simp] theorem State.setResetLine_causes : (s.setResetLine x).causes = s.causes := rfl
@[simp] theorem State.setResetLine_read : (s.setResetLine x).read = s.read := rfl
@[simp] theorem State.setResetLine_holdings : (s.setResetLine x).holdings = s.holdings := rfl
@[simp] theorem State.setResetLine_sweep : (s.setResetLine x).sweep = s.sweep := rfl
@[simp] theorem State.setResetLine_line : (s.setResetLine x).line = s.line := rfl
@[simp] theorem State.setResetLine_votes : (s.setResetLine x).votes = s.votes := rfl
@[simp] theorem State.setResetLine_nextVote : (s.setResetLine x).nextVote = s.nextVote := rfl
@[simp] theorem State.setResetLine_mends : (s.setResetLine x).mends = s.mends := rfl
@[simp] theorem State.setResetLine_evidence : (s.setResetLine x).evidence = s.evidence := rfl
@[simp] theorem State.setResetLine_governor : (s.setResetLine x).governor = s.governor := rfl
@[simp] theorem State.setResetLine_timers : (s.setResetLine x).timers = s.timers := rfl
@[simp] theorem State.setResetLine_watch : (s.setResetLine x).watch = s.watch := rfl
@[simp] theorem State.setResetLine_counters : (s.setResetLine x).counters = s.counters := rfl
@[simp] theorem State.setResetLine_port : (s.setResetLine x).port = s.port := rfl

end

/-! ### setCauses -/

section
variable (s : State) (x : ResetCauses)

@[simp] theorem State.setCauses_pending : (s.setCauses x).pending = s.pending := rfl
@[simp] theorem State.setCauses_now : (s.setCauses x).now = s.now := rfl
@[simp] theorem State.setCauses_strapPins : (s.setCauses x).strapPins = s.strapPins := rfl
@[simp] theorem State.setCauses_strap : (s.setCauses x).strap = s.strap := rfl
@[simp] theorem State.setCauses_holdHigh : (s.setCauses x).holdHigh = s.holdHigh := rfl
@[simp] theorem State.setCauses_resetLine : (s.setCauses x).resetLine = s.resetLine := rfl
@[simp] theorem State.setCauses_causes : (s.setCauses x).causes = x := rfl
@[simp] theorem State.setCauses_read : (s.setCauses x).read = s.read := rfl
@[simp] theorem State.setCauses_holdings : (s.setCauses x).holdings = s.holdings := rfl
@[simp] theorem State.setCauses_sweep : (s.setCauses x).sweep = s.sweep := rfl
@[simp] theorem State.setCauses_line : (s.setCauses x).line = s.line := rfl
@[simp] theorem State.setCauses_votes : (s.setCauses x).votes = s.votes := rfl
@[simp] theorem State.setCauses_nextVote : (s.setCauses x).nextVote = s.nextVote := rfl
@[simp] theorem State.setCauses_mends : (s.setCauses x).mends = s.mends := rfl
@[simp] theorem State.setCauses_evidence : (s.setCauses x).evidence = s.evidence := rfl
@[simp] theorem State.setCauses_governor : (s.setCauses x).governor = s.governor := rfl
@[simp] theorem State.setCauses_timers : (s.setCauses x).timers = s.timers := rfl
@[simp] theorem State.setCauses_watch : (s.setCauses x).watch = s.watch := rfl
@[simp] theorem State.setCauses_counters : (s.setCauses x).counters = s.counters := rfl
@[simp] theorem State.setCauses_port : (s.setCauses x).port = s.port := rfl

end

/-! ### setRead -/

section
variable (s : State) (x : ReadEngine)

@[simp] theorem State.setRead_pending : (s.setRead x).pending = s.pending := rfl
@[simp] theorem State.setRead_now : (s.setRead x).now = s.now := rfl
@[simp] theorem State.setRead_strapPins : (s.setRead x).strapPins = s.strapPins := rfl
@[simp] theorem State.setRead_strap : (s.setRead x).strap = s.strap := rfl
@[simp] theorem State.setRead_holdHigh : (s.setRead x).holdHigh = s.holdHigh := rfl
@[simp] theorem State.setRead_resetLine : (s.setRead x).resetLine = s.resetLine := rfl
@[simp] theorem State.setRead_causes : (s.setRead x).causes = s.causes := rfl
@[simp] theorem State.setRead_read : (s.setRead x).read = x := rfl
@[simp] theorem State.setRead_holdings : (s.setRead x).holdings = s.holdings := rfl
@[simp] theorem State.setRead_sweep : (s.setRead x).sweep = s.sweep := rfl
@[simp] theorem State.setRead_line : (s.setRead x).line = s.line := rfl
@[simp] theorem State.setRead_votes : (s.setRead x).votes = s.votes := rfl
@[simp] theorem State.setRead_nextVote : (s.setRead x).nextVote = s.nextVote := rfl
@[simp] theorem State.setRead_mends : (s.setRead x).mends = s.mends := rfl
@[simp] theorem State.setRead_evidence : (s.setRead x).evidence = s.evidence := rfl
@[simp] theorem State.setRead_governor : (s.setRead x).governor = s.governor := rfl
@[simp] theorem State.setRead_timers : (s.setRead x).timers = s.timers := rfl
@[simp] theorem State.setRead_watch : (s.setRead x).watch = s.watch := rfl
@[simp] theorem State.setRead_counters : (s.setRead x).counters = s.counters := rfl
@[simp] theorem State.setRead_port : (s.setRead x).port = s.port := rfl

end

/-! ### setHoldings -/

section
variable (s : State) (x : List Holding)

@[simp] theorem State.setHoldings_pending : (s.setHoldings x).pending = s.pending := rfl
@[simp] theorem State.setHoldings_now : (s.setHoldings x).now = s.now := rfl
@[simp] theorem State.setHoldings_strapPins : (s.setHoldings x).strapPins = s.strapPins := rfl
@[simp] theorem State.setHoldings_strap : (s.setHoldings x).strap = s.strap := rfl
@[simp] theorem State.setHoldings_holdHigh : (s.setHoldings x).holdHigh = s.holdHigh := rfl
@[simp] theorem State.setHoldings_resetLine : (s.setHoldings x).resetLine = s.resetLine := rfl
@[simp] theorem State.setHoldings_causes : (s.setHoldings x).causes = s.causes := rfl
@[simp] theorem State.setHoldings_read : (s.setHoldings x).read = s.read := rfl
@[simp] theorem State.setHoldings_holdings : (s.setHoldings x).holdings = x := rfl
@[simp] theorem State.setHoldings_sweep : (s.setHoldings x).sweep = s.sweep := rfl
@[simp] theorem State.setHoldings_line : (s.setHoldings x).line = s.line := rfl
@[simp] theorem State.setHoldings_votes : (s.setHoldings x).votes = s.votes := rfl
@[simp] theorem State.setHoldings_nextVote : (s.setHoldings x).nextVote = s.nextVote := rfl
@[simp] theorem State.setHoldings_mends : (s.setHoldings x).mends = s.mends := rfl
@[simp] theorem State.setHoldings_evidence : (s.setHoldings x).evidence = s.evidence := rfl
@[simp] theorem State.setHoldings_governor : (s.setHoldings x).governor = s.governor := rfl
@[simp] theorem State.setHoldings_timers : (s.setHoldings x).timers = s.timers := rfl
@[simp] theorem State.setHoldings_watch : (s.setHoldings x).watch = s.watch := rfl
@[simp] theorem State.setHoldings_counters : (s.setHoldings x).counters = s.counters := rfl
@[simp] theorem State.setHoldings_port : (s.setHoldings x).port = s.port := rfl

end

/-! ### setSweep -/

section
variable (s : State) (x : Sweep)

@[simp] theorem State.setSweep_pending : (s.setSweep x).pending = s.pending := rfl
@[simp] theorem State.setSweep_now : (s.setSweep x).now = s.now := rfl
@[simp] theorem State.setSweep_strapPins : (s.setSweep x).strapPins = s.strapPins := rfl
@[simp] theorem State.setSweep_strap : (s.setSweep x).strap = s.strap := rfl
@[simp] theorem State.setSweep_holdHigh : (s.setSweep x).holdHigh = s.holdHigh := rfl
@[simp] theorem State.setSweep_resetLine : (s.setSweep x).resetLine = s.resetLine := rfl
@[simp] theorem State.setSweep_causes : (s.setSweep x).causes = s.causes := rfl
@[simp] theorem State.setSweep_read : (s.setSweep x).read = s.read := rfl
@[simp] theorem State.setSweep_holdings : (s.setSweep x).holdings = s.holdings := rfl
@[simp] theorem State.setSweep_sweep : (s.setSweep x).sweep = x := rfl
@[simp] theorem State.setSweep_line : (s.setSweep x).line = s.line := rfl
@[simp] theorem State.setSweep_votes : (s.setSweep x).votes = s.votes := rfl
@[simp] theorem State.setSweep_nextVote : (s.setSweep x).nextVote = s.nextVote := rfl
@[simp] theorem State.setSweep_mends : (s.setSweep x).mends = s.mends := rfl
@[simp] theorem State.setSweep_evidence : (s.setSweep x).evidence = s.evidence := rfl
@[simp] theorem State.setSweep_governor : (s.setSweep x).governor = s.governor := rfl
@[simp] theorem State.setSweep_timers : (s.setSweep x).timers = s.timers := rfl
@[simp] theorem State.setSweep_watch : (s.setSweep x).watch = s.watch := rfl
@[simp] theorem State.setSweep_counters : (s.setSweep x).counters = s.counters := rfl
@[simp] theorem State.setSweep_port : (s.setSweep x).port = s.port := rfl

end

/-! ### setLine -/

section
variable (s : State) (x : LineUnit)

@[simp] theorem State.setLine_pending : (s.setLine x).pending = s.pending := rfl
@[simp] theorem State.setLine_now : (s.setLine x).now = s.now := rfl
@[simp] theorem State.setLine_strapPins : (s.setLine x).strapPins = s.strapPins := rfl
@[simp] theorem State.setLine_strap : (s.setLine x).strap = s.strap := rfl
@[simp] theorem State.setLine_holdHigh : (s.setLine x).holdHigh = s.holdHigh := rfl
@[simp] theorem State.setLine_resetLine : (s.setLine x).resetLine = s.resetLine := rfl
@[simp] theorem State.setLine_causes : (s.setLine x).causes = s.causes := rfl
@[simp] theorem State.setLine_read : (s.setLine x).read = s.read := rfl
@[simp] theorem State.setLine_holdings : (s.setLine x).holdings = s.holdings := rfl
@[simp] theorem State.setLine_sweep : (s.setLine x).sweep = s.sweep := rfl
@[simp] theorem State.setLine_line : (s.setLine x).line = x := rfl
@[simp] theorem State.setLine_votes : (s.setLine x).votes = s.votes := rfl
@[simp] theorem State.setLine_nextVote : (s.setLine x).nextVote = s.nextVote := rfl
@[simp] theorem State.setLine_mends : (s.setLine x).mends = s.mends := rfl
@[simp] theorem State.setLine_evidence : (s.setLine x).evidence = s.evidence := rfl
@[simp] theorem State.setLine_governor : (s.setLine x).governor = s.governor := rfl
@[simp] theorem State.setLine_timers : (s.setLine x).timers = s.timers := rfl
@[simp] theorem State.setLine_watch : (s.setLine x).watch = s.watch := rfl
@[simp] theorem State.setLine_counters : (s.setLine x).counters = s.counters := rfl
@[simp] theorem State.setLine_port : (s.setLine x).port = s.port := rfl

end

/-! ### setVotes -/

section
variable (s : State) (x : List Vote)

@[simp] theorem State.setVotes_pending : (s.setVotes x).pending = s.pending := rfl
@[simp] theorem State.setVotes_now : (s.setVotes x).now = s.now := rfl
@[simp] theorem State.setVotes_strapPins : (s.setVotes x).strapPins = s.strapPins := rfl
@[simp] theorem State.setVotes_strap : (s.setVotes x).strap = s.strap := rfl
@[simp] theorem State.setVotes_holdHigh : (s.setVotes x).holdHigh = s.holdHigh := rfl
@[simp] theorem State.setVotes_resetLine : (s.setVotes x).resetLine = s.resetLine := rfl
@[simp] theorem State.setVotes_causes : (s.setVotes x).causes = s.causes := rfl
@[simp] theorem State.setVotes_read : (s.setVotes x).read = s.read := rfl
@[simp] theorem State.setVotes_holdings : (s.setVotes x).holdings = s.holdings := rfl
@[simp] theorem State.setVotes_sweep : (s.setVotes x).sweep = s.sweep := rfl
@[simp] theorem State.setVotes_line : (s.setVotes x).line = s.line := rfl
@[simp] theorem State.setVotes_votes : (s.setVotes x).votes = x := rfl
@[simp] theorem State.setVotes_nextVote : (s.setVotes x).nextVote = s.nextVote := rfl
@[simp] theorem State.setVotes_mends : (s.setVotes x).mends = s.mends := rfl
@[simp] theorem State.setVotes_evidence : (s.setVotes x).evidence = s.evidence := rfl
@[simp] theorem State.setVotes_governor : (s.setVotes x).governor = s.governor := rfl
@[simp] theorem State.setVotes_timers : (s.setVotes x).timers = s.timers := rfl
@[simp] theorem State.setVotes_watch : (s.setVotes x).watch = s.watch := rfl
@[simp] theorem State.setVotes_counters : (s.setVotes x).counters = s.counters := rfl
@[simp] theorem State.setVotes_port : (s.setVotes x).port = s.port := rfl

end

/-! ### setNextVote -/

section
variable (s : State) (x : Nat)

@[simp] theorem State.setNextVote_pending : (s.setNextVote x).pending = s.pending := rfl
@[simp] theorem State.setNextVote_now : (s.setNextVote x).now = s.now := rfl
@[simp] theorem State.setNextVote_strapPins : (s.setNextVote x).strapPins = s.strapPins := rfl
@[simp] theorem State.setNextVote_strap : (s.setNextVote x).strap = s.strap := rfl
@[simp] theorem State.setNextVote_holdHigh : (s.setNextVote x).holdHigh = s.holdHigh := rfl
@[simp] theorem State.setNextVote_resetLine : (s.setNextVote x).resetLine = s.resetLine := rfl
@[simp] theorem State.setNextVote_causes : (s.setNextVote x).causes = s.causes := rfl
@[simp] theorem State.setNextVote_read : (s.setNextVote x).read = s.read := rfl
@[simp] theorem State.setNextVote_holdings : (s.setNextVote x).holdings = s.holdings := rfl
@[simp] theorem State.setNextVote_sweep : (s.setNextVote x).sweep = s.sweep := rfl
@[simp] theorem State.setNextVote_line : (s.setNextVote x).line = s.line := rfl
@[simp] theorem State.setNextVote_votes : (s.setNextVote x).votes = s.votes := rfl
@[simp] theorem State.setNextVote_nextVote : (s.setNextVote x).nextVote = x := rfl
@[simp] theorem State.setNextVote_mends : (s.setNextVote x).mends = s.mends := rfl
@[simp] theorem State.setNextVote_evidence : (s.setNextVote x).evidence = s.evidence := rfl
@[simp] theorem State.setNextVote_governor : (s.setNextVote x).governor = s.governor := rfl
@[simp] theorem State.setNextVote_timers : (s.setNextVote x).timers = s.timers := rfl
@[simp] theorem State.setNextVote_watch : (s.setNextVote x).watch = s.watch := rfl
@[simp] theorem State.setNextVote_counters : (s.setNextVote x).counters = s.counters := rfl
@[simp] theorem State.setNextVote_port : (s.setNextVote x).port = s.port := rfl

end

/-! ### setMends -/

section
variable (s : State) (x : List MendEntry)

@[simp] theorem State.setMends_pending : (s.setMends x).pending = s.pending := rfl
@[simp] theorem State.setMends_now : (s.setMends x).now = s.now := rfl
@[simp] theorem State.setMends_strapPins : (s.setMends x).strapPins = s.strapPins := rfl
@[simp] theorem State.setMends_strap : (s.setMends x).strap = s.strap := rfl
@[simp] theorem State.setMends_holdHigh : (s.setMends x).holdHigh = s.holdHigh := rfl
@[simp] theorem State.setMends_resetLine : (s.setMends x).resetLine = s.resetLine := rfl
@[simp] theorem State.setMends_causes : (s.setMends x).causes = s.causes := rfl
@[simp] theorem State.setMends_read : (s.setMends x).read = s.read := rfl
@[simp] theorem State.setMends_holdings : (s.setMends x).holdings = s.holdings := rfl
@[simp] theorem State.setMends_sweep : (s.setMends x).sweep = s.sweep := rfl
@[simp] theorem State.setMends_line : (s.setMends x).line = s.line := rfl
@[simp] theorem State.setMends_votes : (s.setMends x).votes = s.votes := rfl
@[simp] theorem State.setMends_nextVote : (s.setMends x).nextVote = s.nextVote := rfl
@[simp] theorem State.setMends_mends : (s.setMends x).mends = x := rfl
@[simp] theorem State.setMends_evidence : (s.setMends x).evidence = s.evidence := rfl
@[simp] theorem State.setMends_governor : (s.setMends x).governor = s.governor := rfl
@[simp] theorem State.setMends_timers : (s.setMends x).timers = s.timers := rfl
@[simp] theorem State.setMends_watch : (s.setMends x).watch = s.watch := rfl
@[simp] theorem State.setMends_counters : (s.setMends x).counters = s.counters := rfl
@[simp] theorem State.setMends_port : (s.setMends x).port = s.port := rfl

end

/-! ### setEvidence -/

section
variable (s : State) (x : Evidence)

@[simp] theorem State.setEvidence_pending : (s.setEvidence x).pending = s.pending := rfl
@[simp] theorem State.setEvidence_now : (s.setEvidence x).now = s.now := rfl
@[simp] theorem State.setEvidence_strapPins : (s.setEvidence x).strapPins = s.strapPins := rfl
@[simp] theorem State.setEvidence_strap : (s.setEvidence x).strap = s.strap := rfl
@[simp] theorem State.setEvidence_holdHigh : (s.setEvidence x).holdHigh = s.holdHigh := rfl
@[simp] theorem State.setEvidence_resetLine : (s.setEvidence x).resetLine = s.resetLine := rfl
@[simp] theorem State.setEvidence_causes : (s.setEvidence x).causes = s.causes := rfl
@[simp] theorem State.setEvidence_read : (s.setEvidence x).read = s.read := rfl
@[simp] theorem State.setEvidence_holdings : (s.setEvidence x).holdings = s.holdings := rfl
@[simp] theorem State.setEvidence_sweep : (s.setEvidence x).sweep = s.sweep := rfl
@[simp] theorem State.setEvidence_line : (s.setEvidence x).line = s.line := rfl
@[simp] theorem State.setEvidence_votes : (s.setEvidence x).votes = s.votes := rfl
@[simp] theorem State.setEvidence_nextVote : (s.setEvidence x).nextVote = s.nextVote := rfl
@[simp] theorem State.setEvidence_mends : (s.setEvidence x).mends = s.mends := rfl
@[simp] theorem State.setEvidence_evidence : (s.setEvidence x).evidence = x := rfl
@[simp] theorem State.setEvidence_governor : (s.setEvidence x).governor = s.governor := rfl
@[simp] theorem State.setEvidence_timers : (s.setEvidence x).timers = s.timers := rfl
@[simp] theorem State.setEvidence_watch : (s.setEvidence x).watch = s.watch := rfl
@[simp] theorem State.setEvidence_counters : (s.setEvidence x).counters = s.counters := rfl
@[simp] theorem State.setEvidence_port : (s.setEvidence x).port = s.port := rfl

end

/-! ### setGovernor -/

section
variable (s : State) (x : Governor)

@[simp] theorem State.setGovernor_pending : (s.setGovernor x).pending = s.pending := rfl
@[simp] theorem State.setGovernor_now : (s.setGovernor x).now = s.now := rfl
@[simp] theorem State.setGovernor_strapPins : (s.setGovernor x).strapPins = s.strapPins := rfl
@[simp] theorem State.setGovernor_strap : (s.setGovernor x).strap = s.strap := rfl
@[simp] theorem State.setGovernor_holdHigh : (s.setGovernor x).holdHigh = s.holdHigh := rfl
@[simp] theorem State.setGovernor_resetLine : (s.setGovernor x).resetLine = s.resetLine := rfl
@[simp] theorem State.setGovernor_causes : (s.setGovernor x).causes = s.causes := rfl
@[simp] theorem State.setGovernor_read : (s.setGovernor x).read = s.read := rfl
@[simp] theorem State.setGovernor_holdings : (s.setGovernor x).holdings = s.holdings := rfl
@[simp] theorem State.setGovernor_sweep : (s.setGovernor x).sweep = s.sweep := rfl
@[simp] theorem State.setGovernor_line : (s.setGovernor x).line = s.line := rfl
@[simp] theorem State.setGovernor_votes : (s.setGovernor x).votes = s.votes := rfl
@[simp] theorem State.setGovernor_nextVote : (s.setGovernor x).nextVote = s.nextVote := rfl
@[simp] theorem State.setGovernor_mends : (s.setGovernor x).mends = s.mends := rfl
@[simp] theorem State.setGovernor_evidence : (s.setGovernor x).evidence = s.evidence := rfl
@[simp] theorem State.setGovernor_governor : (s.setGovernor x).governor = x := rfl
@[simp] theorem State.setGovernor_timers : (s.setGovernor x).timers = s.timers := rfl
@[simp] theorem State.setGovernor_watch : (s.setGovernor x).watch = s.watch := rfl
@[simp] theorem State.setGovernor_counters : (s.setGovernor x).counters = s.counters := rfl
@[simp] theorem State.setGovernor_port : (s.setGovernor x).port = s.port := rfl

end

/-! ### setTimers -/

section
variable (s : State) (x : TimerSettings)

@[simp] theorem State.setTimers_pending : (s.setTimers x).pending = s.pending := rfl
@[simp] theorem State.setTimers_now : (s.setTimers x).now = s.now := rfl
@[simp] theorem State.setTimers_strapPins : (s.setTimers x).strapPins = s.strapPins := rfl
@[simp] theorem State.setTimers_strap : (s.setTimers x).strap = s.strap := rfl
@[simp] theorem State.setTimers_holdHigh : (s.setTimers x).holdHigh = s.holdHigh := rfl
@[simp] theorem State.setTimers_resetLine : (s.setTimers x).resetLine = s.resetLine := rfl
@[simp] theorem State.setTimers_causes : (s.setTimers x).causes = s.causes := rfl
@[simp] theorem State.setTimers_read : (s.setTimers x).read = s.read := rfl
@[simp] theorem State.setTimers_holdings : (s.setTimers x).holdings = s.holdings := rfl
@[simp] theorem State.setTimers_sweep : (s.setTimers x).sweep = s.sweep := rfl
@[simp] theorem State.setTimers_line : (s.setTimers x).line = s.line := rfl
@[simp] theorem State.setTimers_votes : (s.setTimers x).votes = s.votes := rfl
@[simp] theorem State.setTimers_nextVote : (s.setTimers x).nextVote = s.nextVote := rfl
@[simp] theorem State.setTimers_mends : (s.setTimers x).mends = s.mends := rfl
@[simp] theorem State.setTimers_evidence : (s.setTimers x).evidence = s.evidence := rfl
@[simp] theorem State.setTimers_governor : (s.setTimers x).governor = s.governor := rfl
@[simp] theorem State.setTimers_timers : (s.setTimers x).timers = x := rfl
@[simp] theorem State.setTimers_watch : (s.setTimers x).watch = s.watch := rfl
@[simp] theorem State.setTimers_counters : (s.setTimers x).counters = s.counters := rfl
@[simp] theorem State.setTimers_port : (s.setTimers x).port = s.port := rfl

end

/-! ### setWatch -/

section
variable (s : State) (x : Watch)

@[simp] theorem State.setWatch_pending : (s.setWatch x).pending = s.pending := rfl
@[simp] theorem State.setWatch_now : (s.setWatch x).now = s.now := rfl
@[simp] theorem State.setWatch_strapPins : (s.setWatch x).strapPins = s.strapPins := rfl
@[simp] theorem State.setWatch_strap : (s.setWatch x).strap = s.strap := rfl
@[simp] theorem State.setWatch_holdHigh : (s.setWatch x).holdHigh = s.holdHigh := rfl
@[simp] theorem State.setWatch_resetLine : (s.setWatch x).resetLine = s.resetLine := rfl
@[simp] theorem State.setWatch_causes : (s.setWatch x).causes = s.causes := rfl
@[simp] theorem State.setWatch_read : (s.setWatch x).read = s.read := rfl
@[simp] theorem State.setWatch_holdings : (s.setWatch x).holdings = s.holdings := rfl
@[simp] theorem State.setWatch_sweep : (s.setWatch x).sweep = s.sweep := rfl
@[simp] theorem State.setWatch_line : (s.setWatch x).line = s.line := rfl
@[simp] theorem State.setWatch_votes : (s.setWatch x).votes = s.votes := rfl
@[simp] theorem State.setWatch_nextVote : (s.setWatch x).nextVote = s.nextVote := rfl
@[simp] theorem State.setWatch_mends : (s.setWatch x).mends = s.mends := rfl
@[simp] theorem State.setWatch_evidence : (s.setWatch x).evidence = s.evidence := rfl
@[simp] theorem State.setWatch_governor : (s.setWatch x).governor = s.governor := rfl
@[simp] theorem State.setWatch_timers : (s.setWatch x).timers = s.timers := rfl
@[simp] theorem State.setWatch_watch : (s.setWatch x).watch = x := rfl
@[simp] theorem State.setWatch_counters : (s.setWatch x).counters = s.counters := rfl
@[simp] theorem State.setWatch_port : (s.setWatch x).port = s.port := rfl

end

/-! ### setCounters -/

section
variable (s : State) (x : Counters)

@[simp] theorem State.setCounters_pending : (s.setCounters x).pending = s.pending := rfl
@[simp] theorem State.setCounters_now : (s.setCounters x).now = s.now := rfl
@[simp] theorem State.setCounters_strapPins : (s.setCounters x).strapPins = s.strapPins := rfl
@[simp] theorem State.setCounters_strap : (s.setCounters x).strap = s.strap := rfl
@[simp] theorem State.setCounters_holdHigh : (s.setCounters x).holdHigh = s.holdHigh := rfl
@[simp] theorem State.setCounters_resetLine : (s.setCounters x).resetLine = s.resetLine := rfl
@[simp] theorem State.setCounters_causes : (s.setCounters x).causes = s.causes := rfl
@[simp] theorem State.setCounters_read : (s.setCounters x).read = s.read := rfl
@[simp] theorem State.setCounters_holdings : (s.setCounters x).holdings = s.holdings := rfl
@[simp] theorem State.setCounters_sweep : (s.setCounters x).sweep = s.sweep := rfl
@[simp] theorem State.setCounters_line : (s.setCounters x).line = s.line := rfl
@[simp] theorem State.setCounters_votes : (s.setCounters x).votes = s.votes := rfl
@[simp] theorem State.setCounters_nextVote : (s.setCounters x).nextVote = s.nextVote := rfl
@[simp] theorem State.setCounters_mends : (s.setCounters x).mends = s.mends := rfl
@[simp] theorem State.setCounters_evidence : (s.setCounters x).evidence = s.evidence := rfl
@[simp] theorem State.setCounters_governor : (s.setCounters x).governor = s.governor := rfl
@[simp] theorem State.setCounters_timers : (s.setCounters x).timers = s.timers := rfl
@[simp] theorem State.setCounters_watch : (s.setCounters x).watch = s.watch := rfl
@[simp] theorem State.setCounters_counters : (s.setCounters x).counters = x := rfl
@[simp] theorem State.setCounters_port : (s.setCounters x).port = s.port := rfl

end

/-! ### setPort -/

section
variable (s : State) (x : ShelfPort)

@[simp] theorem State.setPort_pending : (s.setPort x).pending = s.pending := rfl
@[simp] theorem State.setPort_now : (s.setPort x).now = s.now := rfl
@[simp] theorem State.setPort_strapPins : (s.setPort x).strapPins = s.strapPins := rfl
@[simp] theorem State.setPort_strap : (s.setPort x).strap = s.strap := rfl
@[simp] theorem State.setPort_holdHigh : (s.setPort x).holdHigh = s.holdHigh := rfl
@[simp] theorem State.setPort_resetLine : (s.setPort x).resetLine = s.resetLine := rfl
@[simp] theorem State.setPort_causes : (s.setPort x).causes = s.causes := rfl
@[simp] theorem State.setPort_read : (s.setPort x).read = s.read := rfl
@[simp] theorem State.setPort_holdings : (s.setPort x).holdings = s.holdings := rfl
@[simp] theorem State.setPort_sweep : (s.setPort x).sweep = s.sweep := rfl
@[simp] theorem State.setPort_line : (s.setPort x).line = s.line := rfl
@[simp] theorem State.setPort_votes : (s.setPort x).votes = s.votes := rfl
@[simp] theorem State.setPort_nextVote : (s.setPort x).nextVote = s.nextVote := rfl
@[simp] theorem State.setPort_mends : (s.setPort x).mends = s.mends := rfl
@[simp] theorem State.setPort_evidence : (s.setPort x).evidence = s.evidence := rfl
@[simp] theorem State.setPort_governor : (s.setPort x).governor = s.governor := rfl
@[simp] theorem State.setPort_timers : (s.setPort x).timers = s.timers := rfl
@[simp] theorem State.setPort_watch : (s.setPort x).watch = s.watch := rfl
@[simp] theorem State.setPort_counters : (s.setPort x).counters = s.counters := rfl
@[simp] theorem State.setPort_port : (s.setPort x).port = x := rfl

end

end Sys2Proof.Machine
end

