-- ==== Sys2Proof/Laws/Frame.lean ====
section
/-! SUPPORT. The frames of the shared operations: which parts of the state each leaves as they are. -/

namespace Sys2Proof.Machine

/-! ### Frames in general -/

theorem Part.same_refl (p : Part) (s : State) : p.same s s := by
  cases p <;> simp only [Part.same, and_self]

theorem SameBut.refl (ps : List Part) (s : State) : SameBut ps s s := fun p _ => p.same_refl s

theorem Part.same_trans {p : Part} {s t u : State} (h : p.same s t) (k : p.same t u) : p.same s u := by
  cases p <;> simp only [Part.same] at h k ⊢ <;> simp only [h, k, and_self]

theorem SameBut.trans {ps : List Part} {s t u : State} (h : SameBut ps s t) (k : SameBut ps t u) : SameBut ps s u :=
  fun p hp => Part.same_trans (h p hp) (k p hp)

theorem SameBut.mono {ps qs : List Part} {s t : State} (h : SameBut ps s t) (sub : ∀ p ∈ ps, p ∈ qs) :
    SameBut qs s t := fun p hp => h p fun hin => hp (sub p hin)

/-- One frame after another, in the parts of both. -/
theorem SameBut.comp {ps qs rs : List Part} {s t u : State} (h : SameBut ps s t) (k : SameBut qs t u)
    (hp : ∀ p ∈ ps, p ∈ rs) (hq : ∀ p ∈ qs, p ∈ rs) : SameBut rs s u :=
  (h.mono hp).trans (k.mono hq)

/-- A fold of steps with one frame has that frame. -/
theorem SameBut.foldl {α : Type} {ps : List Part} {f : State → α → State} (h : ∀ s a, SameBut ps s (f s a)) :
    ∀ (xs : List α) (s : State), SameBut ps s (xs.foldl f s)
  | [], s => SameBut.refl ps s
  | x :: xs, s => (h s x).trans (SameBut.foldl h xs (f s x))

/-! ### Whole blocks from their parts -/

theorem SameBut.sweep_eq {ps : List Part} {s t : State} (h : SameBut ps s t) (h1 : Part.suspendFlag ∉ ps)
    (h2 : Part.cadence ∉ ps) (h3 : Part.sweepRun ∉ ps) : t.sweep = s.sweep := by
  have a := h _ h1
  have b := h _ h2
  have c := h _ h3
  simp only [Part.same] at a b c
  obtain ⟨b1, b2, b3⟩ := b
  obtain ⟨c1, c2, c3, c4, c5, c6, c7, c8⟩ := c
  cases hs : s.sweep; cases ht : t.sweep
  simp_all

theorem SameBut.governor_eq {ps : List Part} {s t : State} (h : SameBut ps s t) (h1 : Part.paceSettings ∉ ps)
    (h2 : Part.paceGap ∉ ps) (h3 : Part.depthAverage ∉ ps) : t.governor = s.governor := by
  have a := h _ h1
  have b := h _ h2
  have c := h _ h3
  simp only [Part.same] at a b c
  cases hs : s.governor; cases ht : t.governor
  simp_all

theorem SameBut.line_eq {ps : List Part} {s t : State} (h : SameBut ps s t) (h1 : Part.lineState ∉ ps)
    (h2 : Part.lineClock ∉ ps) (h3 : Part.lineQueue ∉ ps) (h4 : Part.roster ∉ ps) (h5 : Part.beacon ∉ ps) :
    t.line = s.line := by
  have a := h _ h1
  have b := h _ h2
  have c := h _ h3
  have d := h _ h4
  have e := h _ h5
  simp only [Part.same] at a b c d e
  cases hs : s.line; cases ht : t.line
  simp_all

theorem SameBut.port_eq {ps : List Part} {s t : State} (h : SameBut ps s t) (h1 : Part.link ∉ ps)
    (h2 : Part.requests ∉ ps) (h3 : Part.reports ∉ ps) (h4 : Part.intake ∉ ps) (h5 : Part.view ∉ ps) :
    t.port = s.port := by
  have a := h _ h1
  have b := h _ h2
  have c := h _ h3
  have d := h _ h4
  have e := h _ h5
  simp only [Part.same] at a b c d e
  cases hs : s.port; cases ht : t.port
  simp_all

/-- Two lists of holdings with the same given fields and the same passes are one list. -/
theorem holdings_eq : ∀ {xs ys : List Holding}, xs.map Holding.given = ys.map Holding.given →
    xs.map Holding.passes = ys.map Holding.passes → xs = ys
  | [], [], _, _ => rfl
  | [], _ :: _, h, _ => nomatch h
  | _ :: _, [], h, _ => nomatch h
  | x :: xs, y :: ys, h, k => by
    simp only [List.map_cons, List.cons.injEq] at h k
    have e : x = y := by
      have h1 := h.1
      have k1 := k.1
      cases x; cases y
      simp only [Holding.given, Holding.mk.injEq] at h1 k1 ⊢
      simp_all
    rw [e, holdings_eq h.2 k.2]

theorem SameBut.holdings_eq {ps : List Part} {s t : State} (h : SameBut ps s t) (h1 : Part.holdings ∉ ps)
    (h2 : Part.passes ∉ ps) : t.holdings = s.holdings := Machine.holdings_eq (h _ h1) (h _ h2)

theorem SameBut.counters_eq {ps : List Part} {s t : State} (h : SameBut ps s t)
    (hc : ∀ c, Part.counter c ∉ ps) : t.counters = s.counters := by
  apply Vector.ext
  intro i hi
  have all : ∀ c : Counter, t.counters[c.place.val] = s.counters[c.place.val] := fun c => h _ (hc c)
  have place : ∀ i : Fin 23, ∃ c : Counter, c.place = i := by
    have codes : ∀ i : Fin 23, ∃ c ∈ [Counter.votesOpened, .good, .bad, .leaderBad, .unreadable, .split, .unconfirmed,
        .abandoned, .refDiffers, .lineSent, .lineReceived, .lineBadCheck, .lineMalformed, .collisions, .lineDropped,
        .deferredSent, .stray, .answersOverflow, .lateBlocks, .blockDiscarded, .fetchTimeouts, .reportsLost,
        .evidenceEvicted], c.place = i := by decide
    exact fun i => (codes i).imp fun _ h => h.2
  obtain ⟨c, hcp⟩ := place ⟨i, hi⟩
  have := all c
  simp only [hcp] at this
  exact this

/-- The parts cover the state: states that agree on every part are one state. -/
theorem SameBut.eq {s t : State} (h : SameBut [] s t) : t = s := by
  have e1 := h.sweep_eq (by decide) (by decide) (by decide)
  have e2 := h.governor_eq (by decide) (by decide) (by decide)
  have e3 := h.line_eq (by decide) (by decide) (by decide) (by decide) (by decide)
  have e4 := h.port_eq (by decide) (by decide) (by decide) (by decide) (by decide)
  have e5 := h.holdings_eq (by decide) (by decide)
  have e6 := h.counters_eq (fun c => List.not_mem_nil)
  have a1 := h .pending (by decide)
  have a2 := h .now (by decide)
  have a3 := h .strapPins (by decide)
  have a4 := h .strap (by decide)
  have a5 := h .holdHigh (by decide)
  have a6 := h .resetLine (by decide)
  have a7 := h .causes (by decide)
  have a8 := h .read (by decide)
  have a9 := h .votes (by decide)
  have a10 := h .nextVote (by decide)
  have a11 := h .mends (by decide)
  have a12 := h .evidence (by decide)
  have a13 := h .timers (by decide)
  have a14 := h .watch (by decide)
  simp only [Part.same] at a1 a2 a3 a4 a5 a6 a7 a8 a9 a10 a11 a12 a13 a14
  cases s; cases t
  simp_all

/-! ### The updates of one block -/

theorem State.setPending_frame (s : State) (x : List Instr) : SameBut [.pending] s (s.setPending x) := by
  intro p hp; cases p <;> first | (simp only [Part.same]; and_intros <;> rfl) | exact absurd (List.mem_singleton.mpr rfl) hp

theorem State.setNow_frame (s : State) (x : Nat) : SameBut [.now] s (s.setNow x) := by
  intro p hp; cases p <;> first | (simp only [Part.same]; and_intros <;> rfl) | exact absurd (List.mem_singleton.mpr rfl) hp

theorem State.setStrapPins_frame (s : State) (x : Strap) : SameBut [.strapPins] s (s.setStrapPins x) := by
  intro p hp; cases p <;> first | (simp only [Part.same]; and_intros <;> rfl) | exact absurd (List.mem_singleton.mpr rfl) hp

theorem State.setStrap_frame (s : State) (x : Strap) : SameBut [.strap] s (s.setStrap x) := by
  intro p hp; cases p <;> first | (simp only [Part.same]; and_intros <;> rfl) | exact absurd (List.mem_singleton.mpr rfl) hp

theorem State.setHoldHigh_frame (s : State) (x : Bool) : SameBut [.holdHigh] s (s.setHoldHigh x) := by
  intro p hp; cases p <;> first | (simp only [Part.same]; and_intros <;> rfl) | exact absurd (List.mem_singleton.mpr rfl) hp

theorem State.setResetLine_frame (s : State) (x : Bool) : SameBut [.resetLine] s (s.setResetLine x) := by
  intro p hp; cases p <;> first | (simp only [Part.same]; and_intros <;> rfl) | exact absurd (List.mem_singleton.mpr rfl) hp

theorem State.setCauses_frame (s : State) (x : ResetCauses) : SameBut [.causes] s (s.setCauses x) := by
  intro p hp; cases p <;> first | (simp only [Part.same]; and_intros <;> rfl) | exact absurd (List.mem_singleton.mpr rfl) hp

theorem State.setRead_frame (s : State) (x : ReadEngine) : SameBut [.read] s (s.setRead x) := by
  intro p hp; cases p <;> first | (simp only [Part.same]; and_intros <;> rfl) | exact absurd (List.mem_singleton.mpr rfl) hp

theorem State.setVotes_frame (s : State) (x : List Vote) : SameBut [.votes] s (s.setVotes x) := by
  intro p hp; cases p <;> first | (simp only [Part.same]; and_intros <;> rfl) | exact absurd (List.mem_singleton.mpr rfl) hp

theorem State.setNextVote_frame (s : State) (x : Nat) : SameBut [.nextVote] s (s.setNextVote x) := by
  intro p hp; cases p <;> first | (simp only [Part.same]; and_intros <;> rfl) | exact absurd (List.mem_singleton.mpr rfl) hp

theorem State.setMends_frame (s : State) (x : List MendEntry) : SameBut [.mends] s (s.setMends x) := by
  intro p hp; cases p <;> first | (simp only [Part.same]; and_intros <;> rfl) | exact absurd (List.mem_singleton.mpr rfl) hp

theorem State.setEvidence_frame (s : State) (x : Evidence) : SameBut [.evidence] s (s.setEvidence x) := by
  intro p hp; cases p <;> first | (simp only [Part.same]; and_intros <;> rfl) | exact absurd (List.mem_singleton.mpr rfl) hp

theorem State.setTimers_frame (s : State) (x : TimerSettings) : SameBut [.timers] s (s.setTimers x) := by
  intro p hp; cases p <;> first | (simp only [Part.same]; and_intros <;> rfl) | exact absurd (List.mem_singleton.mpr rfl) hp

theorem State.setWatch_frame (s : State) (x : Watch) : SameBut [.watch] s (s.setWatch x) := by
  intro p hp; cases p <;> first | (simp only [Part.same]; and_intros <;> rfl) | exact absurd (List.mem_singleton.mpr rfl) hp

theorem State.setHoldings_frame (s : State) (x : List Holding) : SameBut [.holdings, .passes] s (s.setHoldings x) := by
  intro p hp; cases p <;> first | (simp only [Part.same]; and_intros <;> rfl) | exact absurd (by decide) hp

theorem State.setPasses_frame (s : State) {x : List Holding} (h : x.map Holding.given = s.holdings.map Holding.given) :
    SameBut [.passes] s (s.setHoldings x) := by
  intro p hp; cases p <;> first | (simp only [Part.same]; and_intros <;> rfl) | exact h | exact absurd (by decide) hp

theorem State.setQueue_frame (s : State) (q : List Message) : SameBut [.lineQueue] s (s.setLine { s.line with queue := q }) := by
  intro p hp; cases p <;> first | (simp only [Part.same]; and_intros <;> rfl) | exact absurd (by decide) hp

theorem State.setClock_frame (s : State) (x : LineUnit) (hs : x.state = s.line.state := by rfl)
    (hq : x.queue = s.line.queue := by rfl) (hr : x.roster = s.line.roster := by rfl)
    (hb : x.beacon = s.line.beacon := by rfl) : SameBut [.lineClock] s (s.setLine x) := by
  intro p hp
  cases p <;> first
    | (simp only [Part.same]; and_intros <;> rfl) | exact hs | exact hq | exact hr | exact hb | exact absurd (by decide) hp

/-- A change to the roster touches the roster alone. -/
theorem State.modifyRoster_frame (s : State) (t : Nat) (f : RosterEntry → RosterEntry) :
    SameBut [.roster] s (s.setLine (s.line.modifyRoster t f)) := by
  unfold LineUnit.modifyRoster
  split
  · intro p hp; cases p <;> first | (simp only [Part.same]; and_intros <;> rfl) | exact absurd (by decide) hp
  · exact SameBut.refl _ s

theorem State.startBeacon_frame (s : State) : SameBut [.beacon] s s.startBeacon := by
  intro p hp; cases p <;> first | (simp only [Part.same]; and_intros <;> rfl) | exact absurd (by decide) hp

theorem State.setRun_frame (s : State) (x : Sweep) (hs : x.suspended = s.sweep.suspended := by rfl)
    (hp : x.period = s.sweep.period := by rfl) (hm : x.masks = s.sweep.masks := by rfl)
    (hb : x.burst = s.sweep.burst := by rfl) :
    SameBut [.sweepRun] s (s.setSweep x) := by
  intro p h
  cases p <;> first
    | (simp only [Part.same]; and_intros <;> rfl) | exact hs | exact ⟨hp, hm, hb⟩ | exact absurd (by decide) h

theorem State.setGap_frame (s : State) (gap settle : Nat) :
    SameBut [.paceGap] s (s.setGovernor { s.governor with gap := gap, settle := settle }) := by
  intro p hp; cases p <;> first | (simp only [Part.same]; and_intros <;> rfl) | exact absurd (by decide) hp

theorem State.takeDepth_frame (s : State) (d : Nat) :
    SameBut [.depthAverage] s (s.setGovernor (s.governor.takeDepth d)) := by
  unfold Governor.takeDepth
  split
  all_goals intro p hp; cases p <;> first | (simp only [Part.same]; and_intros <;> rfl) | exact absurd (by decide) hp

theorem State.setReports_frame (s : State) (reports : List QueuedReport) (n : BitVec 16) :
    SameBut [.reports] s (s.setPort { s.port with reports := reports, nextReport := n }) := by
  intro p hp
  cases p <;> first
    | (simp only [Part.same]; and_intros <;> rfl) | exact absurd (by decide) hp

theorem State.setLink_frame (s : State) (x : ShelfPort) (hi : x.inbound = s.port.inbound := by rfl)
    (ht : x.resetTaken = s.port.resetTaken := by rfl) (hv : x.view = s.port.view := by rfl)
    (hx : x.index = s.port.index := by rfl) (hr : x.reports = s.port.reports := by rfl)
    (hn : x.nextReport = s.port.nextReport := by rfl) : SameBut [.link, .requests] s (s.setPort x) := by
  intro p hp
  cases p <;> first
    | (simp only [Part.same]; and_intros <;> rfl) | exact ⟨hi, ht⟩ | exact ⟨hv, hx⟩ | exact ⟨hr, hn⟩
    | exact absurd (by decide) hp

/-! ### Counters -/

theorem Counters.get_add (cs : Counters) (c d : Counter) (k : Nat) :
    (cs.add c k).get d.place = if c = d then min Config.countTop (cs.get c.place + k) else cs.get d.place := by
  have inj : c.place.val = d.place.val ↔ c = d := by
    constructor
    · intro e; cases c <;> cases d <;> first | rfl | exact absurd e (by decide)
    · rintro rfl; rfl
  unfold Counters.add
  show (cs.set c.place.val _ c.place.isLt)[d.place.val] = _
  rw [Vector.getElem_set]
  split
  · next e => rw [if_pos (inj.mp e)]
  · next e => rw [if_neg fun x => e (inj.mpr x)]; rfl

/-- What counting an event does to a counter (R163). -/
theorem State.count_bumpBy (s : State) (c d : Counter) (k : Nat) :
    (s.bumpBy c k).count d = if c = d then min Config.countTop (s.count c + k) else s.count d :=
  Counters.get_add s.counters c d k

theorem State.count_bump (s : State) (c d : Counter) :
    (s.bump c).count d = if c = d then min Config.countTop (s.count c + 1) else s.count d := s.count_bumpBy c d 1

/-! ### Counters, reports, requests, the arbiter -/

theorem State.bumpBy_frame (s : State) (c : Counter) (k : Nat) : SameBut [.counter c] s (s.bumpBy c k) := by
  intro p hp
  cases p with
  | counter d =>
    have ne : c ≠ d := fun e => hp (e ▸ List.mem_singleton.mpr rfl)
    exact (s.count_bumpBy c d k).trans (if_neg ne)
  | _ => simp only [Part.same]; and_intros <;> rfl

theorem State.bump_frame (s : State) (c : Counter) : SameBut [.counter c] s (s.bump c) := s.bumpBy_frame c 1

/-- A report touches the report queue, and REPORTS_LOST when it is lost (R169). -/
theorem State.pushReport_frame (s : State) (r : Report) : SameBut reportParts s (s.pushReport r) := by
  unfold State.pushReport
  split
  · exact (s.setReports_frame _ _).mono (by decide)
  · exact (s.setReports_frame s.port.reports _).comp (State.bump_frame _ _) (by decide) (by decide)

theorem State.pushRequest_frame (s : State) (r : Request) : SameBut [.requests] s (s.pushRequest r) := by
  intro p hp
  cases p <;> first
    | (simp only [Part.same]; and_intros <;> rfl) | exact absurd (by decide) hp

/-- The outbound arbiter moves what waits, and touches nothing else of the port. -/
theorem ShelfPort.arbitrate_keeps (p : ShelfPort) :
    p.arbitrate.inbound = p.inbound ∧ p.arbitrate.resetTaken = p.resetTaken ∧ p.arbitrate.view = p.view ∧
      p.arbitrate.index = p.index ∧ p.arbitrate.reports = p.reports ∧ p.arbitrate.nextReport = p.nextReport := by
  unfold ShelfPort.arbitrate
  repeat' split
  all_goals exact ⟨rfl, rfl, rfl, rfl, rfl, rfl⟩

theorem State.arbitrate_frame (s : State) : SameBut [.link, .requests] s s.arbitrate :=
  have k := s.port.arbitrate_keeps
  s.setLink_frame _ k.1 k.2.1 k.2.2.1 k.2.2.2.1 k.2.2.2.2.1 k.2.2.2.2.2

theorem State.modifyVote_frame (s : State) (id : Nat) (f : Vote → Vote) : SameBut [.votes] s (s.modifyVote id f) :=
  s.setVotes_frame _

theorem State.removeVote_frame (s : State) (id : Nat) : SameBut [.votes] s (s.removeVote id) := s.setVotes_frame _

theorem State.passSlots_frame (s : State) (k : Nat) : SameBut [.now, .lineClock] s (s.passSlots k) := by
  unfold State.passSlots
  dsimp only
  split
  · exact (s.setNow_frame _).mono (by decide)
  · exact (s.setNow_frame _).comp (State.setClock_frame _ _) (by decide) (by decide)

theorem State.passUntil_frame (s : State) (due : Nat) : SameBut [.now, .lineClock] s (s.passUntil due) :=
  s.passSlots_frame _

theorem State.slotTime_pos (s : State) : 0 < s.slotTime := by
  unfold State.slotTime
  split <;> decide

theorem State.passSlots_now (s : State) (k : Nat) : (s.passSlots k).now = s.now + k * s.slotTime := by
  unfold State.passSlots
  dsimp only
  split <;> rfl

theorem State.passSlots_zero (s : State) (h : s.line.listenCount ≤ 290) : s.passSlots 0 = s := by
  have q : s.line.quietSlots 0 = 0 := by
    unfold LineUnit.quietSlots
    split
    · rfl
    · split <;> rfl
  have a : s.line.activityAfter 0 = s.line.activity := if_neg fun h => absurd h.2 (Nat.lt_irrefl 0)
  have m : min Config.listenSlots s.line.listenCount = s.line.listenCount := Nat.min_eq_right h
  have l : s.line.passSlots 0 = s.line := by
    unfold LineUnit.passSlots
    rw [q, a, Nat.add_zero, Nat.add_zero, m, ite_self]
  unfold State.passSlots
  rw [Nat.zero_mul, Nat.add_zero]
  dsimp only [State.setNow, State.setLine]
  split
  · rfl
  · rw [l]

/-- All that passUntil does. -/
theorem State.passUntil_spec (s : State) (due : Nat) : PassesUntil s (s.passUntil due) due := by
  have pos := s.slotTime_pos
  have now : ∀ k, (s.passSlots k).now = s.now + k * s.slotTime := s.passSlots_now
  obtain ⟨k, hk, hu⟩ : ∃ k, k = (due - s.now + s.slotTime - 1) / s.slotTime ∧ s.passUntil due = s.passSlots k :=
    ⟨_, rfl, rfl⟩
  have low : k * s.slotTime ≤ due - s.now + s.slotTime - 1 := hk ▸ Nat.div_mul_le_self _ _
  have high : due - s.now + s.slotTime - 1 < (k + 1) * s.slotTime := by
    rw [hk, Nat.mul_comm]
    exact Nat.lt_mul_div_succ _ pos
  rw [Nat.add_mul, Nat.one_mul] at high
  have none : due ≤ s.now → k = 0 := fun h => by
    rw [hk, Nat.sub_eq_zero_of_le h, Nat.zero_add]
    exact Nat.div_eq_of_lt (by omega)
  rw [hu]
  refine ⟨?_, ?_, fun h => ⟨?_, fun l => ?_⟩, s.passSlots_frame _, k, now k, fun r tr ac => ?_⟩
  · rw [now]; omega
  · intro h; rw [now]; omega
  · rw [now, none h, Nat.zero_mul, Nat.add_zero]
  · rw [none h, s.passSlots_zero l]
  · have e : (s.passSlots k).line = s.line.passSlots k := by
      unfold State.passSlots
      dsimp only [State.setNow, State.setLine]
      rw [r]
      rfl
    have q : s.line.quietSlots k = k := by
      unfold LineUnit.quietSlots
      rw [tr, ac]
      rfl
    have a : s.line.activityAfter k = .quiet := by
      unfold LineUnit.activityAfter
      rw [ac]
      rfl
    rw [e]
    refine ⟨a, congrArg _ q, fun st => ?_⟩
    unfold LineUnit.passSlots
    rw [q]
    exact if_pos st

/-! ### Offers to the line -/

theorem State.joinQueue_frame (s : State) (m : Message) : SameBut [.lineQueue, .votes] s (s.joinQueue m) := by
  unfold State.joinQueue
  dsimp only
  split
  · exact (s.setQueue_frame _).comp (State.modifyVote_frame _ _ _) (by decide) (by decide)
  all_goals exact (s.setQueue_frame _).mono (by decide)

theorem State.clearCall_frame (s : State) (m : Message) : SameBut [.votes] s (s.clearCall m).1 := by
  unfold State.clearCall
  dsimp only
  split
  · split
    · split
      · exact (s.modifyVote_frame _ _).trans (State.modifyVote_frame _ _ _)
      · exact s.modifyVote_frame _ _
    · exact SameBut.refl _ _
  all_goals exact SameBut.refl _ _

theorem State.offerFuel_frame : ∀ (n : Nat) (m : Message) (s : State),
    SameBut offerParts s (State.offerFuel n m s)
  | 0, _, s => SameBut.refl _ s
  | n + 1, m, s => by
    unfold State.offerFuel
    split
    · exact SameBut.refl _ s
    split
    · exact (s.joinQueue_frame m).mono (by decide)
    split
    · next victim rest _ =>
      split
      · have base : SameBut offerParts s
            (((s.setLine { s.line with queue := rest }).joinQueue m).bump .lineDropped) :=
          ((s.setQueue_frame _).comp (State.joinQueue_frame _ m) (by decide) (by decide)).comp
            (State.bump_frame _ _) (by decide : ∀ p ∈ [Part.lineQueue, .votes], p ∈ offerParts)
            (by decide)
        have called := base.trans ((State.clearCall_frame _ victim).mono (by decide))
        split
        · next s1 held e =>
          rw [e] at called
          exact called.trans (State.offerFuel_frame n held s1)
        · next s1 e =>
          rw [e] at called
          exact called
      · exact (s.bump_frame _).mono (by decide)
    · exact (s.bump_frame _).mono (by decide)

/-- An offer touches the line unit, votes and counters alone. -/
theorem State.offer_frame (s : State) (m : Message) : SameBut offerParts s (s.offer m) :=
  State.offerFuel_frame _ m s

theorem State.messageLeft_frame (s : State) (m : Message) :
    SameBut offerParts s (s.messageLeft m) := by
  unfold State.messageLeft
  have called := s.clearCall_frame m
  split
  · next s1 held e =>
    rw [e] at called
    exact called.comp (s1.offer_frame held) (by decide) (by decide)
  · next s1 e =>
    rw [e] at called
    exact called.mono (by decide)

theorem State.offerOwnSum_frame (s : State) (id : Nat) :
    SameBut offerParts s (s.offerOwnSum id) := by
  unfold State.offerOwnSum
  split
  · split
    · exact SameBut.refl _ s
    · split
      · exact (s.modifyVote_frame _ _).comp (State.offer_frame _ _) (by decide) (by decide)
      · exact SameBut.refl _ s
  · exact SameBut.refl _ s

theorem State.offerHeldSum_frame (s : State) (v : Vote) :
    SameBut offerParts s (s.offerHeldSum v) := by
  unfold State.offerHeldSum
  split
  · split
    · exact s.offer_frame _
    · exact SameBut.refl _ s
  · exact SameBut.refl _ s

theorem State.offerBeacon_frame (s : State) : SameBut offerParts s s.offerBeacon := by
  unfold State.offerBeacon
  split
  · exact SameBut.refl _ s
  · exact s.offer_frame _

theorem State.placeJoining_frame (s : State) : SameBut offerParts s s.placeJoining := by
  unfold State.placeJoining
  dsimp only
  split
  · exact (s.joinQueue_frame _).mono (by decide)
  split
  · exact (((s.setQueue_frame _).comp (State.joinQueue_frame _ _) (by decide) (by decide)).comp
      (State.bump_frame _ _) (by decide : ∀ p ∈ [Part.lineQueue, .votes], p ∈ offerParts)
      (by decide)).trans (State.messageLeft_frame _ _)
  · exact SameBut.refl _ s

/-! ### The issue arbiter and the opening of votes -/

theorem State.issueFor_frame (s : State) (v : Vote) : SameBut issueParts s (s.issueFor v) :=
  ((s.setRead_frame _).comp (State.modifyVote_frame _ _ _) (by decide) (by decide)).comp
    (State.pushRequest_frame _ _) (by decide : ∀ p ∈ [Part.read, .votes], p ∈ issueParts) (by decide)

theorem State.issueFuel_frame : ∀ (n : Nat) (s : State), SameBut issueParts s (State.issueFuel n s)
  | 0, s => SameBut.refl _ s
  | n + 1, s => by
    unfold State.issueFuel
    split
    · split
      · exact (s.issueFor_frame _).trans (State.issueFuel_frame n _)
      · exact SameBut.refl _ s
    · exact SameBut.refl _ s

/-- The issue arbiter touches the fetch slots, votes and requests alone. -/
theorem State.issue_frame (s : State) : SameBut issueParts s s.issue := State.issueFuel_frame _ s

theorem State.issueIfWaiting_frame (s : State) (id : Nat) :
    SameBut issueParts s (s.issueIfWaiting id) := by
  unfold State.issueIfWaiting
  split
  · split
    · exact s.issue_frame
    · exact SameBut.refl _ s
  · exact SameBut.refl _ s

theorem State.addVote_frame (s : State) (v : Vote) :
    SameBut [.votes, .nextVote, .counter .votesOpened] s (s.addVote v) :=
  (((s.setVotes_frame _).mono (by decide)).trans ((State.setNextVote_frame _ _).mono (by decide))).trans
    ((State.bump_frame _ _).mono (by decide))

theorem State.offerCall_frame (s : State) (v : Vote) : SameBut offerParts s (s.offerCall v) := by
  unfold State.offerCall
  dsimp only
  split
  · exact SameBut.refl _ s
  · exact s.offer_frame _

/-- Opening a vote touches the vote table, the line queue, the fetch slots and the requests. -/
theorem State.openCalling_frame (s : State) (k : Key) (o : Origin) : SameBut openParts s (s.openCalling k o) :=
  (((s.addVote_frame _).mono (by decide)).trans ((State.offerCall_frame _ _).mono (by decide))).trans
    ((State.issue_frame _).mono (by decide))

theorem State.openPeer_frame (s : State) (k : Key) (caller : Nat) :
    SameBut [.votes, .nextVote, .counter .votesOpened, .read, .requests] s (s.openPeer k caller) :=
  (s.addVote_frame _).comp (State.issue_frame _) (by decide) (by decide)

/-! ### The walk -/

theorem State.creditPass_given (s : State) (h : Holding) : (s.creditPass h).given = h.given := by
  unfold State.creditPass
  split <;> rfl

theorem State.completeRound_frame (s : State) :
    SameBut [.passes, .sweepRun, .reports, .counter .reportsLost] s s.completeRound := by
  have credited : SameBut [.passes] s (s.setHoldings (s.holdings.map s.creditPass)) :=
    s.setPasses_frame (by
      rw [List.map_map]
      exact List.map_congr_left fun h _ => s.creditPass_given h)
  exact ((credited.mono (by decide)).trans ((State.pushReport_frame _ _).mono (by decide))).trans
    ((State.setRun_frame _ _).mono (by decide))

theorem State.moveCursor_frame (s : State) (pos frame : Nat) :
    SameBut [.passes, .sweepRun, .reports, .counter .reportsLost] s (s.moveCursor pos frame) := by
  unfold State.moveCursor
  dsimp only
  split
  · exact (s.setRun_frame _).mono (by decide)
  · exact (s.setRun_frame _).comp (State.completeRound_frame _) (by decide) (by decide)

theorem State.cursorOn_frame (s : State) (h : Holding) :
    SameBut [.passes, .sweepRun, .reports, .counter .reportsLost] s (s.cursorOn h) := by
  unfold State.cursorOn
  split
  · exact s.moveCursor_frame _ _
  · exact s.moveCursor_frame _ _

theorem State.burstEnd_frame (s : State) : SameBut [.paceGap] s (s.setGovernor s.governor.burstEnd) := by
  unfold Governor.burstEnd
  split
  · exact s.setGap_frame _ _
  · exact SameBut.refl _ s

theorem State.endBurst_frame (s : State) : SameBut [.paceGap, .sweepRun] s s.endBurst := by
  unfold State.endBurst
  dsimp only
  split
  · exact s.burstEnd_frame.comp (State.setRun_frame _ _) (by decide) (by decide)
  · exact s.burstEnd_frame.comp (State.setRun_frame _ _) (by decide) (by decide)

theorem State.spendBurst_frame (s : State) : SameBut [.paceGap, .sweepRun] s s.spendBurst := by
  unfold State.spendBurst
  dsimp only
  split
  · split
    · exact (s.setRun_frame _).comp (State.endBurst_frame _) (by decide) (by decide)
    · exact (s.setRun_frame _).mono (by decide)
  · exact SameBut.refl _ s

theorem State.coverFrame_frame (s : State) (h : Holding) : SameBut walkParts s (s.coverFrame h) :=
  (s.setRun_frame _).comp (State.cursorOn_frame _ h) (by decide) (by decide)

theorem State.callFrame_frame (s : State) (h : Holding) (k : Key) : SameBut walkParts s (s.callFrame h k) :=
  ((((s.openCalling_frame k .sweep).mono (by decide)).trans
    ((State.setRun_frame _ _).mono (by decide))).trans
    ((State.cursorOn_frame _ h).mono (by decide))).trans ((State.spendBurst_frame _).mono (by decide))

theorem State.walkStep_frame (s : State) : SameBut walkParts s s.walkStep := by
  unfold State.walkStep
  split
  · exact s.completeRound_frame.mono (by decide)
  split
  · exact (s.moveCursor_frame _ _).mono (by decide)
  split
  · exact (s.moveCursor_frame _ _).mono (by decide)
  dsimp only
  split
  · exact s.coverFrame_frame _
  · exact s.callFrame_frame _ _

theorem State.walkFuel_frame : ∀ (n : Nat) (s : State), SameBut walkParts s (State.walkFuel n s)
  | 0, s => SameBut.refl _ s
  | n + 1, s => by
    unfold State.walkFuel
    split
    · exact s.walkStep_frame.trans (State.walkFuel_frame n _)
    · exact SameBut.refl _ s

/-- The walk touches the sweep, the passes of holdings, the governor, and what opening a vote and reporting touch. -/
theorem State.walk_frame (s : State) : SameBut walkParts s s.walk := State.walkFuel_frame _ s

/-! ### Closure and delivery -/

theorem State.settleMend_frame (s : State) (v : Vote) (d : Decision) (b : Option (List Nat)) :
    SameBut [.mends, .reports, .counter .reportsLost] s (s.settleMend v d b) := by
  unfold State.settleMend
  split
  · exact SameBut.refl _ s
  split
  · exact (s.setMends_frame _).comp (State.pushReport_frame _ _) (by decide) (by decide)
  split
  · exact (s.setMends_frame _).comp (State.pushReport_frame _ _) (by decide) (by decide)
  · exact (s.setMends_frame _).comp (State.pushReport_frame _ _) (by decide) (by decide)

theorem State.requestMend_frame (s : State) (k : Key) (x : Word) (b : Option (List Nat)) :
    SameBut [.mends] s (s.requestMend k x b) := by
  unfold State.requestMend
  split
  · exact SameBut.refl _ s
  · exact s.setMends_frame _

theorem State.deliverMend_frame (s : State) (v : Vote) (d : Decision) (b : Option (List Nat)) :
    SameBut [.mends, .reports, .counter .reportsLost] s (s.deliverMend v d b) := by
  unfold State.deliverMend
  split
  · exact s.settleMend_frame v d b
  · split
    · exact (s.requestMend_frame _ _ _).mono (by decide)
    all_goals exact SameBut.refl _ s

theorem State.addEvidence_frame (s : State) (e : EvidenceEntry) :
    SameBut [.evidence, .counter .evidenceEvicted] s (s.addEvidence e) :=
  (s.setEvidence_frame _).comp (State.bumpBy_frame _ _ _) (by decide) (by decide)

theorem State.deliverEvidence_frame (s : State) (v : Vote) (d : Decision) (l : Option Located) :
    SameBut [.evidence, .counter .evidenceEvicted] s (s.deliverEvidence v d l) := by
  unfold State.deliverEvidence
  split <;> first | exact s.addEvidence_frame _ | exact SameBut.refl _ s

theorem State.deliverReport_frame (s : State) (v : Vote) (d : Decision) (f : VoteFlags) (b : Option (List Nat)) :
    SameBut reportParts s (s.deliverReport v d f b) := by
  unfold State.deliverReport
  split
  · exact s.pushReport_frame _
  · exact SameBut.refl _ s

theorem State.alarmTest_frame (s : State) (k : Option Key) : SameBut [.watch, .reports, .counter .reportsLost] s (s.alarmTest k) := by
  unfold State.alarmTest
  dsimp only
  split
  · exact SameBut.refl _ s
  split
  · exact (s.setWatch_frame _).comp (State.pushReport_frame _ _) (by decide) (by decide)
  · exact (s.setWatch_frame _).mono (by decide)

theorem State.watchBit_frame (s : State) (b : Bool) (k : Key) : SameBut [.watch, .reports, .counter .reportsLost] s (s.watchBit b k) :=
  (s.setWatch_frame _).comp (State.alarmTest_frame _ _) (by decide) (fun _ hp => hp)

theorem State.deliverWatch_frame (s : State) (v : Vote) (d : Decision) :
    SameBut [.watch, .reports, .counter .reportsLost] s (s.deliverWatch v d) := by
  unfold State.deliverWatch
  split
  · exact s.watchBit_frame _ _
  · exact SameBut.refl _ s

theorem State.countVerdict_frame (s : State) (d : Verdict) (r : Bool) :
    SameBut [.counter d.counter, .counter .refDiffers] s (s.countVerdict d r) := by
  unfold State.countVerdict
  split
  · exact ((s.bump_frame _).mono (by simp)).trans ((State.bump_frame _ _).mono (by simp))
  · exact (s.bump_frame _).mono (by simp)

/-- What a delivery does before the vote is removed touches no vote and nothing of the sweep or the line. -/
theorem State.deliverMarks_frame (s : State) (v : Vote) (d : Decision) (l : Option Located) :
    SameBut [.mends, .evidence, .counter .evidenceEvicted, .watch, .reports, .counter .reportsLost,
      .counter d.verdict.counter, .counter .refDiffers] s (s.deliverMarks v d l) :=
  (((((s.countVerdict_frame _ _).mono (by simp)).trans ((State.deliverMend_frame _ _ _ _).mono (by simp))).trans
    ((State.deliverEvidence_frame _ _ _ _).mono (by simp))).trans
    ((State.deliverReport_frame _ _ _ _ _).mono (by simp [reportParts]))).trans
    ((State.deliverWatch_frame _ _ _).mono (by simp))

theorem State.deliver_frame (s : State) (v : Vote) (d : Decision) (l : Option Located) :
    SameBut deliverParts s (s.deliver v d l) :=
  ((((s.deliverMarks_frame v d l).mono (by cases d.verdict <;> decide)).trans ((State.removeVote_frame _ _).mono (by decide))).trans
    ((State.offerHeldSum_frame _ _).mono (by decide))).trans ((State.walk_frame _).mono (by decide))

theorem State.offerAll_frame (s : State) (bs : List LineBody) : SameBut offerParts s (s.offerAll bs) :=
  SameBut.foldl (fun s _ => s.offer_frame _) bs s

theorem State.offerTiles_frame (s : State) (v : Vote) (d : Decision) : SameBut offerParts s (s.offerTiles v d) := by
  unfold State.offerTiles
  split
  · split
    · exact s.offerAll_frame _
    · exact SameBut.refl _ s
  all_goals exact SameBut.refl _ s

theorem State.endUnlocated_frame (s : State) (v : Vote) (f : VoteFlags → VoteFlags) :
    SameBut deliverParts s (s.endUnlocated v f) := by
  unfold State.endUnlocated
  split
  · exact ((s.modifyVote_frame _ _).mono (by decide)).trans (State.deliver_frame _ _ _ _)
  · exact SameBut.refl _ s

theorem State.localise_frame (s : State) (v : Vote) : SameBut deliverParts s (s.localise v) := by
  have entered : SameBut deliverParts s (s.modifyVote v.id fun _ => v) := (s.modifyVote_frame _ _).mono (by decide)
  unfold State.localise
  dsimp only
  split
  · exact entered.trans (State.endUnlocated_frame _ _ _)
  · exact entered

/-- A closure touches what a delivery touches. -/
theorem State.close_frame (s : State) (v : Vote) : SameBut deliverParts s (s.close v) := by
  unfold State.close
  dsimp only
  split
  all_goals first
    | exact s.localise_frame _
    | exact (((s.modifyVote_frame _ _).mono (by decide)).trans ((State.offerTiles_frame _ _ _).mono (by decide))).trans
        (State.deliver_frame _ _ _ _)

theorem State.closureTest_frame (s : State) (id : Nat) : SameBut deliverParts s (s.closureTest id) := by
  unfold State.closureTest
  split
  · split
    · exact s.close_frame _
    · exact SameBut.refl _ s
  · exact SameBut.refl _ s

theorem State.expireVote_frame (s : State) (id : Nat) : SameBut deliverParts s (s.expireVote id) := by
  unfold State.expireVote
  split
  · split
    · exact s.close_frame _
    · exact SameBut.refl _ s
  · exact SameBut.refl _ s

theorem State.expireLocalisation_frame (s : State) (id : Nat) : SameBut deliverParts s (s.expireLocalisation id) := by
  unfold State.expireLocalisation
  split
  · split
    · exact s.endUnlocated_frame _ _
    · exact SameBut.refl _ s
  · exact SameBut.refl _ s

theorem State.verifyReceived_frame (s : State) (v : Vote) (l : Localisation) (d : Decision) (cs : List Word) :
    SameBut deliverParts s (s.verifyReceived v l d cs) := by
  unfold State.verifyReceived
  split
  · exact ((s.modifyVote_frame _ _).mono (by decide)).trans (State.deliver_frame _ _ _ _)
  · exact (s.modifyVote_frame _ _).mono (by decide)

theorem State.storeChunk_frame (s : State) (v : Vote) (l : Localisation) (d : Decision) (t first : Nat)
    (cs : List Word) : SameBut deliverParts s (s.storeChunk v l d t first cs) := by
  unfold State.storeChunk
  dsimp only
  split
  · exact SameBut.refl _ s
  split
  · exact s.verifyReceived_frame _ _ _ _
  · exact (s.modifyVote_frame _ _).mono (by decide)

theorem State.takeChunk_frame (s : State) (v : Vote) (t : Nat) (x : Word) (n first : Nat) (cs : List Word) :
    SameBut deliverParts s (s.takeChunk v t x n first cs) := by
  unfold State.takeChunk
  dsimp only
  repeat' split
  all_goals first
    | exact s.storeChunk_frame _ _ _ _ _ _
    | exact s.endUnlocated_frame _ _
    | exact SameBut.refl _ s

theorem State.ownStatusKnown_frame (s : State) (id : Nat) (own : OwnStatus) (cs : List Word) :
    SameBut deliverParts s (s.ownStatusKnown id own cs) := by
  have offered : SameBut deliverParts s (((s.modifyVote id fun v =>
      { v with state := .gathering, own := own, checks := cs, timer := some s.now }).issue).offerOwnSum id) :=
    (((s.modifyVote_frame _ _).mono (by decide)).trans ((State.issue_frame _).mono (by decide))).trans
      ((State.offerOwnSum_frame _ _).mono (by decide))
  unfold State.ownStatusKnown
  dsimp only
  split
  · exact offered.trans (State.expireVote_frame _ _)
  · exact offered.trans (State.closureTest_frame _ _)

theorem State.freeSlot_frame (s : State) (tag : Byte) : SameBut [.read] s (s.freeSlot tag) := s.setRead_frame _

/-- The end of a fetch touches what a closure touches. -/
theorem State.endUnreadable_frame (s : State) (f : Fetch) (r : Reason) (c : Bool) :
    SameBut deliverParts s (s.endUnreadable f r c) := by
  have freed : SameBut deliverParts s
      (if c then (s.freeSlot f.tag).pushRequest (.cancel f.tag f.key) else s.freeSlot f.tag) := by
    split
    · exact ((s.freeSlot_frame _).mono (by decide)).trans ((State.pushRequest_frame _ _).mono (by decide))
    · exact (s.freeSlot_frame _).mono (by decide)
  unfold State.endUnreadable
  dsimp only
  split
  · exact freed.trans (State.ownStatusKnown_frame _ _ _ _)
  · exact freed.trans ((State.issue_frame _).mono (by decide))

theorem State.expireFetch_frame (s : State) (tag : Byte) : SameBut expiryParts s (s.expireFetch tag) := by
  unfold State.expireFetch
  split
  · exact ((s.bump_frame _).mono (by decide)).trans ((State.endUnreadable_frame _ _ _ _).mono (by decide))
  · exact SameBut.refl _ s

theorem State.expireFetches_frame : ∀ (n : Nat) (s : State), SameBut expiryParts s (State.expireFetches n s)
  | 0, s => SameBut.refl _ s
  | n + 1, s => by
    unfold State.expireFetches
    split
    · exact (s.expireFetch_frame _).trans (State.expireFetches_frame n _)
    · exact SameBut.refl _ s

/-- The end of the fetches of 0 ms touches what the end of fetches by their timeouts touches. -/
theorem State.expireIssued_frame (s : State) : SameBut expiryParts s s.expireIssued := by
  unfold State.expireIssued
  split
  · exact State.expireFetches_frame _ s
  · exact SameBut.refl _ s

/-- With a fetch timeout of 1 ms or more no fetch ends as it is issued. -/
theorem State.expireIssued_later {s : State} (h : s.fetchLimit ≠ 0) : s.expireIssued = s := if_neg h

/-- With no fetch outstanding none ends. -/
theorem State.expireIssued_none {s : State} (h : s.read.fetches = []) : s.expireIssued = s := by
  unfold State.expireIssued
  split
  · unfold expiryBound Config.maxVotes Config.backOffReports State.expireFetches
    rw [h]
  · rfl

theorem State.finish_frame (s : State) : SameBut (.link :: expiryParts) s s.finish :=
  (s.expireIssued_frame.mono (by decide)).trans ((State.arbitrate_frame _).mono (by decide))

theorem State.sweepOn_frame (s : State) : SameBut expiryParts s s.sweepOn :=
  (s.walk_frame.mono (by decide)).trans (State.expireIssued_frame _)

theorem State.expireSilence_frame (s : State) (t : Nat) : SameBut (.roster :: deliverParts) s (s.expireSilence t) := by
  unfold State.expireSilence
  dsimp only
  split
  · exact (((s.modifyRoster_frame _ _).mono (by decide)).trans ((State.pushReport_frame _ _).mono (by decide))).trans
      ((SameBut.foldl State.closureTest_frame _ _).mono (by decide))
  all_goals exact SameBut.refl _ s

theorem State.silenceHeard_frame (s : State) (t : Nat) : SameBut (.roster :: deliverParts) s (s.silenceHeard t) := by
  unfold State.silenceHeard
  split
  · exact s.expireSilence_frame t
  · exact SameBut.refl _ s

end Sys2Proof.Machine
end

