-- ==== Sys2Proof/Laws/Answers.lean ====
section
/-! SUPPORT. Records that are taken or wait, and the answers to orders. -/

namespace Sys2Proof.Machine

/-- A record that is ready is taken at once, and the outbound arbiter acts. -/
theorem State.arrive_ready {s : State} {i : Instr} (h : s.ready i = true) (take : State → State) :
    s.arrive i take = (take s).arbitrate := if_pos h

/-- A record that is not ready waits on the link, behind those that wait. -/
theorem State.arrive_waits {s : State} {i : Instr} (h : s.ready i = false) (take : State → State) :
    s.arrive i take = s.setPort { s.port with inbound := s.port.inbound ++ [i] } := by
  unfold State.arrive
  exact if_neg (by unfold State.ready at h; rw [h]; decide)

/-- The reply of an answer, and the arbiter behind it. -/
theorem State.reply_arbitrate (kind : Byte) (a : Answered) :
    (State.reply kind a).arbitrate = a.state.answered kind a.result a.payload := rfl

/-- An order that is ready and fits is answered by its owner. -/
theorem State.arrive_fits {s : State} {i : Instr} (h : s.ready i = true) (kind : Byte) {fits : Bool} (hf : fits = true)
    (act : State → Answered) :
    s.arrive i (fun s => s.takeOrder kind fits act) =
      (act s).state.answered kind (act s).result (act s).payload := by
  rw [State.arrive_ready h, hf]
  rfl

/-- An order that is ready and does not fit is refused MALFORMED. -/
theorem State.arrive_malformed {s : State} {i : Instr} (h : s.ready i = true) (kind : Byte) {fits : Bool}
    (hf : fits = false) (act : State → Answered) :
    s.arrive i (fun s => s.takeOrder kind fits act) = s.answered kind .malformed [] := by
  rw [State.arrive_ready h, hf]
  rfl

/-- An answer touches the link, the waiting reply and the requests alone. -/
theorem State.answered_frame (s : State) (kind : Byte) (r : Result) (payload : List Byte) :
    SameBut [.link, .requests] s (s.answered kind r payload) :=
  have k := ShelfPort.arbitrate_keeps
    { s.port with reply := some { kind := kind, result := r, payload := payload } }
  s.setLink_frame _ k.1 k.2.1 k.2.2.1 k.2.2.2.1 k.2.2.2.2.1 k.2.2.2.2.2

/-- What readiness says of an order: the unit takes records, none waits, no START and no reply stands. -/
theorem State.ready_order {s : State} {i : Instr} (ho : isOrder i = true) (h : s.ready i = true) :
    s.port.inbound = [] ∧ s.resetLine = false ∧ s.port.startStands = false ∧ s.port.resetTaken = false ∧
      s.port.replyStands = false := by
  simp only [State.ready, State.mayTake, State.intakeOpen, ho, Bool.and_eq_true, Bool.not_eq_true',
    Bool.true_and, decide_eq_true_eq] at h
  exact ⟨h.1, h.2.1.1.1, h.2.1.1.2, h.2.1.2, h.2.2⟩

/-- A reply made where no START stands goes on the link, or waits behind the record that is on it. -/
theorem State.answered_replied {s : State} (h1 : s.port.startStands = false)
    (kind : Byte) (r : Result) (payload : List Byte) : (s.answered kind r payload).replied kind r payload := by
  unfold State.replied
  show (ShelfPort.answer s.port kind r payload).link = _ ∨ (ShelfPort.answer s.port kind r payload).reply = _
  unfold ShelfPort.answer ShelfPort.arbitrate
  unfold ShelfPort.startStands at h1
  have hs : s.port.start = none := by
    cases e : s.port.start with
    | none => rfl
    | some x => rw [e] at h1; exact absurd h1 (by simp)
  cases hl : s.port.link with
  | some x => exact Or.inr rfl
  | none => simp only [hs, true_or]

/-- Effects that leave the link alone leave an answer free to stand on it. -/
theorem State.replied_after {s t : State} {i : Instr} {ps : List Part} (ho : isOrder i = true)
    (h : s.ready i = true) (frame : SameBut ps s t) (hl : Part.link ∉ ps) (kind : Byte) (r : Result)
    (payload : List Byte) : (t.answered kind r payload).replied kind r payload := by
  obtain ⟨_, _, h1, _, _⟩ := State.ready_order ho h
  obtain ⟨e1, e2, _⟩ := frame _ hl
  refine State.answered_replied ?_ kind r payload
  unfold ShelfPort.startStands at h1 ⊢
  rw [e1, e2]; exact h1

end Sys2Proof.Machine
end

