-- ==== Sys2Proof/Laws/Bounded.lean ====
section
/-! SUPPORT. The shared operations keep the capacities and ranges of Bounded. -/

namespace Sys2Proof.Machine

/-! ### Updates that touch no bound -/

theorem Bounded.setPending {s : State} (h : Bounded s) (x : List Instr) : Bounded (s.setPending x) := { h with }
theorem Bounded.setNow {s : State} (h : Bounded s) (x : Nat) : Bounded (s.setNow x) := { h with }
theorem Bounded.setStrapPins {s : State} (h : Bounded s) (x : Strap) : Bounded (s.setStrapPins x) := { h with }
theorem Bounded.setStrap {s : State} (h : Bounded s) (x : Strap) : Bounded (s.setStrap x) := { h with }
theorem Bounded.setHoldHigh {s : State} (h : Bounded s) (x : Bool) : Bounded (s.setHoldHigh x) := { h with }
theorem Bounded.setResetLine {s : State} (h : Bounded s) (x : Bool) : Bounded (s.setResetLine x) := { h with }
theorem Bounded.setCauses {s : State} (h : Bounded s) (x : ResetCauses) : Bounded (s.setCauses x) := { h with }
theorem Bounded.setNextVote {s : State} (h : Bounded s) (x : Nat) : Bounded (s.setNextVote x) := { h with }

theorem Bounded.setVotes {s : State} (h : Bounded s) {x : List Vote} (hx : x.length ≤ 24)
    (hr : ∀ v ∈ x, v.InRange) : Bounded (s.setVotes x) := { h with votes := hx, ranges := hr }

theorem Bounded.setRead {s : State} (h : Bounded s) {x : ReadEngine} (hx : x.fetches.length ≤ 4) :
    Bounded (s.setRead x) := { h with fetches := hx }

theorem Bounded.setMends {s : State} (h : Bounded s) {x : List MendEntry} (hx : x.length ≤ 16)
    (ha : ∀ e ∈ x, e.failed ≤ 2) : Bounded (s.setMends x) := { h with mends := hx, attempts := ha }

theorem Bounded.setPort {s : State} (h : Bounded s) {x : ShelfPort} (hx : x.reports.length ≤ 64) :
    Bounded (s.setPort x) := { h with reports := hx }

theorem Bounded.setLine {s : State} (h : Bounded s) {x : LineUnit} (hq : QueueInRange x.queue)
    (hl : x.listenCount ≤ 290) : Bounded (s.setLine x) := { h with queue := hq, listen := hl }

theorem Bounded.setQueue {s : State} (h : Bounded s) {q : List Message} (hq : QueueInRange q) :
    Bounded (s.setLine { s.line with queue := q }) := h.setLine hq h.listen

theorem Bounded.setEvidence {s : State} (h : Bounded s) {x : Evidence} (hx : x.entries.length ≤ 64)
    (hp : x.slotsInUse ≤ 2048) : Bounded (s.setEvidence x) := { h with evidence := hx, slots := hp }

theorem Bounded.setWatch {s : State} (h : Bounded s) {x : Watch} (hx : x.InRange) : Bounded (s.setWatch x) :=
  { h with watch := hx }

theorem Bounded.setGovernor {s : State} (h : Bounded s) {x : Governor} (hx : x.InRange) :
    Bounded (s.setGovernor x) := { h with governor := hx }

theorem Bounded.setTimers {s : State} (h : Bounded s) {x : TimerSettings} (hx : x.InRange) :
    Bounded (s.setTimers x) := { h with timers := hx }

theorem Bounded.setSweep {s : State} (h : Bounded s) {x : Sweep} (hx : x.InRange)
    (hc : x.cursorPos ≤ s.holdings.length) : Bounded (s.setSweep x) := { h with sweep := hx, cursor := hc }

/-! ### Counters, reports, requests, the arbiter -/

theorem Bounded.bumpBy {s : State} (h : Bounded s) (c : Counter) (k : Nat) : Bounded (s.bumpBy c k) :=
  have keep : ∀ d, (s.bumpBy c k).count d ≤ 4294967295 := by
    intro d
    rw [State.count_bumpBy]
    split
    · exact Nat.min_le_left _ _
    · exact h.counters d
  { h with counters := keep }

theorem Bounded.bump {s : State} (h : Bounded s) (c : Counter) : Bounded (s.bump c) := h.bumpBy c 1

theorem Bounded.pushReport {s : State} (h : Bounded s) (r : Report) : Bounded (s.pushReport r) := by
  unfold State.pushReport
  split
  · next hlt =>
    refine h.setPort ?_
    simp only [List.length_append, List.length_cons, List.length_nil]
    exact hlt
  · exact Bounded.bump (Bounded.setPort h (x := { s.port with nextReport := s.port.nextReport + 1 }) h.reports) _

theorem Bounded.pushRequest {s : State} (h : Bounded s) (r : Request) : Bounded (s.pushRequest r) :=
  h.setPort h.reports

theorem Bounded.arbitrate {s : State} (h : Bounded s) : Bounded s.arbitrate :=
  h.setPort (by rw [s.port.arbitrate_keeps.2.2.2.2.1]; exact h.reports)

/-- A change to one vote that keeps votes in range. -/
theorem Bounded.modifyVote {s : State} (h : Bounded s) (id : Nat) {f : Vote → Vote}
    (hf : ∀ v, v.InRange → (f v).InRange) : Bounded (s.modifyVote id f) := by
  refine h.setVotes (by rw [List.length_map]; exact h.votes) fun v hv => ?_
  obtain ⟨w, hw, rfl⟩ := List.mem_map.1 hv
  split
  · exact hf w (h.ranges w hw)
  · exact h.ranges w hw

/-- A change to one vote that leaves its answers, checks and localisation fields alone. -/
theorem Vote.InRange.other {v w : Vote} (h : v.InRange) (h1 : w.answers = v.answers := by rfl)
    (h2 : w.checks = v.checks := by rfl) (h3 : w.localisation = v.localisation := by rfl) : w.InRange :=
  ⟨h1 ▸ h.answers, h2 ▸ h.checks, h3 ▸ h.received⟩

theorem Bounded.removeVote {s : State} (h : Bounded s) (id : Nat) : Bounded (s.removeVote id) :=
  h.setVotes (Nat.le_trans (List.length_filter_le _ _) h.votes) fun v hv => h.ranges v (List.mem_filter.1 hv).1

theorem Bounded.modifyMend {s : State} (h : Bounded s) (k : Key) {f : MendEntry → MendEntry}
    (hf : ∀ e, e.failed ≤ 2 → (f e).failed ≤ 2) : Bounded (s.modifyMend k f) := by
  refine h.setMends (by rw [List.length_map]; exact h.mends) fun e he => ?_
  obtain ⟨x, hx, rfl⟩ := List.mem_map.1 he
  split
  · exact hf x (h.attempts x hx)
  · exact h.attempts x hx

theorem Bounded.removeMend {s : State} (h : Bounded s) (k : Key) : Bounded (s.removeMend k) :=
  h.setMends (Nat.le_trans (List.length_filter_le _ _) h.mends) fun e he => h.attempts e (List.mem_filter.1 he).1

theorem Bounded.passSlots {s : State} (h : Bounded s) (k : Nat) : Bounded (s.passSlots k) := by
  unfold State.passSlots
  dsimp only
  split
  · exact h.setNow _
  · refine (h.setNow _).setLine h.queue ?_
    show (if _ then _ else _) ≤ 290
    split
    · exact Nat.min_le_left _ _
    · exact h.listen

theorem Bounded.passUntil {s : State} (h : Bounded s) (due : Nat) : Bounded (s.passUntil due) := h.passSlots _

/-! ### Offers to the line -/

theorem length_joinInOrder (m : Message) (q : List Message) : (joinInOrder m q).length = q.length + 1 := by
  have e := congrArg List.length (List.takeWhile_append_dropWhile (p := fun x : Message =>
    decide (x.body.lineClass ≤ m.body.lineClass)) (l := q))
  rw [List.length_append] at e
  unfold joinInOrder
  rw [List.length_append, List.length_cons, ← Nat.add_assoc, e]

/-- A message that has joined is the new one, or was queued. -/
theorem mem_joinInOrder {m x : Message} {q : List Message} (h : x ∈ joinInOrder m q) : x = m ∨ x ∈ q := by
  unfold joinInOrder at h
  rcases List.mem_append.1 h with h | h
  · exact Or.inr ((List.takeWhile_sublist _).subset h)
  · rcases List.mem_cons.1 h with h | h
    · exact Or.inl h
    · exact Or.inr ((List.dropWhile_sublist _).subset h)

theorem takeLast_none {α : Type} {p : α → Bool} : ∀ {xs : List α}, takeLast p xs = none → ∀ x ∈ xs, p x = false
  | [], _, _, hx => nomatch hx
  | y :: ys, h, x, hx => by
    unfold takeLast at h
    split at h
    · cases h
    · next e =>
      split at h
      · cases h
      · next hp =>
        rcases List.mem_cons.1 hx with rfl | hx
        · exact Bool.eq_false_iff.2 hp
        · exact takeLast_none e x hx

/-- The entry taken out passes the test, no entry behind it does, and the others stay as they stood. -/
theorem takeLast_spec {α : Type} {p : α → Bool} : ∀ {xs : List α} {y : α} {ys : List α},
    takeLast p xs = some (y, ys) → p y = true ∧ ∃ before after, xs = before ++ y :: after ∧ ys = before ++ after ∧
      ∀ z ∈ after, p z = false
  | [], _, _, h => nomatch h
  | x :: xs, y, ys, h => by
    unfold takeLast at h
    split at h
    · next z zs e =>
      cases h
      obtain ⟨hp, b, a, rfl, rfl, ha⟩ := takeLast_spec e
      exact ⟨hp, x :: b, a, rfl, rfl, ha⟩
    · next e =>
      split at h
      · next hp =>
        cases h
        exact ⟨hp, [], xs, rfl, rfl, fun z hz => takeLast_none e z hz⟩
      · cases h

/-- One entry is taken out. -/
theorem takeLast_length {α : Type} {p : α → Bool} {xs : List α} {y : α} {ys : List α}
    (h : takeLast p xs = some (y, ys)) : ys.length + 1 = xs.length := by
  obtain ⟨_, b, a, rfl, rfl, _⟩ := takeLast_spec h
  rw [List.length_append, List.length_append, List.length_cons, Nat.add_assoc]

/-- The list without the entry taken out is the rest of the list. -/
theorem takeLast_sublist {α : Type} {p : α → Bool} {xs : List α} {y : α} {ys : List α}
    (h : takeLast p xs = some (y, ys)) : ys.Sublist xs := by
  obtain ⟨_, b, a, rfl, rfl, _⟩ := takeLast_spec h
  exact List.Sublist.append_left (List.sublist_cons_self _ _) _

/-- A message as it is offered: no collisions yet, and not on the line. -/
structure Message.IsFresh (m : Message) : Prop where
  collisions : m.collisions = 0
  onLine : m.onLine = false

theorem newMessage_fresh (b : LineBody) (o : Option Nat) : (newMessage b o).IsFresh := ⟨rfl, rfl⟩

theorem QueueInRange.nil : QueueInRange [] := ⟨Nat.zero_le _, nofun, Nat.zero_le _, .nil⟩

theorem QueueInRange.sublist {q r : List Message} (h : QueueInRange q) (hr : r.Sublist q) : QueueInRange r :=
  ⟨Nat.le_trans hr.length_le h.messages, fun m hm => h.collisions m (hr.subset hm),
    Nat.le_trans (hr.filter _).length_le h.sending, h.ordered.sublist (hr.map _)⟩

/-- A message joins a queue in order of class at its place (R66). -/
theorem joinInOrder_ordered (m : Message) : ∀ {q : List Message}, (q.map fun x => x.body.lineClass).Pairwise (· ≤ ·) →
    ((joinInOrder m q).map fun x => x.body.lineClass).Pairwise (· ≤ ·)
  | [], _ => List.pairwise_singleton _ _
  | y :: ys, h => by
    rw [List.map_cons, List.pairwise_cons] at h
    by_cases e : y.body.lineClass ≤ m.body.lineClass
    · have : joinInOrder m (y :: ys) = y :: joinInOrder m ys := by
        simp only [joinInOrder, List.takeWhile_cons, List.dropWhile_cons, e, decide_true, if_true, List.cons_append]
      rw [this, List.map_cons, List.pairwise_cons]
      refine ⟨fun c hc => ?_, joinInOrder_ordered m h.2⟩
      obtain ⟨x, hx, rfl⟩ := List.mem_map.1 hc
      rcases mem_joinInOrder hx with rfl | hx
      · exact e
      · exact h.1 _ (List.mem_map.2 ⟨x, hx, rfl⟩)
    · have : joinInOrder m (y :: ys) = m :: y :: ys := by
        simp only [joinInOrder, List.takeWhile_cons, List.dropWhile_cons, e, decide_false, Bool.false_eq_true, if_false,
          List.nil_append]
      have low := Nat.le_of_lt (Nat.lt_of_not_le e)
      rw [this, List.map_cons, List.map_cons, List.pairwise_cons]
      refine ⟨fun c hc => ?_, List.pairwise_cons.2 h⟩
      rcases List.mem_cons.1 hc with rfl | hc
      · exact low
      · exact Nat.le_trans low (h.1 c hc)

theorem QueueInRange.joinInOrder {q : List Message} (h : QueueInRange q) {m : Message} (hm : m.IsFresh)
    (room : q.length < 32) : QueueInRange (joinInOrder m q) := by
  refine ⟨by rw [length_joinInOrder]; exact room, fun x hx => ?_, ?_, joinInOrder_ordered m h.ordered⟩
  · rcases mem_joinInOrder hx with rfl | hx
    · rw [hm.collisions]; exact Nat.zero_le _
    · exact h.collisions x hx
  · have same : (Machine.joinInOrder m q).filter Message.onLine = q.filter Message.onLine := by
      unfold Machine.joinInOrder
      rw [List.filter_append, List.filter_cons_of_neg (by rw [hm.onLine]; decide), ← List.filter_append,
        List.takeWhile_append_dropWhile]
    rw [same]; exact h.sending

/-- With a message taken out there is room for another. -/
theorem QueueInRange.room {q r : List Message} (h : QueueInRange q) {p : Message → Bool} {m : Message}
    (e : takeLast p q = some (m, r)) : r.length < 32 := by
  have := takeLast_length e
  have := h.messages
  omega

/-- At most the first message that passes the test is changed, and it is put on the line. -/
theorem putOnLine_spec (p : Message → Bool) : ∀ q : List Message, putOnLine p q = q ∨ ∃ before m after,
    q = before ++ m :: after ∧ putOnLine p q = before ++ { m with onLine := true } :: after
  | [] => Or.inl rfl
  | m :: ms => by
    unfold putOnLine
    split
    · exact Or.inr ⟨[], m, ms, rfl, rfl⟩
    · rcases putOnLine_spec p ms with e | ⟨b, x, a, e1, e2⟩
      · exact Or.inl (congrArg (m :: ·) e)
      · exact Or.inr ⟨m :: b, x, a, congrArg (m :: ·) e1, congrArg (m :: ·) e2⟩

/-- The unit starts a frame only while it sends none. -/
theorem QueueInRange.putOnLine {q : List Message} (h : QueueInRange q) (idle : q.any Message.onLine = false)
    (p : Message → Bool) : QueueInRange (putOnLine p q) := by
  rcases putOnLine_spec p q with e | ⟨b, m, a, rfl, e⟩
  · rw [e]; exact h
  · have off : ∀ x ∈ b ++ m :: a, x.onLine = false := fun x hx =>
      Bool.eq_false_iff.2 (List.any_eq_false.1 idle x hx)
    have offb : b.filter Message.onLine = [] := List.filter_eq_nil_iff.2 fun x hx => by
      rw [off x (List.mem_append_left _ hx)]; decide
    have offa : a.filter Message.onLine = [] := List.filter_eq_nil_iff.2 fun x hx => by
      rw [off x (List.mem_append_right _ (List.mem_cons_of_mem _ hx))]; decide
    rw [e]
    refine ⟨?_, fun x hx => ?_, ?_, ?_⟩
    · have := h.messages
      rw [List.length_append, List.length_cons] at this ⊢
      exact this
    · rcases List.mem_append.1 hx with hx | hx
      · exact h.collisions x (List.mem_append_left _ hx)
      · rcases List.mem_cons.1 hx with rfl | hx
        · exact h.collisions m (List.mem_append_right _ List.mem_cons_self)
        · exact h.collisions x (List.mem_append_right _ (List.mem_cons_of_mem _ hx))
    · rw [List.filter_append, offb, List.filter_cons_of_pos rfl, offa]; exact Nat.le_refl _
    · have := h.ordered
      rw [List.map_append, List.map_cons] at this ⊢
      exact this

/-- A message that is not on the line takes no part in a collision. -/
theorem Message.collided_off {m : Message} (h : m.onLine = false) : m.collided = m := by
  unfold Message.collided
  rw [if_neg (by rw [h]; decide)]

/-- A collision leaves no frame of the unit on the line, and its message with one collision more. -/
theorem QueueInRange.collided {q r : List Message} (h : QueueInRange q) {m : Message}
    (e : takeLast Message.onLine q = some (m, r)) (few : m.collisions + 1 < 16) :
    QueueInRange (q.map Message.collided) := by
  obtain ⟨on, b, a, rfl, rfl, ha⟩ := takeLast_spec e
  have offb : b.filter Message.onLine = [] := by
    have := h.sending
    rw [List.filter_append, List.filter_cons_of_pos on, List.length_append, List.length_cons] at this
    exact List.eq_nil_of_length_eq_zero (by omega)
  have off : ∀ x ∈ b ++ a, x.onLine = false := fun x hx => by
    rcases List.mem_append.1 hx with hx | hx
    · exact Bool.eq_false_iff.2 (List.filter_eq_nil_iff.1 offb x hx)
    · exact ha x hx
  have same : ∀ l : List Message, (∀ x ∈ l, x ∈ b ++ a) → l.map Message.collided = l := fun l hl =>
    (List.map_congr_left fun x hx => Message.collided_off (off x (hl x hx))).trans (List.map_id _)
  have hc : m.collided = { m with onLine := false, collisions := m.collisions + 1 } := if_pos on
  rw [List.map_append, List.map_cons, same b fun x hx => List.mem_append_left _ hx,
    same a fun x hx => List.mem_append_right _ hx, hc]
  refine ⟨?_, fun x hx => ?_, ?_, ?_⟩
  · have := h.messages
    rw [List.length_append, List.length_cons] at this ⊢
    exact this
  · rcases List.mem_append.1 hx with hx | hx
    · exact h.collisions x (List.mem_append_left _ hx)
    · rcases List.mem_cons.1 hx with rfl | hx
      · exact Nat.le_of_lt_succ few
      · exact h.collisions x (List.mem_append_right _ (List.mem_cons_of_mem _ hx))
  · have offa : a.filter Message.onLine = [] := List.filter_eq_nil_iff.2 fun x hx => by rw [ha x hx]; decide
    rw [List.filter_append, offb, List.filter_cons_of_neg Bool.false_ne_true, offa]; exact Nat.zero_le _
  · have := h.ordered
    rw [List.map_append, List.map_cons] at this ⊢
    exact this

theorem Bounded.joinQueue {s : State} (h : Bounded s) {m : Message} (hm : m.IsFresh)
    (room : s.line.queue.length < 32) : Bounded (s.joinQueue m) := by
  have joined : Bounded (s.setLine { s.line with queue := Machine.joinInOrder m s.line.queue }) :=
    h.setQueue (h.queue.joinInOrder hm room)
  unfold State.joinQueue
  dsimp only
  split
  · exact joined.modifyVote _ fun _ h => h.other
  all_goals exact joined

theorem Bounded.clearCall {s : State} (h : Bounded s) (m : Message) : Bounded (s.clearCall m).1 := by
  unfold State.clearCall
  dsimp only
  split
  · split
    · split
      · exact (h.modifyVote _ fun _ h => h.other).modifyVote _ fun _ h => h.other
      · exact h.modifyVote _ fun _ h => h.other
    · exact h
  all_goals exact h

/-- The SUM a vote held back is a new message. -/
theorem State.clearCall_held {s t : State} {m held : Message} (h : s.clearCall m = (t, some held)) :
    held.IsFresh := by
  unfold State.clearCall at h
  dsimp only at h
  repeat' split at h
  all_goals cases h
  exact newMessage_fresh _ _

theorem Bounded.offerFuel : ∀ (n : Nat) {m : Message} {s : State}, m.IsFresh → Bounded s →
    Bounded (State.offerFuel n m s)
  | 0, _, _, _, h => h
  | n + 1, m, s, hm, h => by
    unfold State.offerFuel
    split
    · exact h
    split
    · next room => exact h.joinQueue hm room
    split
    · next victim rest e =>
      split
      · have base : Bounded ((s.setLine { s.line with queue := rest }).joinQueue m) :=
          (h.setQueue (h.queue.sublist (takeLast_sublist e))).joinQueue hm (h.queue.room e)
        have called := (base.bump .lineDropped).clearCall victim
        split
        · next s1 held e1 =>
          rw [e1] at called
          exact Bounded.offerFuel n (State.clearCall_held e1) called
        · next s1 e1 =>
          rw [e1] at called
          exact called
      · exact h.bump _
    · exact h.bump _

theorem Bounded.offer {s : State} (h : Bounded s) {m : Message} (hm : m.IsFresh) : Bounded (s.offer m) :=
  Bounded.offerFuel _ hm h

theorem Bounded.offerNew {s : State} (h : Bounded s) (b : LineBody) (o : Option Nat) :
    Bounded (s.offer (newMessage b o)) := h.offer (newMessage_fresh _ _)

theorem Bounded.messageLeft {s : State} (h : Bounded s) (m : Message) : Bounded (s.messageLeft m) := by
  unfold State.messageLeft
  have called := h.clearCall m
  split
  · next s1 held e =>
    rw [e] at called
    exact called.offer (State.clearCall_held e)
  · next s1 e =>
    rw [e] at called
    exact called

theorem Bounded.offerOwnSum {s : State} (h : Bounded s) (id : Nat) : Bounded (s.offerOwnSum id) := by
  unfold State.offerOwnSum
  split
  · split
    · exact h
    · split
      · exact (h.modifyVote _ fun _ h => h.other).offerNew _ _
      · exact h
  · exact h

theorem Bounded.offerHeldSum {s : State} (h : Bounded s) (v : Vote) : Bounded (s.offerHeldSum v) := by
  unfold State.offerHeldSum
  split
  · split
    · exact h.offerNew _ _
    · exact h
  · exact h

theorem Bounded.offerBeacon {s : State} (h : Bounded s) : Bounded s.offerBeacon := by
  unfold State.offerBeacon
  split
  · exact h
  · exact h.offerNew _ _

theorem Bounded.placeJoining {s : State} (h : Bounded s) : Bounded s.placeJoining := by
  unfold State.placeJoining
  dsimp only
  split
  · next room => exact h.joinQueue (newMessage_fresh _ _) room
  split
  · next victim rest e =>
    exact (((h.setQueue (h.queue.sublist (takeLast_sublist e))).joinQueue (newMessage_fresh _ _)
      (h.queue.room e)).bump _).messageLeft _
  · exact h

/-! ### The issue arbiter and the opening of votes -/

theorem Bounded.issueFor {s : State} (h : Bounded s) (v : Vote) (room : s.read.fetches.length < 4) :
    Bounded (s.issueFor v) := by
  have reading : ∀ w : Vote, w.InRange → ({ w with state := .reading, checks := [] } : Vote).InRange :=
    fun _ r => ⟨r.answers, Nat.zero_le _, r.received⟩
  refine ((h.setRead ?_).modifyVote _ reading).pushRequest _
  rw [List.length_append]
  exact room

theorem Bounded.issueFuel : ∀ (n : Nat) {s : State}, Bounded s → Bounded (State.issueFuel n s)
  | 0, _, h => h
  | n + 1, s, h => by
    unfold State.issueFuel
    split
    · next room =>
      split
      · exact Bounded.issueFuel n (h.issueFor _ room)
      · exact h
    · exact h

theorem Bounded.issue {s : State} (h : Bounded s) : Bounded s.issue := Bounded.issueFuel _ h

theorem Bounded.issueIfWaiting {s : State} (h : Bounded s) (id : Nat) : Bounded (s.issueIfWaiting id) := by
  unfold State.issueIfWaiting
  split
  · split
    · exact h.issue
    · exact h
  · exact h

theorem Bounded.addVote {s : State} (h : Bounded s) {v : Vote} (hv : v.InRange) (room : s.votes.length < 24) :
    Bounded (s.addVote v) := by
  refine ((h.setVotes ?_ ?_).setNextVote _).bump _
  · rw [List.length_append]
    exact room
  · intro w hw
    rcases List.mem_append.1 hw with hw | hw
    · exact h.ranges w hw
    · rw [List.mem_singleton] at hw
      exact hw ▸ hv

/-- A vote as it is opened is in range. -/
theorem State.newVote_inRange (s : State) (k : Key) (o : Origin) (c : Option Nat) : (s.newVote k o c).InRange :=
  ⟨Nat.zero_le _, Nat.zero_le _, nofun⟩

theorem Bounded.offerCall {s : State} (h : Bounded s) (v : Vote) : Bounded (s.offerCall v) := by
  unfold State.offerCall
  dsimp only
  split
  · exact h
  · exact h.offerNew _ _

theorem Bounded.openCalling {s : State} (h : Bounded s) (k : Key) (o : Origin) (room : s.votes.length < 24) :
    Bounded (s.openCalling k o) := ((h.addVote (s.newVote_inRange _ _ _) room).offerCall _).issue

theorem Bounded.openPeer {s : State} (h : Bounded s) (k : Key) (caller : Nat) (room : s.votes.length < 24) :
    Bounded (s.openPeer k caller) := (h.addVote (s.newVote_inRange _ _ _) room).issue

/-! ### The governor and the walk -/

theorem Governor.InRange.clamp_low {g : Governor} (h : g.InRange) (x : Nat) : g.gmin ≤ g.clamp x := by
  have := h.gapLow
  have := h.gapHigh
  unfold Governor.clamp
  omega

theorem Governor.clamp_high (g : Governor) (x : Nat) : g.clamp x ≤ g.gmax := Nat.min_le_right _ _

theorem Governor.InRange.stepped {g : Governor} (h : g.InRange) :
    g.gmin ≤ g.steppedGap ∧ g.steppedGap ≤ g.gmax := by
  unfold Governor.steppedGap
  split
  · exact ⟨h.clamp_low _, g.clamp_high _⟩
  split
  · exact ⟨h.clamp_low _, g.clamp_high _⟩
  · exact ⟨h.gapLow, h.gapHigh⟩

theorem Governor.InRange.burstEnd {g : Governor} (h : g.InRange) : g.burstEnd.InRange := by
  unfold Governor.burstEnd
  split
  · exact { h with
      gapLow := h.stepped.1, gapHigh := h.stepped.2, settle := Nat.le_trans (Nat.sub_le _ _) h.settle
      adaptive := fun e => by show g.settle - 1 = 0; rw [h.adaptive e] }
  · exact h

theorem Governor.InRange.takeDepth {g : Governor} (h : g.InRange) {d : Nat} (hd : d ≤ 255) :
    (g.takeDepth d).InRange := by
  have := h.average
  unfold Governor.takeDepth
  split
  · exact { h with average := by show g.average + (16 * d - g.average) / 8 ≤ 4080; omega }
  · exact { h with average := by show g.average - (g.average - 16 * d) / 8 ≤ 4080; omega }

theorem Bounded.completeRound {s : State} (h : Bounded s) : Bounded s.completeRound := by
  have held : Bounded (s.setHoldings (s.holdings.map s.creditPass)) :=
    { h with
      holdings := by show (s.holdings.map s.creditPass).length ≤ 512; rw [List.length_map]; exact h.holdings
      cursor := by show _ ≤ (s.holdings.map s.creditPass).length; rw [List.length_map]; exact h.cursor }
  have pushed := held.pushReport (.roundDone s.sweep.round s.sweep.r (s.holdings.filter s.visited).length
    s.sweep.opened s.sweep.covered)
  refine pushed.setSweep ?_ (Nat.zero_le _)
  have w := pushed.sweep
  have r := h.sweep
  exact { w with
    periodLow := w.periodLow
    rotation := by
      have e : ∀ t : Report, ((s.setHoldings (s.holdings.map s.creditPass)).pushReport t).sweep = s.sweep := by
        intro t; unfold State.pushReport; split <;> rfl
      show (s.sweep.r + 1) % s.sweep.period < _
      rw [e]
      exact Nat.mod_lt _ r.periodLow
    round := Nat.min_le_left _ _
    opened := Nat.zero_le _
    covered := Nat.zero_le _ }

theorem Bounded.moveCursor {s : State} (h : Bounded s) (pos frame : Nat) (hp : pos ≤ s.holdings.length) :
    Bounded (s.moveCursor pos frame) := by
  have moved : Bounded (s.setSweep { s.sweep with cursorPos := pos, cursorFrame := frame }) :=
    h.setSweep { h.sweep with } hp
  unfold State.moveCursor
  dsimp only
  split
  · exact moved
  · exact moved.completeRound

theorem Bounded.cursorOn {s : State} (h : Bounded s) (x : Holding) (hp : s.sweep.cursorPos < s.holdings.length) :
    Bounded (s.cursorOn x) := by
  unfold State.cursorOn
  split
  · exact h.moveCursor _ _ h.cursor
  · exact h.moveCursor _ _ hp

/-- Completing a round keeps the gap timer, B and R. -/
theorem State.completeRound_burst (s : State) :
    s.completeRound.sweep.gap = s.sweep.gap ∧ s.completeRound.sweep.burst = s.sweep.burst ∧
      s.completeRound.sweep.remainder = s.sweep.remainder := by
  have e : ∀ r, ((s.setHoldings (s.holdings.map s.creditPass)).pushReport r).sweep = s.sweep := fun r =>
    (State.pushReport_frame _ r).sweep_eq (by decide) (by decide) (by decide)
  unfold State.completeRound
  dsimp only [State.setSweep_sweep]
  rw [e]
  exact ⟨rfl, rfl, rfl⟩

theorem State.moveCursor_burst (s : State) (pos frame : Nat) :
    (s.moveCursor pos frame).sweep.gap = s.sweep.gap ∧ (s.moveCursor pos frame).sweep.burst = s.sweep.burst ∧
      (s.moveCursor pos frame).sweep.remainder = s.sweep.remainder := by
  unfold State.moveCursor
  dsimp only
  split
  · exact ⟨rfl, rfl, rfl⟩
  · exact State.completeRound_burst _

theorem State.cursorOn_burst (s : State) (h : Holding) :
    (s.cursorOn h).sweep.gap = s.sweep.gap ∧ (s.cursorOn h).sweep.burst = s.sweep.burst ∧
      (s.cursorOn h).sweep.remainder = s.sweep.remainder := by
  unfold State.cursorOn
  split
  · exact s.moveCursor_burst _ _
  · exact s.moveCursor_burst _ _

/-- The burst end with a gap of 0 refills R (R48). -/
theorem State.endBurst_refill (s : State) (h : s.governor.burstEnd.gap = 0) :
    s.endBurst = (s.setGovernor s.governor.burstEnd).setSweep { s.sweep with remainder := s.sweep.burst } := by
  unfold State.endBurst
  exact if_pos (show (s.setGovernor s.governor.burstEnd).governor.gap = 0 from h)

/-- The burst end with a gap of 1 or more starts the gap timer (R48). -/
theorem State.endBurst_gap (s : State) (h : s.governor.burstEnd.gap ≠ 0) :
    s.endBurst = (s.setGovernor s.governor.burstEnd).setSweep
      { s.sweep with gap := some { start := s.now, length := s.governor.burstEnd.gap } } := by
  unfold State.endBurst
  exact if_neg (show (s.setGovernor s.governor.burstEnd).governor.gap ≠ 0 from h)

/-- A burst of 255 spends nothing (R49). -/
theorem State.spendBurst_continuous (s : State) (h : ¬ s.sweep.burst < 255) : s.spendBurst = s := if_neg h

/-- A burst that goes on has one less to spend (R41). -/
theorem State.spendBurst_more (s : State) (h : s.sweep.burst < 255) (more : s.sweep.remainder - 1 ≠ 0) :
    s.spendBurst = s.setSweep { s.sweep with remainder := s.sweep.remainder - 1 } := by
  unfold State.spendBurst
  rw [if_pos h]
  exact if_neg more

/-- The vote that spends the last of the burst ends it (R48). -/
theorem State.spendBurst_last (s : State) (h : s.sweep.burst < 255) (last : s.sweep.remainder - 1 = 0) :
    s.spendBurst = (s.setSweep { s.sweep with remainder := 0 }).endBurst := by
  unfold State.spendBurst
  rw [if_pos h, last]
  exact if_pos rfl

theorem Bounded.spendBurst {s : State} (h : Bounded s) (hg : s.sweep.gap = none) : Bounded s.spendBurst := by
  have w := h.sweep
  have one := w.gapStopped hg
  have le := w.remainder
  by_cases small : s.sweep.burst < 255
  · by_cases last : s.sweep.remainder - 1 = 0
    · rw [s.spendBurst_last small last]
      have base : Bounded (s.setGovernor s.governor.burstEnd) := h.setGovernor h.governor.burstEnd
      by_cases zero : s.governor.burstEnd.gap = 0
      · rw [State.endBurst_refill (s.setSweep { s.sweep with remainder := 0 }) zero]
        have ok : ({ s.sweep with remainder := s.sweep.burst } : Sweep).InRange :=
          { w with
            gapRuns := fun e => absurd e (by rw [hg]; decide)
            gapStopped := fun _ => by show 1 ≤ s.sweep.burst; omega
            remainder := Nat.le_refl _
            continuous := fun e => e }
        exact base.setSweep ok h.cursor
      · rw [State.endBurst_gap (s.setSweep { s.sweep with remainder := 0 }) zero]
        have ok : ({ s.sweep with
            remainder := 0, gap := some { start := s.now, length := s.governor.burstEnd.gap } } : Sweep).InRange :=
          { w with
            gapRuns := fun _ => rfl
            gapStopped := fun e => nomatch e
            remainder := Nat.zero_le _
            continuous := fun e => absurd (show s.sweep.burst = 255 from e) (by omega) }
        exact base.setSweep ok h.cursor
    · rw [s.spendBurst_more small last]
      have ok : ({ s.sweep with remainder := s.sweep.remainder - 1 } : Sweep).InRange :=
        { w with
          gapRuns := fun e => absurd e (by rw [hg]; decide)
          gapStopped := fun _ => by show 1 ≤ s.sweep.remainder - 1; omega
          remainder := by show s.sweep.remainder - 1 ≤ s.sweep.burst; omega
          continuous := fun e => absurd (show s.sweep.burst = 255 from e) (by omega) }
      exact h.setSweep ok h.cursor
  · rw [s.spendBurst_continuous small]
    exact h

/-- What RUNNING says of the state (R44). -/
theorem State.running_iff (s : State) : s.sweepState = .running ↔
    s.sweep.suspended = false ∧ s.holdAsserted = false ∧ s.sweep.gap = none ∧ s.someTierSwept = true ∧
      s.votes.length < 24 ∧ s.port.reports.length < 48 := by
  unfold State.sweepState Config.maxVotes Config.backOffReports
  constructor
  · intro e
    repeat' split at e
    all_goals cases e
    next h1 h2 h3 h4 h5 =>
      refine ⟨Bool.eq_false_iff.mpr h1, Bool.eq_false_iff.mpr h2, ?_, ?_, by omega, by omega⟩
      · cases hg : s.sweep.gap with
        | none => rfl
        | some t => rw [hg] at h3; exact absurd rfl h3
      · cases ht : s.someTierSwept with
        | true => rfl
        | false => rw [ht] at h4; exact absurd rfl h4
  · rintro ⟨h1, h2, h3, h4, h5, h6⟩
    rw [h1, h2, h3, h4]
    simp only [Bool.false_eq_true, if_false, Option.isSome_none, Bool.not_true]
    rw [if_neg (by omega)]

theorem Bounded.walkStep {s : State} (h : Bounded s) (hr : s.sweepState = .running) : Bounded s.walkStep := by
  obtain ⟨_, _, hg, _, hv, _⟩ := s.running_iff.mp hr
  unfold State.walkStep
  split
  · exact h.completeRound
  next x hx =>
  have hp : s.sweep.cursorPos < s.holdings.length := (List.getElem?_eq_some_iff.mp hx).1
  split
  · exact h.moveCursor _ _ hp
  split
  · exact h.moveCursor _ _ hp
  dsimp only
  split
  · unfold State.coverFrame
    have covered : Bounded (s.setSweep { s.sweep with covered := min Config.countTop (s.sweep.covered + 1) }) :=
      h.setSweep { h.sweep with covered := Nat.min_le_left _ _ } h.cursor
    exact covered.cursorOn _ hp
  · unfold State.callFrame
    dsimp only
    have opened := h.openCalling { reel := x.reel, frame := s.sweep.cursorFrame } .sweep hv
    have frame := s.openCalling_frame { reel := x.reel, frame := s.sweep.cursorFrame } .sweep
    have hs : (s.openCalling { reel := x.reel, frame := s.sweep.cursorFrame } .sweep).sweep = s.sweep :=
      frame.sweep_eq (by decide) (by decide) (by decide)
    have hh : (s.openCalling { reel := x.reel, frame := s.sweep.cursorFrame } .sweep).holdings = s.holdings :=
      frame.holdings_eq (by decide) (by decide)
    generalize s.openCalling { reel := x.reel, frame := s.sweep.cursorFrame } .sweep = t at *
    have tallied : Bounded (t.setSweep { t.sweep with opened := min Config.countTop (t.sweep.opened + 1) }) :=
      opened.setSweep { opened.sweep with opened := Nat.min_le_left _ _ } opened.cursor
    refine Bounded.spendBurst (tallied.cursorOn _ ?_) ?_
    · show t.sweep.cursorPos < t.holdings.length
      rw [hs, hh]; exact hp
    · rw [(State.cursorOn_burst _ _).1]
      show t.sweep.gap = none
      rw [hs]; exact hg

theorem Bounded.walkFuel : ∀ (n : Nat) {s : State}, Bounded s → Bounded (State.walkFuel n s)
  | 0, _, h => h
  | n + 1, s, h => by
    unfold State.walkFuel
    split
    · next hr => exact Bounded.walkFuel n (h.walkStep hr)
    · exact h

theorem Bounded.walk {s : State} (h : Bounded s) : Bounded s.walk := Bounded.walkFuel _ h

/-! ### Closure and delivery -/

theorem Bounded.settleMend {s : State} (h : Bounded s) (v : Vote) (d : Decision) (b : Option (List Nat)) :
    Bounded (s.settleMend v d b) := by
  unfold State.settleMend
  split
  · exact h
  split
  · exact (h.removeMend _).pushReport _
  split
  · next e _ _ few =>
    have failed : ∀ x : MendEntry, x.failed ≤ 2 → (e.fail s.now d b).failed ≤ 2 := fun _ _ => few
    exact (h.modifyMend _ failed).pushReport _
  · exact (h.removeMend _).pushReport _

theorem Bounded.requestMend {s : State} (h : Bounded s) (k : Key) (x : Word) (b : Option (List Nat)) :
    Bounded (s.requestMend k x b) := by
  unfold State.requestMend
  split
  · exact h
  · next room =>
    refine h.setMends ?_ ?_
    · rw [List.length_append]
      have : ¬ 16 ≤ s.mends.length := fun e => room (Or.inr e)
      show s.mends.length + 1 ≤ 16
      omega
    · intro e he
      rcases List.mem_append.1 he with he | he
      · exact h.attempts e he
      · rw [List.mem_singleton] at he
        exact he ▸ Nat.zero_le _

theorem Bounded.deliverMend {s : State} (h : Bounded s) (v : Vote) (d : Decision) (b : Option (List Nat)) :
    Bounded (s.deliverMend v d b) := by
  unfold State.deliverMend
  split
  · exact h.settleMend _ _ _
  · split
    · exact h.requestMend _ _ _
    all_goals exact h

/-- Making room leaves fewer than 64 entries (R139). -/
theorem makeRoom_length (need : Nat) : ∀ es : List EvidenceEntry, (makeRoom need es).1.length < 64
  | [] => by show 0 < 64; decide
  | e :: es => by
    unfold makeRoom
    split
    · exact makeRoom_length need es
    · next room => exact Nat.lt_of_not_le fun x => room (Or.inl x)

/-- Making room leaves the slots that are needed, when the buffer has as many (R139). -/
theorem makeRoom_slots {need : Nat} (hn : need ≤ 2048) : ∀ es : List EvidenceEntry,
    slotsOf (makeRoom need es).1 + need ≤ 2048
  | [] => by show 0 + need ≤ 2048; omega
  | e :: es => by
    unfold makeRoom
    split
    · exact makeRoom_slots hn es
    · next room => exact Nat.le_of_not_lt fun x => room (Or.inr x)

theorem slotsOf_append (es : List EvidenceEntry) (e : EvidenceEntry) : slotsOf (es ++ [e]) = slotsOf es + e.slots := by
  unfold slotsOf
  rw [List.map_append, List.sum_append]
  rfl

theorem Bounded.addEvidence {s : State} (h : Bounded s) {e : EvidenceEntry} (he : e.slots ≤ 2048) :
    Bounded (s.addEvidence e) := by
  unfold State.addEvidence
  dsimp only
  refine Bounded.bumpBy (h.setEvidence ?_ ?_) _ _
  · rw [List.length_append]
    exact makeRoom_length _ _
  · show slotsOf (_ ++ [_]) ≤ 2048
    rw [slotsOf_append]
    exact makeRoom_slots he _

/-- What a completed localisation leaves is in range. -/
def Located.InRange (l : Option Located) : Prop := ∀ x, l = some x → x.source.length ≤ 255

theorem Located.none_inRange : Located.InRange none := nofun

theorem Bounded.deliverEvidence {s : State} (h : Bounded s) {v : Vote} (d : Decision) {l : Option Located}
    (hv : v.checks.length ≤ 255) (hl : Located.InRange l) : Bounded (s.deliverEvidence v d l) := by
  have few : ∀ e : EvidenceEntry, e.checks = v.checks → e.source = l.map Located.source → e.slots ≤ 2048 := by
    intro e h1 h2
    unfold EvidenceEntry.slots
    rw [h1, h2]
    cases l with
    | none => show v.checks.length + 0 ≤ 2048; omega
    | some x =>
      have := hl x rfl
      show v.checks.length + x.source.length ≤ 2048
      omega
  unfold State.deliverEvidence
  split <;> first | exact h.addEvidence (few _ rfl rfl) | exact h

theorem Bounded.deliverReport {s : State} (h : Bounded s) (v : Vote) (d : Decision) (f : VoteFlags)
    (b : Option (List Nat)) : Bounded (s.deliverReport v d f b) := by
  unfold State.deliverReport
  split
  · exact h.pushReport _
  · exact h

/-- After the alarm test the alarm stands as the thresholds say, whatever it was (R160). -/
theorem Watch.tested_inRange {w : Watch} (hl : w.history.length ≤ 256) (hf : w.falling < w.rising)
    (hr : w.rising ≤ 256) : ({ w with alarm := w.testedAlarm } : Watch).InRange := by
  refine { history := hl, falling := hf, rising := hr, alarmOn := ?_, alarmOff := ?_ }
  · intro e
    have e : w.testedAlarm = true := e
    show w.falling < w.count
    unfold Watch.testedAlarm at e
    split at e
    · next c => simp only [Bool.and_eq_true, decide_eq_true_eq] at c; omega
    split at e
    · cases e
    · next c =>
      simp only [Bool.and_eq_true, decide_eq_true_eq] at c
      exact Nat.lt_of_not_le fun x => c ⟨e, x⟩
  · intro e
    have e : w.testedAlarm = false := e
    show w.count < w.rising
    unfold Watch.testedAlarm at e
    split at e
    · cases e
    next c1 =>
    split at e
    · next c => simp only [Bool.and_eq_true, decide_eq_true_eq] at c; omega
    · simp only [Bool.and_eq_true, decide_eq_true_eq] at c1
      exact Nat.lt_of_not_le fun x => c1 ⟨by rw [e]; rfl, x⟩

/-- The alarm test brings the watch into range, whatever the thresholds and history before it. -/
theorem Bounded.alarmTest {s : State} (h : Bounded (s.setWatch Watch.reset)) (hl : s.watch.history.length ≤ 256)
    (hf : s.watch.falling < s.watch.rising) (hr : s.watch.rising ≤ 256) (k : Option Key) :
    Bounded (s.alarmTest k) := by
  have tested := Watch.tested_inRange hl hf hr
  have set : Bounded (s.setWatch { s.watch with alarm := s.watch.testedAlarm }) := { h with watch := tested }
  unfold State.alarmTest
  dsimp only
  split
  · next e =>
    have same : ({ s.watch with alarm := s.watch.testedAlarm } : Watch) = s.watch := by
      rw [show s.watch.testedAlarm = s.watch.alarm from e]
    rw [same] at tested
    exact { h with watch := tested }
  split
  · exact set.pushReport _
  · exact set

theorem Watch.reset_inRange : Watch.reset.InRange :=
  ⟨by decide, by decide, by decide, fun e => absurd e (by decide), fun _ => by decide⟩

theorem length_pushBit {hs : List Bool} (h : hs.length ≤ 256) (b : Bool) : (pushBit hs b).length ≤ 256 := by
  unfold pushBit Config.historyBits
  rw [List.length_append]
  split
  · rw [List.length_drop]; show hs.length - 1 + 1 ≤ 256; omega
  · show hs.length + 1 ≤ 256; omega

theorem Bounded.watchBit {s : State} (h : Bounded s) (b : Bool) (k : Key) : Bounded (s.watchBit b k) :=
  Bounded.alarmTest (s := s.setWatch { s.watch with history := pushBit s.watch.history b })
    (h.setWatch Watch.reset_inRange) (length_pushBit h.watch.history b) h.watch.falling h.watch.rising _

theorem Bounded.deliverWatch {s : State} (h : Bounded s) (v : Vote) (d : Decision) : Bounded (s.deliverWatch v d) := by
  unfold State.deliverWatch
  split
  · exact h.watchBit _ _
  · exact h

theorem Bounded.countVerdict {s : State} (h : Bounded s) (d : Verdict) (r : Bool) : Bounded (s.countVerdict d r) := by
  unfold State.countVerdict
  split
  · exact (h.bump _).bump _
  · exact h.bump _

theorem Bounded.deliverMarks {s : State} (h : Bounded s) {v : Vote} (d : Decision) {l : Option Located}
    (hv : v.checks.length ≤ 255) (hl : Located.InRange l) : Bounded (s.deliverMarks v d l) :=
  ((((h.countVerdict _ _).deliverMend _ _ _).deliverEvidence _ hv hl).deliverReport _ _ _ _).deliverWatch _ _

theorem Bounded.deliver {s : State} (h : Bounded s) {v : Vote} (d : Decision) {l : Option Located}
    (hv : v.checks.length ≤ 255) (hl : Located.InRange l) : Bounded (s.deliver v d l) :=
  (((h.deliverMarks d hv hl).removeVote _).offerHeldSum _).walk

/-- A fold of steps that keep the bounds keeps them. -/
theorem Bounded.foldl {α : Type} {f : State → α → State} (hf : ∀ {s : State}, Bounded s → ∀ a, Bounded (f s a)) :
    ∀ (xs : List α) {s : State}, Bounded s → Bounded (xs.foldl f s)
  | [], _, h => h
  | x :: xs, _, h => Bounded.foldl hf xs (hf h x)

theorem Bounded.offerAll {s : State} (h : Bounded s) (bs : List LineBody) : Bounded (s.offerAll bs) :=
  Bounded.foldl (fun h _ => h.offerNew _ _) bs h

theorem Bounded.offerTiles {s : State} (h : Bounded s) (v : Vote) (d : Decision) : Bounded (s.offerTiles v d) := by
  unfold State.offerTiles
  split
  · split
    · exact h.offerAll _
    · exact h
  all_goals exact h

theorem Bounded.endUnlocated {s : State} (h : Bounded s) {v : Vote} (hv : v.InRange) (f : VoteFlags → VoteFlags) :
    Bounded (s.endUnlocated v f) := by
  unfold State.endUnlocated
  split
  · have ended : ({ v with flags := f v.flags, localisation := none } : Vote).InRange :=
      ⟨hv.answers, hv.checks, fun _ e => nomatch e⟩
    exact (h.modifyVote _ fun _ _ => ended).deliver _ ended.checks Located.none_inRange
  · exact h

theorem Bounded.localise {s : State} (h : Bounded s) {v : Vote} (hv : v.InRange) : Bounded (s.localise v) := by
  unfold State.localise
  dsimp only
  split
  · exact (h.modifyVote _ fun _ _ => hv).endUnlocated hv _
  · exact h.modifyVote _ fun _ _ => hv

theorem Bounded.close {s : State} (h : Bounded s) {v : Vote} (hv : v.InRange) : Bounded (s.close v) := by
  have entered : ∀ (r : Bool) (n : Nat) (d : Decision), ((v.closed r).enterLocalising n d).InRange := fun r n d =>
    ⟨hv.answers, hv.checks, fun l e => by cases e; rw [List.length_replicate]; exact hv.checks⟩
  unfold State.close
  dsimp only
  split
  all_goals first
    | exact h.localise (entered _ _ _)
    | exact ((h.modifyVote _ fun _ _ => hv.other).offerTiles _ _).deliver _ hv.checks Located.none_inRange

theorem Bounded.voteById? {s : State} (h : Bounded s) {id : Nat} {v : Vote} (e : s.voteById? id = some v) :
    v.InRange := h.ranges v (List.mem_of_find?_eq_some e)

theorem Bounded.vote? {s : State} (h : Bounded s) {k : Key} {v : Vote} (e : s.vote? k = some v) : v.InRange :=
  h.ranges v (List.mem_of_find?_eq_some e)

theorem Bounded.closureTest {s : State} (h : Bounded s) (id : Nat) : Bounded (s.closureTest id) := by
  unfold State.closureTest
  split
  · next v e =>
    split
    · exact h.close (h.voteById? e)
    · exact h
  · exact h

theorem Bounded.expireVote {s : State} (h : Bounded s) (id : Nat) : Bounded (s.expireVote id) := by
  unfold State.expireVote
  split
  · next v e =>
    split
    · exact h.close (h.voteById? e)
    · exact h
  · exact h

theorem Bounded.expireLocalisation {s : State} (h : Bounded s) (id : Nat) : Bounded (s.expireLocalisation id) := by
  unfold State.expireLocalisation
  split
  · next v e =>
    split
    · exact h.endUnlocated (h.voteById? e) _
    · exact h
  · exact h

theorem length_placeChecks : ∀ (i : Nat) (cs : List Word) (places : List (Option Word)),
    (placeChecks i cs places).length = places.length
  | _, [], _ => rfl
  | i, c :: cs, places => by
    unfold placeChecks
    rw [length_placeChecks (i + 1) cs]
    exact List.length_set

/-- The received list has a check for each place at most. -/
theorem allMarked_length {places : List (Option Word)} {xs : List Word} (h : allMarked places = some xs) :
    xs.length ≤ places.length := by
  unfold allMarked at h
  split at h
  · cases h; exact List.length_filterMap_le _ _
  · cases h

/-- A vote in LOCALISING with other localisation fields. -/
theorem Vote.InRange.located {v : Vote} (h : v.InRange) {l : Localisation} (hl : l.received.length ≤ 255) :
    ({ v with localisation := some l } : Vote).InRange :=
  ⟨h.answers, h.checks, fun _ e => by cases e; exact hl⟩

theorem Bounded.storeChunk {s : State} (h : Bounded s) {v : Vote} {l : Localisation} (hv : v.InRange)
    (hl : l.received.length ≤ 255) (d : Decision) (t first : Nat) (cs : List Word) :
    Bounded (s.storeChunk v l d t first cs) := by
  have placed : (placeChecks first cs l.received).length ≤ 255 := by rw [length_placeChecks]; exact hl
  unfold State.storeChunk
  split
  · exact h
  dsimp only
  split
  · next received e =>
    have few := Nat.le_trans (allMarked_length e) placed
    unfold State.verifyReceived
    split
    · have r1 := hv.located (l := { l with source := some t, received := received.map some })
        (by rw [List.length_map]; exact few)
      exact (h.modifyVote _ fun _ _ => r1).deliver _ r1.checks fun _ e => by cases e; exact few
    · have r1 := hv.located (l := { l with source := none, received := List.replicate v.checks.length none })
        (by rw [List.length_replicate]; exact hv.checks)
      exact h.modifyVote _ fun _ _ => r1
  · have r1 := hv.located (l := { l with source := some t, received := placeChecks first cs l.received }) placed
    exact h.modifyVote _ fun _ _ => r1

theorem Bounded.takeChunk {s : State} (h : Bounded s) {v : Vote} (hv : v.InRange) (t : Nat) (x : Word) (n first : Nat)
    (cs : List Word) : Bounded (s.takeChunk v t x n first cs) := by
  unfold State.takeChunk
  split
  · next l d hl _ =>
    dsimp only
    repeat' split
    all_goals first
      | exact h.storeChunk hv (hv.received l hl) _ _ _ _
      | exact h.endUnlocated hv _
      | exact h
  all_goals exact h

theorem Bounded.ownStatusKnown {s : State} (h : Bounded s) (id : Nat) (own : OwnStatus) {cs : List Word}
    (hc : cs.length ≤ 255) : Bounded (s.ownStatusKnown id own cs) := by
  have offered : Bounded (((s.modifyVote id fun v =>
      { v with state := .gathering, own := own, checks := cs, timer := some s.now }).issue).offerOwnSum id) :=
    (h.modifyVote id (f := fun v => { v with state := .gathering, own := own, checks := cs, timer := some s.now })
      fun _ r => ⟨r.answers, hc, r.received⟩).issue.offerOwnSum _
  unfold State.ownStatusKnown
  dsimp only
  split
  · exact offered.expireVote _
  · exact offered.closureTest _

theorem Bounded.freeSlot {s : State} (h : Bounded s) (tag : Byte) : Bounded (s.freeSlot tag) :=
  h.setRead (Nat.le_trans (List.length_filter_le _ _) h.fetches)

theorem Bounded.endUnreadable {s : State} (h : Bounded s) (f : Fetch) (r : Reason) (c : Bool) :
    Bounded (s.endUnreadable f r c) := by
  have freed : Bounded (if c then (s.freeSlot f.tag).pushRequest (.cancel f.tag f.key) else s.freeSlot f.tag) := by
    split
    · exact (h.freeSlot _).pushRequest _
    · exact h.freeSlot _
  unfold State.endUnreadable
  dsimp only
  split
  · exact freed.ownStatusKnown _ _ (Nat.zero_le _)
  · exact freed.issue

theorem Bounded.expireFetch {s : State} (h : Bounded s) (tag : Byte) : Bounded (s.expireFetch tag) := by
  unfold State.expireFetch
  split
  · exact (h.bump _).endUnreadable _ _ _
  · exact h

theorem Bounded.expireFetches : ∀ (n : Nat) {s : State}, Bounded s → Bounded (State.expireFetches n s)
  | 0, _, h => h
  | n + 1, s, h => by
    unfold State.expireFetches
    split
    · exact Bounded.expireFetches n (h.expireFetch _)
    · exact h

theorem Bounded.expireIssued {s : State} (h : Bounded s) : Bounded s.expireIssued := by
  unfold State.expireIssued
  split
  · exact Bounded.expireFetches _ h
  · exact h

theorem Bounded.finish {s : State} (h : Bounded s) : Bounded s.finish := h.expireIssued.arbitrate

theorem Bounded.sweepOn {s : State} (h : Bounded s) : Bounded s.sweepOn := h.walk.expireIssued

/-- A change to the roster is no change to the queue or the listen count. -/
theorem LineUnit.modifyRoster_keeps (l : LineUnit) (t : Nat) (f : RosterEntry → RosterEntry) :
    (l.modifyRoster t f).queue = l.queue ∧ (l.modifyRoster t f).listenCount = l.listenCount := by
  unfold LineUnit.modifyRoster
  split <;> exact ⟨rfl, rfl⟩

theorem Bounded.modifyRoster {s : State} (h : Bounded s) (t : Nat) (f : RosterEntry → RosterEntry) :
    Bounded (s.setLine (s.line.modifyRoster t f)) :=
  h.setLine (by rw [(s.line.modifyRoster_keeps t f).1]; exact h.queue)
    (by rw [(s.line.modifyRoster_keeps t f).2]; exact h.listen)

theorem Bounded.expireSilence {s : State} (h : Bounded s) (t : Nat) : Bounded (s.expireSilence t) := by
  unfold State.expireSilence
  dsimp only
  split
  · exact Bounded.foldl (fun h a => h.closureTest a) _ ((h.modifyRoster _ _).pushReport _)
  all_goals exact h

theorem Bounded.silenceHeard {s : State} (h : Bounded s) (t : Nat) : Bounded (s.silenceHeard t) := by
  unfold State.silenceHeard
  split
  · exact h.expireSilence t
  · exact h

theorem Bounded.lapse {s : State} (h : Bounded s) (k : Key) : Bounded (s.lapse k) := by
  unfold State.lapse
  repeat' split
  all_goals first | exact (h.removeMend _).pushReport _ | exact h

end Sys2Proof.Machine
end

