-- ==== Sys2Proof/Laws/Bytes.lean ====
section
/-! SUPPORT. Numbers as bytes: lengths, ranges, and reading back what was written. -/

namespace Sys2Proof.Machine

@[simp] theorem length_bytesOf : ∀ k n : Nat, (bytesOf k n).length = k
  | 0, _ => rfl
  | k + 1, n => congrArg (· + 1) (length_bytesOf k n)

theorem natOf_foldl : ∀ (bs : List Byte) (n : Nat),
    bs.foldl (fun n b => n * 256 + b.toNat) n = n * 256 ^ bs.length + natOf bs
  | [], n => by simp [natOf]
  | b :: bs, n => by
    have e := natOf_foldl bs
    have one : natOf (b :: bs) = b.toNat * 256 ^ bs.length + natOf bs := by
      show bs.foldl (fun n b => n * 256 + b.toNat) (0 * 256 + b.toNat) = _
      rw [e, Nat.zero_mul, Nat.zero_add]
    rw [List.foldl_cons, e, one, List.length_cons, Nat.pow_succ, Nat.add_mul, Nat.mul_assoc,
      Nat.mul_comm 256, Nat.add_assoc]

theorem natOf_cons (b : Byte) (bs : List Byte) : natOf (b :: bs) = b.toNat * 256 ^ bs.length + natOf bs := by
  show bs.foldl (fun n b => n * 256 + b.toNat) (0 * 256 + b.toNat) = _
  rw [natOf_foldl, Nat.zero_mul, Nat.zero_add]

/-- A run of k bytes spells a number below 256 ^ k. -/
theorem natOf_lt : ∀ bs : List Byte, natOf bs < 256 ^ bs.length
  | [] => by show 0 < 1; decide
  | b :: bs => by
    rw [natOf_cons, List.length_cons, Nat.pow_succ, Nat.mul_comm (256 ^ bs.length)]
    have hb : b.toNat + 1 ≤ 256 := b.isLt
    have hs := natOf_lt bs
    have hm := Nat.mul_le_mul_right (256 ^ bs.length) hb
    rw [Nat.add_mul, Nat.one_mul] at hm
    omega

/-- A field of k bytes reads as a number below 256 ^ k. -/
theorem field_lt (body : List Byte) (offset size : Nat) : field body offset size < 256 ^ size := by
  refine Nat.lt_of_lt_of_le (natOf_lt _) (Nat.pow_le_pow_right (by decide) ?_)
  rw [List.length_take]
  exact Nat.min_le_left _ _

theorem natOf_bytesOf_mod : ∀ k n : Nat, natOf (bytesOf k n) = n % 256 ^ k
  | 0, n => by rw [Nat.pow_zero, Nat.mod_one]; rfl
  | k + 1, n => by
    show natOf (BitVec.ofNat 8 (n / 256 ^ k) :: bytesOf k n) = _
    rw [natOf_cons, length_bytesOf, natOf_bytesOf_mod k n, BitVec.toNat_ofNat, Nat.pow_succ 256 k,
      Nat.mod_mul (a := 256 ^ k) (b := 256), Nat.mul_comm (256 ^ k) (n / 256 ^ k % 256), Nat.add_comm]

/-- A number that fits k bytes reads back from them. -/
theorem natOf_bytesOf {k n : Nat} (h : n < 256 ^ k) : natOf (bytesOf k n) = n := by
  rw [natOf_bytesOf_mod, Nat.mod_eq_of_lt h]

end Sys2Proof.Machine
end

