-- ==== Sys2Proof/Laws/Tables.lean ====
section
/-! SUPPORT. How the tables fit together (Consistent): what it reads of a state, and what every shared operation does to
it. -/

namespace Sys2Proof.Machine

/-- What Consistent reads of a vote. -/
def Vote.core (v : Vote) :
    Nat × Key × VoteState × OwnStatus × Option Nat × Option Localisation × Option Decision × Bool × Nat :=
  (v.id, v.key, v.state, v.own, v.timer, v.localisation, v.decision, v.origins.mend, v.checks.length)

theorem Vote.core_eq {v w : Vote} (h : v.core = w.core) :
    v.id = w.id ∧ v.key = w.key ∧ v.state = w.state ∧ v.own = w.own ∧ v.timer = w.timer ∧
      v.localisation = w.localisation ∧ v.decision = w.decision ∧ v.origins.mend = w.origins.mend ∧
      v.checks.length = w.checks.length := by
  simp only [Vote.core, Prod.mk.injEq] at h
  exact h

theorem Vote.Fits.of_core {v w : Vote} (h : v.core = w.core) (f : v.Fits) : w.Fits := by
  obtain ⟨_, _, e3, e4, e5, e6, e7, _, e9⟩ := Vote.core_eq h
  exact ⟨by rw [← e4, ← e3]; exact f.pending, by rw [← e5, ← e3]; exact f.timer,
    by rw [← e6, ← e3]; exact f.localisation, by rw [← e7, ← e3]; exact f.decision,
    by rw [← e6, ← e9]; exact f.received⟩

theorem mem_of_map_eq {α β : Type} {f : α → β} {xs ys : List α} (h : xs.map f = ys.map f) {x : α} (hx : x ∈ xs) :
    ∃ y ∈ ys, f y = f x := by
  have : f x ∈ ys.map f := h ▸ List.mem_map_of_mem hx
  obtain ⟨y, hy, e⟩ := List.mem_map.1 this
  exact ⟨y, hy, e⟩

theorem map_of_core {β : Type} {xs ys : List Vote} (h : xs.map Vote.core = ys.map Vote.core) (f : Vote → β)
    (hf : ∀ v w : Vote, v.core = w.core → f v = f w) : xs.map f = ys.map f := by
  induction xs generalizing ys with
  | nil => cases ys with
    | nil => rfl
    | cons _ _ => cases h
  | cons x xs ih => cases ys with
    | nil => cases h
    | cons y ys =>
      simp only [List.map_cons, List.cons.injEq] at h ⊢
      exact ⟨hf _ _ h.1, ih h.2⟩

theorem map_of_given {β : Type} {xs ys : List Holding} (h : xs.map Holding.given = ys.map Holding.given)
    (f : Holding → β) (hf : ∀ v w : Holding, v.given = w.given → f v = f w) : xs.map f = ys.map f := by
  induction xs generalizing ys with
  | nil => cases ys with
    | nil => rfl
    | cons _ _ => cases h
  | cons x xs ih => cases ys with
    | nil => cases h
    | cons y ys =>
      simp only [List.map_cons, List.cons.injEq] at h ⊢
      exact ⟨hf _ _ h.1, ih h.2⟩

theorem Holding.given_eq {g h : Holding} (e : g.given = h.given) : g.reel = h.reel ∧ g.frames = h.frames := by
  simp only [Holding.given, Holding.mk.injEq] at e
  exact ⟨e.1, e.2.1⟩

theorem Holding.given_tiles {g h : Holding} (e : g.given = h.given) : g.tiles = h.tiles := by
  simp only [Holding.given, Holding.mk.injEq] at e
  exact e.2.2.2.2.2.2.2.2.1

/-- The tables of two states agree in what Consistent reads of them. -/
structure SameTables (s t : State) : Prop where
  holdings : t.holdings.map Holding.given = s.holdings.map Holding.given
  votes : t.votes.map Vote.core = s.votes.map Vote.core
  next : t.nextVote = s.nextVote
  mends : t.mends = s.mends
  read : t.read.fetches = s.read.fetches
  self : (s.resetLine = false → s.line.heardOf s.strap.station.val = .self) →
    t.resetLine = false → t.line.heardOf t.strap.station.val = .self

theorem SameTables.refl (s : State) : SameTables s s := ⟨rfl, rfl, rfl, rfl, rfl, id⟩

theorem SameTables.trans {s t u : State} (h : SameTables s t) (k : SameTables t u) : SameTables s u :=
  ⟨k.holdings.trans h.holdings, k.votes.trans h.votes, k.next.trans h.next, k.mends.trans h.mends,
    k.read.trans h.read, fun x => k.self (h.self x)⟩

/-- The parts that Consistent reads. -/
def tableParts : List Part := [.votes, .nextVote, .mends, .read, .holdings, .roster, .strap, .resetLine]

/-- A frame that leaves the tables alone. -/
theorem SameBut.tables {ps : List Part} {s t : State} (h : SameBut ps s t) (hp : ∀ p ∈ tableParts, p ∉ ps) :
    SameTables s t := by
  have g : ∀ p ∈ tableParts, p.same s t := fun p hm => h p (hp p hm)
  refine ⟨g .holdings (by decide), ?_, g .nextVote (by decide), g .mends (by decide), ?_, ?_⟩
  · rw [show t.votes = s.votes from g .votes (by decide)]
  · rw [show t.read = s.read from g .read (by decide)]
  · intro k r
    have e1 : t.line.roster = s.line.roster := g .roster (by decide)
    have e2 : t.strap = s.strap := g .strap (by decide)
    have e3 : t.resetLine = s.resetLine := g .resetLine (by decide)
    unfold LineUnit.heardOf at k ⊢
    rw [e1, e2]; exact k (e3 ▸ r)

/-- A frame that leaves the tables alone but for the votes, which keep their cores. -/
theorem SameBut.tables_votes {ps : List Part} {s t : State} (h : SameBut ps s t)
    (hp : ∀ p ∈ tableParts.tail, p ∉ ps) (hv : t.votes.map Vote.core = s.votes.map Vote.core) : SameTables s t := by
  have g : ∀ p ∈ tableParts.tail, p.same s t := fun p hm => h p (hp p hm)
  refine ⟨g .holdings (by decide), hv, g .nextVote (by decide), g .mends (by decide), ?_, ?_⟩
  · rw [show t.read = s.read from g .read (by decide)]
  · intro k r
    have e1 : t.line.roster = s.line.roster := g .roster (by decide)
    have e2 : t.strap = s.strap := g .strap (by decide)
    have e3 : t.resetLine = s.resetLine := g .resetLine (by decide)
    unfold LineUnit.heardOf at k ⊢
    rw [e1, e2]; exact k (e3 ▸ r)

/-- Consistent, but for the fields of some votes and for the mend entries of some keys: the states inside a step. -/
structure ConsistentOff (free : Nat → Prop) (loose : Key → Prop) (s : State) : Prop where
  reels : (s.holdings.map Holding.reel).Nodup
  keys : (s.votes.map Vote.key).Nodup
  ids : (s.votes.map Vote.id).Nodup
  idsBelow : ∀ v ∈ s.votes, v.id < s.nextVote
  fits : ∀ v ∈ s.votes, ¬ free v.id → v.Fits
  mendKeys : (s.mends.map MendEntry.key).Nodup
  tags : (s.read.fetches.map Fetch.tag).Nodup
  fetchKeys : (s.read.fetches.map Fetch.key).Nodup
  reading : ∀ k, (∃ f ∈ s.read.fetches, f.key = k) ↔ ∃ v ∈ s.votes, v.key = k ∧ v.state = .reading
  rechecking : ∀ k, ¬ loose k → ((∃ e ∈ s.mends, e.key = k ∧ e.state = .rechecking) ↔
    ∃ v ∈ s.votes, v.key = k ∧ v.origins.mend = true)
  votesHeld : ∀ v ∈ s.votes, ∃ h ∈ s.holdings, h.reel = v.key.reel ∧ v.key.frame < h.frames
  mendsHeld : ∀ e ∈ s.mends, ∃ h ∈ s.holdings, h.reel = e.key.reel ∧ e.key.frame < h.frames
  selfEntry : s.resetLine = false → s.line.heardOf s.strap.station.val = .self
  tiles : ∀ h ∈ s.holdings, 1 ≤ h.tiles ∧ h.tiles ≤ 255
  expects : ∀ f ∈ s.read.fetches, ∀ h ∈ s.holdings, h.reel = f.key.reel → f.next < h.tiles
  taken : ∀ f ∈ s.read.fetches, ∀ v ∈ s.votes, v.key = f.key → v.checks.length = f.next

/-- Every vote and every key. -/
abbrev nothing {α : Type} : α → Prop := fun _ => False

theorem Consistent.off {s : State} (c : Consistent s) (free : Nat → Prop) (loose : Key → Prop) :
    ConsistentOff free loose s :=
  ⟨c.reels, c.keys, c.ids, c.idsBelow, fun v hv _ => c.fits v hv, c.mendKeys, c.tags, c.fetchKeys, c.reading,
    fun k _ => c.rechecking k, c.votesHeld, c.mendsHeld, c.selfEntry, c.tiles, c.expects,
    c.taken⟩

theorem ConsistentOff.on {s : State} (c : ConsistentOff nothing nothing s) : Consistent s :=
  ⟨c.reels, c.keys, c.ids, c.idsBelow, fun v hv => c.fits v hv id, c.mendKeys, c.tags, c.fetchKeys, c.reading,
    fun k => c.rechecking k id, c.votesHeld, c.mendsHeld, c.selfEntry, c.tiles, c.expects,
    c.taken⟩

theorem ConsistentOff.of_tables {free : Nat → Prop} {loose : Key → Prop} {s t : State} (h : SameTables s t)
    (c : ConsistentOff free loose s) : ConsistentOff free loose t := by
  have hm : ∀ {v}, v ∈ t.votes → ∃ w ∈ s.votes, w.core = v.core := fun hv => mem_of_map_eq h.votes hv
  have hm' : ∀ {v}, v ∈ s.votes → ∃ w ∈ t.votes, w.core = v.core := fun hv => mem_of_map_eq h.votes.symm hv
  have hh : ∀ {g}, g ∈ s.holdings → ∃ x ∈ t.holdings, x.given = g.given := fun hg => mem_of_map_eq h.holdings.symm hg
  have hh' : ∀ {g}, g ∈ t.holdings → ∃ x ∈ s.holdings, x.given = g.given := fun hg => mem_of_map_eq h.holdings hg
  refine ⟨?_, ?_, ?_, ?_, ?_, ?_, ?_, ?_, ?_, ?_, ?_, ?_, h.self c.selfEntry, ?_, ?_, ?_⟩
  · rw [map_of_given h.holdings _ fun _ _ e => (Holding.given_eq e).1]; exact c.reels
  · rw [map_of_core h.votes _ fun _ _ e => (Vote.core_eq e).2.1]; exact c.keys
  · rw [map_of_core h.votes _ fun _ _ e => (Vote.core_eq e).1]; exact c.ids
  · intro v hv
    obtain ⟨w, hw, e⟩ := hm hv
    rw [h.next, ← (Vote.core_eq e).1]
    exact c.idsBelow w hw
  · intro v hv hf
    obtain ⟨w, hw, e⟩ := hm hv
    exact (c.fits w hw (by rw [(Vote.core_eq e).1]; exact hf)).of_core e
  · rw [h.mends]; exact c.mendKeys
  · rw [h.read]; exact c.tags
  · rw [h.read]; exact c.fetchKeys
  · intro k
    rw [h.read, c.reading k]
    constructor
    · rintro ⟨v, hv, e1, e2⟩
      obtain ⟨w, hw, e⟩ := hm' hv
      exact ⟨w, hw, (Vote.core_eq e).2.1.trans e1, (Vote.core_eq e).2.2.1.trans e2⟩
    · rintro ⟨v, hv, e1, e2⟩
      obtain ⟨w, hw, e⟩ := hm hv
      exact ⟨w, hw, (Vote.core_eq e).2.1.trans e1, (Vote.core_eq e).2.2.1.trans e2⟩
  · intro k hk
    rw [h.mends, c.rechecking k hk]
    constructor
    · rintro ⟨v, hv, e1, e2⟩
      obtain ⟨w, hw, e⟩ := hm' hv
      exact ⟨w, hw, (Vote.core_eq e).2.1.trans e1, (Vote.core_eq e).2.2.2.2.2.2.2.1.trans e2⟩
    · rintro ⟨v, hv, e1, e2⟩
      obtain ⟨w, hw, e⟩ := hm hv
      exact ⟨w, hw, (Vote.core_eq e).2.1.trans e1, (Vote.core_eq e).2.2.2.2.2.2.2.1.trans e2⟩
  · intro v hv
    obtain ⟨w, hw, e⟩ := hm hv
    obtain ⟨g, hg, e1, e2⟩ := c.votesHeld w hw
    obtain ⟨x, hx, ex⟩ := hh hg
    refine ⟨x, hx, ?_, ?_⟩
    · rw [(Holding.given_eq ex).1, e1, (Vote.core_eq e).2.1]
    · rw [(Holding.given_eq ex).2, ← (Vote.core_eq e).2.1]; exact e2
  · intro m hmm
    rw [h.mends] at hmm
    obtain ⟨g, hg, e1, e2⟩ := c.mendsHeld m hmm
    obtain ⟨x, hx, ex⟩ := hh hg
    exact ⟨x, hx, by rw [(Holding.given_eq ex).1, e1], by rw [(Holding.given_eq ex).2]; exact e2⟩
  · intro g hg
    obtain ⟨x, hx, ex⟩ := hh' hg
    rw [← Holding.given_tiles ex]
    exact c.tiles x hx
  · intro f hf g hg e
    rw [h.read] at hf
    obtain ⟨x, hx, ex⟩ := hh' hg
    rw [← Holding.given_tiles ex]
    exact c.expects f hf x hx ((Holding.given_eq ex).1.trans e)
  · intro f hf v hv e
    rw [h.read] at hf
    obtain ⟨w, hw, ew⟩ := hm hv
    rw [← (Vote.core_eq ew).2.2.2.2.2.2.2.2]
    exact c.taken f hf w hw ((Vote.core_eq ew).2.1.trans e)

theorem Consistent.of_tables {s t : State} (h : SameTables s t) (c : Consistent s) : Consistent t :=
  (ConsistentOff.of_tables h (c.off nothing nothing)).on

/-! ### Operations that leave the tables as they are -/

theorem State.modifyVote_core (s : State) (id : Nat) (f : Vote → Vote) (hf : ∀ v, (f v).core = v.core) :
    (s.modifyVote id f).votes.map Vote.core = s.votes.map Vote.core := by
  show (s.votes.map fun v => if v.id = id then f v else v).map Vote.core = _
  rw [List.map_map]
  refine List.map_congr_left fun v _ => ?_
  show (if v.id = id then f v else v).core = v.core
  split
  · exact hf v
  · rfl

theorem State.modifyVote_tables (s : State) (id : Nat) (f : Vote → Vote) (hf : ∀ v, (f v).core = v.core) :
    SameTables s (s.modifyVote id f) :=
  (s.modifyVote_frame id f).tables_votes (by decide) (s.modifyVote_core id f hf)

theorem State.joinQueue_tables (s : State) (m : Message) : SameTables s (s.joinQueue m) := by
  unfold State.joinQueue
  have k : SameTables s (s.setLine { s.line with queue := joinInOrder m s.line.queue }) :=
    (s.setQueue_frame _).tables (by decide)
  dsimp only
  split
  all_goals first
    | exact k
    | exact k.trans (State.modifyVote_tables _ _ _ fun _ => rfl)

theorem State.clearCall_tables (s : State) (m : Message) : SameTables s (s.clearCall m).1 := by
  unfold State.clearCall
  split
  · split
    · dsimp only
      split
      · exact (State.modifyVote_tables s _ (fun v => { v with callPending := false }) fun _ => rfl).trans
          (State.modifyVote_tables _ _ (fun v => { v with sumSent := true }) fun _ => rfl)
      · exact State.modifyVote_tables _ _ _ fun _ => rfl
    · exact SameTables.refl s
  all_goals exact SameTables.refl s

theorem State.bump_tables (s : State) (c : Counter) : SameTables s (s.bump c) :=
  (s.bump_frame c).tables (by simp [tableParts])

theorem State.bumpBy_tables (s : State) (c : Counter) (k : Nat) : SameTables s (s.bumpBy c k) :=
  (s.bumpBy_frame c k).tables (by simp [tableParts])

theorem State.pushReport_tables (s : State) (r : Report) : SameTables s (s.pushReport r) :=
  (s.pushReport_frame r).tables (by decide)

theorem State.offerFuel_tables : ∀ (n : Nat) (m : Message) (s : State), SameTables s (State.offerFuel n m s)
  | 0, _, s => SameTables.refl s
  | n + 1, m, s => by
    unfold State.offerFuel
    split
    · exact SameTables.refl s
    split
    · exact s.joinQueue_tables m
    split
    · rename_i victim rest _
      split
      · have k : SameTables s (((s.setLine { s.line with queue := rest }).joinQueue m).bump .lineDropped) :=
          (((s.setQueue_frame _).tables (by decide)).trans (State.joinQueue_tables _ m)).trans (State.bump_tables _ _)
        have k2 := k.trans (State.clearCall_tables _ victim)
        split
        · rename_i e
          rw [e] at k2
          exact k2.trans (State.offerFuel_tables n _ _)
        · rename_i e
          rw [e] at k2
          exact k2
      · exact s.bump_tables _
    · exact s.bump_tables _

theorem State.offer_tables (s : State) (m : Message) : SameTables s (s.offer m) := State.offerFuel_tables _ m s

theorem State.messageLeft_tables (s : State) (m : Message) : SameTables s (s.messageLeft m) := by
  unfold State.messageLeft
  have k := s.clearCall_tables m
  split
  · rename_i e
    rw [e] at k
    exact k.trans (State.offer_tables _ _)
  · rename_i e
    rw [e] at k
    exact k

theorem State.offerOwnSum_tables (s : State) (id : Nat) : SameTables s (s.offerOwnSum id) := by
  unfold State.offerOwnSum
  split
  · split
    · exact SameTables.refl s
    split
    · exact (State.modifyVote_tables s _ (fun v => { v with sumSent := true }) fun _ => rfl).trans
        (State.offer_tables _ _)
    · exact SameTables.refl s
  · exact SameTables.refl s

theorem State.offerHeldSum_tables (s : State) (v : Vote) : SameTables s (s.offerHeldSum v) := by
  unfold State.offerHeldSum
  split
  · split
    · exact State.offer_tables _ _
    · exact SameTables.refl s
  · exact SameTables.refl s

theorem State.offerBeacon_tables (s : State) : SameTables s s.offerBeacon := by
  unfold State.offerBeacon
  split
  · exact SameTables.refl s
  · exact State.offer_tables _ _

theorem State.placeJoining_tables (s : State) : SameTables s s.placeJoining := by
  unfold State.placeJoining
  dsimp only
  split
  · exact State.joinQueue_tables _ _
  split
  · rename_i victim rest _
    have k : SameTables s (s.setLine { s.line with queue := rest }) := (s.setQueue_frame _).tables (by decide)
    exact ((k.trans (State.joinQueue_tables _ _)).trans (State.bump_tables _ _)).trans (State.messageLeft_tables _ _)
  · exact SameTables.refl s

theorem State.offerAll_tables (s : State) (bs : List LineBody) : SameTables s (s.offerAll bs) := by
  unfold State.offerAll
  induction bs generalizing s with
  | nil => exact SameTables.refl s
  | cons b bs ih => exact (s.offer_tables _).trans (ih _)

theorem State.offerTiles_tables (s : State) (v : Vote) (d : Decision) : SameTables s (s.offerTiles v d) := by
  unfold State.offerTiles
  split
  · split
    · exact s.offerAll_tables _
    · exact SameTables.refl s
  all_goals exact SameTables.refl s

theorem State.completeRound_tables (s : State) : SameTables s s.completeRound :=
  s.completeRound_frame.tables (by decide)

theorem State.moveCursor_tables (s : State) (p f : Nat) : SameTables s (s.moveCursor p f) :=
  (s.moveCursor_frame p f).tables (by decide)

end Sys2Proof.Machine
end

