-- ==== Sys2Proof/Laws/Consistent.lean ====
section
/-! SUPPORT. What the operations that open, move and remove votes and mend entries do to the tables (Consistent). -/

namespace Sys2Proof.Machine

/-! ### Lists -/

theorem eq_of_map_nodup {α β : Type} {f : α → β} {xs : List α} (h : (xs.map f).Nodup) {x y : α} (hx : x ∈ xs)
    (hy : y ∈ xs) (e : f x = f y) : x = y := by
  induction xs with
  | nil => cases hx
  | cons a as ih =>
    rw [List.map_cons, List.nodup_cons] at h
    rcases List.mem_cons.1 hx with rfl | hx' <;> rcases List.mem_cons.1 hy with rfl | hy'
    · rfl
    · exact absurd (e ▸ List.mem_map_of_mem hy') h.1
    · exact absurd (e ▸ List.mem_map_of_mem hx') h.1
    · exact ih h.2 hx' hy'

theorem find_of_map_nodup {α β : Type} [DecidableEq β] {f : α → β} {xs : List α} (h : (xs.map f).Nodup) {x : α}
    (hx : x ∈ xs) : (xs.find? fun y => decide (f y = f x)) = some x := by
  cases e : xs.find? fun y => decide (f y = f x) with
  | none =>
    have := List.find?_eq_none.1 e x hx
    simp at this
  | some y =>
    have h1 := List.find?_some e
    have h2 := List.mem_of_find?_eq_some e
    rw [eq_of_map_nodup h h2 hx (of_decide_eq_true h1)]

theorem nodup_of_sublist_map {α β : Type} {f : α → β} {xs ys : List α} (h : (ys.map f).Nodup) (s : xs.Sublist ys) :
    (xs.map f).Nodup := h.sublist (s.map f)

theorem nodup_append_one {α β : Type} {f : α → β} {xs : List α} {y : α} (h : (xs.map f).Nodup)
    (hy : ∀ x ∈ xs, f x ≠ f y) : ((xs ++ [y]).map f).Nodup := by
  rw [List.map_append, List.nodup_append]
  refine ⟨h, by simp, ?_⟩
  intro a ha b hb e
  obtain ⟨x, hx, rfl⟩ := List.mem_map.1 ha
  rw [List.map_cons, List.map_nil, List.mem_singleton] at hb
  exact hy x hx (e.trans hb)

theorem length_le_of_nodup_subset {α : Type} [DecidableEq α] : ∀ {xs ys : List α}, xs.Nodup → xs ⊆ ys →
    xs.length ≤ ys.length
  | [], _, _, _ => Nat.zero_le _
  | x :: xs, ys, h, s => by
    rw [List.nodup_cons] at h
    have hx : x ∈ ys := s List.mem_cons_self
    have sub : xs ⊆ ys.erase x := by
      intro z hz
      refine (List.mem_erase_of_ne ?_).2 (s (List.mem_cons_of_mem _ hz))
      rintro rfl
      exact h.1 hz
    have := length_le_of_nodup_subset h.2 sub
    rw [List.length_erase_of_mem hx] at this
    have hp := List.length_pos_of_mem hx
    rw [List.length_cons]
    omega

/-! ### Look-ups -/

theorem State.vote?_mem {s : State} {k : Key} {v : Vote} (h : s.vote? k = some v) : v ∈ s.votes ∧ v.key = k :=
  ⟨List.mem_of_find?_eq_some h, by simpa using List.find?_some h⟩

theorem State.vote?_none {s : State} {k : Key} (h : s.vote? k = none) : ∀ v ∈ s.votes, v.key ≠ k := by
  intro v hv e
  have := List.find?_eq_none.1 h v hv
  simp [e] at this

theorem State.voteById?_mem {s : State} {id : Nat} {v : Vote} (h : s.voteById? id = some v) :
    v ∈ s.votes ∧ v.id = id := ⟨List.mem_of_find?_eq_some h, by simpa using List.find?_some h⟩

theorem State.mend?_mem {s : State} {k : Key} {e : MendEntry} (h : s.mend? k = some e) : e ∈ s.mends ∧ e.key = k :=
  ⟨List.mem_of_find?_eq_some h, by simpa using List.find?_some h⟩

theorem State.mend?_none {s : State} {k : Key} (h : s.mend? k = none) : ∀ e ∈ s.mends, e.key ≠ k := by
  intro v hv e
  have := List.find?_eq_none.1 h v hv
  simp [e] at this

theorem State.holding?_mem {s : State} {r : Nat} {h : Holding} (e : s.holding? r = some h) :
    h ∈ s.holdings ∧ h.reel = r := ⟨List.mem_of_find?_eq_some e, by simpa using List.find?_some e⟩

theorem ReadEngine.slot?_mem {e : ReadEngine} {t : Byte} {f : Fetch} (h : e.slot? t = some f) :
    f ∈ e.fetches ∧ f.tag = t := ⟨List.mem_of_find?_eq_some h, by simpa using List.find?_some h⟩

theorem State.voteById?_of_mem {s : State} (h : (s.votes.map Vote.id).Nodup) {v : Vote} (hv : v ∈ s.votes) :
    s.voteById? v.id = some v := find_of_map_nodup h hv

theorem State.vote?_of_mem {s : State} (h : (s.votes.map Vote.key).Nodup) {v : Vote} (hv : v ∈ s.votes) :
    s.vote? v.key = some v := find_of_map_nodup h hv

/-- The votes after a change of one of them. -/
theorem State.mem_modifyVote {s : State} {id : Nat} {f : Vote → Vote} {w : Vote} :
    w ∈ (s.modifyVote id f).votes ↔ (∃ v ∈ s.votes, v.id = id ∧ w = f v) ∨ (w ∈ s.votes ∧ w.id ≠ id) := by
  show w ∈ s.votes.map (fun v => if v.id = id then f v else v) ↔ _
  rw [List.mem_map]
  constructor
  · rintro ⟨v, hv, rfl⟩
    by_cases e : v.id = id
    · rw [if_pos e]; exact Or.inl ⟨v, hv, e, rfl⟩
    · rw [if_neg e]; exact Or.inr ⟨hv, e⟩
  · rintro (⟨v, hv, e, rfl⟩ | ⟨hw, e⟩)
    · exact ⟨v, hv, if_pos e⟩
    · exact ⟨w, hw, if_neg e⟩

theorem State.modifyVote_map {β : Type} (s : State) (id : Nat) (f : Vote → Vote) (g : Vote → β)
    (h : ∀ v ∈ s.votes, v.id = id → g (f v) = g v) : (s.modifyVote id f).votes.map g = s.votes.map g := by
  show (s.votes.map fun v => if v.id = id then f v else v).map g = _
  rw [List.map_map]
  refine List.map_congr_left fun v hv => ?_
  show g (if v.id = id then f v else v) = g v
  split
  · rename_i e; exact h v hv e
  · rfl

/-! ### The issue arbiter -/

theorem State.eligible_waits {s : State} {v : Vote} (h : s.eligible v = true) : v.state = .awaitingRead := by
  unfold State.eligible at h
  exact of_decide_eq_true (Bool.and_eq_true_iff.1 h).1

theorem State.chosen?_mem {s : State} {v : Vote} (h : s.chosen? = some v) : v ∈ s.votes ∧ v.state = .awaitingRead := by
  unfold State.chosen? at h
  obtain ⟨r, _, hr⟩ := List.exists_of_findSome?_eq_some h
  have h1 := List.find?_some hr
  exact ⟨List.mem_of_find?_eq_some hr, State.eligible_waits (Bool.and_eq_true_iff.1 h1).1⟩

/-- The tag counter steps to the first value at or after t that is not busy, within the fuel. -/
theorem stepPast_spec (busy : List Byte) : ∀ (n : Nat) (t : Byte), ∃ j ≤ n, stepPast n busy t = t + BitVec.ofNat 8 j ∧
    (∀ i < j, t + BitVec.ofNat 8 i ∈ busy) ∧ (j < n → stepPast n busy t ∉ busy)
  | 0, t => ⟨0, Nat.le_refl _, by simp [stepPast], by simp, by simp⟩
  | n + 1, t => by
    unfold stepPast
    by_cases h : t ∈ busy
    · rw [if_pos h]
      obtain ⟨j, hj, e, hb, hn⟩ := stepPast_spec busy n (t + 1)
      have plus : ∀ i : Nat, t + 1 + BitVec.ofNat 8 i = t + BitVec.ofNat 8 (i + 1) := by
        intro i
        rw [BitVec.add_assoc]
        congr 1
        apply BitVec.eq_of_toNat_eq
        simp [Nat.add_comm]
      refine ⟨j + 1, by omega, by rw [e, plus], ?_, fun hl => hn (by omega)⟩
      intro i hi
      cases i with
      | zero => simpa using h
      | succ i => rw [← plus]; exact hb i (by omega)
    · rw [if_neg h]
      exact ⟨0, by omega, by simp, by simp, fun _ => h⟩

theorem ofNat8_inj {i j : Nat} (hi : i < 256) (hj : j < 256) (t : Byte)
    (e : t + BitVec.ofNat 8 i = t + BitVec.ofNat 8 j) : i = j := by
  have := congrArg BitVec.toNat e
  simp only [BitVec.toNat_add, BitVec.toNat_ofNat] at this
  have := t.isLt
  omega

/-- While a slot is FREE the next fetch's tag is that of no BUSY slot (R5). -/
theorem ReadEngine.nextTag_fresh {e : ReadEngine} (h : e.fetches.length < 4) : e.nextTag ∉ e.busyTags := by
  obtain ⟨j, hj, _, hb, hn⟩ := stepPast_spec e.busyTags Config.fetchSlots e.tagCounter
  refine hn (Nat.lt_of_le_of_ne hj fun he => ?_)
  subst he
  have sub : ((List.range 4).map fun i => e.tagCounter + BitVec.ofNat 8 i) ⊆ e.busyTags := by
    intro x hx
    obtain ⟨i, hi, rfl⟩ := List.mem_map.1 hx
    exact hb i (List.mem_range.1 hi)
  have nd : ((List.range 4).map fun i => e.tagCounter + BitVec.ofNat 8 i).Nodup := by
    rw [List.nodup_iff_pairwise_ne, List.pairwise_map]
    refine List.Pairwise.imp_of_mem ?_ List.nodup_range
    intro a b ha hb hne heq
    exact hne (ofNat8_inj (by have := List.mem_range.1 ha; omega) (by have := List.mem_range.1 hb; omega) _ heq)
  have := length_le_of_nodup_subset nd sub
  simp only [List.length_map, List.length_range, ReadEngine.busyTags] at this
  omega

theorem State.issueFor_consistent {free : Nat → Prop} {loose : Key → Prop} {s : State} {v : Vote}
    (c : ConsistentOff free loose s) (hv : v ∈ s.votes) (hw : v.state = .awaitingRead)
    (hl : s.read.fetches.length < 4) : ConsistentOff free loose (s.issueFor v) := by
  have hvotes : (s.issueFor v).votes = (s.modifyVote v.id fun w => { w with state := .reading, checks := [] }).votes :=
    rfl
  have hread : (s.issueFor v).read.fetches =
      s.read.fetches ++ [{ tag := s.read.nextTag, key := v.key, next := 0, issued := s.now }] := rfl
  have uniq : ∀ w ∈ s.votes, w.id = v.id → w = v := fun w h e => eq_of_map_nodup c.ids h hv e
  have noFetch : ∀ f ∈ s.read.fetches, f.key ≠ v.key := by
    intro f hf e
    obtain ⟨w, hw1, hw2, hw3⟩ := (c.reading v.key).1 ⟨f, hf, e⟩
    rw [eq_of_map_nodup c.keys hw1 hv hw2, hw] at hw3
    cases hw3
  have mem : ∀ {w}, w ∈ (s.issueFor v).votes ↔
      w = { v with state := .reading, checks := [] } ∨ (w ∈ s.votes ∧ w.id ≠ v.id) := by
    intro w
    rw [hvotes, State.mem_modifyVote]
    constructor
    · rintro (⟨x, hx, e, rfl⟩ | h)
      · rw [uniq x hx e]; exact Or.inl rfl
      · exact Or.inr h
    · rintro (rfl | h)
      · exact Or.inl ⟨v, hv, rfl, rfl⟩
      · exact Or.inr h
  refine ⟨c.reels, ?_, ?_, ?_, ?_, c.mendKeys, ?_, ?_, ?_, ?_, ?_, c.mendsHeld, c.selfEntry, c.tiles, ?_, ?_⟩
  · rw [hvotes, s.modifyVote_map v.id (fun w => { w with state := .reading, checks := [] }) Vote.key fun _ _ _ => rfl]
    exact c.keys
  · rw [hvotes, s.modifyVote_map v.id (fun w => { w with state := .reading, checks := [] }) Vote.id fun _ _ _ => rfl]
    exact c.ids
  · intro w h
    rcases mem.1 h with rfl | h
    · exact c.idsBelow v hv
    · exact c.idsBelow w h.1
  · intro w h hf
    rcases mem.1 h with rfl | h
    · have f := c.fits v hv hf
      refine ⟨⟨fun _ => Or.inr rfl, fun _ => f.pending.2 (Or.inl hw)⟩, ?_, ?_, ?_, ?_⟩
      · have := f.timer
        rw [hw] at this
        exact ⟨fun x => absurd (this.1 x) (by decide), fun x => by cases x⟩
      · have := f.localisation
        rw [hw] at this
        exact ⟨fun x => absurd (this.1 x) (by decide), fun x => by cases x⟩
      · have := f.decision
        rw [hw] at this
        exact ⟨fun x => absurd (this.1 x) (by decide), fun x => by cases x⟩
      · intro l hl'
        have := f.localisation
        rw [hw] at this
        exact absurd (this.1 (by rw [show v.localisation = some l from hl']; rfl)) (by decide)
    · exact c.fits w h.1 hf
  · rw [hread]
    refine nodup_append_one c.tags fun f hf e => ?_
    exact s.read.nextTag_fresh hl (List.mem_map.2 ⟨f, hf, e⟩)
  · rw [hread]
    exact nodup_append_one c.fetchKeys noFetch
  · intro k
    rw [hread]
    constructor
    · rintro ⟨f, hf, e⟩
      rcases List.mem_append.1 hf with hf | hf
      · obtain ⟨w, h1, h2, h3⟩ := (c.reading k).1 ⟨f, hf, e⟩
        refine ⟨w, mem.2 (Or.inr ⟨h1, fun he => ?_⟩), h2, h3⟩
        rw [uniq w h1 he, hw] at h3
        cases h3
      · rw [List.mem_singleton] at hf
        subst hf
        exact ⟨_, mem.2 (Or.inl rfl), e, rfl⟩
    · rintro ⟨w, h1, h2, h3⟩
      rcases mem.1 h1 with rfl | h1
      · exact ⟨_, List.mem_append_right _ (List.mem_singleton.2 rfl), h2⟩
      · obtain ⟨f, hf, e⟩ := (c.reading k).2 ⟨w, h1.1, h2, h3⟩
        exact ⟨f, List.mem_append_left _ hf, e⟩
  · intro k hk
    show (∃ e ∈ s.mends, e.key = k ∧ e.state = .rechecking) ↔ _
    rw [c.rechecking k hk]
    constructor
    · rintro ⟨w, h1, h2, h3⟩
      by_cases e : w.id = v.id
      · rw [uniq w h1 e] at h2 h3
        exact ⟨_, mem.2 (Or.inl rfl), h2, h3⟩
      · exact ⟨w, mem.2 (Or.inr ⟨h1, e⟩), h2, h3⟩
    · rintro ⟨w, h1, h2, h3⟩
      rcases mem.1 h1 with rfl | h1
      · exact ⟨v, hv, h2, h3⟩
      · exact ⟨w, h1.1, h2, h3⟩
  · intro w h
    rcases mem.1 h with rfl | h
    · exact c.votesHeld v hv
    · exact c.votesHeld w h.1
  · intro f hf h hh e
    rw [hread] at hf
    rcases List.mem_append.1 hf with hf | hf
    · exact c.expects f hf h hh e
    · rw [List.mem_singleton] at hf
      subst hf
      exact (c.tiles h hh).1
  · intro f hf w hw' e
    rw [hread] at hf
    rcases List.mem_append.1 hf with hf | hf
    · rcases mem.1 hw' with rfl | h
      · exact absurd e.symm (noFetch f hf)
      · exact c.taken f hf w h.1 e
    · rw [List.mem_singleton] at hf
      subst hf
      rcases mem.1 hw' with rfl | h
      · rfl
      · exact absurd (congrArg Vote.id (eq_of_map_nodup c.keys h.1 hv e)) h.2

theorem State.issueFuel_consistent {free : Nat → Prop} {loose : Key → Prop} : ∀ (n : Nat) {s : State},
    ConsistentOff free loose s → ConsistentOff free loose (State.issueFuel n s)
  | 0, _, c => c
  | n + 1, s, c => by
    unfold State.issueFuel
    split
    · rename_i hl
      split
      · rename_i v hv
        have hm := State.chosen?_mem hv
        exact State.issueFuel_consistent n (State.issueFor_consistent c hm.1 hm.2 hl)
      · exact c
    · exact c

theorem State.issue_consistent {free : Nat → Prop} {loose : Key → Prop} {s : State}
    (c : ConsistentOff free loose s) : ConsistentOff free loose s.issue := State.issueFuel_consistent _ c

theorem State.issueIfWaiting_consistent {free : Nat → Prop} {loose : Key → Prop} {s : State} (id : Nat)
    (c : ConsistentOff free loose s) : ConsistentOff free loose (s.issueIfWaiting id) := by
  unfold State.issueIfWaiting
  split
  · split
    · exact State.issue_consistent c
    · exact c
  · exact c

/-! ### Opening votes -/

/-- A vote joins the table, for a held frame without a vote; a MEND vote for a key whose entry is in RECHECKING. -/
theorem State.addVote_consistent {free : Nat → Prop} {loose loose' : Key → Prop} {s : State} {k : Key} {o : Origin}
    {caller : Option Nat} (c : ConsistentOff free loose s) (hk : ∀ v ∈ s.votes, v.key ≠ k)
    (hh : ∃ h ∈ s.holdings, h.reel = k.reel ∧ k.frame < h.frames)
    (hl : ∀ k', ¬ loose' k' → ¬ loose k' ∨ k' = k)
    (hm : ¬ loose' k → ((∃ e ∈ s.mends, e.key = k ∧ e.state = .rechecking) ↔ o = .mend)) :
    ConsistentOff free loose' (s.addVote (s.newVote k o caller)) := by
  have hvotes : (s.addVote (s.newVote k o caller)).votes = s.votes ++ [s.newVote k o caller] := rfl
  have mem : ∀ {w}, w ∈ (s.addVote (s.newVote k o caller)).votes ↔ w ∈ s.votes ∨ w = s.newVote k o caller := by
    intro w; rw [hvotes, List.mem_append, List.mem_singleton]
  refine ⟨c.reels, ?_, ?_, ?_, ?_, c.mendKeys, c.tags, c.fetchKeys, ?_, ?_, ?_, c.mendsHeld, c.selfEntry, c.tiles,
    c.expects, ?_⟩
  · rw [hvotes]; exact nodup_append_one c.keys hk
  · rw [hvotes]; exact nodup_append_one c.ids fun v hv => Nat.ne_of_lt (c.idsBelow v hv)
  · intro w h
    show w.id < s.nextVote + 1
    rcases mem.1 h with h | rfl
    · exact Nat.lt_succ_of_lt (c.idsBelow w h)
    · exact Nat.lt_succ_self _
  · intro w h hf
    rcases mem.1 h with h | rfl
    · exact c.fits w h hf
    · exact ⟨⟨fun _ => Or.inl rfl, fun _ => rfl⟩, ⟨nofun, nofun⟩, ⟨nofun, nofun⟩, ⟨nofun, nofun⟩, nofun⟩
  · intro k'
    show (∃ f ∈ s.read.fetches, f.key = k') ↔ _
    rw [c.reading k']
    constructor
    · rintro ⟨w, h, e⟩; exact ⟨w, mem.2 (Or.inl h), e⟩
    · rintro ⟨w, h, e⟩
      rcases mem.1 h with h | rfl
      · exact ⟨w, h, e⟩
      · cases e.2
  · intro k' hk'
    show (∃ e ∈ s.mends, e.key = k' ∧ e.state = .rechecking) ↔ _
    by_cases ek : k' = k
    · subst ek
      rw [hm hk']
      constructor
      · rintro rfl; exact ⟨_, mem.2 (Or.inr rfl), rfl, rfl⟩
      · rintro ⟨w, h, e1, e2⟩
        rcases mem.1 h with h | rfl
        · exact absurd e1 (hk w h)
        · cases o <;> first | rfl | cases e2
    · rw [c.rechecking k' ((hl k' hk').resolve_right ek)]
      constructor
      · rintro ⟨w, h, e⟩; exact ⟨w, mem.2 (Or.inl h), e⟩
      · rintro ⟨w, h, e⟩
        rcases mem.1 h with h | rfl
        · exact ⟨w, h, e⟩
        · exact absurd e.1.symm ek
  · intro w h
    rcases mem.1 h with h | rfl
    · exact c.votesHeld w h
    · exact hh
  · intro f hf w h e
    rcases mem.1 h with h | rfl
    · exact c.taken f hf w h e
    · obtain ⟨x, h1, h2, _⟩ := (c.reading f.key).1 ⟨f, hf, rfl⟩
      exact absurd (h2.trans e.symm) (hk x h1)

theorem State.offerCall_tables (s : State) (v : Vote) : SameTables s (s.offerCall v) := by
  unfold State.offerCall
  dsimp only
  split
  · exact SameTables.refl s
  · exact State.offer_tables _ _

theorem State.openCalling_consistent {free : Nat → Prop} {loose loose' : Key → Prop} {s : State} {k : Key} {o : Origin}
    (c : ConsistentOff free loose s) (hk : ∀ v ∈ s.votes, v.key ≠ k)
    (hh : ∃ h ∈ s.holdings, h.reel = k.reel ∧ k.frame < h.frames)
    (hl : ∀ k', ¬ loose' k' → ¬ loose k' ∨ k' = k)
    (hm : ¬ loose' k → ((∃ e ∈ s.mends, e.key = k ∧ e.state = .rechecking) ↔ o = .mend)) :
    ConsistentOff free loose' (s.openCalling k o) :=
  State.issue_consistent (ConsistentOff.of_tables (State.offerCall_tables _ _) (State.addVote_consistent c hk hh hl hm))

/-- No entry of a key without a vote is in RECHECKING. -/
theorem ConsistentOff.not_rechecking {free : Nat → Prop} {loose : Key → Prop} {s : State}
    (c : ConsistentOff free loose s) {k : Key} (hl : ¬ loose k) (hk : ∀ v ∈ s.votes, v.key ≠ k) :
    ¬ ∃ e ∈ s.mends, e.key = k ∧ e.state = .rechecking := by
  rw [c.rechecking k hl]
  rintro ⟨v, hv, e, _⟩
  exact hk v hv e

theorem State.openCalling_fresh {s : State} {k : Key} {o : Origin} (c : Consistent s) (ho : o ≠ .mend)
    (hk : ∀ v ∈ s.votes, v.key ≠ k) (hh : ∃ h ∈ s.holdings, h.reel = k.reel ∧ k.frame < h.frames) :
    Consistent (s.openCalling k o) :=
  (State.openCalling_consistent (c.off nothing nothing) hk hh (fun _ h => Or.inl h) fun _ =>
    ⟨fun h => absurd h ((c.off nothing nothing).not_rechecking id hk), fun h => absurd h ho⟩).on

theorem State.openPeer_consistent {s : State} {k : Key} {caller : Nat} (c : Consistent s)
    (hk : ∀ v ∈ s.votes, v.key ≠ k) (hh : ∃ h ∈ s.holdings, h.reel = k.reel ∧ k.frame < h.frames) :
    Consistent (s.openPeer k caller) :=
  (State.issue_consistent (State.addVote_consistent (c.off nothing nothing) hk hh (fun _ h => Or.inl h) fun _ =>
    ⟨fun h => absurd h ((c.off nothing nothing).not_rechecking id hk), fun h => by cases h⟩)).on

/-! ### The walk -/

theorem State.endBurst_tables (s : State) : SameTables s s.endBurst := s.endBurst_frame.tables (by decide)

theorem State.spendBurst_tables (s : State) : SameTables s s.spendBurst := s.spendBurst_frame.tables (by decide)

theorem State.cursorOn_tables (s : State) (h : Holding) : SameTables s (s.cursorOn h) :=
  (s.cursorOn_frame h).tables (by decide)

theorem State.setRun_tables (s : State) (x : Sweep) (hs : x.suspended = s.sweep.suspended := by rfl)
    (hp : x.period = s.sweep.period := by rfl) (hm : x.masks = s.sweep.masks := by rfl)
    (hb : x.burst = s.sweep.burst := by rfl) : SameTables s (s.setSweep x) :=
  (s.setRun_frame x hs hp hm hb).tables (by decide)

theorem State.walkStep_consistent {s : State} (c : Consistent s) : Consistent s.walkStep := by
  unfold State.walkStep
  split
  · exact c.of_tables (State.completeRound_tables s)
  · rename_i h hh
    split
    · exact c.of_tables (State.moveCursor_tables _ _ _)
    split
    · exact c.of_tables (State.moveCursor_tables _ _ _)
    · rename_i hf
      dsimp only
      split
      · refine c.of_tables ?_
        exact (s.setRun_tables _).trans (State.cursorOn_tables _ h)
      · rename_i hn
        have hm : h ∈ s.holdings := List.mem_of_getElem? hh
        have k := State.openCalling_fresh (o := .sweep) c (by decide) (State.vote?_none hn)
          ⟨h, hm, rfl, Nat.lt_of_not_le hf⟩
        exact ((k.of_tables (State.setRun_tables _ _)).of_tables (State.cursorOn_tables _ h)).of_tables
          (State.spendBurst_tables _)

theorem State.walkFuel_consistent : ∀ (n : Nat) {s : State}, Consistent s → Consistent (State.walkFuel n s)
  | 0, _, c => c
  | n + 1, s, c => by
    unfold State.walkFuel
    split
    · exact State.walkFuel_consistent n (State.walkStep_consistent c)
    · exact c

theorem State.walk_consistent {s : State} (c : Consistent s) : Consistent s.walk := State.walkFuel_consistent _ c

/-! ### A change to one vote -/

theorem State.mem_change {s : State} {v w : Vote} {f : Vote → Vote} (hn : (s.votes.map Vote.id).Nodup)
    (hv : v ∈ s.votes) : w ∈ (s.modifyVote v.id f).votes ↔ w = f v ∨ (w ∈ s.votes ∧ w.id ≠ v.id) := by
  rw [State.mem_modifyVote]
  constructor
  · rintro (⟨x, hx, e, rfl⟩ | h)
    · rw [eq_of_map_nodup hn hx hv e]; exact Or.inl rfl
    · exact Or.inr h
  · rintro (rfl | h)
    · exact Or.inl ⟨v, hv, rfl, rfl⟩
    · exact Or.inr h

/-- A vote whose key a BUSY slot has is in READING. -/
theorem ConsistentOff.reads {free : Nat → Prop} {loose : Key → Prop} {s : State} (c : ConsistentOff free loose s)
    {v : Vote} {f : Fetch} (hv : v ∈ s.votes) (hf : f ∈ s.read.fetches) (e : f.key = v.key) : v.state = .reading := by
  obtain ⟨w, h1, h2, h3⟩ := (c.reading v.key).1 ⟨f, hf, e⟩
  rw [← eq_of_map_nodup c.keys h1 hv h2]
  exact h3

/-- A change that keeps a vote's number, key and MEND origin, whether it is READING, and in READING the number of its
checks. -/
theorem State.change_consistent {free free' : Nat → Prop} {loose : Key → Prop} {s : State} {v : Vote} {f : Vote → Vote}
    (c : ConsistentOff free loose s) (hv : v ∈ s.votes) (hid : (f v).id = v.id) (hkey : (f v).key = v.key)
    (hmend : (f v).origins.mend = v.origins.mend) (hread : (f v).state = .reading ↔ v.state = .reading)
    (hfit : ¬ free' v.id → (f v).Fits) (hfree : ∀ i, i ≠ v.id → ¬ free' i → ¬ free i)
    (hchecks : v.state = .reading → (f v).checks.length = v.checks.length) :
    ConsistentOff free' loose (s.modifyVote v.id f) := by
  have mem : ∀ {w}, w ∈ (s.modifyVote v.id f).votes ↔ w = f v ∨ (w ∈ s.votes ∧ w.id ≠ v.id) :=
    State.mem_change c.ids hv
  have same : ∀ w ∈ s.votes, w.id = v.id → w = v := fun w h e => eq_of_map_nodup c.ids h hv e
  refine ⟨c.reels, ?_, ?_, ?_, ?_, c.mendKeys, c.tags, c.fetchKeys, ?_, ?_, ?_, c.mendsHeld, c.selfEntry, c.tiles,
    c.expects, ?_⟩
  · rw [s.modifyVote_map v.id f Vote.key fun w h e => by rw [same w h e]; exact hkey]; exact c.keys
  · rw [s.modifyVote_map v.id f Vote.id fun w h e => by rw [same w h e]; exact hid]; exact c.ids
  · intro w h
    rcases mem.1 h with rfl | h
    · rw [hid]; exact c.idsBelow v hv
    · exact c.idsBelow w h.1
  · intro w h hf
    rcases mem.1 h with rfl | h
    · rw [hid] at hf; exact hfit hf
    · exact c.fits w h.1 (hfree _ h.2 hf)
  · intro k
    show (∃ f ∈ s.read.fetches, f.key = k) ↔ _
    rw [c.reading k]
    constructor
    · rintro ⟨w, h1, h2, h3⟩
      by_cases e : w.id = v.id
      · have := same w h1 e
        subst this
        exact ⟨_, mem.2 (Or.inl rfl), hkey.trans h2, hread.2 h3⟩
      · exact ⟨w, mem.2 (Or.inr ⟨h1, e⟩), h2, h3⟩
    · rintro ⟨w, h1, h2, h3⟩
      rcases mem.1 h1 with rfl | h1
      · exact ⟨v, hv, hkey.symm.trans h2, hread.1 h3⟩
      · exact ⟨w, h1.1, h2, h3⟩
  · intro k hk
    show (∃ e ∈ s.mends, e.key = k ∧ e.state = .rechecking) ↔ _
    rw [c.rechecking k hk]
    constructor
    · rintro ⟨w, h1, h2, h3⟩
      by_cases e : w.id = v.id
      · have := same w h1 e
        subst this
        exact ⟨_, mem.2 (Or.inl rfl), hkey.trans h2, hmend.trans h3⟩
      · exact ⟨w, mem.2 (Or.inr ⟨h1, e⟩), h2, h3⟩
    · rintro ⟨w, h1, h2, h3⟩
      rcases mem.1 h1 with rfl | h1
      · exact ⟨v, hv, hkey.symm.trans h2, hmend.symm.trans h3⟩
      · exact ⟨w, h1.1, h2, h3⟩
  · intro w h
    rcases mem.1 h with rfl | h
    · rw [hkey]; exact c.votesHeld v hv
    · exact c.votesHeld w h.1
  · intro x hx w h e
    rcases mem.1 h with rfl | h
    · rw [hkey] at e
      rw [hchecks (c.reads hv hx e.symm)]
      exact c.taken x hx v hv e
    · exact c.taken x hx w h.1 e

/-- The fetch of a vote in READING ends: its slot is FREE and the vote is out of READING. -/
theorem State.finish_consistent {s : State} {v : Vote} {f : Fetch} {g : Vote → Vote} (c : Consistent s)
    (hv : v ∈ s.votes) (hf : f ∈ s.read.fetches) (hk : f.key = v.key) (hid : (g v).id = v.id)
    (hkey : (g v).key = v.key) (hmend : (g v).origins.mend = v.origins.mend) (hread : (g v).state ≠ .reading)
    (hfit : (g v).Fits) : Consistent ((s.freeSlot f.tag).modifyVote v.id g) := by
  have mem : ∀ {w}, w ∈ ((s.freeSlot f.tag).modifyVote v.id g).votes ↔ w = g v ∨ (w ∈ s.votes ∧ w.id ≠ v.id) :=
    State.mem_change (s := s.freeSlot f.tag) c.ids hv
  have same : ∀ w ∈ s.votes, w.id = v.id → w = v := fun w h e => eq_of_map_nodup c.ids h hv e
  have memf : ∀ {x}, x ∈ ((s.freeSlot f.tag).modifyVote v.id g).read.fetches ↔ x ∈ s.read.fetches ∧ x.key ≠ v.key := by
    intro x
    show x ∈ s.read.fetches.filter (fun y => y.tag ≠ f.tag) ↔ _
    rw [List.mem_filter]
    constructor
    · rintro ⟨hx, h⟩
      refine ⟨hx, fun e => ?_⟩
      rw [eq_of_map_nodup c.fetchKeys hx hf (e.trans hk.symm)] at h
      simp at h
    · rintro ⟨hx, h⟩
      refine ⟨hx, ?_⟩
      rw [decide_eq_true_eq]
      intro e
      exact h ((eq_of_map_nodup c.tags hx hf e) ▸ hk)
  have sub : ((s.freeSlot f.tag).modifyVote v.id g).read.fetches.Sublist s.read.fetches := List.filter_sublist
  refine ⟨c.reels, ?_, ?_, ?_, ?_, c.mendKeys, nodup_of_sublist_map c.tags sub, nodup_of_sublist_map c.fetchKeys sub,
    ?_, ?_, ?_, c.mendsHeld, c.selfEntry, c.tiles, fun x hx => c.expects x (memf.1 hx).1, ?_⟩
  · rw [(s.freeSlot f.tag).modifyVote_map v.id g Vote.key fun w h e => by rw [same w h e]; exact hkey]; exact c.keys
  · rw [(s.freeSlot f.tag).modifyVote_map v.id g Vote.id fun w h e => by rw [same w h e]; exact hid]; exact c.ids
  · intro w h
    rcases mem.1 h with rfl | h
    · rw [hid]; exact c.idsBelow v hv
    · exact c.idsBelow w h.1
  · intro w h
    rcases mem.1 h with rfl | h
    · exact hfit
    · exact c.fits w h.1
  · intro k
    constructor
    · rintro ⟨x, hx, e⟩
      obtain ⟨hx, hne⟩ := memf.1 hx
      obtain ⟨w, h1, h2, h3⟩ := (c.reading k).1 ⟨x, hx, e⟩
      refine ⟨w, mem.2 (Or.inr ⟨h1, fun he => hne ?_⟩), h2, h3⟩
      rw [e, ← h2, same w h1 he]
    · rintro ⟨w, h1, h2, h3⟩
      rcases mem.1 h1 with rfl | h1
      · exact absurd h3 hread
      · obtain ⟨x, hx, e⟩ := (c.reading k).2 ⟨w, h1.1, h2, h3⟩
        refine ⟨x, memf.2 ⟨hx, fun he => h1.2 ?_⟩, e⟩
        rw [eq_of_map_nodup c.keys h1.1 hv (h2.trans (e.symm.trans he))]
  · intro k
    show (∃ e ∈ s.mends, e.key = k ∧ e.state = .rechecking) ↔ _
    rw [c.rechecking k]
    constructor
    · rintro ⟨w, h1, h2, h3⟩
      by_cases e : w.id = v.id
      · have := same w h1 e
        subst this
        exact ⟨_, mem.2 (Or.inl rfl), hkey.trans h2, hmend.trans h3⟩
      · exact ⟨w, mem.2 (Or.inr ⟨h1, e⟩), h2, h3⟩
    · rintro ⟨w, h1, h2, h3⟩
      rcases mem.1 h1 with rfl | h1
      · exact ⟨v, hv, hkey.symm.trans h2, hmend.symm.trans h3⟩
      · exact ⟨w, h1.1, h2, h3⟩
  · intro w h
    rcases mem.1 h with rfl | h
    · rw [hkey]; exact c.votesHeld v hv
    · exact c.votesHeld w h.1
  · intro x hx w h e
    obtain ⟨hx, hne⟩ := memf.1 hx
    rcases mem.1 h with rfl | h
    · exact absurd (e.symm.trans hkey) hne
    · exact c.taken x hx w h.1 e

/-! ### Delivery -/

/-- A vote leaves the table and the mend list settles: no entry of its key is then in RECHECKING, and no other entry
changes whether it is. -/
theorem State.leave_consistent {s t : State} {v : Vote} (c : ConsistentOff (· = v.id) nothing s) (hv : v ∈ s.votes)
    (hs : v.state ≠ .reading) (hh : t.holdings = s.holdings) (hvs : t.votes = s.votes.filter fun w => w.id ≠ v.id)
    (hn : t.nextVote = s.nextVote) (hr : t.read = s.read)
    (hself : t.resetLine = false → t.line.heardOf t.strap.station.val = .self)
    (hm1 : (t.mends.map MendEntry.key).Nodup)
    (hm2 : ∀ k, k ≠ v.key → ((∃ e ∈ t.mends, e.key = k ∧ e.state = .rechecking) ↔
      ∃ e ∈ s.mends, e.key = k ∧ e.state = .rechecking))
    (hm3 : ∀ e ∈ t.mends, e.key = v.key → e.state ≠ .rechecking)
    (hm4 : ∀ e ∈ t.mends, (∃ x ∈ s.mends, x.key = e.key) ∨ e.key = v.key) : Consistent t := by
  have mem : ∀ {w}, w ∈ t.votes ↔ w ∈ s.votes ∧ w.id ≠ v.id := by
    intro w; rw [hvs, List.mem_filter, decide_eq_true_eq]
  have sub : t.votes.Sublist s.votes := by rw [hvs]; exact List.filter_sublist
  refine ⟨hh ▸ c.reels, nodup_of_sublist_map c.keys sub, nodup_of_sublist_map c.ids sub, ?_, ?_, hm1, hr ▸ c.tags,
    hr ▸ c.fetchKeys, ?_, ?_, ?_, ?_, hself, hh ▸ c.tiles, ?_, ?_⟩
  · intro w h; rw [hn]; exact c.idsBelow w (mem.1 h).1
  · intro w h; exact c.fits w (mem.1 h).1 (mem.1 h).2
  · intro k
    rw [hr, c.reading k]
    constructor
    · rintro ⟨w, h1, h2, h3⟩
      refine ⟨w, mem.2 ⟨h1, fun e => hs ?_⟩, h2, h3⟩
      rw [← eq_of_map_nodup c.ids h1 hv e]; exact h3
    · rintro ⟨w, h1, h2, h3⟩; exact ⟨w, (mem.1 h1).1, h2, h3⟩
  · intro k
    by_cases e : k = v.key
    · subst e
      constructor
      · rintro ⟨e, h1, h2, h3⟩; exact absurd h3 (hm3 e h1 h2)
      · rintro ⟨w, h1, h2, _⟩
        exact absurd (congrArg Vote.id (eq_of_map_nodup c.keys (mem.1 h1).1 hv h2)) (mem.1 h1).2
    · rw [hm2 k e, c.rechecking k id]
      constructor
      · rintro ⟨w, h1, h2, h3⟩
        exact ⟨w, mem.2 ⟨h1, fun he => e (by rw [← h2, eq_of_map_nodup c.ids h1 hv he])⟩, h2, h3⟩
      · rintro ⟨w, h1, h2, h3⟩; exact ⟨w, (mem.1 h1).1, h2, h3⟩
  · intro w h; rw [hh]; exact c.votesHeld w (mem.1 h).1
  · intro e he
    rw [hh]
    rcases hm4 e he with ⟨x, hx, ek⟩ | ek
    · rw [← ek]; exact c.mendsHeld x hx
    · rw [ek]; exact c.votesHeld v hv
  · rw [hr, hh]; exact c.expects
  · rw [hr]; exact fun f hf w h => c.taken f hf w (mem.1 h).1

/-- What a delivery of the vote v may do to the mend list. -/
structure Settles (v : Vote) (old new : List MendEntry) : Prop where
  keys : (new.map MendEntry.key).Nodup
  others : ∀ k, k ≠ v.key → ((∃ e ∈ new, e.key = k ∧ e.state = .rechecking) ↔
    ∃ e ∈ old, e.key = k ∧ e.state = .rechecking)
  own : ∀ e ∈ new, e.key = v.key → e.state ≠ .rechecking
  from' : ∀ e ∈ new, (∃ x ∈ old, x.key = e.key) ∨ e.key = v.key

theorem Settles.remove {v : Vote} {old : List MendEntry} (h : (old.map MendEntry.key).Nodup) :
    Settles v old (old.filter fun e => e.key ≠ v.key) := by
  refine ⟨nodup_of_sublist_map h List.filter_sublist, ?_, ?_, fun e he => Or.inl ⟨e, (List.mem_filter.1 he).1, rfl⟩⟩
  · intro k hk
    constructor
    · rintro ⟨e, h1, h2⟩; exact ⟨e, (List.mem_filter.1 h1).1, h2⟩
    · rintro ⟨e, h1, h2⟩
      exact ⟨e, List.mem_filter.2 ⟨h1, decide_eq_true (by rw [h2.1]; exact hk)⟩, h2⟩
  · intro e he hk
    exact absurd hk (of_decide_eq_true (List.mem_filter.1 he).2)

theorem Settles.change {v : Vote} {old : List MendEntry} (h : (old.map MendEntry.key).Nodup) {f : MendEntry → MendEntry}
    (hf : ∀ e, e.key = v.key → (f e).key = e.key) (hs : ∀ e, (f e).state ≠ .rechecking) :
    Settles v old (old.map fun e => if e.key = v.key then f e else e) := by
  have keys : (old.map fun e => if e.key = v.key then f e else e).map MendEntry.key = old.map MendEntry.key := by
    rw [List.map_map]
    refine List.map_congr_left fun e _ => ?_
    show (if e.key = v.key then f e else e).key = e.key
    split
    · rename_i ek; exact hf e ek
    · rfl
  refine ⟨keys ▸ h, ?_, ?_, ?_⟩
  · intro k hk
    constructor
    · rintro ⟨e, h1, h2, h3⟩
      obtain ⟨x, hx, rfl⟩ := List.mem_map.1 h1
      by_cases e : x.key = v.key
      · rw [if_pos e] at h3; exact absurd h3 (hs x)
      · rw [if_neg e] at h2 h3; exact ⟨x, hx, h2, h3⟩
    · rintro ⟨e, h1, h2, h3⟩
      exact ⟨e, List.mem_map.2 ⟨e, h1, if_neg (by rw [h2]; exact hk)⟩, h2, h3⟩
  · intro e he hk
    obtain ⟨x, hx, rfl⟩ := List.mem_map.1 he
    by_cases e : x.key = v.key
    · rw [if_pos e]; exact hs x
    · rw [if_neg e] at hk; exact absurd hk e
  · intro e he
    obtain ⟨x, hx, rfl⟩ := List.mem_map.1 he
    refine Or.inl ⟨x, hx, ?_⟩
    split
    · rename_i ek; exact (hf x ek).symm
    · rfl

theorem Settles.same {v : Vote} {old : List MendEntry} (h : (old.map MendEntry.key).Nodup)
    (ho : ∀ e ∈ old, e.key = v.key → e.state ≠ .rechecking) : Settles v old old :=
  ⟨h, fun _ _ => Iff.rfl, ho, fun e he => Or.inl ⟨e, he, rfl⟩⟩

theorem State.pushReport_mends (s : State) (r : Report) : (s.pushReport r).mends = s.mends :=
  (s.pushReport_tables r).mends

theorem State.deliverMend_settles {free : Nat → Prop} {s : State} {v x : Vote} (d : Decision) (b : Option (List Nat))
    (c : ConsistentOff free nothing s) (hx : x ∈ s.votes) (ek : x.key = v.key)
    (em : x.origins.mend = v.origins.mend) : Settles v s.mends (s.deliverMend v d b).mends := by
  unfold State.deliverMend
  by_cases hmend : v.origins.mend = true
  · rw [if_pos hmend]
    unfold State.settleMend
    split
    · rename_i hn
      exact Settles.same c.mendKeys fun e he hk => absurd hk (State.mend?_none hn e he)
    · split
      · rw [State.pushReport_mends]; exact Settles.remove c.mendKeys
      split
      · rw [State.pushReport_mends]
        rename_i e he _ _
        exact Settles.change c.mendKeys (f := fun _ => e.fail s.now d b)
          (fun _ h => (State.mend?_mem he).2.trans h.symm) fun _ h => by cases h
      · rw [State.pushReport_mends]; exact Settles.remove c.mendKeys
  · rw [if_neg hmend]
    have ho : ∀ e ∈ s.mends, e.key = v.key → e.state ≠ .rechecking := by
      intro e he hk hr
      obtain ⟨w, h1, h2, h3⟩ := (c.rechecking v.key id).1 ⟨e, he, hk, hr⟩
      rw [eq_of_map_nodup c.keys h1 hx (h2.trans ek.symm), em] at h3
      exact hmend h3
    split
    · unfold State.requestMend
      split
      · exact Settles.same c.mendKeys ho
      · rename_i hn
        rw [not_or] at hn
        have hnone : s.mend? v.key = none := by
          cases e : s.mend? v.key with
          | none => rfl
          | some _ => rw [e] at hn; exact absurd rfl hn.1
        refine ⟨nodup_append_one c.mendKeys (State.mend?_none hnone), ?_, ?_, ?_⟩
        · intro k hk
          constructor
          · rintro ⟨e, h1, h2, h3⟩
            rcases List.mem_append.1 h1 with h1 | h1
            · exact ⟨e, h1, h2, h3⟩
            · rw [List.mem_singleton] at h1; subst h1; cases h3
          · rintro ⟨e, h1, h2⟩; exact ⟨e, List.mem_append_left _ h1, h2⟩
        · intro e he hk
          rcases List.mem_append.1 he with he | he
          · exact ho e he hk
          · rw [List.mem_singleton] at he; subst he; exact nofun
        · intro e he
          rcases List.mem_append.1 he with he | he
          · exact Or.inl ⟨e, he, rfl⟩
          · rw [List.mem_singleton] at he; subst he; exact Or.inr rfl
    · exact Settles.same c.mendKeys ho
    · exact Settles.same c.mendKeys ho

theorem State.countVerdict_tables (s : State) (d : Verdict) (r : Bool) : SameTables s (s.countVerdict d r) := by
  unfold State.countVerdict
  split
  · exact (s.bump_tables _).trans (State.bump_tables _ _)
  · exact s.bump_tables _

theorem State.deliverEvidence_tables (s : State) (v : Vote) (d : Decision) (l : Option Located) :
    SameTables s (s.deliverEvidence v d l) := (s.deliverEvidence_frame v d l).tables (by decide)

theorem State.deliverReport_tables (s : State) (v : Vote) (d : Decision) (f : VoteFlags) (b : Option (List Nat)) :
    SameTables s (s.deliverReport v d f b) := (s.deliverReport_frame v d f b).tables (by decide)

theorem State.deliverWatch_tables (s : State) (v : Vote) (d : Decision) : SameTables s (s.deliverWatch v d) :=
  (s.deliverWatch_frame v d).tables (by decide)

theorem State.deliver_consistent {s : State} {v : Vote} (d : Decision) (l : Option Located)
    (c : ConsistentOff (· = v.id) nothing s) {x : Vote} (hx : x ∈ s.votes) (ex : x.core = v.core)
    (hs : v.state ≠ .reading) : Consistent (s.deliver v d l) := by
  obtain ⟨e1, e2, e3, _, _, _, _, e8, _⟩ := Vote.core_eq ex
  unfold State.deliver
  refine State.walk_consistent (Consistent.of_tables (State.offerHeldSum_tables _ v) ?_)
  have f := s.deliverMarks_frame v d l
  have c1 := ConsistentOff.of_tables (s.countVerdict_tables d.verdict v.flags.refDiffers) c
  have hv1 : x ∈ (s.countVerdict d.verdict v.flags.refDiffers).votes := by
    have e : (s.countVerdict d.verdict v.flags.refDiffers).votes = s.votes :=
      (s.countVerdict_frame d.verdict v.flags.refDiffers) .votes (by cases d.verdict <;> decide)
    rw [e]; exact hx
  have m : (s.deliverMarks v d l).mends =
      ((s.countVerdict d.verdict v.flags.refDiffers).deliverMend v d (l.map Located.badTiles)).mends := by
    unfold State.deliverMarks
    dsimp only
    exact (State.deliverWatch_tables _ v d).mends.trans ((State.deliverReport_tables _ v d _ _).mends.trans
      (State.deliverEvidence_tables _ v d l).mends)
  have k := State.deliverMend_settles d (l.map Located.badTiles) c1 hv1 e2 e8
  rw [← m, (s.countVerdict_tables d.verdict v.flags.refDiffers).mends] at k
  have hvotes : (s.deliverMarks v d l).votes = s.votes := f .votes (by cases d.verdict <;> decide)
  have hroster : (s.deliverMarks v d l).line.roster = s.line.roster := f .roster (by cases d.verdict <;> decide)
  have hstrap : (s.deliverMarks v d l).strap = s.strap := f .strap (by cases d.verdict <;> decide)
  have hreset : (s.deliverMarks v d l).resetLine = s.resetLine := f .resetLine (by cases d.verdict <;> decide)
  refine State.leave_consistent (v := x) (e1 ▸ c) hx (e3 ▸ hs) ?_ ?_ ?_ ?_ ?_ k.keys (e2 ▸ k.others) (e2 ▸ k.own)
    (e2 ▸ k.from')
  · exact f.holdings_eq (by cases d.verdict <;> decide) (by cases d.verdict <;> decide)
  · show (s.deliverMarks v d l).votes.filter _ = _
    rw [hvotes, e1]
  · exact f .nextVote (by cases d.verdict <;> decide)
  · exact f .read (by cases d.verdict <;> decide)
  · intro hr
    show (s.deliverMarks v d l).line.heardOf (s.deliverMarks v d l).strap.station.val = .self
    unfold LineUnit.heardOf
    rw [hroster, hstrap]
    exact c.selfEntry (hreset ▸ hr)

end Sys2Proof.Machine
end

