-- ==== Sys2Proof/Laws/Closing.lean ====
section
/-! SUPPORT. Closure, localisation, the end of a fetch, and the holding list's orders keep the tables together
(Consistent). -/

namespace Sys2Proof.Machine

/-! ### Closure -/

/-- A vote that is changed, but for its number, key, origins and state, and delivered. -/
theorem State.deliver_changed {s : State} {v v1 : Vote} (d : Decision) (l : Option Located)
    (c : Consistent s) (hv : v ∈ s.votes) (hs : v.state ≠ .reading) (e1 : v1.id = v.id) (e2 : v1.key = v.key)
    (e3 : v1.origins.mend = v.origins.mend) (e4 : v1.state = v.state) {t : State}
    (ht : SameTables (s.modifyVote v.id fun _ => v1) t) : Consistent (t.deliver v1 d l) := by
  have k : ConsistentOff (· = v1.id) nothing (s.modifyVote v.id fun _ => v1) :=
    State.change_consistent (c.off nothing nothing) hv e1 e2 e3 (by rw [e4])
      (fun h => absurd e1.symm h) (fun _ _ _ => id) (fun h => absurd h hs)
  have hm : v1 ∈ (s.modifyVote v.id fun _ => v1).votes := (State.mem_change c.ids hv).2 (Or.inl rfl)
  obtain ⟨x, hx, ex⟩ := mem_of_map_eq ht.votes.symm hm
  exact State.deliver_consistent d l (ConsistentOff.of_tables ht k) hx ex (e4 ▸ hs)

theorem State.endUnlocated_consistent {s : State} {v : Vote} (f : VoteFlags → VoteFlags) (c : Consistent s)
    (hv : v ∈ s.votes) (hs : v.state = .localising) : Consistent (s.endUnlocated v f) := by
  unfold State.endUnlocated
  split
  · refine State.deliver_changed _ _ c hv (by rw [hs]; decide) ?_ ?_ ?_ ?_ (SameTables.refl _)
    all_goals rfl
  · exact c

/-- A vote in GATHERING that enters LOCALISING, as what it holds when it closes. -/
theorem State.localise_consistent {s : State} {v : Vote} (r : Bool) (d : Decision) (c : Consistent s) (hv : v ∈ s.votes)
    (hs : v.state = .gathering) : Consistent (s.localise ((v.closed r).enterLocalising s.now d)) := by
  have hr : v.state ≠ .reading := by rw [hs]; decide
  have f := c.fits v hv
  have k : Consistent (s.modifyVote v.id fun _ => (v.closed r).enterLocalising s.now d) := by
    refine (State.change_consistent (free' := nothing) (c.off nothing nothing) hv ?_ ?_ ?_ ?_ (fun _ => ?_)
      (fun _ _ h => h) (fun h => absurd h hr)).on
    · rfl
    · rfl
    · rfl
    · exact ⟨nofun, fun h => absurd h hr⟩
    have hp := f.pending
    rw [hs] at hp
    refine ⟨⟨fun h => absurd (hp.1 h) (by decide), fun h => by rcases h with h | h <;> cases h⟩, ⟨nofun, nofun⟩,
      ⟨fun _ => rfl, fun _ => rfl⟩, ⟨fun _ => rfl, fun _ => rfl⟩, ?_⟩
    intro l hl
    cases hl
    exact List.length_replicate
  unfold State.localise
  dsimp only
  split
  · exact State.endUnlocated_consistent _ k ((State.mem_change c.ids hv).2 (Or.inl rfl)) rfl
  · exact k

theorem State.close_consistent {s : State} {v : Vote} (c : Consistent s) (hv : v ∈ s.votes)
    (hs : v.state = .gathering) : Consistent (s.close v) := by
  have hr : v.state ≠ .reading := by rw [hs]; decide
  have delivered : ∀ (r : Bool) (d : Decision), Consistent
      (State.deliver (State.offerTiles (s.modifyVote v.id fun _ => v.closed r) (v.closed r) d) (v.closed r) d none) :=
    fun r d => State.deliver_changed (v1 := v.closed r) d none c hv hr rfl rfl rfl rfl (State.offerTiles_tables _ _ d)
  unfold State.close
  dsimp only
  split
  all_goals first
    | exact State.localise_consistent _ _ c hv hs
    | exact delivered _ _

theorem State.closureTest_consistent {s : State} (id : Nat) (c : Consistent s) : Consistent (s.closureTest id) := by
  unfold State.closureTest
  split
  · rename_i v hv
    split
    · rename_i h
      exact State.close_consistent c (State.voteById?_mem hv).1 h.1
    · exact c
  · exact c

theorem State.expireVote_consistent {s : State} (id : Nat) (c : Consistent s) : Consistent (s.expireVote id) := by
  unfold State.expireVote
  split
  · rename_i v hv
    split
    · rename_i h
      exact State.close_consistent c (State.voteById?_mem hv).1 h
    · exact c
  · exact c

/-! ### Localisation -/

theorem State.expireLocalisation_consistent {s : State} (id : Nat) (c : Consistent s) :
    Consistent (s.expireLocalisation id) := by
  unfold State.expireLocalisation
  split
  · rename_i v hv
    split
    · rename_i h
      exact State.endUnlocated_consistent _ c (State.voteById?_mem hv).1 h
    · exact c
  · exact c

/-- A vote in LOCALISING takes other localisation fields, with as many places. -/
theorem State.relocate_consistent {s : State} {v : Vote} {l : Localisation} (c : Consistent s) (hv : v ∈ s.votes)
    (hs : v.state = .localising) (hl : l.received.length = v.checks.length) :
    Consistent (s.modifyVote v.id fun _ => { v with localisation := some l }) := by
  have f := c.fits v hv
  refine (State.change_consistent (free' := nothing) (c.off nothing nothing) hv ?_ ?_ ?_ ?_ (fun _ => ?_)
    (fun _ _ h => h) (fun _ => rfl)).on
  · rfl
  · rfl
  · rfl
  · exact Iff.rfl
  exact ⟨f.pending, f.timer, ⟨fun _ => hs, fun _ => rfl⟩, f.decision, fun x hx => by cases hx; exact hl⟩

theorem State.takeChunk_consistent {s : State} {v : Vote} (station : Nat) (x : Word) (n first : Nat)
    (checks : List Word) (c : Consistent s) (hv : v ∈ s.votes) (hs : v.state = .localising) :
    Consistent (s.takeChunk v station x n first checks) := by
  have hr : v.state ≠ .reading := by rw [hs]; decide
  have stored : ∀ l d, v.localisation = some l → Consistent (s.storeChunk v l d station first checks) := by
    intro l d hl
    have len := (c.fits v hv).received l hl
    unfold State.storeChunk
    split
    · exact c
    dsimp only
    split
    · unfold State.verifyReceived
      split
      · refine State.deliver_changed _ _ c hv hr ?_ ?_ ?_ ?_ (SameTables.refl _)
        all_goals rfl
      · exact State.relocate_consistent c hv hs List.length_replicate
    · exact State.relocate_consistent c hv hs ((length_placeChecks _ _ _).trans len)
  unfold State.takeChunk
  split
  · rename_i l d hl _
    dsimp only
    repeat' split
    all_goals first
      | exact stored l d hl
      | exact State.endUnlocated_consistent _ c hv hs
      | exact c
  all_goals exact c

/-! ### The end of a fetch -/

/-- The vote of an ended fetch, as it moves on. -/
def Vote.movedOn (own : OwnStatus) (checks : List Word) (now : Nat) (v : Vote) : Vote :=
  { v with state := .gathering, own := own, checks := checks, timer := some now }

/-- What is done once a fetch of a vote has ended with an own status. -/
theorem State.ownStatusKnown_consistent {s : State} {v : Vote} {f : Fetch} (own : OwnStatus) (checks : List Word)
    (c : Consistent s) (hv : v ∈ s.votes) (hf : f ∈ s.read.fetches) (hk : f.key = v.key) (ho : own ≠ .pending)
    {t : State} (hread : t.read.fetches = (s.freeSlot f.tag).read.fetches)
    (hvotes : (t.modifyVote v.id (Vote.movedOn own checks t.now)).votes.map Vote.core =
      (s.modifyVote v.id (Vote.movedOn own checks t.now)).votes.map Vote.core)
    (hh : t.holdings = s.holdings) (hn : t.nextVote = s.nextVote) (hm : t.mends = s.mends)
    (hr : t.line.roster = s.line.roster) (hp : t.strap = s.strap) (hl : t.resetLine = s.resetLine) :
    Consistent (t.ownStatusKnown v.id own checks) := by
  obtain ⟨w, hw1, hw2, hw3⟩ := (c.reading v.key).1 ⟨f, hf, hk⟩
  have hs : v.state = .reading := by rw [← eq_of_map_nodup c.keys hw1 hv hw2]; exact hw3
  have fit := c.fits v hv
  have none1 : v.localisation = none := by
    cases e : v.localisation with
    | none => rfl
    | some l => exact absurd (fit.localisation.1 (by rw [e]; rfl)) (by rw [hs]; decide)
  have none2 : v.decision = none := by
    cases e : v.decision with
    | none => rfl
    | some l => exact absurd (fit.decision.1 (by rw [e]; rfl)) (by rw [hs]; decide)
  have k : Consistent ((s.freeSlot f.tag).modifyVote v.id (Vote.movedOn own checks t.now)) := by
    refine State.finish_consistent c hv hf hk rfl rfl rfl nofun ?_
    refine ⟨⟨fun h => absurd h ho, fun h => by rcases h with h | h <;> cases h⟩, ⟨fun _ => rfl, fun _ => rfl⟩, ?_, ?_, ?_⟩
    · show v.localisation.isSome = true ↔ _
      rw [none1]; exact ⟨nofun, nofun⟩
    · show v.decision.isSome = true ↔ _
      rw [none2]; exact ⟨nofun, nofun⟩
    · intro l e
      rw [show v.localisation = some l from e] at none1
      cases none1
  have k2 : Consistent (t.modifyVote v.id (Vote.movedOn own checks t.now)) := by
    refine Consistent.of_tables (s := (s.freeSlot f.tag).modifyVote v.id (Vote.movedOn own checks t.now))
      ⟨congrArg (List.map Holding.given) hh, hvotes, hn, hm, hread, fun h1 h2 => ?_⟩ k
    show t.line.heardOf t.strap.station.val = .self
    have h3 := h1 (hl.symm.trans h2)
    unfold LineUnit.heardOf
    rw [hr, hp]
    exact h3
  have k3 := Consistent.of_tables (State.offerOwnSum_tables _ v.id) (State.issue_consistent (k2.off nothing nothing)).on
  unfold State.ownStatusKnown
  dsimp only
  split
  · exact State.expireVote_consistent _ k3
  · exact State.closureTest_consistent _ k3

theorem State.endUnreadable_consistent {s : State} {f : Fetch} (r : Reason) (cancel : Bool) (c : Consistent s)
    (hf : f ∈ s.read.fetches) : Consistent (s.endUnreadable f r cancel) := by
  obtain ⟨v, hv, hk, _⟩ := (c.reading f.key).1 ⟨f, hf, rfl⟩
  unfold State.endUnreadable
  dsimp only
  cases cancel
  · rw [if_neg (by decide)]
    have hq : (s.freeSlot f.tag).vote? f.key = some v := hk ▸ State.vote?_of_mem c.keys hv
    rw [hq]
    exact State.ownStatusKnown_consistent (.unreadable r) [] c hv hf hk.symm (fun h => nomatch h) rfl rfl rfl rfl rfl rfl
      rfl rfl
  · rw [if_pos rfl]
    have hq : ((s.freeSlot f.tag).pushRequest (.cancel f.tag f.key)).vote? f.key = some v :=
      hk ▸ State.vote?_of_mem c.keys hv
    rw [hq]
    exact State.ownStatusKnown_consistent (.unreadable r) [] c hv hf hk.symm (fun h => nomatch h) rfl rfl rfl rfl rfl rfl
      rfl rfl

theorem State.expireFetch_consistent {s : State} (tag : Byte) (c : Consistent s) : Consistent (s.expireFetch tag) := by
  unfold State.expireFetch
  split
  · rename_i f hf
    exact State.endUnreadable_consistent _ _ (c.of_tables (s.bump_tables _)) (ReadEngine.slot?_mem hf).1
  · exact c

theorem State.expireFetches_consistent : ∀ (n : Nat) {s : State}, Consistent s → Consistent (State.expireFetches n s)
  | 0, _, c => c
  | n + 1, s, c => by
    unfold State.expireFetches
    split
    · exact State.expireFetches_consistent n (State.expireFetch_consistent _ c)
    · exact c

theorem State.expireIssued_consistent {s : State} (c : Consistent s) : Consistent s.expireIssued := by
  unfold State.expireIssued
  split
  · exact State.expireFetches_consistent _ c
  · exact c

theorem State.sweepOn_consistent {s : State} (c : Consistent s) : Consistent s.sweepOn :=
  State.expireIssued_consistent (State.walk_consistent c)

theorem State.arbitrate_tables (s : State) : SameTables s s.arbitrate := s.arbitrate_frame.tables (by decide)

theorem State.finish_keeps_consistent {s : State} (c : Consistent s) : Consistent s.finish :=
  (State.expireIssued_consistent c).of_tables (State.arbitrate_tables _)

/-- A good tile that is not the last: its check joins those of its vote, and the slot expects the next tile. -/
theorem State.nextTile_consistent {s : State} {v : Vote} {f : Fetch} (b : BlockRecord) (c : Consistent s)
    (hv : v ∈ s.votes) (hf : f ∈ s.read.fetches) (hk : f.key = v.key)
    (hn : ∀ h ∈ s.holdings, h.reel = f.key.reel → f.next + 1 < h.tiles) :
    Consistent ((s.modifyVote v.id fun v => v.takeTile b).nextTile f.tag) := by
  have hs := (c.off nothing nothing).reads hv hf hk
  have fit := c.fits v hv
  have hread : ((s.modifyVote v.id fun v => v.takeTile b).nextTile f.tag).read.fetches =
      s.read.fetches.map fun g => if g.tag = f.tag then { g with next := g.next + 1 } else g := rfl
  have same : ∀ w ∈ s.votes, w.id = v.id → w = v := fun w h e => eq_of_map_nodup c.ids h hv e
  have mem : ∀ {w}, w ∈ ((s.modifyVote v.id fun v => v.takeTile b).nextTile f.tag).votes ↔
      w = v.takeTile b ∨ (w ∈ s.votes ∧ w.id ≠ v.id) := State.mem_change c.ids hv
  have memf : ∀ {x}, x ∈ ((s.modifyVote v.id fun v => v.takeTile b).nextTile f.tag).read.fetches →
      (x = { f with next := f.next + 1 }) ∨ (x ∈ s.read.fetches ∧ x.key ≠ f.key) := by
    intro x hx
    rw [hread] at hx
    obtain ⟨g, hg, rfl⟩ := List.mem_map.1 hx
    by_cases e : g.tag = f.tag
    · rw [if_pos e, eq_of_map_nodup c.tags hg hf e]; exact Or.inl rfl
    · rw [if_neg e]
      exact Or.inr ⟨hg, fun ek => e (by rw [eq_of_map_nodup c.fetchKeys hg hf ek])⟩
  have keys : ∀ {β : Type} (p : Fetch → β), (∀ g : Fetch, p { g with next := g.next + 1 } = p g) →
      ((s.modifyVote v.id fun v => v.takeTile b).nextTile f.tag).read.fetches.map p = s.read.fetches.map p := by
    intro β p hp
    rw [hread, List.map_map]
    refine List.map_congr_left fun g _ => ?_
    show p (if g.tag = f.tag then { g with next := g.next + 1 } else g) = p g
    split
    · exact hp g
    · rfl
  refine ⟨c.reels, ?_, ?_, ?_, ?_, c.mendKeys, ?_, ?_, ?_, ?_, ?_, c.mendsHeld, c.selfEntry, c.tiles, ?_, ?_⟩
  · show ((s.modifyVote v.id fun v => v.takeTile b).votes.map Vote.key).Nodup
    rw [s.modifyVote_map v.id (fun v => v.takeTile b) Vote.key fun _ _ _ => rfl]; exact c.keys
  · show ((s.modifyVote v.id fun v => v.takeTile b).votes.map Vote.id).Nodup
    rw [s.modifyVote_map v.id (fun v => v.takeTile b) Vote.id fun _ _ _ => rfl]; exact c.ids
  · intro w h
    rcases mem.1 h with rfl | h
    · exact c.idsBelow v hv
    · exact c.idsBelow w h.1
  · intro w h
    rcases mem.1 h with rfl | h
    · refine ⟨fit.pending, fit.timer, fit.localisation, fit.decision, fun l hl => ?_⟩
      exact absurd (fit.localisation.1 (by rw [show v.localisation = some l from hl]; rfl)) (by rw [hs]; decide)
    · exact c.fits w h.1
  · rw [keys Fetch.tag fun _ => rfl]; exact c.tags
  · rw [keys Fetch.key fun _ => rfl]; exact c.fetchKeys
  · intro k
    have ek := keys Fetch.key fun _ => rfl
    constructor
    · rintro ⟨x, hx, e⟩
      obtain ⟨g, hg, eg⟩ := mem_of_map_eq ek hx
      obtain ⟨w, h1, h2, h3⟩ := (c.reading k).1 ⟨g, hg, eg.trans e⟩
      by_cases ei : w.id = v.id
      · have := same w h1 ei
        subst this
        exact ⟨_, mem.2 (Or.inl rfl), h2, h3⟩
      · exact ⟨w, mem.2 (Or.inr ⟨h1, ei⟩), h2, h3⟩
    · rintro ⟨w, h1, h2, h3⟩
      have back : ∃ g ∈ s.read.fetches, g.key = k := by
        rcases mem.1 h1 with rfl | h1
        · exact (c.reading k).2 ⟨v, hv, h2, h3⟩
        · exact (c.reading k).2 ⟨w, h1.1, h2, h3⟩
      obtain ⟨g, hg, eg⟩ := back
      obtain ⟨x, hx, ex⟩ := mem_of_map_eq ek.symm hg
      exact ⟨x, hx, ex.trans eg⟩
  · intro k
    show (∃ e ∈ s.mends, e.key = k ∧ e.state = .rechecking) ↔ _
    rw [c.rechecking k]
    constructor
    · rintro ⟨w, h1, h2, h3⟩
      by_cases ei : w.id = v.id
      · have := same w h1 ei
        subst this
        exact ⟨_, mem.2 (Or.inl rfl), h2, h3⟩
      · exact ⟨w, mem.2 (Or.inr ⟨h1, ei⟩), h2, h3⟩
    · rintro ⟨w, h1, h2, h3⟩
      rcases mem.1 h1 with rfl | h1
      · exact ⟨v, hv, h2, h3⟩
      · exact ⟨w, h1.1, h2, h3⟩
  · intro w h
    rcases mem.1 h with rfl | h
    · exact c.votesHeld v hv
    · exact c.votesHeld w h.1
  · intro x hx h hh e
    rcases memf hx with rfl | hx
    · exact hn h hh e
    · exact c.expects x hx.1 h hh e
  · intro x hx w h e
    rcases memf hx with rfl | hx
    · rcases mem.1 h with rfl | h
      · show (v.checks ++ [tileCheck b.tile]).length = f.next + 1
        rw [List.length_append, c.taken f hf v hv hk.symm]
        rfl
      · exact absurd (congrArg Vote.id (eq_of_map_nodup c.keys h.1 hv (e.trans hk))) h.2
    · rcases mem.1 h with rfl | h
      · exact absurd (e.symm.trans hk.symm) hx.2
      · exact c.taken x hx.1 w h.1 e

/-- The record of a vote's reel is that of the list. -/
theorem Consistent.holdingOf_eq {s : State} (c : Consistent s) {h : Holding} (hh : h ∈ s.holdings) :
    s.holdingOf h.reel = h := by
  unfold State.holdingOf State.holding?
  rw [find_of_map_nodup c.reels hh]
  rfl

/-- The tile a BUSY slot expects is one of its frame. -/
theorem Consistent.expects_of {s : State} (c : Consistent s) {f : Fetch} (hf : f ∈ s.read.fetches) :
    s.holdingOf f.key.reel ∈ s.holdings ∧ f.next < (s.holdingOf f.key.reel).tiles := by
  obtain ⟨v, hv, hk, _⟩ := (c.reading f.key).1 ⟨f, hf, rfl⟩
  obtain ⟨h, hh, hr, _⟩ := c.votesHeld v hv
  rw [hk] at hr
  rw [← hr, c.holdingOf_eq hh]
  exact ⟨hh, c.expects f hf h hh hr⟩

theorem State.takeGood_consistent {s : State} {f : Fetch} (b : BlockRecord) (c : Consistent s)
    (hf : f ∈ s.read.fetches) : Consistent (s.takeGood f b (s.holdingOf f.key.reel).tiles) := by
  obtain ⟨v, hv, hk, hs⟩ := (c.reading f.key).1 ⟨f, hf, rfl⟩
  unfold State.takeGood
  have hq : s.vote? f.key = some v := hk ▸ State.vote?_of_mem c.keys hv
  rw [hq]
  dsimp only
  split
  · refine State.ownStatusKnown_consistent (.readOk (frameSummary (v.takeTile b).checks)) (v.takeTile b).checks c hv hf
      hk.symm (fun h => nomatch h) rfl ?_ rfl rfl rfl rfl rfl rfl
    show ((s.votes.map fun w => if w.id = v.id then w.takeTile b else w).map fun w =>
      if w.id = v.id then Vote.movedOn _ _ _ w else w).map Vote.core = (s.votes.map fun w =>
      if w.id = v.id then Vote.movedOn _ _ _ w else w).map Vote.core
    rw [List.map_map, List.map_map, List.map_map]
    refine List.map_congr_left fun w _ => ?_
    by_cases e : w.id = v.id
    · simp only [Function.comp, if_pos e]
      rw [if_pos (show (w.takeTile b).id = v.id from e)]
      rfl
    · simp only [Function.comp, if_neg e]
  · rename_i last
    obtain ⟨hh, hlt⟩ := c.expects_of hf
    refine State.nextTile_consistent b c hv hf hk.symm fun h hm hr => ?_
    rw [← hr, c.holdingOf_eq hm] at last hlt
    omega

theorem State.takeBlockRecord_consistent {s : State} (b : BlockRecord) (c : Consistent s) :
    Consistent (s.takeBlockRecord b) := by
  have c1 : Consistent (s.setGovernor (s.governor.takeDepth b.depth)) :=
    c.of_tables ((s.takeDepth_frame b.depth).tables (by decide))
  unfold State.takeBlockRecord
  dsimp only
  split
  · exact c1.of_tables (State.bump_tables _ _)
  · rename_i f hf
    have hm := (ReadEngine.slot?_mem hf).1
    split
    · exact c1.of_tables (State.bump_tables _ _)
    split
    · exact State.endUnreadable_consistent _ _ c1 hm
    · exact State.takeGood_consistent b c1 hm

/-! ### Orders to the vote table and the mend list -/

theorem Consistent.held {s : State} {r frame : Nat} {h : Holding} (e : s.holding? r = some h) (hf : frame < h.frames) :
    ∃ x ∈ s.holdings, x.reel = r ∧ frame < x.frames :=
  ⟨h, (State.holding?_mem e).1, (State.holding?_mem e).2, hf⟩

theorem State.verifyKey_consistent {s : State} (k : Key) (c : Consistent s) : Consistent (s.verifyKey k).state := by
  unfold State.verifyKey
  split
  · exact c
  · rename_i h hh
    split
    · exact c
    · rename_i hf
      split
      · exact State.expireIssued_consistent (State.issueIfWaiting_consistent _ ((c.of_tables
          (State.modifyVote_tables s _ Vote.mergeOrder fun _ => rfl)).off nothing nothing)).on
      · rename_i hn
        split
        · exact c
        · exact State.expireIssued_consistent
            (State.openCalling_fresh c (by decide) (State.vote?_none hn) (Consistent.held hh (Nat.lt_of_not_le hf)))

theorem State.recheck_mends {s : State} {k k' : Key} :
    (∃ e ∈ (s.recheck k).mends, e.key = k' ∧ e.state = .rechecking) ↔
      (k' = k ∧ ∃ e ∈ s.mends, e.key = k) ∨ (k' ≠ k ∧ ∃ e ∈ s.mends, e.key = k' ∧ e.state = .rechecking) := by
  show (∃ e ∈ s.mends.map fun e => if e.key = k then { e with state := .rechecking } else e, _) ↔ _
  constructor
  · rintro ⟨e, he, h1, h2⟩
    obtain ⟨x, hx, rfl⟩ := List.mem_map.1 he
    by_cases e : x.key = k
    · rw [if_pos e] at h1
      exact Or.inl ⟨h1.symm.trans e, x, hx, e⟩
    · rw [if_neg e] at h1 h2
      exact Or.inr ⟨by rw [← h1]; exact e, x, hx, h1, h2⟩
  · rintro (⟨rfl, e, he, h⟩ | ⟨hne, e, he, h1, h2⟩)
    · refine ⟨{ e with state := .rechecking }, List.mem_map.2 ⟨e, he, if_pos h⟩, h, rfl⟩
    · exact ⟨e, List.mem_map.2 ⟨e, he, if_neg (by rw [h1]; exact hne)⟩, h1, h2⟩

theorem State.recheck_off {s : State} (k : Key) (c : Consistent s) : ConsistentOff nothing (· = k) (s.recheck k) := by
  have keys : (s.recheck k).mends.map MendEntry.key = s.mends.map MendEntry.key := by
    show (s.mends.map fun e => if e.key = k then { e with state := .rechecking } else e).map MendEntry.key = _
    rw [List.map_map]
    refine List.map_congr_left fun e _ => ?_
    show (if e.key = k then { e with state := .rechecking } else e).key = e.key
    split <;> rfl
  refine ⟨c.reels, c.keys, c.ids, c.idsBelow, fun v hv _ => c.fits v hv, keys ▸ c.mendKeys, c.tags, c.fetchKeys,
    c.reading, ?_, c.votesHeld, ?_, c.selfEntry, c.tiles, c.expects, c.taken⟩
  · intro k' hk
    rw [State.recheck_mends]
    constructor
    · rintro (h | h)
      · exact absurd h.1 hk
      · exact (c.rechecking k').1 h.2
    · intro h; exact Or.inr ⟨hk, (c.rechecking k').2 h⟩
  · intro e he
    obtain ⟨x, hx, ex⟩ := mem_of_map_eq keys he
    rw [← ex]
    exact c.mendsHeld x hx

theorem State.rewritten_consistent {s : State} (k : Key) (c : Consistent s) : Consistent (s.rewritten k).state := by
  unfold State.rewritten
  split
  · rename_i start he
    obtain ⟨e, he, _⟩ := Option.map_eq_some_iff.1 he
    obtain ⟨hm, hk⟩ := State.mend?_mem he
    subst hk
    have c1 := State.recheck_off e.key c
    split
    · rename_i v hv
      obtain ⟨hv, hk⟩ := State.vote?_mem hv
      have hv1 : v ∈ (s.recheck e.key).votes := hv
      refine State.expireIssued_consistent (State.issueIfWaiting_consistent _ ?_).on
      have f := c1.fits v hv1 id
      have mem : ∀ {w}, w ∈ ((s.recheck e.key).modifyVote v.id Vote.mergeMend).votes ↔
          w = v.mergeMend ∨ (w ∈ s.votes ∧ w.id ≠ v.id) := State.mem_change (s := s.recheck e.key) c.ids hv
      refine ⟨c1.reels, ?_, ?_, ?_, ?_, c1.mendKeys, c1.tags, c1.fetchKeys, ?_, ?_, ?_, c1.mendsHeld, c1.selfEntry,
        c1.tiles, c1.expects, ?_⟩
      · rw [State.modifyVote_map _ v.id Vote.mergeMend Vote.key fun _ _ _ => rfl]; exact c1.keys
      · rw [State.modifyVote_map _ v.id Vote.mergeMend Vote.id fun _ _ _ => rfl]; exact c1.ids
      · intro w h
        rcases mem.1 h with rfl | h
        · exact c.idsBelow v hv
        · exact c.idsBelow w h.1
      · intro w h _
        rcases mem.1 h with rfl | h
        · exact ⟨f.pending, f.timer, f.localisation, f.decision, f.received⟩
        · exact c.fits w h.1
      · intro k
        show (∃ f ∈ s.read.fetches, f.key = k) ↔ _
        rw [c.reading k]
        constructor
        · rintro ⟨w, h1, h2, h3⟩
          by_cases ei : w.id = v.id
          · rw [eq_of_map_nodup c.ids h1 hv ei] at h2 h3
            exact ⟨_, mem.2 (Or.inl rfl), h2, h3⟩
          · exact ⟨w, mem.2 (Or.inr ⟨h1, ei⟩), h2, h3⟩
        · rintro ⟨w, h1, h2, h3⟩
          rcases mem.1 h1 with rfl | h1
          · exact ⟨v, hv, h2, h3⟩
          · exact ⟨w, h1.1, h2, h3⟩
      · intro k _
        show (∃ x ∈ (s.recheck e.key).mends, x.key = k ∧ x.state = .rechecking) ↔ _
        rw [State.recheck_mends]
        constructor
        · rintro (⟨rfl, _⟩ | ⟨hne, h⟩)
          · exact ⟨_, mem.2 (Or.inl rfl), hk, rfl⟩
          · obtain ⟨w, h1, h2, h3⟩ := (c.rechecking k).1 h
            refine ⟨w, mem.2 (Or.inr ⟨h1, fun ei => hne ?_⟩), h2, h3⟩
            rw [← h2, eq_of_map_nodup c.ids h1 hv ei]; exact hk
        · rintro ⟨w, h1, h2, h3⟩
          rcases mem.1 h1 with rfl | h1
          · exact Or.inl ⟨h2.symm.trans hk, e, hm, rfl⟩
          · refine Or.inr ⟨fun ek => h1.2 ?_, (c.rechecking k).2 ⟨w, h1.1, h2, h3⟩⟩
            rw [eq_of_map_nodup c.keys h1.1 hv (h2.trans (ek.trans hk.symm))]
      · intro w h
        rcases mem.1 h with rfl | h
        · exact c.votesHeld v hv
        · exact c.votesHeld w h.1
      · intro x hx w h e
        rcases mem.1 h with rfl | h
        · exact c.taken x hx v hv e
        · exact c.taken x hx w h.1 e
    · rename_i hn
      split
      · exact c
      · refine State.expireIssued_consistent (State.openCalling_consistent (loose' := nothing) c1
          (State.vote?_none hn) (c.mendsHeld e hm)
          (fun k' _ => ?_) fun _ => ?_).on
        · by_cases ek : k' = e.key
          · exact Or.inr ek
          · exact Or.inl ek
        · rw [State.recheck_mends]
          exact ⟨fun _ => rfl, fun _ => Or.inl ⟨rfl, e, hm, rfl⟩⟩
  all_goals exact c

theorem State.lapse_consistent {s : State} (k : Key) (c : Consistent s) : Consistent (s.lapse k) := by
  unfold State.lapse
  split
  · rename_i e he
    obtain ⟨hm, hk⟩ := State.mend?_mem he
    split
    · rename_i start hst
      refine Consistent.of_tables (State.pushReport_tables _ _) ?_
      have mem : ∀ {x}, x ∈ (s.removeMend k).mends ↔ x ∈ s.mends ∧ x.key ≠ k := by
        intro x
        show x ∈ s.mends.filter _ ↔ _
        rw [List.mem_filter, decide_eq_true_eq]
      refine ⟨c.reels, c.keys, c.ids, c.idsBelow, c.fits, nodup_of_sublist_map c.mendKeys List.filter_sublist, c.tags,
        c.fetchKeys, c.reading, ?_, c.votesHeld, fun x hx => c.mendsHeld x (mem.1 hx).1, c.selfEntry, c.tiles, c.expects,
        c.taken⟩
      intro k'
      show _ ↔ ∃ v ∈ s.votes, v.key = k' ∧ v.origins.mend = true
      rw [← c.rechecking k']
      constructor
      · rintro ⟨x, hx, h⟩; exact ⟨x, (mem.1 hx).1, h⟩
      · rintro ⟨x, hx, h1, h2⟩
        refine ⟨x, mem.2 ⟨hx, fun ek => ?_⟩, h1, h2⟩
        rw [eq_of_map_nodup c.mendKeys hx hm (ek.trans hk.symm), hst] at h2
        cases h2
    · exact c
  · exact c

end Sys2Proof.Machine
end

