-- ==== Sys2Proof/Laws/Taking.lean ====
section
/-! SUPPORT. The effects of the commands keep the capacities and ranges of Bounded. -/

namespace Sys2Proof.Machine

/-! ### Orders and data records -/

theorem Bounded.reply {a : Answered} (k : Byte) (h : Bounded a.state) : Bounded (State.reply k a) := h.setPort h.reports
theorem Bounded.takeOrder {s : State} (h : Bounded s) (k : Byte) (f : Bool) (act : State → Answered)
   (ha : Bounded (act s).state) : Bounded (s.takeOrder k f act) := by
  unfold State.takeOrder
  split
  · exact Bounded.reply k ha
  · exact Bounded.reply (a := s.refuse .malformed) k h
theorem Bounded.arrive {s : State} (h : Bounded s) (i : Instr) (t : State → State) (ht : Bounded (t s)) : Bounded (s.arrive i t) := by
  unfold State.arrive
  split
  · exact ht.arbitrate
  · exact h.setPort h.reports

theorem Bounded.loadHolding {s : State} (h : Bounded s) (x : Holding) : Bounded (s.loadHolding x).state := by
  unfold State.loadHolding
  split
  · exact h
  split
  · exact h
  split
  · split
    · exact h
    · refine Bounded.sweepOn ?_
      unfold State.replaceHolding
      dsimp only
      have b : Bounded (s.setHoldings (s.holdings.map fun old => if old.reel = x.reel then x else old)) :=
        { h with holdings := by show (List.map _ _).length ≤ 512; rw [List.length_map]; exact h.holdings
                 cursor := by show _ ≤ (List.map _ _).length; rw [List.length_map]; exact h.cursor }
      split
      · next c =>
        refine b.moveCursor _ _ ?_
        have hlt : s.sweep.cursorPos < s.holdings.length := by
          have hc : s.sweep.cursorPos = _ := c.1
          rw [hc]
          unfold State.positionOf
          apply List.findIdx_lt_length_of_exists
          next hh e _ =>
          exact ⟨hh, List.mem_of_find?_eq_some e, by have := List.find?_some e; simpa using this⟩
        show s.sweep.cursorPos + 1 ≤ (List.map _ _).length
        rw [List.length_map]; exact hlt
      · exact b
  · split
    · exact h
    · next room =>
      refine Bounded.sweepOn ?_
      have : ¬ 512 ≤ s.holdings.length := room
      exact { h with
        holdings := by show (s.holdings ++ [x]).length ≤ 512; rw [List.length_append]; show s.holdings.length + 1 ≤ 512; omega
        cursor := by show _ ≤ (s.holdings ++ [x]).length; rw [List.length_append]; exact Nat.le_trans h.cursor (Nat.le_add_right _ _) }

theorem Bounded.abandonById {s : State} (h : Bounded s) (id : Nat) : Bounded (s.abandonById id) := by
  unfold State.abandonById
  split
  · unfold State.abandon
    refine Bounded.bump (Bounded.pushReport ?_ _) _
    unfold State.offerNotHeld
    next v _ =>
    have b : Bounded ((s.cancelFetch v.key).removeVote v.id) := by
      refine Bounded.removeVote ?_ _
      unfold State.cancelFetch
      split
      · exact (h.freeSlot _).pushRequest _
      · exact h
    split
    · exact b
    · exact b.offerNew _ _
  · exact h


theorem State.cancelFetch_frame (s : State) (k : Key) : SameBut [.read, .requests] s (s.cancelFetch k) := by
  unfold State.cancelFetch
  split
  · exact (s.freeSlot_frame _).comp (State.pushRequest_frame _ _) (by decide) (by decide)
  · exact SameBut.refl _ s

theorem State.offerNotHeld_frame (s : State) (v : Vote) : SameBut offerParts s (s.offerNotHeld v) := by
  unfold State.offerNotHeld
  split
  · exact SameBut.refl _ s
  · exact s.offer_frame _

theorem State.abandonById_frame (s : State) (id : Nat) :
    SameBut abandonParts s (s.abandonById id) := by
  unfold State.abandonById State.abandon
  split
  · exact (((((s.cancelFetch_frame _).mono (by decide)).trans ((State.removeVote_frame _ _).mono (by decide))).trans
      ((State.offerNotHeld_frame _ _).mono (by decide))).trans ((State.pushReport_frame _ _).mono (by decide))).trans
      ((State.bump_frame _ _).mono (by decide))
  · exact SameBut.refl _ s

theorem State.abandonReel_frame (s : State) (reel : Nat) :
    SameBut abandonParts s (s.abandonReel reel) :=
  SameBut.foldl State.abandonById_frame _ s

theorem State.dropMends_frame (s : State) (reel : Nat) : SameBut [.mends, .reports, .counter .reportsLost] s (s.dropMends reel) :=
  SameBut.foldl (fun s _ => (s.setMends_frame _).comp (State.pushReport_frame _ _) (by decide) (by decide)) _ s

/-- A held reel has a position in the list. -/
theorem State.positionOf_lt {s : State} {reel : Nat} {h : Holding} (e : s.holding? reel = some h) :
    s.positionOf reel < s.holdings.length :=
  List.findIdx_lt_length_of_exists ⟨h, List.mem_of_find?_eq_some e, by simpa using List.find?_some e⟩

theorem Bounded.removeHolding {s : State} (h : Bounded s) {reel : Nat} (hp : s.positionOf reel < s.holdings.length) :
    Bounded (s.removeHolding reel) := by
  have len : (s.holdings.eraseIdx (s.positionOf reel)).length = s.holdings.length - 1 := List.length_eraseIdx_of_lt hp
  have hl := h.holdings
  have hc := h.cursor
  have base : ∀ w : Sweep, w.InRange → w.cursorPos ≤ s.holdings.length - 1 →
      Bounded ((s.setHoldings (s.holdings.eraseIdx (s.positionOf reel))).setSweep w) := fun w hw hwc =>
    { h with
      holdings := by show (List.eraseIdx _ _).length ≤ 512; rw [len]; omega
      cursor := by show _ ≤ (List.eraseIdx _ _).length; rw [len]; exact hwc
      sweep := hw }
  unfold State.removeHolding
  dsimp only
  split
  · next e =>
    refine Bounded.moveCursor (s := s.setHoldings (s.holdings.eraseIdx (s.positionOf reel))) (base s.sweep h.sweep (by omega)) _ _ ?_
    show _ ≤ (List.eraseIdx _ _).length
    omega
  split
  · next hlt => exact base { s.sweep with cursorPos := s.sweep.cursorPos - 1 } { h.sweep with } (by show s.sweep.cursorPos - 1 ≤ _; omega)
  · exact base s.sweep h.sweep (by omega)


theorem Bounded.dropHolding {s : State} (h : Bounded s) (reel : Nat) : Bounded (s.dropHolding reel).state := by
  unfold State.dropHolding
  split
  · exact h
  · next x e =>
    have b : Bounded (((s.abandonReel reel).issue).dropMends reel) :=
      Bounded.foldl (fun h _ => (h.removeMend _).pushReport _) _
        (Bounded.issue (Bounded.foldl (fun h a => h.abandonById a) _ h))
    have held : (((s.abandonReel reel).issue).dropMends reel).holdings = s.holdings :=
      (((s.abandonReel_frame reel).mono (by decide)).trans (((State.issue_frame _).mono (by decide)).trans
        ((State.dropMends_frame _ reel).mono (by decide))) :
        SameBut (.mends :: abandonParts) _ _).holdings_eq (by decide) (by decide)
    refine (Bounded.removeHolding b ?_).sweepOn
    have hp := State.positionOf_lt e
    unfold State.positionOf at hp ⊢
    rw [held]
    exact hp

theorem clampPeriod_range (p : Nat) : 1 ≤ clampPeriod p ∧ clampPeriod p ≤ 16 := by unfold clampPeriod; omega

theorem Bounded.setCadence {s : State} (h : Bounded s) (body : List Byte) : Bounded (s.setCadence body) :=
  h.setSweep
    { h.sweep with
      periodLow := (clampPeriod_range _).1, periodHigh := (clampPeriod_range _).2
      rotation := Nat.mod_lt _ (clampPeriod_range _).1 } h.cursor

theorem Bounded.setBurst {s : State} (h : Bounded s) {n : Nat} (hn : n ≤ 255) : Bounded (s.setBurst n) := by
  have w := h.sweep
  unfold State.setBurst
  dsimp only
  split
  · next c =>
    refine h.setSweep ?_ h.cursor
    exact { w with
      burstLow := by show 1 ≤ max 1 n; omega
      burst := by show max 1 n ≤ 255; omega
      remainder := by show s.sweep.remainder ≤ _; rw [w.gapRuns c.1]; exact Nat.zero_le _
      continuous := fun e => absurd (show max 1 n = 255 from e) (by have := c.2; omega) }
  · refine h.setSweep ?_ h.cursor
    exact { w with
      burstLow := by show 1 ≤ max 1 n; omega
      burst := by show max 1 n ≤ 255; omega
      gapRuns := fun e => nomatch (show (none : Option Timer).isSome = true from e)
      gapStopped := fun _ => by show 1 ≤ max 1 n; omega
      remainder := Nat.le_refl _
      continuous := fun e => e }

theorem Bounded.setSuspended {s : State} (h : Bounded s) (b : Bool) : Bounded (s.setSuspended b) :=
  h.setSweep { h.sweep with } h.cursor

theorem Bounded.endGap {s : State} (h : Bounded s) : Bounded s.endGap :=
  h.setSweep
    { h.sweep with
      gapRuns := fun e => nomatch (show (none : Option Timer).isSome = true from e)
      gapStopped := fun _ => h.sweep.burstLow
      remainder := Nat.le_refl _
      continuous := fun e => e } h.cursor

theorem Bounded.verifyKey {s : State} (h : Bounded s) (k : Key) : Bounded (s.verifyKey k).state := by
  unfold State.verifyKey
  split
  · exact h
  split
  · exact h
  split
  · exact ((h.modifyVote _ fun _ r => r.other).issueIfWaiting _).expireIssued
  split
  · exact h
  · next room => exact (h.openCalling _ _ (Nat.lt_of_not_le room)).expireIssued

theorem Bounded.recheck {s : State} (h : Bounded s) (k : Key) : Bounded (s.recheck k) :=
  h.modifyMend _ fun _ e => e

theorem Bounded.rewritten {s : State} (h : Bounded s) (k : Key) : Bounded (s.rewritten k).state := by
  unfold State.rewritten
  split
  · split
    · exact (((h.recheck k).modifyVote _ fun _ r => r.other).issueIfWaiting _).expireIssued
    split
    · exact h
    · next room => exact (Bounded.openCalling (h.recheck k) _ _ (Nat.lt_of_not_le room)).expireIssued
  all_goals exact h

theorem slotsOf_cons (e : EvidenceEntry) (es : List EvidenceEntry) : slotsOf (e :: es) = e.slots + slotsOf es := rfl

theorem Bounded.takeOldest {s : State} (h : Bounded s) : Bounded s.takeOldest.state := by
  unfold State.takeOldest
  split
  · exact h
  · next e rest eq =>
    refine h.setEvidence ?_ ?_
    · have := h.evidence
      rw [eq] at this
      exact Nat.le_of_succ_le this
    · have := h.slots
      show slotsOf rest ≤ 2048
      unfold Evidence.slotsInUse at this
      rw [eq, slotsOf_cons] at this
      omega

theorem Governor.paced_inRange (g : Governor) (m : PaceMode) (body : List Byte) :
    (g.paced m body).InRange := by
  have h1 := field_lt body 1 2
  have h3 := field_lt body 3 2
  have h5 := field_lt body 5 1
  have h6 := field_lt body 6 1
  refine { gapLow := ?_, gapHigh := Governor.clamp_high _ _, limits := ?_, target := ?_, band := ?_, average := ?_
           settle := Nat.zero_le _, adaptive := fun _ => rfl }
  · show field body 1 2 ≤ min (max _ (field body 1 2)) (max (field body 1 2) (field body 3 2))
    omega
  · show max (field body 1 2) (field body 3 2) ≤ 65535
    omega
  · show field body 5 1 ≤ 255
    omega
  · show field body 6 1 ≤ 255
    omega
  · show 16 * field body 5 1 ≤ 4080
    omega

theorem Bounded.pace {s : State} (h : Bounded s) (body : List Byte) : Bounded (s.pace body).state := by
  unfold State.pace
  split
  · exact h.setGovernor (s.governor.paced_inRange _ _)
  · exact h

theorem Governor.InRange.settled {g : Governor} (h : g.InRange) : g.settled.InRange := by
  unfold Governor.settled
  split
  · next e => exact { h with settle := Nat.le_refl _, adaptive := fun x => by have x : g.mode = .adaptive := x; rw [e] at x; cases x }
  · exact h

theorem timingSettings_inRange (body : List Byte) : (timingSettings body).InRange := by
  have h8 := field_lt body 8 2
  exact
    { vote := Nat.min_le_left _ _, fetch := Nat.min_le_left _ _, localisation := Nat.min_le_left _ _
      silence := Nat.min_le_left _ _, patienceLow := Nat.le_max_left _ _
      patienceHigh := by show max 1 (field body 8 2) ≤ 65535; omega }

theorem Bounded.setTiming {s : State} (h : Bounded s) {t : TimerSettings} (ht : t.InRange) :
    Bounded (s.setTiming t) :=
  Bounded.foldl (fun h a => h.lapse a) _ (Bounded.foldl (fun h a => h.expireSilence a) _
    (Bounded.foldl (fun h a => h.expireLocalisation a) _ (Bounded.foldl (fun h a => h.expireFetch a) _
      (Bounded.foldl (fun h a => h.expireVote a) _ (h.setTimers ht)))))

theorem clampRising_range (n : Nat) : 1 ≤ clampRising n ∧ clampRising n ≤ 256 := by
  unfold clampRising Config.historyBits; omega

theorem Bounded.setWatching {s : State} (h : Bounded s) (r f : Nat) (e : Bool) : Bounded (s.setWatching r f e) := by
  have tested : Bounded ((s.setWatch { s.watch with
      rising := clampRising r, falling := clampFalling (clampRising r) f, reportEnable := e }).alarmTest none) :=
    Bounded.alarmTest (s := s.setWatch { s.watch with
        rising := clampRising r, falling := clampFalling (clampRising r) f, reportEnable := e })
      (h.setWatch Watch.reset_inRange) h.watch.history
      (by have := clampRising_range r; show min (clampRising r - 1) f < clampRising r; omega) (clampRising_range r).2 none
  unfold State.setWatching
  dsimp only
  split
  · exact tested.pushReport _
  · exact tested

theorem Counters.count_reset (c : Counter) : Counters.reset.get c.place = 0 := by cases c <;> rfl

theorem Bounded.clearCounters {s : State} (h : Bounded s) : Bounded s.clearCounters := by
  have keep : ∀ c, s.clearCounters.count c ≤ 4294967295 := fun c => by
    show Counters.reset.get c.place ≤ _
    rw [Counters.count_reset]; exact Nat.zero_le _
  exact { h with counters := keep }

theorem Bounded.selectView {s : State} (h : Bounded s) (n : Nat) : Bounded (s.selectView n).state := by
  unfold State.selectView
  split
  · exact h.setPort h.reports
  · exact h

theorem Bounded.peek {s : State} (h : Bounded s) : Bounded s.peek.state := by
  unfold State.peek
  split
  · exact h.setPort h.reports
  · exact h.setPort h.reports

/-- A tile check is taken while the vote holds fewer than 255. -/
theorem Vote.InRange.takeTile {v : Vote} (h : v.InRange) (b : BlockRecord) (few : v.checks.length < 255) :
    (v.takeTile b).InRange :=
  ⟨h.answers, by show (v.checks ++ [_]).length ≤ 255; rw [List.length_append]; exact few, h.received⟩

theorem Bounded.takeGood {s : State} (h : Bounded s) {f : Fetch} (b : BlockRecord) (n : Nat)
    (few : ∀ v ∈ s.votes, v.key = f.key → v.checks.length < 255) (ids : (s.votes.map Vote.id).Nodup) :
    Bounded (s.takeGood f b n) := by
  unfold State.takeGood
  split
  · next v e =>
    obtain ⟨hv, hk⟩ := State.vote?_mem e
    have mine := few v hv hk
    have taken : Bounded (s.modifyVote v.id fun v => v.takeTile b) := by
      refine h.setVotes (by rw [List.length_map]; exact h.votes) fun w hw => ?_
      obtain ⟨x, hx, rfl⟩ := List.mem_map.1 hw
      split
      · next e =>
        rw [eq_of_map_nodup ids hx hv e]
        exact (h.ranges v hv).takeTile b mine
      · exact h.ranges x hx
    dsimp only
    split
    · exact Bounded.ownStatusKnown (taken.freeSlot _) _ _ ((h.ranges v hv).takeTile b mine).checks
    · exact taken.setRead (by show (List.map _ _).length ≤ 4; rw [List.length_map]; exact h.fetches)
  · exact h

theorem readBlock_depth {body : List Byte} {b : BlockRecord} (e : readBlock body = some b) : b.depth ≤ 255 := by
  have := field_lt body 2 1
  unfold readBlock at e
  repeat' split at e
  all_goals cases e
  all_goals (show field body 2 1 ≤ 255; omega)

theorem Bounded.takeBlock {s : State} (h : Bounded s) (c : Consistent s) (body : List Byte) :
    Bounded (Machine.takeBlock body s) := by
  unfold Machine.takeBlock
  split
  · next b e =>
    have base := h.setGovernor (h.governor.takeDepth (readBlock_depth e))
    have c1 : Consistent (s.setGovernor (s.governor.takeDepth b.depth)) :=
      c.of_tables ((s.takeDepth_frame b.depth).tables (by decide))
    unfold State.takeBlockRecord
    refine Bounded.expireIssued ?_
    dsimp only
    repeat' split
    · exact base.bump _
    · exact base.bump _
    · exact base.endUnreadable _ _ _
    · next f hf _ _ =>
      have hm := (ReadEngine.slot?_mem hf).1
      refine base.takeGood _ _ (fun v hv hk => ?_) c1.ids
      have := (c1.tiles _ (c1.expects_of hm).1).2
      have := (c1.expects_of hm).2
      rw [c1.taken f hm v hv hk]
      omega
  · exact h

theorem Bounded.takeFetchFailed {s : State} (h : Bounded s) (body : List Byte) : Bounded (Machine.takeFetchFailed body s) := by
  unfold Machine.takeFetchFailed
  repeat' split
  · exact (h.endUnreadable _ _ _).expireIssued
  · exact h.bump _
  · exact h

/-- A vote has room for the answer of a ninth station only when fewer than 8 are recorded (R96). -/
theorem Vote.InRange.record {v : Vote} (h : v.InRange) (a : Answer)
    (room : v.answered a.station = false → v.answers.length < 8) : (v.record a).InRange := by
  refine ⟨?_, h.checks, h.received⟩
  show (if _ then _ else _ : List Answer).length ≤ 8
  split
  · rw [List.length_map]; exact h.answers
  · next new => rw [List.length_append]; exact room (Bool.eq_false_iff.mpr new)

theorem Bounded.takeSum {s : State} (h : Bounded s) (k : Key) (a : Answer) : Bounded (s.takeSum k a) := by
  unfold State.takeSum
  split
  · exact h.bump _
  · next v e =>
    split
    · exact h.bump _
    split
    · exact h.bump _
    · next room =>
      have r1 := (h.vote? e).record a fun new => Nat.lt_of_not_le fun full => room ⟨new, full⟩
      exact (h.modifyVote _ fun _ _ => r1).closureTest _

/-- A vote that a CALL has merged into stays in range. -/
theorem Vote.InRange.mergeCall {v : Vote} (h : v.InRange) (caller : Nat) : (v.mergeCall caller).InRange := by
  unfold Vote.mergeCall
  split <;> exact h.other

theorem Bounded.takeCall {s : State} (h : Bounded s) (c : Nat) (k : Key) (l : List Nat) : Bounded (s.takeCall c k l) := by
  unfold State.takeCall
  split
  · exact ((h.modifyVote _ fun _ r => r.mergeCall c).issueIfWaiting _).offerOwnSum _
  split
  · split
    · next room => exact h.openPeer _ _ room
    · exact (h.bump _).offerNew _ _
  split
  · exact h.offerNew _ _
  · exact h

theorem Bounded.takeTiles {s : State} (h : Bounded s) (t : Nat) (k : Key) (x : Word) (n f : Nat) (cs : List Word) :
    Bounded (s.takeTiles t k x n f cs) := by
  unfold State.takeTiles
  repeat' split
  · next e _ => exact h.takeChunk (h.vote? e) _ _ _ _ _
  · exact h.bump _
  · exact h.bump _

theorem Bounded.takePresent {s : State} (h : Bounded s) (t : Nat) (m : PresenceMode) (n : Nat) : Bounded (s.takePresent t m n) := by
  unfold State.takePresent
  dsimp only
  split
  · exact (h.modifyRoster _ _).offerBeacon
  · exact h.modifyRoster _ _

theorem Bounded.hear {s : State} (h : Bounded s) (t : Nat) : Bounded (s.hear t) := by
  unfold State.hear
  dsimp only
  split
  · exact (h.modifyRoster _ _).pushReport _
  · exact h.modifyRoster _ _

theorem Bounded.enterMute {s : State} (h : Bounded s) : Bounded s.enterMute := by
  unfold State.enterMute
  split
  · exact h
  · have emptied := h.setLine (x := { s.line with state := .mute, queue := [], beacon := none }) .nil h.listen
    exact ((Bounded.foldl (fun h m => Bounded.clearCall h m) _ emptied).bumpBy _ _).pushReport _

theorem Bounded.takeFrame {s : State} (h : Bounded s) (t : Nat) (b : LineBody) : Bounded (s.takeFrame t b) := by
  unfold State.takeFrame
  dsimp only
  split
  · exact (h.bump _).enterMute
  · have base := (h.bump .lineReceived).hear t
    refine Bounded.silenceHeard ?_ t
    cases b
    · exact base.takeSum _ _
    · exact base.takeCall _ _ _
    · exact base.takeTiles _ _ _ _ _ _
    · exact base.takePresent _ _ _

theorem Bounded.takeChecked {s : State} (h : Bounded s) (k t : Byte) (body : List Byte) : Bounded (s.takeChecked k t body) := by
  unfold State.takeChecked
  split
  · exact h.takeFrame _ _
  · exact h.bump _

theorem Bounded.heard {s : State} (h : Bounded s) {act : State → State} (ha : ∀ t, Bounded t → Bounded (act t)) :
    Bounded (s.heard act) := by
  have q : Bounded s.endActivity := h.setLine h.queue h.listen
  unfold State.heard
  repeat' split
  · exact q
  · exact h
  · exact (ha _ q).finish

theorem Bounded.takeCandidate {s : State} (h : Bounded s) (j : Bool) (bs : List Byte) : Bounded (s.takeCandidate j bs) := by
  unfold State.takeCandidate
  repeat' split
  · exact h
  · exact h.takeChecked _ _ _
  · exact h.bump _

theorem Bounded.startBeacon {s : State} (h : Bounded s) : Bounded s.startBeacon :=
  h.setLine h.queue h.listen

theorem Bounded.frameSent {s : State} (h : Bounded s) (m : Message) {rest : List Message} (hr : QueueInRange rest) :
    Bounded (s.frameSent m rest) :=
  (((h.setLine (x := { s.line with
    queue := rest, quietCount := 0, activity := .quiet, state := s.line.state.afterSent m }) hr h.listen).bump
    _).startBeacon).messageLeft _

theorem Bounded.takeLoadHolding {s : State} (h : Bounded s) (body : List Byte) :
    Bounded (Machine.takeLoadHolding body s) := by
  unfold Machine.takeLoadHolding
  exact h.takeOrder _ _ _ (h.loadHolding _)

theorem Bounded.takeDropHolding {s : State} (h : Bounded s) (body : List Byte) :
    Bounded (Machine.takeDropHolding body s) := by
  unfold Machine.takeDropHolding
  exact h.takeOrder _ _ _ (h.dropHolding _)

theorem Bounded.takeCadence {s : State} (h : Bounded s) (body : List Byte) :
    Bounded (Machine.takeCadence body s) := by
  unfold Machine.takeCadence
  exact h.takeOrder _ _ _ ((h.setCadence _).sweepOn)

theorem Bounded.takeBurst {s : State} (h : Bounded s) (body : List Byte) :
    Bounded (Machine.takeBurst body s) := by
  unfold Machine.takeBurst
  exact h.takeOrder _ _ _ ((h.setBurst (by have := field_lt body 0 1; omega)).sweepOn)

theorem Bounded.takeSuspend {s : State} (h : Bounded s) (body : List Byte) :
    Bounded (Machine.takeSuspend body s) := by
  unfold Machine.takeSuspend
  exact h.takeOrder _ _ _ (h.setSuspended _)

theorem Bounded.takeResume {s : State} (h : Bounded s) (body : List Byte) :
    Bounded (Machine.takeResume body s) := by
  unfold Machine.takeResume
  exact h.takeOrder _ _ _ ((h.setSuspended _).sweepOn)

theorem Bounded.takeVerify {s : State} (h : Bounded s) (body : List Byte) :
    Bounded (Machine.takeVerify body s) := by
  unfold Machine.takeVerify
  exact h.takeOrder _ _ _ (h.verifyKey _)

theorem Bounded.takeRewritten {s : State} (h : Bounded s) (body : List Byte) :
    Bounded (Machine.takeRewritten body s) := by
  unfold Machine.takeRewritten
  exact h.takeOrder _ _ _ (h.rewritten _)

theorem Bounded.takeTakeEvidence {s : State} (h : Bounded s) (body : List Byte) :
    Bounded (Machine.takeTakeEvidence body s) := by
  unfold Machine.takeTakeEvidence
  exact h.takeOrder _ _ _ (h.takeOldest)

theorem Bounded.takePace {s : State} (h : Bounded s) (body : List Byte) :
    Bounded (Machine.takePace body s) := by
  unfold Machine.takePace
  exact h.takeOrder _ _ _ (h.pace _)

theorem Bounded.takeSettle {s : State} (h : Bounded s) (body : List Byte) :
    Bounded (Machine.takeSettle body s) := by
  unfold Machine.takeSettle
  exact h.takeOrder _ _ _ (h.setGovernor h.governor.settled)

theorem Bounded.takeTiming {s : State} (h : Bounded s) (body : List Byte) :
    Bounded (Machine.takeTiming body s) := by
  unfold Machine.takeTiming
  exact h.takeOrder _ _ _ (h.setTiming (timingSettings_inRange _)).expireIssued

theorem Bounded.takeWatch {s : State} (h : Bounded s) (body : List Byte) :
    Bounded (Machine.takeWatch body s) := by
  unfold Machine.takeWatch
  exact h.takeOrder _ _ _ (h.setWatching _ _ _)

theorem Bounded.takeClearCounters {s : State} (h : Bounded s) (body : List Byte) :
    Bounded (Machine.takeClearCounters body s) := by
  unfold Machine.takeClearCounters
  exact h.takeOrder _ _ _ (h.clearCounters)

theorem Bounded.takeView {s : State} (h : Bounded s) (body : List Byte) :
    Bounded (Machine.takeView body s) := by
  unfold Machine.takeView
  exact h.takeOrder _ _ _ (h.selectView _)

theorem Bounded.takePeek {s : State} (h : Bounded s) (body : List Byte) :
    Bounded (Machine.takePeek body s) := by
  unfold Machine.takePeek
  exact h.takeOrder _ _ _ (h.peek)

theorem Bounded.takeReset {s : State} (h : Bounded s) (body : List Byte) :
    Bounded (Machine.takeReset body s) := by
  unfold Machine.takeReset
  exact h.takeOrder _ _ _ (h.setPort h.reports)

/-- Whatever record is taken, the bounds stand. -/
theorem Bounded.takeRecord {s : State} (h : Bounded s) (c : Consistent s) (i : Instr) :
    Bounded (Machine.takeRecord i s) := by
  cases i with
  | loadHolding body => exact h.takeLoadHolding body
  | dropHolding body => exact h.takeDropHolding body
  | cadence body => exact h.takeCadence body
  | burst body => exact h.takeBurst body
  | suspend body => exact h.takeSuspend body
  | resume body => exact h.takeResume body
  | verify body => exact h.takeVerify body
  | rewritten body => exact h.takeRewritten body
  | takeEvidence body => exact h.takeTakeEvidence body
  | pace body => exact h.takePace body
  | settle body => exact h.takeSettle body
  | timing body => exact h.takeTiming body
  | watch body => exact h.takeWatch body
  | clearCounters body => exact h.takeClearCounters body
  | view body => exact h.takeView body
  | peek body => exact h.takePeek body
  | reset body => exact h.takeReset body
  | unknownOrder kind body => exact Bounded.reply (a := s.refuse .unknown) kind h
  | block body => exact h.takeBlock c body
  | fetchFailed body => exact h.takeFetchFailed body
  | _ => exact h

theorem Bounded.recordGone {s : State} (h : Bounded s) : Bounded s.recordGone := by
  unfold State.recordGone
  split
  · refine Bounded.sweepOn (h.setPort ?_)
    have := h.reports
    show (s.port.reports.drop 1).length ≤ 64
    rw [List.length_drop]; omega
  all_goals exact h.setPort h.reports

theorem Governor.reset_inRange : Governor.reset.InRange :=
  ⟨by decide, by decide, by decide, by decide, by decide, by decide, by decide, by decide⟩
theorem Sweep.reset_inRange : Sweep.reset.InRange :=
  ⟨by decide, by decide, by decide, by decide, by decide, by decide, by decide, by decide, by decide, by decide, by decide, by decide⟩
theorem TimerSettings.reset_inRange : TimerSettings.reset.InRange :=
  ⟨by decide, by decide, by decide, by decide, by decide, by decide⟩

theorem Bounded.enterReset {s : State} (h : Bounded s) : Bounded s.enterReset :=
  { holdings := Nat.zero_le _, cursor := Nat.le_refl _, fetches := Nat.zero_le _, votes := Nat.zero_le _
    ranges := fun v hv => nomatch show v ∈ ([] : List Vote) from hv
    mends := Nat.zero_le _, attempts := fun e he => nomatch show e ∈ ([] : List MendEntry) from he
    evidence := h.evidence, slots := h.slots, reports := Nat.zero_le _, queue := .nil
    listen := Nat.zero_le _, sweep := Sweep.reset_inRange
    watch := Watch.reset_inRange, governor := Governor.reset_inRange, timers := TimerSettings.reset_inRange, counters := h.counters }

theorem Bounded.begin {s : State} (h : Bounded s) (p : Strap) : Bounded (s.begin p) := by
  unfold State.begin
  exact Bounded.arbitrate { h with }

theorem Bounded.powerReset {s : State} (h : Bounded s) : Bounded s.powerReset := by
  have keep : ∀ c, s.powerReset.count c ≤ 4294967295 := fun c => by
    show Counters.reset.get c.place ≤ _
    rw [Counters.count_reset]; exact Nat.zero_le _
  exact { h.enterReset with evidence := Nat.zero_le _, slots := Nat.zero_le _, counters := keep }

end Sys2Proof.Machine
end

