-- ==== Sys2Proof/Laws/Orders.lean ====
section
/-! SUPPORT. The frames of the orders: which parts of the state the owner of each order leaves as they are. -/

namespace Sys2Proof.Machine

theorem State.replaceHolding_frame (s : State) (h : Holding) : SameBut (.holdings :: walkParts) s (s.replaceHolding h) := by
  unfold State.replaceHolding
  dsimp only
  split
  · exact (s.setHoldings_frame _).comp (State.moveCursor_frame _ _ _) (by decide) (by decide)
  · exact (s.setHoldings_frame _).mono (by decide)

theorem State.loadHolding_frame (s : State) (h : Holding) :
    SameBut (.holdings :: expiryParts) s (s.loadHolding h).state := by
  unfold State.loadHolding
  split
  · exact SameBut.refl _ s
  split
  · exact SameBut.refl _ s
  split
  · split
    · exact SameBut.refl _ s
    · exact (s.replaceHolding_frame h).comp (State.sweepOn_frame _) (by decide) (by decide)
  · split
    · exact SameBut.refl _ s
    · exact (s.setHoldings_frame _).comp (State.sweepOn_frame _) (by decide) (by decide)

theorem State.removeHolding_frame (s : State) (reel : Nat) :
    SameBut (.holdings :: walkParts) s (s.removeHolding reel) := by
  unfold State.removeHolding
  dsimp only
  split
  · exact (s.setHoldings_frame _).comp (State.moveCursor_frame _ _ _) (by decide) (by decide)
  split
  · exact (s.setHoldings_frame _).comp (State.setRun_frame _ _) (by decide) (by decide)
  · exact (s.setHoldings_frame _).mono (by decide)

theorem State.dropHolding_frame (s : State) (reel : Nat) :
    SameBut (.holdings :: expiryParts) s (s.dropHolding reel).state := by
  unfold State.dropHolding
  split
  · exact SameBut.refl _ s
  · exact (((((s.abandonReel_frame reel).mono (by decide)).trans ((State.issue_frame _).mono (by decide))).trans
      ((State.dropMends_frame _ reel).mono (by decide))).trans
      ((State.removeHolding_frame _ reel).mono (by decide))).trans ((State.sweepOn_frame _).mono (by decide))

theorem State.setCadence_frame (s : State) (body : List Byte) :
    SameBut [.cadence, .sweepRun] s (s.setCadence body) := by
  intro p hp
  cases p <;> first
    | (simp only [Part.same]; and_intros <;> rfl) | exact absurd (by decide) hp

theorem State.setBurst_frame (s : State) (n : Nat) : SameBut [.cadence, .sweepRun] s (s.setBurst n) := by
  unfold State.setBurst
  dsimp only
  split
  all_goals
    intro p hp
    cases p <;> first
      | (simp only [Part.same]; and_intros <;> rfl) | exact absurd (by decide) hp

theorem State.setSuspended_frame (s : State) (b : Bool) : SameBut [.suspendFlag] s (s.setSuspended b) := by
  intro p hp
  cases p <;> first
    | (simp only [Part.same]; and_intros <;> rfl) | exact absurd (by decide) hp

theorem State.endGap_frame (s : State) : SameBut [.sweepRun] s s.endGap := s.setRun_frame _

theorem State.verifyKey_frame (s : State) (k : Key) : SameBut expiryParts s (s.verifyKey k).state := by
  unfold State.verifyKey
  repeat' split
  · exact SameBut.refl _ s
  · exact SameBut.refl _ s
  · exact ((s.modifyVote_frame _ _).comp (State.issueIfWaiting_frame _ _) (by decide) (by decide)).trans
      (State.expireIssued_frame _)
  · exact SameBut.refl _ s
  · exact ((s.openCalling_frame _ _).mono (by decide)).trans (State.expireIssued_frame _)

theorem State.rewritten_frame (s : State) (k : Key) : SameBut expiryParts s (s.rewritten k).state := by
  have moved : SameBut [.mends] s (s.recheck k) := s.setMends_frame _
  unfold State.rewritten
  split
  · split
    · exact (((moved.mono (by decide)).trans ((State.modifyVote_frame _ _ _).mono (by decide))).trans
        ((State.issueIfWaiting_frame _ _).mono (by decide))).trans (State.expireIssued_frame _)
    split
    · exact SameBut.refl _ s
    · exact ((moved.mono (by decide)).trans ((State.openCalling_frame _ _ _).mono (by decide))).trans
        (State.expireIssued_frame _)
  all_goals exact SameBut.refl _ s

theorem State.takeOldest_frame (s : State) : SameBut [.evidence] s s.takeOldest.state := by
  unfold State.takeOldest
  split
  · exact SameBut.refl _ s
  · exact s.setEvidence_frame _

theorem State.setGovernor_frame (s : State) (g : Governor) :
    SameBut [.paceSettings, .paceGap, .depthAverage] s (s.setGovernor g) := by
  intro p hp
  cases p <;> first
    | (simp only [Part.same]; and_intros <;> rfl) | exact absurd (by decide) hp

theorem State.pace_frame (s : State) (body : List Byte) :
    SameBut [.paceSettings, .paceGap, .depthAverage] s (s.pace body).state := by
  unfold State.pace
  split
  · exact s.setGovernor_frame _
  · exact SameBut.refl _ s

theorem State.settled_frame (s : State) : SameBut [.paceGap] s (s.setGovernor s.governor.settled) := by
  unfold Governor.settled
  split
  · exact s.setGap_frame _ _
  · exact SameBut.refl _ s

theorem State.lapse_frame (s : State) (k : Key) : SameBut (.mends :: reportParts) s (s.lapse k) := by
  unfold State.lapse
  repeat' split
  · exact (s.setMends_frame _).comp (State.pushReport_frame _ _) (by decide) (by decide)
  all_goals exact SameBut.refl _ s

theorem State.setTiming_frame (s : State) (t : TimerSettings) :
    SameBut (.timers :: .roster :: expiryParts) s (s.setTiming t) :=
  ((((((s.setTimers_frame t).mono (by decide)).trans
    ((SameBut.foldl State.expireVote_frame _ _).mono (by decide))).trans
    ((SameBut.foldl State.expireFetch_frame _ _).mono (by decide))).trans
    ((SameBut.foldl State.expireLocalisation_frame _ _).mono (by decide))).trans
    ((SameBut.foldl State.expireSilence_frame _ _).mono (by decide))).trans
    ((SameBut.foldl State.lapse_frame _ _).mono (by decide))

theorem State.setWatching_frame (s : State) (r f : Nat) (e : Bool) :
    SameBut [.watch, .reports, .counter .reportsLost] s (s.setWatching r f e) := by
  unfold State.setWatching
  dsimp only
  split
  · exact (((s.setWatch_frame _).mono (by decide)).trans (State.alarmTest_frame _ _)).trans
      ((State.pushReport_frame _ _).mono (by decide))
  · exact ((s.setWatch_frame _).mono (by decide)).trans (State.alarmTest_frame _ _)

theorem State.selectView_frame (s : State) (n : Nat) : SameBut [.view] s (s.selectView n).state := by
  unfold State.selectView
  split
  · intro p hp
    cases p <;> first
      | (simp only [Part.same]; and_intros <;> rfl) | exact absurd (by decide) hp
  · exact SameBut.refl _ s

theorem State.peek_frame (s : State) : SameBut [.view] s s.peek.state := by
  unfold State.peek
  split
  all_goals
    intro p hp
    cases p <;> first
      | (simp only [Part.same]; and_intros <;> rfl) | exact absurd (by decide) hp

/-- The owner of a fitting order leaves the link as it is. -/
theorem State.answer_stands {s : State} {i : Instr} {ps : List Part} (ho : isOrder i = true) (h : s.ready i = true)
    (a : Answered) (frame : SameBut ps s a.state) (hl : Part.link ∉ ps) (kind : Byte) :
    (a.state.answered kind a.result a.payload).replied kind a.result a.payload :=
  State.replied_after ho h frame hl kind a.result a.payload

end Sys2Proof.Machine
end

