-- ==== Sys2Proof/Laws/PerInstr.lean ====
section
/-! SUPPORT. One lemma for each command of the family Recorded: a command that is a shelf record is the command its kind
and body stand for, and its body fits the length field. -/

namespace Sys2Proof.Laws.Recorded

/-- A well-formed command that is a record of a kind and body is what that kind and body stand for. -/
def Statement (i : Instr) : Prop :=
  WellFormed i = true → ∀ kind body, toRecord i = some (kind, body) →
    ofRecord kind body = i ∧ body.length ≤ maxRecordBody

theorem loadHolding (body : List Byte) : Statement (.loadHolding body) := by
  intro h _ _ e
  cases e
  exact ⟨rfl, of_decide_eq_true h⟩

theorem dropHolding (body : List Byte) : Statement (.dropHolding body) := by
  intro h _ _ e
  cases e
  exact ⟨rfl, of_decide_eq_true h⟩

theorem cadence (body : List Byte) : Statement (.cadence body) := by
  intro h _ _ e
  cases e
  exact ⟨rfl, of_decide_eq_true h⟩

theorem burst (body : List Byte) : Statement (.burst body) := by
  intro h _ _ e
  cases e
  exact ⟨rfl, of_decide_eq_true h⟩

theorem suspend (body : List Byte) : Statement (.suspend body) := by
  intro h _ _ e
  cases e
  exact ⟨rfl, of_decide_eq_true h⟩

theorem resume (body : List Byte) : Statement (.resume body) := by
  intro h _ _ e
  cases e
  exact ⟨rfl, of_decide_eq_true h⟩

theorem gapTimerExpiry : Statement .gapTimerExpiry := by
  intro _ _ _ e
  cases e

theorem verify (body : List Byte) : Statement (.verify body) := by
  intro h _ _ e
  cases e
  exact ⟨rfl, of_decide_eq_true h⟩

theorem rewritten (body : List Byte) : Statement (.rewritten body) := by
  intro h _ _ e
  cases e
  exact ⟨rfl, of_decide_eq_true h⟩

theorem takeEvidence (body : List Byte) : Statement (.takeEvidence body) := by
  intro h _ _ e
  cases e
  exact ⟨rfl, of_decide_eq_true h⟩

theorem pace (body : List Byte) : Statement (.pace body) := by
  intro h _ _ e
  cases e
  exact ⟨rfl, of_decide_eq_true h⟩

theorem settle (body : List Byte) : Statement (.settle body) := by
  intro h _ _ e
  cases e
  exact ⟨rfl, of_decide_eq_true h⟩

theorem timing (body : List Byte) : Statement (.timing body) := by
  intro h _ _ e
  cases e
  exact ⟨rfl, of_decide_eq_true h⟩

theorem watch (body : List Byte) : Statement (.watch body) := by
  intro h _ _ e
  cases e
  exact ⟨rfl, of_decide_eq_true h⟩

theorem clearCounters (body : List Byte) : Statement (.clearCounters body) := by
  intro h _ _ e
  cases e
  exact ⟨rfl, of_decide_eq_true h⟩

theorem view (body : List Byte) : Statement (.view body) := by
  intro h _ _ e
  cases e
  exact ⟨rfl, of_decide_eq_true h⟩

theorem peek (body : List Byte) : Statement (.peek body) := by
  intro h _ _ e
  cases e
  exact ⟨rfl, of_decide_eq_true h⟩

theorem reset (body : List Byte) : Statement (.reset body) := by
  intro h _ _ e
  cases e
  exact ⟨rfl, of_decide_eq_true h⟩

theorem resetOrderEffect (pins : Strap) : Statement (.resetOrderEffect pins) := by
  intro _ _ _ e
  cases e

theorem unknownOrder (kind : Byte) (body : List Byte) : Statement (.unknownOrder kind body) := by
  intro h _ _ e
  cases e
  simp only [WellFormed, Bool.and_eq_true, Bool.not_eq_true', decide_eq_true_eq] at h
  refine ⟨?_, h.2⟩
  have hk := h.1
  unfold ofRecord
  split
  case h_20 => rfl
  all_goals
    rename_i e
    have ek : kind = BitVec.ofNat 8 kind.toNat := by simp
    rw [e] at ek
    subst ek
    exact absurd hk (by decide)

theorem block (body : List Byte) : Statement (.block body) := by
  intro h _ _ e
  cases e
  exact ⟨rfl, of_decide_eq_true h⟩

theorem fetchFailed (body : List Byte) : Statement (.fetchFailed body) := by
  intro h _ _ e
  cases e
  exact ⟨rfl, of_decide_eq_true h⟩

theorem fetchTimeout : Statement .fetchTimeout := by
  intro _ _ _ e
  cases e

theorem holdAsserted : Statement .holdAsserted := by
  intro _ _ _ e
  cases e

theorem holdReleased : Statement .holdReleased := by
  intro _ _ _ e
  cases e

theorem sum (source : Byte) (body : List Byte) : Statement (.sum source body) := by
  intro _ _ _ e
  cases e

theorem call (source : Byte) (body : List Byte) : Statement (.call source body) := by
  intro _ _ _ e
  cases e

theorem tiles (source : Byte) (body : List Byte) : Statement (.tiles source body) := by
  intro _ _ _ e
  cases e

theorem present (source : Byte) (body : List Byte) : Statement (.present source body) := by
  intro _ _ _ e
  cases e

theorem candidateFrame (endsInJam : Bool) (bytes : List Byte) : Statement (.candidateFrame endsInJam bytes) := by
  intro _ _ _ e
  cases e

theorem lineFrameStart : Statement .lineFrameStart := by
  intro _ _ _ e
  cases e

theorem lineFrameSent : Statement .lineFrameSent := by
  intro _ _ _ e
  cases e

theorem collision : Statement .collision := by
  intro _ _ _ e
  cases e

theorem enterJoining : Statement .enterJoining := by
  intro _ _ _ e
  cases e

theorem beaconTimerExpiry : Statement .beaconTimerExpiry := by
  intro _ _ _ e
  cases e

theorem silenceExpiry : Statement .silenceExpiry := by
  intro _ _ _ e
  cases e

theorem voteTimerExpiry : Statement .voteTimerExpiry := by
  intro _ _ _ e
  cases e

theorem localisationTimeout : Statement .localisationTimeout := by
  intro _ _ _ e
  cases e

theorem mendPatienceExpiry : Statement .mendPatienceExpiry := by
  intro _ _ _ e
  cases e

theorem recordSent : Statement .recordSent := by
  intro _ _ _ e
  cases e

theorem powerOn (pins : Strap) : Statement (.powerOn pins) := by
  intro _ _ _ e
  cases e

theorem resetLineAsserted : Statement .resetLineAsserted := by
  intro _ _ _ e
  cases e

theorem resetLineReleased (pins : Strap) : Statement (.resetLineReleased pins) := by
  intro _ _ _ e
  cases e

theorem lineActivityBegins : Statement .lineActivityBegins := by
  intro _ _ _ e
  cases e

theorem recordCutShort : Statement .recordCutShort := by
  intro _ _ _ e
  cases e

end Sys2Proof.Laws.Recorded
end

