-- ==== Sys2Proof/Laws/Steady.lean ====
section
/-! SUPPORT. The holding list's orders, the roster, TIMING and the resets keep the tables together (Consistent). -/

namespace Sys2Proof.Machine

/-! ### Dropping a reel -/

/-- The tables while a reel is dropped: the mend entries of the reel need not match a vote. -/
abbrev OffReel (reel : Nat) : State → Prop := ConsistentOff nothing fun k => k.reel = reel

theorem State.cancelFetch_abandon {s : State} {reel : Nat} {v : Vote} (c : OffReel reel s) (hv : v ∈ s.votes)
    (hr : v.key.reel = reel) : OffReel reel ((s.cancelFetch v.key).removeVote v.id) := by
  have base : ∀ {t : State}, t.holdings = s.holdings → t.votes = s.votes → t.nextVote = s.nextVote →
      t.mends = s.mends → t.read.fetches = s.read.fetches.filter (fun f => f.key ≠ v.key) →
      t.line.roster = s.line.roster → t.strap = s.strap → t.resetLine = s.resetLine →
      OffReel reel (t.removeVote v.id) := by
    intro t h1 h2 h3 h4 h5 h6 h7 h8
    have mem : ∀ {w}, w ∈ (t.removeVote v.id).votes ↔ w ∈ s.votes ∧ w.id ≠ v.id := by
      intro w
      show w ∈ t.votes.filter _ ↔ _
      rw [h2, List.mem_filter, decide_eq_true_eq]
    have subv : (t.removeVote v.id).votes.Sublist s.votes := by
      show (t.votes.filter _).Sublist s.votes
      rw [h2]; exact List.filter_sublist
    have subf : (t.removeVote v.id).read.fetches.Sublist s.read.fetches := by
      show t.read.fetches.Sublist s.read.fetches
      rw [h5]; exact List.filter_sublist
    have memf : ∀ {f}, f ∈ (t.removeVote v.id).read.fetches ↔ f ∈ s.read.fetches ∧ f.key ≠ v.key := by
      intro f
      show f ∈ t.read.fetches ↔ _
      rw [h5, List.mem_filter, decide_eq_true_eq]
    refine ⟨?_, nodup_of_sublist_map c.keys subv, nodup_of_sublist_map c.ids subv, ?_, ?_, ?_,
      nodup_of_sublist_map c.tags subf, nodup_of_sublist_map c.fetchKeys subf, ?_, ?_, ?_, ?_, ?_, h1 ▸ c.tiles, ?_, ?_⟩
    · show (t.holdings.map _).Nodup; rw [h1]; exact c.reels
    · intro w h; show w.id < t.nextVote; rw [h3]; exact c.idsBelow w (mem.1 h).1
    · intro w h; exact c.fits w (mem.1 h).1
    · show (t.mends.map _).Nodup; rw [h4]; exact c.mendKeys
    · intro k
      constructor
      · rintro ⟨f, hf, hk⟩
        obtain ⟨hf, hne⟩ := memf.1 hf
        obtain ⟨w, e1, e2, e3⟩ := (c.reading k).1 ⟨f, hf, hk⟩
        refine ⟨w, mem.2 ⟨e1, fun e => hne ?_⟩, e2, e3⟩
        rw [hk, ← e2, eq_of_map_nodup c.ids e1 hv e]
      · rintro ⟨w, e1, e2, e3⟩
        obtain ⟨e1, hne⟩ := mem.1 e1
        obtain ⟨f, hf, hk⟩ := (c.reading k).2 ⟨w, e1, e2, e3⟩
        refine ⟨f, memf.2 ⟨hf, fun e => hne ?_⟩, hk⟩
        rw [eq_of_map_nodup c.keys e1 hv (e2.trans (hk.symm.trans e))]
    · intro k hk
      show (∃ e ∈ t.mends, e.key = k ∧ e.state = .rechecking) ↔ _
      rw [h4, c.rechecking k hk]
      constructor
      · rintro ⟨w, e1, e2, e3⟩
        refine ⟨w, mem.2 ⟨e1, fun e => hk ?_⟩, e2, e3⟩
        rw [← e2, eq_of_map_nodup c.ids e1 hv e]; exact hr
      · rintro ⟨w, e1, e2⟩; exact ⟨w, (mem.1 e1).1, e2⟩
    · intro w h
      show ∃ x ∈ t.holdings, _
      rw [h1]; exact c.votesHeld w (mem.1 h).1
    · intro e he
      show ∃ x ∈ t.holdings, _
      rw [h1]; exact c.mendsHeld e (h4 ▸ he)
    · intro h
      show t.line.heardOf t.strap.station.val = .self
      unfold LineUnit.heardOf
      rw [h6, h7]
      exact c.selfEntry (h8 ▸ h)
    · intro f hf h hh
      exact c.expects f (memf.1 hf).1 h (show h ∈ s.holdings from h1 ▸ hh)
    · intro f hf w h
      exact c.taken f (memf.1 hf).1 w (mem.1 h).1
  unfold State.cancelFetch
  split
  · rename_i f hf
    have hm := List.mem_of_find?_eq_some hf
    have hk : f.key = v.key := by simpa using List.find?_some hf
    refine base (t := (s.freeSlot f.tag).pushRequest (.cancel f.tag f.key)) rfl rfl rfl rfl ?_ rfl rfl rfl
    show s.read.fetches.filter (fun g => g.tag ≠ f.tag) = _
    refine List.filter_congr fun g hg => ?_
    rw [decide_eq_decide]
    constructor
    · intro h e; exact h (congrArg Fetch.tag (eq_of_map_nodup c.fetchKeys hg hm (e.trans hk.symm)))
    · intro h e; exact h (by rw [eq_of_map_nodup c.tags hg hm e]; exact hk)
  · rename_i hf
    refine base rfl rfl rfl rfl ?_ rfl rfl rfl
    refine (List.filter_eq_self.2 fun f hm => ?_).symm
    have := List.find?_eq_none.1 hf f hm
    simpa using this

theorem State.abandon_off {s : State} {reel : Nat} {v : Vote} (c : OffReel reel s) (hv : v ∈ s.votes)
    (hr : v.key.reel = reel) : OffReel reel (s.abandon v) := by
  have k := State.cancelFetch_abandon c hv hr
  unfold State.abandon
  refine ConsistentOff.of_tables (State.bump_tables _ _) (ConsistentOff.of_tables (State.pushReport_tables _ _) ?_)
  unfold State.offerNotHeld
  split
  · exact k
  · exact ConsistentOff.of_tables (State.offer_tables _ _) k

theorem State.abandon_core (s : State) (v : Vote) :
    (s.abandon v).votes.map Vote.core = (s.votes.filter fun w => w.id ≠ v.id).map Vote.core := by
  have e0 : (s.cancelFetch v.key).votes = s.votes := by
    unfold State.cancelFetch
    split <;> rfl
  unfold State.abandon
  rw [(State.bump_tables _ _).votes, (State.pushReport_tables _ _).votes]
  have e1 : ((s.cancelFetch v.key).removeVote v.id).votes = s.votes.filter fun w => w.id ≠ v.id := by
    show (s.cancelFetch v.key).votes.filter _ = _
    rw [e0]
  unfold State.offerNotHeld
  split
  · rw [e1]
  · rw [(State.offer_tables _ _).votes, e1]

/-- The votes of a list of numbers, each of the reel, are abandoned one after another. -/
theorem State.abandonAll_off {reel : Nat} : ∀ (ids : List Nat) {s : State}, OffReel reel s →
    (∀ v ∈ s.votes, v.id ∈ ids → v.key.reel = reel) → OffReel reel (ids.foldl State.abandonById s) ∧
      (∀ w ∈ (ids.foldl State.abandonById s).votes, w.id ∉ ids ∧ ∃ v ∈ s.votes, w.core = v.core)
  | [], _, c, _ => ⟨c, fun w h => ⟨List.not_mem_nil, w, h, rfl⟩⟩
  | i :: ids, s, c, h => by
    rw [List.foldl_cons]
    have step : OffReel reel (s.abandonById i) ∧
        ∀ w ∈ (s.abandonById i).votes, w.id ≠ i ∧ ∃ v ∈ s.votes, w.core = v.core := by
      unfold State.abandonById
      split
      · rename_i v hv
        obtain ⟨hm, hi⟩ := State.voteById?_mem hv
        refine ⟨State.abandon_off c hm (h v hm (hi ▸ List.mem_cons_self)), fun w hw => ?_⟩
        obtain ⟨x, hx, ex⟩ := mem_of_map_eq (s.abandon_core v) hw
        obtain ⟨hx1, hx2⟩ := List.mem_filter.1 hx
        rw [decide_eq_true_eq] at hx2
        exact ⟨by rw [← (Vote.core_eq ex).1, ← hi]; exact hx2, x, hx1, ex.symm⟩
      · rename_i hv
        refine ⟨c, fun w hw => ⟨fun e => ?_, w, hw, rfl⟩⟩
        have := List.find?_eq_none.1 hv w hw
        simp [e] at this
    have rest := State.abandonAll_off ids step.1 fun v hv hi => by
      obtain ⟨_, x, hx, ex⟩ := step.2 v hv
      obtain ⟨e1, e2, _⟩ := Vote.core_eq ex
      rw [e2]
      exact h x hx (List.mem_cons_of_mem _ (e1 ▸ hi))
    refine ⟨rest.1, fun w hw => ?_⟩
    obtain ⟨h1, x, hx, ex⟩ := rest.2 w hw
    obtain ⟨h2, y, hy, ey⟩ := step.2 x hx
    refine ⟨?_, y, hy, ex.trans ey⟩
    rw [List.mem_cons, not_or]
    exact ⟨by rw [(Vote.core_eq ex).1]; exact h2, h1⟩

theorem State.abandonReel_off {s : State} (reel : Nat) (c : Consistent s) :
    OffReel reel (s.abandonReel reel) ∧ ∀ w ∈ (s.abandonReel reel).votes, w.key.reel ≠ reel := by
  unfold State.abandonReel
  have h : ∀ v ∈ s.votes, v.id ∈ (s.votes.filter fun v => v.key.reel = reel).map Vote.id → v.key.reel = reel := by
    intro v hv hi
    obtain ⟨x, hx, ex⟩ := List.mem_map.1 hi
    obtain ⟨hx1, hx2⟩ := List.mem_filter.1 hx
    rw [← eq_of_map_nodup c.ids hx1 hv ex]
    simpa using hx2
  obtain ⟨k1, k2⟩ := State.abandonAll_off _ (c.off nothing fun k => k.reel = reel) h
  refine ⟨k1, fun w hw e => ?_⟩
  obtain ⟨h1, v, hv, ev⟩ := k2 w hw
  obtain ⟨e1, e2, _⟩ := Vote.core_eq ev
  refine h1 (List.mem_map.2 ⟨v, List.mem_filter.2 ⟨hv, ?_⟩, e1.symm⟩)
  simpa [e2] using e

/-- The arbiter keeps each vote's number and key. -/
theorem State.issueFuel_keys : ∀ (n : Nat) (s : State), (State.issueFuel n s).votes.map Vote.key = s.votes.map Vote.key
  | 0, _ => rfl
  | n + 1, s => by
    unfold State.issueFuel
    split
    · split
      · rw [State.issueFuel_keys n]
        exact s.modifyVote_map _ (fun w => { w with state := .reading, checks := [] }) Vote.key fun _ _ _ => rfl
      · rfl
    · rfl

theorem State.dropMend_mends (s : State) (e : MendEntry) : (s.dropMend e).mends = s.mends.filter fun x => x.key ≠ e.key :=
  State.pushReport_mends _ _

theorem State.dropAll_mends : ∀ (es : List MendEntry) (s : State),
    (es.foldl State.dropMend s).mends = s.mends.filter fun x => x.key ∉ es.map MendEntry.key
  | [], s => (List.filter_eq_self.2 fun _ _ => rfl).symm
  | e :: es, s => by
    rw [List.foldl_cons, State.dropAll_mends es, State.dropMend_mends, List.filter_filter]
    refine List.filter_congr fun x _ => ?_
    simp only [List.map_cons, List.mem_cons, not_or, Bool.decide_and]
    rw [Bool.and_comm]

theorem State.dropMends_mends (s : State) (reel : Nat) :
    (s.dropMends reel).mends = s.mends.filter fun e => e.key.reel ≠ reel := by
  unfold State.dropMends
  rw [State.dropAll_mends]
  refine List.filter_congr fun x hx => ?_
  rw [decide_eq_decide]
  constructor
  · intro h e
    exact h (List.mem_map.2 ⟨x, List.mem_filter.2 ⟨hx, decide_eq_true e⟩, rfl⟩)
  · intro h hm
    obtain ⟨y, hy, ey⟩ := List.mem_map.1 hm
    have := of_decide_eq_true (List.mem_filter.1 hy).2
    rw [ey] at this
    exact h this

theorem State.dropMends_frame' (s : State) (reel : Nat) : SameBut (.mends :: reportParts) s (s.dropMends reel) :=
  SameBut.foldl (fun s e => ((s.setMends_frame _).mono (by decide)).trans ((State.pushReport_frame _ _).mono (by decide)))
    _ s

theorem State.dropMends_consistent {s : State} (reel : Nat) (c : OffReel reel s)
    (hv : ∀ v ∈ s.votes, v.key.reel ≠ reel) : Consistent (s.dropMends reel) := by
  have f := s.dropMends_frame' reel
  have hm := s.dropMends_mends reel
  have hvotes : (s.dropMends reel).votes = s.votes := f .votes (by decide)
  have hread : (s.dropMends reel).read = s.read := f .read (by decide)
  have hh : (s.dropMends reel).holdings = s.holdings := f.holdings_eq (by decide) (by decide)
  have mem : ∀ {x}, x ∈ (s.dropMends reel).mends ↔ x ∈ s.mends ∧ x.key.reel ≠ reel := by
    intro x; rw [hm, List.mem_filter, decide_eq_true_eq]
  refine ⟨hh ▸ c.reels, hvotes ▸ c.keys, hvotes ▸ c.ids, ?_, ?_, ?_, hread ▸ c.tags, hread ▸ c.fetchKeys, ?_, ?_, ?_, ?_,
    ?_, hh ▸ c.tiles, ?_, ?_⟩
  · rw [hvotes, show (s.dropMends reel).nextVote = s.nextVote from f .nextVote (by decide)]; exact c.idsBelow
  · rw [hvotes]; exact fun v h => c.fits v h id
  · rw [hm]; exact nodup_of_sublist_map c.mendKeys List.filter_sublist
  · rw [hread, hvotes]; exact c.reading
  · intro k
    rw [hvotes]
    by_cases e : k.reel = reel
    · constructor
      · rintro ⟨x, h1, h2, _⟩; exact absurd (h2 ▸ e) (mem.1 h1).2
      · rintro ⟨v, h1, h2, _⟩; exact absurd (h2 ▸ e) (hv v h1)
    · rw [← c.rechecking k e]
      constructor
      · rintro ⟨x, h1, h2⟩; exact ⟨x, (mem.1 h1).1, h2⟩
      · rintro ⟨x, h1, h2, h3⟩; exact ⟨x, mem.2 ⟨h1, h2 ▸ e⟩, h2, h3⟩
  · rw [hvotes, hh]; exact c.votesHeld
  · intro e he; rw [hh]; exact c.mendsHeld e (mem.1 he).1
  · intro h
    have e1 : (s.dropMends reel).line.roster = s.line.roster := f .roster (by decide)
    have e2 : (s.dropMends reel).strap = s.strap := f .strap (by decide)
    have e3 : (s.dropMends reel).resetLine = s.resetLine := f .resetLine (by decide)
    unfold LineUnit.heardOf
    rw [e1, e2]
    exact c.selfEntry (e3 ▸ h)
  · rw [hread, hh]; exact c.expects
  · rw [hread, hvotes]; exact c.taken

/-- A list of holding records takes the place of another, with the record of every vote and entry still held. -/
theorem State.setHoldings_consistent {s : State} (hs : List Holding) (c : Consistent s)
    (h1 : (hs.map Holding.reel).Nodup)
    (h2 : ∀ k : Key, (∃ v ∈ s.votes, v.key = k) ∨ (∃ e ∈ s.mends, e.key = k) → ∀ h ∈ s.holdings, h.reel = k.reel →
      h ∈ hs) (h3 : ∀ h ∈ hs, 1 ≤ h.tiles ∧ h.tiles ≤ 255) : Consistent (s.setHoldings hs) := by
  refine ⟨h1, c.keys, c.ids, c.idsBelow, c.fits, c.mendKeys, c.tags, c.fetchKeys, c.reading, c.rechecking, ?_, ?_,
    c.selfEntry, h3, ?_, c.taken⟩
  · intro v hv
    obtain ⟨h, hm, e, hf⟩ := c.votesHeld v hv
    exact ⟨h, h2 v.key (Or.inl ⟨v, hv, rfl⟩) h hm e, e, hf⟩
  · intro x hx
    obtain ⟨h, hm, e, hf⟩ := c.mendsHeld x hx
    exact ⟨h, h2 x.key (Or.inr ⟨x, hx, rfl⟩) h hm e, e, hf⟩
  · intro f hf h hh e
    obtain ⟨v, hv, hk, _⟩ := (c.reading f.key).1 ⟨f, hf, rfl⟩
    obtain ⟨g, hg, er, _⟩ := c.votesHeld v hv
    have hg' := h2 v.key (Or.inl ⟨v, hv, rfl⟩) g hg er
    rw [eq_of_map_nodup h1 hh hg' (by rw [e, er, hk])]
    exact c.expects f hf g hg (by rw [er, hk])

theorem State.removeHolding_consistent {s : State} (reel : Nat) (c : Consistent s)
    (hv : ∀ v ∈ s.votes, v.key.reel ≠ reel) (hm : ∀ e ∈ s.mends, e.key.reel ≠ reel) :
    Consistent (s.removeHolding reel) := by
  have k : Consistent (s.setHoldings (s.holdings.eraseIdx (s.positionOf reel))) := by
    refine State.setHoldings_consistent _ c (nodup_of_sublist_map c.reels (List.eraseIdx_sublist _ _)) ?_
      fun h hh => c.tiles h (List.mem_of_mem_eraseIdx hh)
    intro k hk h hh e
    have ne : h.reel ≠ reel := by
      rw [e]
      rcases hk with ⟨v, h1, h2⟩ | ⟨v, h1, h2⟩
      · exact h2 ▸ hv v h1
      · exact h2 ▸ hm v h1
    rw [List.mem_eraseIdx_iff_getElem?]
    obtain ⟨i, hi⟩ := List.mem_iff_getElem?.1 hh
    refine ⟨i, fun ei => ne ?_, hi⟩
    subst ei
    unfold State.positionOf at hi
    have hl : (s.holdings.findIdx fun h => decide (h.reel = reel)) < s.holdings.length :=
      (List.getElem?_eq_some_iff.1 hi).1
    have := List.findIdx_getElem (w := hl)
    rw [List.getElem?_eq_getElem hl] at hi
    cases hi
    exact of_decide_eq_true this
  unfold State.removeHolding
  dsimp only
  split
  · exact k.of_tables (State.moveCursor_tables _ _ _)
  split
  · exact k.of_tables (State.setRun_tables _ _)
  · exact k

theorem State.dropHolding_consistent {s : State} (reel : Nat) (c : Consistent s) :
    Consistent (s.dropHolding reel).state := by
  unfold State.dropHolding
  split
  · exact c
  · obtain ⟨k1, k2⟩ := State.abandonReel_off reel c
    have k3 : OffReel reel (s.abandonReel reel).issue := State.issue_consistent k1
    have hv : ∀ v ∈ (s.abandonReel reel).issue.votes, v.key.reel ≠ reel := by
      intro v hv
      obtain ⟨w, hw, e⟩ := mem_of_map_eq (State.issueFuel_keys _ (s.abandonReel reel)) hv
      rw [← e]
      exact k2 w hw
    have k4 := State.dropMends_consistent reel k3 hv
    have hvotes : ((s.abandonReel reel).issue.dropMends reel).votes = (s.abandonReel reel).issue.votes :=
      (State.dropMends_frame' _ reel) .votes (by decide)
    refine State.sweepOn_consistent (State.removeHolding_consistent reel k4 (hvotes ▸ hv) fun e he => ?_)
    rw [State.dropMends_mends, List.mem_filter, decide_eq_true_eq] at he
    exact he.2

/-! ### Loading a reel -/

theorem State.loadHolding_consistent {s : State} (h : Holding) (ht : 1 ≤ h.length → 1 ≤ h.tiles) (c : Consistent s) :
    Consistent (s.loadHolding h).state := by
  unfold State.loadHolding
  split
  · exact c
  rename_i range
  split
  · exact c
  rename_i few
  have fits : 1 ≤ h.tiles ∧ h.tiles ≤ 255 := by
    refine ⟨ht ?_, Nat.le_of_not_lt few⟩
    rw [Bool.not_eq_false] at range
    unfold Holding.inRange at range
    simp only [Bool.and_eq_true, decide_eq_true_eq] at range
    exact range.1.1.1.1.1.1.2
  split
  · rename_i x hx
    split
    · exact c
    · rename_i hb
      have hb' : s.isBusy h.reel = false := by
        cases e : s.isBusy h.reel with
        | false => rfl
        | true => exact absurd e hb
      unfold State.isBusy at hb'
      rw [Bool.or_eq_false_iff, List.any_eq_false, List.any_eq_false] at hb'
      refine State.sweepOn_consistent ?_
      have k : Consistent (s.setHoldings (s.holdings.map fun old => if old.reel = h.reel then h else old)) := by
        refine State.setHoldings_consistent _ c ?_ ?_ ?_
        · rw [List.map_map]
          have : s.holdings.map (Holding.reel ∘ fun old => if old.reel = h.reel then h else old) =
              s.holdings.map Holding.reel := by
            refine List.map_congr_left fun g _ => ?_
            show (if g.reel = h.reel then h else g).reel = g.reel
            split
            · rename_i e; exact e.symm
            · rfl
          rw [this]
          exact c.reels
        · intro k hk g hg e
          refine List.mem_map.2 ⟨g, hg, if_neg fun er => ?_⟩
          rcases hk with ⟨v, h1, h2⟩ | ⟨v, h1, h2⟩
          · exact hb'.1 v h1 (decide_eq_true (by rw [h2, ← e, er]))
          · exact hb'.2 v h1 (decide_eq_true (by rw [h2, ← e, er]))
        · intro g hg
          obtain ⟨old, ho, rfl⟩ := List.mem_map.1 hg
          split
          · exact fits
          · exact c.tiles old ho
      unfold State.replaceHolding
      dsimp only
      split
      · exact k.of_tables (State.moveCursor_tables _ _ _)
      · exact k
  · rename_i hx
    split
    · exact c
    · refine State.sweepOn_consistent (State.setHoldings_consistent _ c ?_ ?_ ?_)
      · refine nodup_append_one c.reels fun g hg e => ?_
        have := List.find?_eq_none.1 hx g hg
        simp [e] at this
      · intro _ _ g hg _
        exact List.mem_append_left _ hg
      · intro g hg
        rcases List.mem_append.1 hg with hg | hg
        · exact c.tiles g hg
        · rw [List.mem_singleton] at hg
          exact hg ▸ fits

/-! ### The roster, frames and timers -/

theorem LineUnit.heardOf_modify {l : LineUnit} {t x : Nat} {f : RosterEntry → RosterEntry} (h : x ≠ t) :
    (l.modifyRoster t f).heardOf x = l.heardOf x := by
  unfold LineUnit.modifyRoster
  cases l.roster[t]? with
  | none => rfl
  | some e =>
    unfold LineUnit.heardOf
    dsimp only
    rw [Vector.getElem?_setIfInBounds_ne (fun e => h e.symm)]

theorem State.roster_tables (s : State) (t : Nat) (f : RosterEntry → RosterEntry)
    (h : (s.line.modifyRoster t f).heardOf s.strap.station.val = .self ∨ t ≠ s.strap.station.val) :
    SameTables s (s.setLine (s.line.modifyRoster t f)) := by
  refine ⟨rfl, rfl, rfl, rfl, rfl, fun k r => ?_⟩
  show (s.line.modifyRoster t f).heardOf s.strap.station.val = .self
  rcases h with h | h
  · exact h
  · rw [LineUnit.heardOf_modify h.symm]; exact k r

theorem State.hear_tables (s : State) {t : Nat} (h : t ≠ s.strap.station.val) : SameTables s (s.hear t) := by
  unfold State.hear
  dsimp only
  have k := s.roster_tables t (fun e => { e with heard := .present s.now }) (Or.inr h)
  split
  · exact k.trans (State.pushReport_tables _ _)
  · exact k

theorem State.takePresent_tables (s : State) {t : Nat} (mode : PresenceMode) (n : Nat) (h : t ≠ s.strap.station.val) :
    SameTables s (s.takePresent t mode n) := by
  unfold State.takePresent
  dsimp only
  have k := s.roster_tables t (fun e => { e with holdings := some n }) (Or.inr h)
  split
  · exact k.trans (State.offerBeacon_tables _)
  · exact k

theorem foldl_consistent {α : Type} {f : State → α → State} (h : ∀ s a, Consistent s → Consistent (f s a)) :
    ∀ (xs : List α) {s : State}, Consistent s → Consistent (xs.foldl f s)
  | [], _, c => c
  | x :: xs, _, c => foldl_consistent h xs (h _ x c)

theorem State.expireSilence_consistent {s : State} (t : Nat) (hr : s.resetLine = false) (c : Consistent s) :
    Consistent (s.expireSilence t) := by
  unfold State.expireSilence
  split
  · rename_i last hl
    have ne : t ≠ s.strap.station.val := by
      rintro rfl
      rw [c.selfEntry hr] at hl
      cases hl
    exact foldl_consistent (fun _ i => State.closureTest_consistent i) _ ((c.of_tables (s.roster_tables t _ (Or.inr ne))).of_tables
      (State.pushReport_tables _ _))
  all_goals exact c

/-! ### Whatever record is taken -/

theorem State.setTiming_consistent {s : State} (x : TimerSettings) (hr : s.resetLine = false) (c : Consistent s) :
    Consistent (s.setTiming x) := by
  have silences : ∀ (ts : List Nat) {t : State}, t.resetLine = false → Consistent t →
      Consistent (ts.foldl State.expireSilence t) := by
    intro ts
    induction ts with
    | nil => exact fun _ c => c
    | cons a as ih =>
      intro t hr c
      exact ih (((t.expireSilence_frame a) .resetLine (by decide)).trans hr) (State.expireSilence_consistent a hr c)
  have before : ∀ {α : Type} {f : State → α → State} {ps : List Part}, (∀ s a, SameBut ps s (f s a)) →
      Part.resetLine ∉ ps → ∀ (xs : List α) (t : State), (xs.foldl f t).resetLine = t.resetLine :=
    fun hf hp xs t => SameBut.foldl hf xs t _ hp
  unfold State.setTiming
  refine foldl_consistent (fun _ k => State.lapse_consistent k) _ (silences _ ?_ (foldl_consistent
    (fun _ i => State.expireLocalisation_consistent i) _ (foldl_consistent (fun _ i => State.expireFetch_consistent i) _
    (foldl_consistent (fun _ i => State.expireVote_consistent i) _
      (c.of_tables ((s.setTimers_frame x).tables (by decide)))))))
  rw [before (fun s i => s.expireLocalisation_frame i) (by decide), before (fun s i => s.expireFetch_frame i) (by decide),
    before (fun s i => s.expireVote_frame i) (by decide)]
  exact hr

theorem State.takeOrder_consistent {s : State} (kind : Byte) (fits : Bool) (act : State → Answered) (c : Consistent s)
    (ha : Consistent (act s).state) : Consistent (s.takeOrder kind fits act) := by
  unfold State.takeOrder State.reply
  split
  · exact ha.of_tables ((State.setLink_frame _ _).tables (by decide))
  · exact c.of_tables ((State.setLink_frame _ _).tables (by decide))

/-- A frame of one byte or more has a tile (R1, R20). -/
theorem loadedHolding_tiles (code : Fin 4) (body : List Byte) (h : 1 ≤ (loadedHolding (tileSize code) body).length) :
    1 ≤ (loadedHolding (tileSize code) body).tiles := by
  have z : 0 < tileSize code := Nat.mul_pos (by decide) (Nat.pow_pos (by decide))
  show 1 ≤ tileCount _ _
  unfold tileCount
  have h : 1 ≤ field body 8 4 := h
  rw [Nat.le_div_iff_mul_le z]
  omega

/-- Whatever record is taken, the tables stay together. -/
theorem State.takeRecord_consistent {s : State} (i : Instr) (hr : s.resetLine = false) (c : Consistent s) :
    Consistent (Machine.takeRecord i s) := by
  cases i with
  | loadHolding body =>
    show Consistent (Machine.takeLoadHolding body s)
    unfold Machine.takeLoadHolding
    refine State.takeOrder_consistent _ _ _ c ?_
    exact State.loadHolding_consistent _ (loadedHolding_tiles _ _) c
  | dropHolding body =>
    show Consistent (Machine.takeDropHolding body s)
    unfold Machine.takeDropHolding
    refine State.takeOrder_consistent _ _ _ c ?_
    exact State.dropHolding_consistent _ c
  | cadence body =>
    show Consistent (Machine.takeCadence body s)
    unfold Machine.takeCadence
    refine State.takeOrder_consistent _ _ _ c ?_
    exact State.sweepOn_consistent (c.of_tables ((s.setCadence_frame body).tables (by decide)))
  | burst body =>
    show Consistent (Machine.takeBurst body s)
    unfold Machine.takeBurst
    refine State.takeOrder_consistent _ _ _ c ?_
    exact State.sweepOn_consistent (c.of_tables ((s.setBurst_frame _).tables (by decide)))
  | suspend body =>
    show Consistent (Machine.takeSuspend body s)
    unfold Machine.takeSuspend
    refine State.takeOrder_consistent _ _ _ c ?_
    exact c.of_tables ((s.setSuspended_frame _).tables (by decide))
  | resume body =>
    show Consistent (Machine.takeResume body s)
    unfold Machine.takeResume
    refine State.takeOrder_consistent _ _ _ c ?_
    exact State.sweepOn_consistent (c.of_tables ((s.setSuspended_frame _).tables (by decide)))
  | verify body =>
    show Consistent (Machine.takeVerify body s)
    unfold Machine.takeVerify
    refine State.takeOrder_consistent _ _ _ c ?_
    exact State.verifyKey_consistent _ c
  | rewritten body =>
    show Consistent (Machine.takeRewritten body s)
    unfold Machine.takeRewritten
    refine State.takeOrder_consistent _ _ _ c ?_
    exact State.rewritten_consistent _ c
  | takeEvidence body =>
    show Consistent (Machine.takeTakeEvidence body s)
    unfold Machine.takeTakeEvidence
    refine State.takeOrder_consistent _ _ _ c ?_
    exact c.of_tables (s.takeOldest_frame.tables (by decide))
  | pace body =>
    show Consistent (Machine.takePace body s)
    unfold Machine.takePace
    refine State.takeOrder_consistent _ _ _ c ?_
    exact c.of_tables ((s.pace_frame body).tables (by decide))
  | settle body =>
    show Consistent (Machine.takeSettle body s)
    unfold Machine.takeSettle
    refine State.takeOrder_consistent _ _ _ c ?_
    exact c.of_tables (s.settled_frame.tables (by decide))
  | timing body =>
    show Consistent (Machine.takeTiming body s)
    unfold Machine.takeTiming
    refine State.takeOrder_consistent _ _ _ c ?_
    exact State.expireIssued_consistent (State.setTiming_consistent _ hr c)
  | watch body =>
    show Consistent (Machine.takeWatch body s)
    unfold Machine.takeWatch
    refine State.takeOrder_consistent _ _ _ c ?_
    exact c.of_tables ((s.setWatching_frame _ _ _).tables (by decide))
  | clearCounters body =>
    show Consistent (Machine.takeClearCounters body s)
    unfold Machine.takeClearCounters
    refine State.takeOrder_consistent _ _ _ c ?_
    exact { c with }
  | view body =>
    show Consistent (Machine.takeView body s)
    unfold Machine.takeView
    refine State.takeOrder_consistent _ _ _ c ?_
    exact c.of_tables ((s.selectView_frame _).tables (by decide))
  | peek body =>
    show Consistent (Machine.takePeek body s)
    unfold Machine.takePeek
    refine State.takeOrder_consistent _ _ _ c ?_
    exact c.of_tables (s.peek_frame.tables (by decide))
  | reset body =>
    show Consistent (Machine.takeReset body s)
    unfold Machine.takeReset
    refine State.takeOrder_consistent _ _ _ c ?_
    exact { c with }
  | unknownOrder kind body => exact c.of_tables ((State.setLink_frame _ _).tables (by decide))
  | block body =>
    show Consistent (Machine.takeBlock body s)
    unfold Machine.takeBlock
    split
    · exact State.expireIssued_consistent (State.takeBlockRecord_consistent _ c)
    · exact c
  | fetchFailed body =>
    show Consistent (Machine.takeFetchFailed body s)
    unfold Machine.takeFetchFailed
    repeat' split
    · next hf => exact State.expireIssued_consistent (State.endUnreadable_consistent _ _ c (ReadEngine.slot?_mem hf).1)
    · exact c.of_tables (State.bump_tables _ _)
    · exact c
  | _ => exact c

/-- The records that waited are taken within the bounds, and leave the tables together. -/
theorem State.intake_keeps : ∀ (is : List Instr) {s : State}, Bounded s → Consistent s →
    Bounded (State.intake is s) ∧ Consistent (State.intake is s)
  | [], _, h, c => ⟨h, c⟩
  | i :: is, s, h, c => by
    unfold State.intake
    split
    · next ready =>
      have hr : s.resetLine = false := by
        simp only [State.mayTake, State.intakeOpen, Bool.and_eq_true, Bool.not_eq_true'] at ready
        exact ready.1.1.1
      exact State.intake_keeps is (h.takeRecord c i).arbitrate
        ((State.takeRecord_consistent i hr c).of_tables (State.arbitrate_tables _))
    · exact ⟨h.setPort h.reports, { c with }⟩

end Sys2Proof.Machine
end

