-- ==== Sys2Proof/Tests/Slice0.lean ====
section
/-! SUPPORT. Tests: ill-formed commands, the manual's check values, records as bytes, single steps, and for every
statement with hypotheses a state that meets them. -/

namespace Sys2Proof.Tests

set_option Elab.async false

open Sys2Proof.Machine

/-! ### The ill-formed commands of each check -/

theorem test_illFormed_recordBody (n : Nat) (h : 16777215 < n) :
    WellFormed (.loadHolding (List.replicate n 0)) = false ∧ WellFormed (.block (List.replicate n 0)) = false ∧
      WellFormed (.unknownOrder 0x55 (List.replicate n 0)) = false := by
  simp [WellFormed, maxRecordBody]; omega

theorem test_illFormed_frameBody (n : Nat) (h : 65535 < n) :
    WellFormed (.sum 1 (List.replicate n 0)) = false ∧ WellFormed (.tiles 1 (List.replicate n 0)) = false := by
  simp [WellFormed, maxFrameBody]; omega

theorem test_illFormed_knownKind : WellFormed (.unknownOrder 0x01 []) = false ∧
    WellFormed (.unknownOrder 0x11 []) = false ∧ WellFormed (.unknownOrder 0x40 []) = false ∧
    WellFormed (.unknownOrder 0x41 []) = false ∧ WellFormed (.unknownOrder 0x12 []) = true := by decide

/-! ### Values the manual gives -/

def digits : List Byte := [0x31, 0x32, 0x33, 0x34, 0x35, 0x36, 0x37, 0x38, 0x39]

theorem test_tileCheck : tileCheck digits = 0xFC891918 := by decide +kernel
theorem test_lineCheck : lineCheck digits = 0x29B1 := by decide +kernel
theorem test_frameSummary : frameSummary [0x80000001, 0x80000001] = 2 + 0x80000001 + 0x00000003 := by decide +kernel

/-! ### Records as bytes (the table of kinds in spec/12) -/

theorem test_decodeRecord_dropHolding :
    decodeRecord [0x02, 0, 0, 4, 0, 0, 0, 5, 0x05] = some (.dropHolding [0, 0, 0, 5], [0x05]) := by decide +kernel

theorem test_decodeRecord_orders :
    decodeRecord [0x01, 0, 0, 1, 9] = some (.loadHolding [9], []) ∧
    decodeRecord [0x03, 0, 0, 0] = some (.cadence [], []) ∧ decodeRecord [0x04, 0, 0, 1, 7] = some (.burst [7], []) ∧
    decodeRecord [0x05, 0, 0, 0] = some (.suspend [], []) ∧ decodeRecord [0x06, 0, 0, 0] = some (.resume [], []) ∧
    decodeRecord [0x07, 0, 0, 0] = some (.verify [], []) ∧ decodeRecord [0x08, 0, 0, 0] = some (.rewritten [], []) ∧
    decodeRecord [0x09, 0, 0, 0] = some (.takeEvidence [], []) ∧ decodeRecord [0x0A, 0, 0, 0] = some (.pace [], []) ∧
    decodeRecord [0x0B, 0, 0, 0] = some (.settle [], []) ∧ decodeRecord [0x0C, 0, 0, 0] = some (.timing [], []) ∧
    decodeRecord [0x0D, 0, 0, 0] = some (.watch [], []) ∧
    decodeRecord [0x0E, 0, 0, 0] = some (.clearCounters [], []) ∧ decodeRecord [0x0F, 0, 0, 0] = some (.view [], []) ∧
    decodeRecord [0x10, 0, 0, 0] = some (.peek [], []) ∧ decodeRecord [0x11, 0, 0, 0] = some (.reset [], []) := by
  and_intros <;> decide +kernel

theorem test_decodeRecord_data :
    decodeRecord [0x40, 0, 0, 1, 9] = some (.block [9], []) ∧
    decodeRecord [0x41, 0, 0, 2, 3, 1] = some (.fetchFailed [3, 1], []) ∧
    decodeRecord [0x12, 0, 0, 0] = some (.unknownOrder 0x12 [], []) ∧
    decodeRecord [0x40, 0, 0, 2, 9] = none ∧ decodeRecord [] = none := by decide +kernel

/-- A BAD report with two good stations and one bad tile: a body of 28 bytes, 32 with its header (spec/12). -/
theorem test_record_badReport :
    (let report := Report.verdict { reel := 5, frame := 2 } .bad (Origins.none.add .sweep)
       { VoteFlags.none with mendListFull := true } (some 7) none [2, 5] [] (some [17])
     (OutRecord.report { number := 258, report := report }).bytes) =
        [0xC0, 0, 0, 28, 1, 2, 0, 0, 0, 5, 0, 0, 0, 2, 2, 1, 128, 1, 0, 0, 0, 7, 0, 0, 0, 0, 2, 2, 5, 0, 1, 17] := by
  decide +kernel

theorem test_record_requests :
    (OutRecord.request (.fetch 9 { reel := 5, frame := 2 } 3)).bytes =
      [0x90, 0, 0, 10, 9, 0, 0, 0, 5, 0, 0, 0, 2, 3] ∧
    (OutRecord.request (.cancel 9 { reel := 5, frame := 2 })).bytes = [0x91, 0, 0, 9, 9, 0, 0, 0, 5, 0, 0, 0, 2] ∧
    (OutRecord.reply { kind := 0x10, result := .done, payload := [0] }).bytes = [0x80, 0, 0, 3, 0x10, 0, 0] ∧
    (OutRecord.start State.firstStart).bytes = [0xA0, 0, 0, 6, 1, 0, 0, 0, 0, 0] := by decide +kernel

/-! ### Small states -/

/-- The one holding: reel 5, three frames of one tile, station 1 a peer. -/
def oneHolding : Holding :=
  { reel := 5, frames := 3, length := 1, tier := 0, peers := [1], head := 0, tail := 0, mendAllowed := true, tiles := 1
    passes := 0 }

/-- A frame of the one holding. -/
def key (frame : Nat) : Key := { reel := 5, frame := frame }

/-- The START record has gone, the unit is ACTIVE, and the one holding is loaded; the sweep is suspended. -/
def base : State :=
  { State.reset with
    holdings := [oneHolding], port := ShelfPort.reset [], line := { State.reset.line with state := .active } }

/-- A vote that waits for its read. -/
def waiting (id frame : Nat) : Vote :=
  { id := id, key := key frame, origins := { Origins.none with sweep := true }, opened := 0, state := .awaitingRead
    expected := [1], callers := [], answers := [], own := .pending, checks := [], reference := none
    callPending := false, sumSent := false, timer := none, localisation := none, decision := none
    flags := VoteFlags.none }

/-- An answer of READ_OK with a summary. -/
def okAnswer (station : Nat) (x : Word) : Answer :=
  { station := station, status := .readOk, summary := some x, tiles := 1, ref := .none }

def reading (id frame : Nat) : Vote := { waiting id frame with state := .reading }

/-- A vote in GATHERING, with own summary 7. -/
def gathering (id frame : Nat) : Vote :=
  { waiting id frame with state := .gathering, own := .readOk 7, checks := [6], timer := some 0 }

/-- The decision of a vote that was found BAD against 9. -/
def badDecision : Decision :=
  { verdict := .bad, agreed := some 9, good := some 9, leader := false, mendAllowed := true, missing := [] }

/-- A vote in LOCALISING. -/
def localising (id frame : Nat) : Vote :=
  { gathering id frame with
    state := .localising, timer := none, answers := [okAnswer 1 9, okAnswer 2 9], decision := some badDecision
    localisation := some { source := none, received := [none], start := 0 } }

/-- A mend entry in AWAITING_REWRITE. -/
def entry (frame : Nat) : MendEntry :=
  { key := key frame, agreed := 9, badTiles := none, failed := 0, state := .awaitingRewrite 0 }

def fetchOf (tag : Byte) (frame : Nat) : Fetch := { tag := tag, key := key frame, next := 0, issued := 0 }

/-- A state with votes. -/
def withVotes (votes : List Vote) : State := { base with votes := votes, nextVote := 30 }

/-- A vote in each state, a fetch outstanding and a mend entry. -/
def busy : State :=
  { withVotes [reading 0 0, gathering 1 1, localising 2 2] with
    read := { fetches := [fetchOf 0 0], tagCounter := 1 }, mends := [entry 1] }

/-- Twenty-four votes. -/
def fullTable : State :=
  { withVotes ((List.range 24).map fun i => gathering i i) with holdings := [{ oneHolding with frames := 24 }] }

def message (body : LineBody) : Message := { body := body, collisions := 0, owner := none, onLine := false }

def callMessage : Message := { message (.call (key 0) [1]) with owner := some 0 }

def withQueue (queue : List Message) : State := { base with line := { base.line with queue := queue } }

def withReports (n : Nat) : State :=
  { base with port := { base.port with reports := List.replicate n { number := 0, report := .station 1 .silent } } }

def runningSweep : Sweep := { Sweep.reset with suspended := false }

/-- A state with the four limits that can be 0 ms at 0 ms. -/
def instant (s : State) : State :=
  s.setTimers { TimerSettings.reset with vote := 0, fetch := 0, localisation := 0, silence := 0 }

/-! ### The invariants on small states -/

/-- What Consistent asks, by look-ups that can be decided. -/
def Fit (s : State) : Prop :=
  (s.holdings.map Holding.reel).Nodup ∧ (s.votes.map Vote.key).Nodup ∧ (s.votes.map Vote.id).Nodup ∧
  (∀ v ∈ s.votes, v.id < s.nextVote) ∧
  (∀ v ∈ s.votes, (v.own = .pending ↔ v.state = .awaitingRead ∨ v.state = .reading) ∧
    (v.timer.isSome = true ↔ v.state = .gathering) ∧ (v.localisation.isSome = true ↔ v.state = .localising) ∧
    (v.decision.isSome = true ↔ v.state = .localising) ∧
    ∀ l ∈ v.localisation, l.received.length = v.checks.length) ∧
  (s.mends.map MendEntry.key).Nodup ∧ (s.read.fetches.map Fetch.tag).Nodup ∧ (s.read.fetches.map Fetch.key).Nodup ∧
  (∀ f ∈ s.read.fetches, ∃ v ∈ s.votes, v.key = f.key ∧ v.state = .reading) ∧
  (∀ v ∈ s.votes, v.state = .reading → ∃ f ∈ s.read.fetches, f.key = v.key) ∧
  (∀ e ∈ s.mends, e.state = .rechecking → ∃ v ∈ s.votes, v.key = e.key ∧ v.origins.mend = true) ∧
  (∀ v ∈ s.votes, v.origins.mend = true → ∃ e ∈ s.mends, e.key = v.key ∧ e.state = .rechecking) ∧
  (∀ v ∈ s.votes, ∃ h ∈ s.holdings, h.reel = v.key.reel ∧ v.key.frame < h.frames) ∧
  (∀ e ∈ s.mends, ∃ h ∈ s.holdings, h.reel = e.key.reel ∧ e.key.frame < h.frames) ∧
  (s.resetLine = false → s.line.heardOf s.strap.station.val = .self) ∧
  (∀ h ∈ s.holdings, 1 ≤ h.tiles ∧ h.tiles ≤ 255) ∧
  (∀ f ∈ s.read.fetches, ∀ h ∈ s.holdings, h.reel = f.key.reel → f.next < h.tiles) ∧
  (∀ f ∈ s.read.fetches, ∀ v ∈ s.votes, v.key = f.key → v.checks.length = f.next)

theorem consistent_of_fit {s : State} (h : Fit s) : Consistent s := by
  obtain ⟨h1, h2, h3, h4, h5, h6, h7, h8, h9, h10, h11, h12, h13, h14, h15, h16⟩ := h
  refine ⟨h1, h2, h3, h4, fun v hv => ?_, h6, h7, h8, fun k => ⟨?_, ?_⟩, fun k => ⟨?_, ?_⟩, h13, h14, h15, h16.1, h16.2.1,
    h16.2.2⟩
  · obtain ⟨a, b, c, d, e⟩ := h5 v hv
    exact ⟨a, b, c, d, fun l hl => e l hl⟩
  · rintro ⟨f, hf, rfl⟩; exact h9 f hf
  · rintro ⟨v, hv, rfl, hs⟩; exact h10 v hv hs
  · rintro ⟨e, he, rfl, hs⟩; exact h11 e he hs
  · rintro ⟨v, hv, rfl, hs⟩; exact h12 v hv hs

theorem consistent_busy : Consistent busy := consistent_of_fit (by unfold Fit; decide +kernel)

theorem bounded_busy : Bounded busy where
  holdings := by decide
  cursor := by decide
  fetches := by decide
  votes := by decide
  ranges := fun v hv => by
    simp only [busy, withVotes, List.mem_cons, List.not_mem_nil, or_false] at hv
    rcases hv with rfl | rfl | rfl
    · exact ⟨by decide, by decide, nofun⟩
    · exact ⟨by decide, by decide, nofun⟩
    · exact ⟨by decide, by decide, fun _ e => by cases e; decide⟩
  mends := by decide
  attempts := by decide
  evidence := by decide
  slots := by decide
  reports := by decide
  queue := by constructor <;> decide
  listen := by decide
  sweep := by constructor <;> decide
  watch := by constructor <;> decide
  governor := by constructor <;> decide
  timers := by constructor <;> decide
  counters := fun c => by cases c <;> decide

/-! ### Single steps -/

/-- What a part of the state after a command is. -/
def after {α : Type} (i : Instr) (s : State) (part : State → α) : Option α :=
  match exec i s with
  | .next t => some (part t)
  | .fault _ | .refused _ => none

/-- The reply that stands on the outgoing link after a command. -/
def replyAfter (i : Instr) (s : State) : Option (Option OutRecord) := after i s fun t => t.port.link

def replyOf (kind : Byte) (result : Result) : Option (Option OutRecord) :=
  some (some (.reply { kind := kind, result := result, payload := [] }))

/-- Reel 6, two frames of one byte, tier 2, no leader, mend allowed, no peer. -/
def loadBody (reel : Nat) (length : Nat) (peers : List Byte) : List Byte :=
  bytesOf 4 reel ++ bytesOf 4 2 ++ bytesOf 4 length ++ [2, 0, 0, 0, 0, 1, BitVec.ofNat 8 peers.length] ++ peers

theorem test_loadHolding : replyAfter (.loadHolding (loadBody 6 1 [3])) base = replyOf 0x01 .done ∧
    (after (.loadHolding (loadBody 6 1 [3])) base fun t => t.holdings.map Holding.peers) = some [[1], [3]] := by
  decide +kernel
theorem test_loadHolding_ownStation : replyAfter (.loadHolding (loadBody 6 1 [0])) base = replyOf 0x01 .range := by
  decide +kernel
theorem test_dropHolding : (after (.dropHolding [0, 0, 0, 5]) busy fun t => (t.votes.length, t.count .abandoned)) =
    some (0, 3) := by decide +kernel
theorem test_dropHolding_notHeld : replyAfter (.dropHolding [0, 0, 0, 6]) base = replyOf 0x02 .notHeld := by
  decide +kernel
theorem test_cadence : (after (.cadence [3, 0, 9, 0, 1, 0, 1, 0, 1]) base fun t => (t.sweep.period, t.sweep.mask 0)) =
    some (3, 1) := by decide +kernel
theorem test_burst : (after (.burst [0]) base fun t => (t.sweep.burst, t.sweep.remainder)) = some (1, 1) := by
  decide +kernel
theorem test_resume_opensVotes : (after (.resume []) base fun t => (t.votes.map Vote.key, t.sweepState)) =
    some ([key 0, key 1, key 2], .backedUp) := by decide +kernel
theorem test_suspend : (after (.suspend []) { base with sweep := runningSweep } fun t => t.sweepState) =
    some .suspended := by decide +kernel
theorem test_verify : (after (.verify [0, 0, 0, 5, 0, 0, 0, 2]) base fun t => (t.votes.map Vote.state, t.line.queue)) =
    some ([.reading], [{ message (.call (key 2) [1]) with owner := some 0 }]) := by decide +kernel
theorem test_verify_range : replyAfter (.verify [0, 0, 0, 5, 0, 0, 0, 3]) base = replyOf 0x07 .range := by
  decide +kernel
theorem test_rewritten : (after (.rewritten [0, 0, 0, 5, 0, 0, 0, 1]) busy fun t =>
    (t.mends.map MendEntry.state, t.votes.map fun v => v.origins.mend)) =
      some ([.rechecking], [false, true, false]) := by decide +kernel
theorem test_takeEvidence_empty : replyAfter (.takeEvidence []) base =
    some (some (.reply { kind := 0x09, result := .done, payload := [0] })) := by decide +kernel
theorem test_pace_limits : (after (.pace [1, 0, 9, 0, 4, 2, 8, 0, 0, 0]) base fun t =>
    (t.governor.gmin, t.governor.gmax, t.governor.gap, t.governor.average)) = some (9, 9, 9, 32) := by decide +kernel
theorem test_settle : (after (.settle []) { base with governor := { Governor.reset with mode := .fixed } } fun t =>
    t.governor.settle) = some 8 := by decide +kernel
theorem test_timing_expires : (after (.timing [0, 0, 0, 0, 0, 0, 0, 0, 0, 0]) busy fun t =>
    (t.timers.patience, t.read.fetches.length, t.mends.length)) = some (1, 0, 2) := by decide +kernel
theorem test_watch : (after (.watch [0, 1, 0, 5, 1]) base fun t => (t.watch.rising, t.watch.falling)) = some (1, 0) := by
  decide +kernel
theorem test_unknownOrder : replyAfter (.unknownOrder 0x12 []) base = replyOf 0x12 .unknown := by decide +kernel
theorem test_block_lastTile : (after (.block [0, 0, 2, 0, 0x31]) busy fun t =>
    (t.votes.map Vote.own, t.read.fetches.length)) =
      some ([.readOk (1 + tileCheck [0x31]), .readOk 7, .readOk 7], 0) := by decide +kernel
theorem test_block_wrongLength : (after (.block [0, 0, 2, 0, 1, 2]) busy fun t => (t.votes.map Vote.own).head?) =
    some (some (.unreadable .length)) := by decide +kernel
theorem test_fetchFailed : (after (.fetchFailed [0, 2]) busy fun t => (t.votes.map Vote.own).head?) =
    some (some (.unreadable .absent)) := by decide +kernel
theorem test_fetchTimeout : (after .fetchTimeout busy fun t => (t.count .fetchTimeouts, t.port.link)) =
    some (1, some (.request (.cancel 0 (key 0)))) := by decide +kernel

/-- A SUM of READ_OK with summary 9 for frame 1, and one of UNREADABLE. -/
def sumBody (frame status : Byte) : List Byte := [0, 0, 0, 5, 0, 0, 0, frame, status, 0, 0, 0, 9, 1, 0]
def callBody (frame : Byte) : List Byte := [0, 0, 0, 5, 0, 0, 0, frame, 1, 0, 0, 0, 0]
def tilesBody (n first : Byte) (check : List Byte) : List Byte :=
  [0, 0, 0, 5, 0, 0, 0, 2, 0, 0, 0, 9, n, first, 1] ++ check

/-- A first index of 255 passes the tests of form; its chunk is counted STRAY without a vote in LOCALISING (R178, R97). -/
theorem test_tiles_first_index : readFrame 3 1 (tilesBody 255 255 [0, 0, 0, 8]) =
      some (.tiles (key 2) 9 255 255 [8]) ∧
    (after (.tiles 1 (tilesBody 255 255 [0, 0, 0, 8])) base fun t => (t.count .stray, t.count .lineMalformed)) =
      some (1, 0) := by decide +kernel

theorem test_sum_closes : (after (.sum 1 (sumBody 1 1)) busy fun t => (t.votes.map Vote.key, t.count .split)) =
    some ([key 0, key 2], 1) := by decide +kernel
theorem test_sum_stray : (after (.sum 1 (sumBody 2 1)) busy fun t => t.count .stray) = some 1 := by decide +kernel
theorem test_call_opens : (after (.call 2 (callBody 1)) base fun t =>
    (t.votes.map Vote.expected, t.votes.map Vote.callers)) = some ([[1, 2]], [[2]]) := by decide +kernel
theorem test_tiles_locates : (after (.tiles 1 (tilesBody 1 0 [0, 0, 0, 8])) busy fun t =>
    (t.votes.map Vote.key, t.mends.map MendEntry.badTiles)) = some ([key 0, key 1], [none, some [0]]) := by
  decide +kernel
theorem test_present_joining : (after (.present 1 [1, 0, 4]) base fun t => t.line.queue) =
    some [message (.present .beacon 1)] := by decide +kernel
theorem test_candidateFrame_badCheck : (after (.candidateFrame false [0xA5, 4, 1]) base fun t =>
    t.count .lineBadCheck) = some 1 := by decide +kernel
theorem test_lineFrameStart : (after .lineFrameStart (withQueue [callMessage]) fun t => (t.line.quietCount, t.now)) =
    some (42, 107520) := by decide +kernel
theorem test_lineFrameSent : (after .lineFrameSent (withQueue [{ callMessage with onLine := true }]) fun t =>
    (t.line.queue, t.count .lineSent)) = some ([], 1) := by decide +kernel
theorem test_collision : (after .collision (withQueue [{ callMessage with onLine := true }]) fun t =>
    t.line.queue.map Message.collisions) = some [1] := by decide +kernel
theorem test_enterJoining : (after .enterJoining { base with line := State.reset.line } fun t =>
    (t.line.state, t.now, t.line.queue)) = some (.joining, 742400, [message (.present .joining 1)]) := by decide +kernel
theorem test_recordSent : (after .recordSent State.reset fun t => t.port.link) = some none := by decide +kernel
theorem test_resetLine : (after .resetLineAsserted busy fun t => (t.votes, t.resetLine, t.causes.pin)) =
    some ([], true, true) := by decide +kernel
theorem test_holdAsserted : (after .holdAsserted { base with sweep := runningSweep } fun t => t.sweepState) =
    some .held := by decide +kernel
theorem test_mendLapses : (after .mendPatienceExpiry busy fun t => (t.mends, t.now)) = some ([], 3600000000000) := by
  decide +kernel
theorem test_idle : (match step State.reset with
    | .next t => some (t.now, t.line.listenCount, t.pending)
    | .fault _ | .refused _ => none) = some (2560, 1, []) := by decide +kernel

/-! ### Limits of 0 ms (R156) -/

theorem test_instant_fetch :
    (after (.verify [0, 0, 0, 5, 0, 0, 0, 2]) (base.setTimers { TimerSettings.reset with fetch := 0 }) fun t =>
      (t.votes.map fun v => (v.state, v.own), t.port.requests)) =
        some ([(.gathering, .unreadable .timeout)], [.fetch 0 (key 2) 1, .cancel 0 (key 2)]) := by decide +kernel

theorem test_instant_vote :
    (after (.block [0, 0, 2, 0, 0x31]) (busy.setTimers { TimerSettings.reset with vote := 0 }) fun t =>
      (t.votes.map Vote.key, t.count .unconfirmed)) = some ([key 1, key 2], 1) := by decide +kernel

theorem test_instant_localisation :
    (let s := withVotes [{ gathering 0 0 with expected := [1, 2], answers := [okAnswer 1 9] }]
     after (.sum 2 (sumBody 0 1)) (s.setTimers { TimerSettings.reset with localisation := 0 }) fun t =>
       (t.votes.length, t.count .bad, t.evidence.entries.map EvidenceEntry.source)) = some (0, 1, [none]) := by
  decide +kernel

theorem test_instant_silence :
    (after (.present 1 [2, 0, 4]) (base.setTimers { TimerSettings.reset with silence := 0 }) fun t =>
      (t.line.heardOf 1, t.port.reports.map QueuedReport.report)) =
        some (.silent 0, [.station 1 .silent]) := by decide +kernel

/-! ### States and operands that meet the hypotheses of the statements -/

theorem test_witness_IdleStepPassesOneSlot :
    (State.reset.pending = [] ∧ State.reset.resetLine = false ∧ State.reset.line.transmitting = false ∧
      State.reset.line.activity = .quiet ∧ State.reset.line.state = .listen) ∧
    (let s := { State.reset with resetLine := true }; s.pending = [] ∧ s.resetLine = true) ∧
    (let s := { State.reset with line := { State.reset.line with activity := .other } }
     s.pending = [] ∧ s.line.activity = .other) := by
  and_intros <;> decide +kernel

theorem test_witness_StepKeepsTheInvariants : Bounded busy ∧ Consistent busy ∧ ∃ t, step busy = .next t :=
  ⟨bounded_busy, consistent_busy, _, rfl⟩

theorem test_witness_RecordsDecodeAsEncoded :
    (WellFormed (.suspend []) = true ∧ (toRecord (.suspend [])).isSome = true) ∧
    (WellFormed (.unknownOrder 0x12 [1]) = true ∧ (toRecord (.unknownOrder 0x12 [1])).isSome = true) := by decide

theorem test_witness_RecordsWaitInOrderOrAreCutShort :
    ((toRecord (.suspend [])).isSome = true ∧ State.reset.ready (.suspend []) = false) ∧
    ((toRecord (.block [])).isSome = true ∧
      State.ready { base with port := { base.port with inbound := [.suspend []] } } (.block []) = false) := by
  decide +kernel

theorem test_witness_EveryOrderTakenIsAnswered : isOrder (.suspend []) = true ∧
    toRecord (.suspend []) = some (0x05, []) ∧ base.ready (.suspend []) = true := by decide +kernel

theorem test_witness_UnfitOrdersAreRefused :
    base.ready (.unknownOrder 0x12 []) = true ∧
    (base.ready (.loadHolding (List.replicate 18 0)) = true ∧ (List.replicate 18 (0 : Byte)).length < 19) ∧
    (base.ready (.loadHolding (List.replicate 20 0)) = true ∧
      (List.replicate 20 (0 : Byte)).length ≠ 19 + ((List.replicate 20 (0 : Byte)).getD 18 0).toNat) ∧
    (base.ready (.dropHolding [0, 0, 0]) = true ∧ base.ready (.cadence [0]) = true ∧ base.ready (.burst []) = true) ∧
    (base.ready (.suspend [0]) = true ∧ base.ready (.resume [0]) = true ∧ base.ready (.verify [0]) = true) ∧
    (base.ready (.rewritten [0]) = true ∧ base.ready (.takeEvidence [0]) = true ∧ base.ready (.pace [0]) = true) ∧
    (base.ready (.settle [0]) = true ∧ base.ready (.timing [0]) = true ∧ base.ready (.watch [0]) = true) ∧
    (base.ready (.clearCounters [0]) = true ∧ base.ready (.view []) = true ∧ base.ready (.peek [0]) = true) ∧
    base.ready (.reset [0]) = true := by
  and_intros <;> decide +kernel

theorem test_witness_OutboundArbiterOrder :
    State.reset.port.link = some (.start State.firstStart) ∧
    (let p := { base.port with start := some State.firstStart }; p.link = none ∧ p.start = some State.firstStart) ∧
    (let r : Reply := { kind := 5, result := .done, payload := [] }
     let p := { base.port with reply := some r }; p.link = none ∧ p.start = none ∧ p.reply = some r) ∧
    (let p := { base.port with resetTaken := true }
     p.link = none ∧ p.start = none ∧ p.reply = none ∧ p.resetTaken = true) ∧
    (let p := { base.port with requests := [.cancel 0 (key 0)] }
     p.link = none ∧ p.start = none ∧ p.reply = none ∧ p.resetTaken = false ∧ p.requests = .cancel 0 (key 0) :: []) ∧
    (let p := (withReports 1).port
     p.link = none ∧ p.start = none ∧ p.reply = none ∧ p.resetTaken = false ∧ p.requests = [] ∧ p.reports ≠ []) ∧
    (let p := base.port
     p.link = none ∧ p.start = none ∧ p.reply = none ∧ p.resetTaken = false ∧ p.requests = [] ∧ p.reports = []) := by
  and_intros <;> decide +kernel

theorem test_witness_ReportsAreNumberedAndQueued :
    (withReports 63).port.reports.length < 64 ∧ 64 ≤ (withReports 64).port.reports.length := by decide +kernel

/-- The START record is on the link, and records wait. -/
def startWith (waiting : List Instr) : State :=
  { base with port := { base.port with link := some (.start State.firstStart), inbound := waiting } }

theorem test_witness_RecordSentMovesTheLinkOn :
    (let x : OutRecord := .request (.cancel 0 (key 0))
     let s := { base with port := { base.port with link := some x } }
     s.port.link = some x ∧ s.port.inbound = [] ∧ ∀ q, x ≠ .report q) ∧
    (let q : QueuedReport := { number := 0, report := .station 1 .silent }
     let s := { base with port := { base.port with link := some (.report q) } }
     s.port.link = some (.report q) ∧ s.port.inbound = [] ∧ s.sweep.suspended = true) ∧
    (let r : Reply := { kind := 5, result := .done, payload := [] }
     let s := { base with port := { base.port with link := some (.reply r), inbound := [.suspend []] } }
     s.port.link = some (.reply r) ∧ s.port.reply = none ∧ s.port.start = none ∧ s.port.requests = [] ∧
       s.port.reports = [] ∧ s.resetLine = false ∧ s.port.resetTaken = false ∧ s.port.inbound = [.suspend []] ∧
       isOrder (.suspend []) = true ∧ toRecord (.suspend []) = some (0x05, [])) ∧
    (let s := startWith [.suspend [], .block [], .peek []]
     s.port.link = some (.start State.firstStart) ∧ s.port.start = none ∧ s.port.reply = none ∧ s.resetLine = false ∧
       s.port.resetTaken = false ∧ (toRecord (.suspend [])).isSome = true ∧ (toRecord (.block [])).isSome = true ∧
       s.mayTake (.block []) = false) ∧
    (base.port.inbound = [] ∧ base.mayTake (.suspend []) = true ∧ base.mayTake (.block []) = true) ∧
    (let r : Reply := { kind := 5, result := .done, payload := [] }
     let s := { base with port := { base.port with link := some (.reply r) } }
     s.mayTake (.suspend []) = false ∧ s.mayTake (.block []) = true) := by
  refine ⟨⟨rfl, rfl, fun q h => by cases h⟩, ?_, ?_, ?_, ?_, ?_⟩
  · decide +kernel
  all_goals and_intros <;> decide +kernel

/-- START has gone, and two orders wait with a data record between them: the first order is taken and answered, and the
second, an order, waits for that reply. -/
theorem test_recordSent_takes_in_turn :
    after .recordSent (startWith [.suspend [], .block [], .peek []]) (fun t => (t.port.link, t.port.inbound)) =
      some (some (.reply { kind := 5, result := .done, payload := [] }), [.peek []]) := by decide +kernel

/-- The tests of a loaded record that LoadHoldingRefusals names. -/
abbrev Loadable (h : Holding) (own : Nat) : Prop :=
  1 ≤ h.reel ∧ 1 ≤ h.frames ∧ h.frames ≤ 262143 ∧ 1 ≤ h.length ∧ h.tier ≤ 3 ∧ h.head ≤ 4095 ∧
    h.tail ≤ 4095 ∧ h.peers.length ≤ 4 ∧ (∀ p ∈ h.peers, p ≤ 31 ∧ p ≠ own) ∧ h.peers.Nodup

/-- 512 holdings. -/
def fullList : State := { base with holdings := List.replicate 512 oneHolding }

theorem test_witness_LoadHoldingRefusals :
    (let body := loadBody 0 1 [1]
     base.ready (.loadHolding body) = true ∧ 19 ≤ body.length ∧ body.length = 19 + (body.getD 18 0).toNat ∧
       ¬ Loadable (loadedHolding 65536 body) 0) ∧
    (let body := loadBody 6 16711681 [1]
     base.ready (.loadHolding body) = true ∧ body.length = 19 + (body.getD 18 0).toNat ∧
       Loadable (loadedHolding 65536 body) 0 ∧ 255 < (loadedHolding 65536 body).tiles) ∧
    (let body := loadBody 5 16711680 [1]
     busy.ready (.loadHolding body) = true ∧ body.length = 19 + (body.getD 18 0).toNat ∧
       Loadable (loadedHolding 65536 body) 0 ∧ (loadedHolding 65536 body).tiles = 255 ∧
       (∃ x ∈ busy.holdings, x.reel = 5) ∧ ∃ v ∈ busy.votes, v.key.reel = 5) ∧
    (let s := { base with mends := [entry 1] }
     (∃ x ∈ s.holdings, x.reel = 5) ∧ ∃ e ∈ s.mends, e.key.reel = 5) ∧
    (fullList.ready (.loadHolding (loadBody 6 1 [1])) = true ∧ (∀ x ∈ fullList.holdings, x.reel ≠ 6) ∧
      512 ≤ fullList.holdings.length) := by
  and_intros <;> decide +kernel

/-- Reels 5 and 6, the cursor at a position. -/
def twoReels (pos : Nat) : State :=
  { base with holdings := [oneHolding, { oneHolding with reel := 6 }], sweep := { Sweep.reset with cursorPos := pos } }

theorem test_witness_LoadHoldingStoresTheRecord :
    (let s := { base with holdings := List.replicate 511 oneHolding }
     let h := loadedHolding (tileSize s.strap.tileCode) (loadBody 6 1 [1])
     s.ready (.loadHolding (loadBody 6 1 [1])) = true ∧ h.inRange s.strap.station.val = true ∧ h.tiles ≤ 255 ∧
       (∀ x ∈ s.holdings, x.reel ≠ h.reel) ∧ s.holdings.length < 512 ∧ s.sweep.suspended = true) ∧
    (let s := { base with sweep := { Sweep.reset with cursorPos := 1 } }
     let h := loadedHolding (tileSize s.strap.tileCode) (loadBody 5 1 [1])
     s.ready (.loadHolding (loadBody 5 1 [1])) = true ∧ h.inRange s.strap.station.val = true ∧ h.tiles ≤ 255 ∧
       (∃ x ∈ s.holdings, x.reel = h.reel) ∧ s.isBusy h.reel = false ∧ s.sweep.suspended = true ∧
       ∀ x ∈ s.holdings[s.sweep.cursorPos]?, x.reel ≠ h.reel) ∧
    (let s := { twoReels 0 with sweep := { Sweep.reset with cursorFrame := 1 } }
     let h := loadedHolding (tileSize s.strap.tileCode) (loadBody 5 1 [1])
     (s.holdings.map Holding.reel).Nodup ∧ (s.holdings.map Holding.reel)[s.sweep.cursorPos]? = some h.reel ∧
       s.sweep.cursorFrame + 1 = h.frames ∧ (s.sweep.masks.toList.getD h.tier 0).getLsbD s.sweep.r = true) ∧
    (let s := { twoReels 0 with sweep := { Sweep.reset with cursorFrame := 2 } }
     let h := loadedHolding (tileSize s.strap.tileCode) (loadBody 5 1 [1])
     s.ready (.loadHolding (loadBody 5 1 [1])) = true ∧ h.frames ≤ s.sweep.cursorFrame ∧
       s.sweep.cursorPos + 1 < s.holdings.length) ∧
    (let s := { twoReels 1 with sweep := { Sweep.reset with cursorPos := 1, masks := #v[1, 1, 0, 1] } }
     let h := loadedHolding (tileSize s.strap.tileCode) (loadBody 6 1 [1])
     s.ready (.loadHolding (loadBody 6 1 [1])) = true ∧ (s.holdings.map Holding.reel)[s.sweep.cursorPos]? = some h.reel ∧
       (s.sweep.masks.toList.getD h.tier 0).getLsbD s.sweep.r = false ∧ s.sweep.cursorPos + 1 = s.holdings.length) := by
  and_intros <;> decide +kernel

theorem test_witness_TilesAndCheckValues :
    let n := tileCount 65537 (tileSize 0)
    n = 2 ∧ 0 + 1 < n ∧ tileLength 65537 (tileSize 0) n 0 = 65536 ∧ tileLength 65537 (tileSize 0) n 1 = 1 ∧
      tileCount 65536 (tileSize 0) = 1 ∧ tileLength 65536 (tileSize 0) 1 0 = 65536 := by decide +kernel

theorem test_witness_DropHoldingClearsTheReel :
    (base.ready (.dropHolding [0, 0, 0, 6]) = true ∧ ∀ x ∈ base.holdings, x.reel ≠ field [0, 0, 0, 6] 0 4) ∧
    (busy.ready (.dropHolding [0, 0, 0, 5]) = true ∧ ∃ x ∈ busy.holdings, x.reel = field [0, 0, 0, 5] 0 4) ∧
    (busy.port.reports.length + busy.votes.length + busy.mends.length ≤ 64 ∧ reading 0 0 ∈ busy.votes ∧
      (reading 0 0).sumSent = false ∧ busy.line.state ≠ .mute ∧ (reading 0 0).expected ≠ [] ∧
      busy.line.queue.length + busy.votes.length ≤ 32 ∧ ({ reading 0 0 with sumSent := true } : Vote).sumSent = true) ∧
    Bounded busy ∧ Consistent busy :=
  ⟨by decide +kernel, by decide +kernel, by decide +kernel, bounded_busy, consistent_busy⟩

/-- The position of a reel. -/
abbrev posOf (s : State) (reel : Nat) : Nat := s.holdings.findIdx fun x => x.reel = reel

theorem test_witness_DropHoldingMovesTheCursor :
    ((twoReels 0).ready (.dropHolding [0, 0, 0, 5]) = true ∧ (twoReels 0).sweep.suspended = true) ∧
    ((twoReels 0).sweep.cursorPos = posOf (twoReels 0) 5 ∧ posOf (twoReels 0) 5 + 1 < (twoReels 0).holdings.length) ∧
    ((twoReels 1).sweep.cursorPos = posOf (twoReels 1) 6 ∧ posOf (twoReels 1) 6 + 1 = (twoReels 1).holdings.length) ∧
    posOf (twoReels 1) 5 < (twoReels 1).sweep.cursorPos ∧ (twoReels 0).sweep.cursorPos < posOf (twoReels 0) 6 := by
  and_intros <;> decide +kernel

theorem test_witness_SuspendAndResumeMoveTheFlag :
    base.ready (.suspend []) = true ∧ base.ready (.resume []) = true ∧
    (let s := { base with holdings := [] }
     s.ready (.resume []) = true ∧ State.sweepState { s with sweep := { s.sweep with suspended := false } } ≠ .running) := by
  and_intros <;> decide +kernel

theorem test_witness_CadenceSetsPeriodAndMasks :
    base.ready (.cadence (List.replicate 9 0)) = true ∧ (List.replicate 9 (0 : Byte)).length = 9 ∧
      base.sweep.suspended = true := by decide +kernel

/-- A gap that runs. -/
def gapRuns : State :=
  { base with sweep := { Sweep.reset with gap := some { start := 0, length := 5 }, remainder := 0 } }

theorem test_witness_BurstSetsTheCount :
    (gapRuns.ready (.burst [254]) = true ∧ gapRuns.sweep.suspended = true ∧ gapRuns.sweep.gap.isSome = true ∧
      max 1 (254 : Byte).toNat < 255) ∧
    (gapRuns.ready (.burst [255]) = true ∧ max 1 (255 : Byte).toNat = 255) ∧
    (base.ready (.burst [0]) = true ∧ base.sweep.gap = none) := by decide +kernel

theorem test_witness_GapTimerExpiryEndsTheGap :
    gapRuns.sweep.gap = some { start := 0, length := 5 } ∧ gapRuns.sweep.suspended = true ∧
    (gapRuns.now < 0 + 5 * 1000000 ∧ 0 + 5 * 1000000 ≤ ({ gapRuns with now := 5000000 } : State).now ∧
      gapRuns.line.listenCount ≤ 290) ∧
    (let s := { gapRuns with sweep := { gapRuns.sweep with suspended := false }, holdHigh := true }
     s.sweep.gap.isSome = true ∧ s.holdAsserted = true) ∧
    (let s := { gapRuns with sweep := { gapRuns.sweep with suspended := false } }
     s.sweep.gap.isSome = true ∧ s.holdAsserted = false) := by decide +kernel

/-- The sweep goes on, with the one holding. -/
def swept : State := { base with sweep := runningSweep }

theorem test_witness_SweepWalksWhileRunning :
    base.sweep.suspended = true ∧ (swept.sweep.suspended = false ∧ State.holdAsserted { swept with holdHigh := true } = true) ∧
    swept.holdAsserted = false ∧
    (let s := { gapRuns with sweep := { gapRuns.sweep with suspended := false } }
     s.holdAsserted = false ∧ s.sweep.gap.isSome = true) ∧
    (let s := { swept with holdings := [] }
     s.sweep.gap = none ∧ ∀ h ∈ s.holdings, s.sweep.masks.toList.getD h.tier 0 = 0) ∧
    (∃ h ∈ swept.holdings, swept.sweep.masks.toList.getD h.tier 0 ≠ 0) ∧
    (let s := { fullTable with sweep := runningSweep }
     24 ≤ s.votes.length ∧ s.sweepState = .backedUp) ∧
    (let s := { withReports 48 with sweep := runningSweep }
     48 ≤ s.port.reports.length ∧ s.sweepState = .backedUp) ∧
    ¬ (24 ≤ swept.votes.length ∨ 48 ≤ swept.port.reports.length) ∧ swept.sweepState = .running := by
  and_intros <;> decide +kernel

/-- The sweep at frame 2, the last, of the one holding. -/
def atLast (sweep : Sweep) : State := { base with sweep := { sweep with suspended := false, cursorFrame := 2 } }

theorem test_witness_WalkStepRows :
    (let s := { swept with sweep := { runningSweep with cursorPos := 1 } }; s.holdings[s.sweep.cursorPos]? = none) ∧
    swept.holdings[swept.sweep.cursorPos]? = some oneHolding ∧
    (let s := { swept with sweep := { runningSweep with masks := Vector.replicate 4 0 } }
     (s.sweep.masks.toList.getD oneHolding.tier 0).getLsbD s.sweep.r = false) ∧
    oneHolding.frames ≤ ({ swept with sweep := { runningSweep with cursorFrame := 3 } } : State).sweep.cursorFrame ∧
    (let s := atLast runningSweep
     oneHolding.frames = s.sweep.cursorFrame + 1 ∧ s.holdings.length = s.sweep.cursorPos + 1) ∧
    (let s := { twoReels 0 with sweep := { runningSweep with cursorFrame := 2 } }
     oneHolding.frames = s.sweep.cursorFrame + 1 ∧ s.sweep.cursorPos + 1 < s.holdings.length) ∧
    (swept.sweep.masks.toList.getD oneHolding.tier 0).getLsbD swept.sweep.r = true ∧
    (let s := { withVotes [gathering 0 0] with sweep := runningSweep }
     ∃ v ∈ s.votes, v.key = { reel := oneHolding.reel, frame := s.sweep.cursorFrame }) ∧
    swept.sweep.cursorFrame + 1 < oneHolding.frames ∧ (atLast runningSweep).sweep.cursorFrame < oneHolding.frames ∧
    (atLast { runningSweep with burst := 255, remainder := 255 }).sweep.burst = 255 ∧
    (atLast { runningSweep with burst := 254, remainder := 2 }).sweep.remainder = 2 ∧
    (let s := atLast { runningSweep with remainder := 1 }
     s.sweep.burst < 255 ∧ s.sweep.remainder = 1 ∧ s.walkStep.governor.gap ≠ 0) ∧
    (let s := { atLast { runningSweep with remainder := 1 } with governor := { Governor.reset with gap := 0 } }
     s.sweep.remainder = 1 ∧ s.walkStep.governor.gap = 0) := by
  and_intros <;> decide +kernel

theorem test_witness_CursorMovesOnAndRoundsComplete :
    swept.sweep.cursorFrame + 1 < oneHolding.frames ∧
    oneHolding.frames ≤ (atLast runningSweep).sweep.cursorFrame + 1 ∧ 0 < base.holdings.length ∧
    base.holdings.length ≤ 1 ∧ base.port.reports.length < 64 := by decide +kernel

theorem test_witness_VotesOpenWithTheirCall :
    ((base.holdingOf 5).peers ≠ [] ∧ base.line.state ≠ .mute ∧ base.line.queue.length < 32) ∧
    (base.holdingOf 6).peers = [] ∧
    ({ base with line := { base.line with state := .mute } } : State).line.state = .mute ∧
    (∀ m ∈ [message (.tiles (key 0) 9 1 0 [8]), callMessage, { callMessage with onLine := true }],
      let s := withQueue (List.replicate 31 callMessage ++ [m])
      32 ≤ s.line.queue.length ∧ (s.line.mayDiscard m = true ↔ m.onLine = false)) ∧
    (message (.tiles (key 0) 9 1 0 [8])).body.lineClass = 2 ∧ callMessage.body.lineClass = 1 ∧
    (let s := withQueue (List.replicate 32 { callMessage with onLine := true })
     32 ≤ s.line.queue.length ∧ ∀ y ∈ s.line.queue, s.line.mayDiscard y = false) := by decide +kernel

/-- VERIFY and REWRITTEN of a frame of reel 5. -/
def keyBody (frame : Byte) : List Byte := [0, 0, 0, 5, 0, 0, 0, frame]

theorem test_witness_VerifyMergesOrOpens :
    (base.ready (.verify [0, 0, 0, 6, 0, 0, 0, 0]) = true ∧
      ∀ h ∈ base.holdings, h.reel ≠ field [0, 0, 0, 6, 0, 0, 0, 0] 0 4) ∧
    (base.ready (.verify (keyBody 3)) = true ∧ base.holding? 5 = some oneHolding ∧ oneHolding.frames ≤ 3) ∧
    (busy.ready (.verify (keyBody 2)) = true ∧ 2 < oneHolding.frames ∧ busy.vote? (key 2) = some (localising 2 2) ∧
      (busy.votes.map Vote.id).Nodup ∧ (localising 2 2).state ≠ .awaitingRead) ∧
    (let s := { fullTable with holdings := [{ oneHolding with frames := 25 }] }
     s.ready (.verify (keyBody 24)) = true ∧ (∀ v ∈ s.votes, v.key ≠ key 24) ∧ 24 ≤ s.votes.length) ∧
    (let s := { fullTable with votes := fullTable.votes.drop 1 }
     s.ready (.verify (keyBody 0)) = true ∧ (∀ v ∈ s.votes, v.key ≠ key 0) ∧ s.votes.length < 24) := by
  and_intros <;> decide +kernel

theorem test_witness_RewrittenStartsTheRecheck :
    (busy.ready (.rewritten (keyBody 0)) = true ∧ busy.mend? (key 0) = none) ∧
    (busy.ready (.rewritten (keyBody 1)) = true ∧ busy.mend? (key 1) = some (entry 1) ∧
      (entry 1).state = .awaitingRewrite 0 ∧ busy.vote? (key 1) = some (gathering 1 1) ∧
      (busy.votes.map Vote.id).Nodup ∧ (gathering 1 1).state ≠ .awaitingRead) ∧
    (let s := { fullTable with holdings := [{ oneHolding with frames := 25 }], mends := [entry 24] }
     s.mend? (key 24) = some (entry 24) ∧ (∀ v ∈ s.votes, v.key ≠ key 24) ∧ 24 ≤ s.votes.length) ∧
    (let s := { base with mends := [entry 1] }
     s.mend? (key 1) = some (entry 1) ∧ (∀ v ∈ s.votes, v.key ≠ key 1) ∧ s.votes.length < 24) := by
  and_intros <;> decide +kernel

theorem test_witness_VoteAndMendTimersExpire : Consistent busy ∧
    (busy.votes = [reading 0 0] ++ gathering 1 1 :: [localising 2 2] ∧ (gathering 1 1).timer = some 0 ∧
      (reading 0 0).timer = none ∧ (localising 2 2).timer = none) ∧
    (busy.votes = [reading 0 0, gathering 1 1] ++ localising 2 2 :: [] ∧
      (localising 2 2).localisation = some { source := none, received := [none], start := 0 } ∧
      (localising 2 2).decision = some badDecision ∧ (gathering 1 1).localisation = none) ∧
    (busy.mends = [] ++ entry 1 :: [] ∧ (entry 1).state = .awaitingRewrite 0) := by
  refine ⟨consistent_busy, ?_⟩
  and_intros <;> decide +kernel

/-- A vote in GATHERING with answers. -/
def answered (own : OwnStatus) (reference : Option Word) (answers : List Answer) : Vote :=
  { gathering 1 1 with own := own, reference := reference, answers := answers }

theorem test_witness_ClosureDecidesTheVote : Consistent busy ∧ gathering 1 1 ∈ busy.votes ∧
    ((gathering 1 1).decidedBy oneHolding).verdict = .unconfirmed ∧
    (let v := answered (.readOk 7) none [okAnswer 1 9, okAnswer 2 9]
     (v.decidedBy oneHolding).verdict = .bad ∧ Consistent { busy with votes := [reading 0 0, v] }) ∧
    (let v := answered (.readOk 9) none [okAnswer 1 9, okAnswer 2 8]
     let d := v.decidedBy oneHolding
     d.verdict = .good ∧ d.agreed = some 9 ∧ (∃ a ∈ v.answers, a.status = .readOk ∧ a.summary = some 8) ∧
       ∀ a ∈ v.answers, a.status = .readOk → a.summary = some 9 → busy.strap.station.val < a.station) ∧
    timeOfCode busy.timers.localisation ≠ 0 ∧ timeOfCode (instant busy).timers.localisation = 0 := by
  refine ⟨consistent_busy, ?_, ?_, ⟨?_, consistent_of_fit (by unfold Fit; decide +kernel)⟩, ?_, ?_, ?_⟩ <;> decide +kernel

theorem test_witness_OneAgreedValueAtMost :
    let v := answered (.readOk 9) none [okAnswer 1 9]
    (∀ a ∈ v.answers, a.status ≠ .readOk → a.summary = none) ∧
      v.countedTotal oneHolding < 2 * (1 + v.answers.countP fun a => a.summary = some 9) ∧
      agreedValue (v.countedTotal oneHolding) v.summaries = some 9 := by
  and_intros <;> decide +kernel

/-- Agreed value and verdict. -/
def judged (v : Vote) : Option Word × Verdict :=
  (agreedValue (v.countedTotal oneHolding) v.summaries, (v.decidedBy oneHolding).verdict)

theorem test_witness_VerdictIsTheFirstCase :
    judged (answered (.unreadable .timeout) none []) = (none, .unreadable) ∧
    judged (answered (.readOk 9) none [okAnswer 1 9]) = (some 9, .good) ∧
    judged (answered (.readOk 7) none [okAnswer 1 9, okAnswer 2 9]) = (some 9, .bad) ∧
    judged (answered (.readOk 7) (some 7) []) = (none, .good) ∧
    judged (answered (.readOk 7) (some 9) [okAnswer 1 9]) = (none, .bad) ∧
    judged (answered (.readOk 7) (some 9) []) = (none, .split) ∧
    judged (answered (.readOk 7) none [okAnswer 1 9]) = (none, .split) ∧
    judged (answered (.readOk 7) none []) = (none, .unconfirmed) ∧
    (answered (.readOk 7) none []).own ≠ .pending ∧ oneHolding.isLeader 2 = false ∧
    ((answered (.readOk 9) (some 8) [okAnswer 1 9]).judgement oneHolding).refDiffers = true ∧
    ((answered (.readOk 7) (some 8) [okAnswer 1 9, okAnswer 2 9]).judgement oneHolding).refDiffers = false ∧
    ((answered (.readOk 7) (some 7) []).judgement oneHolding).refDiffers = false ∧
    Holding.isLeader { oneHolding with head := 1 } 0 = true ∧
    Holding.isLeader { oneHolding with tail := 4 } 0 = true := by
  and_intros <;> decide +kernel

/-- A decision of UNREADABLE with an agreed summary. -/
def unreadableDecision : Decision := { badDecision with verdict := .unreadable }

theorem test_witness_DeliveryLeavesItsMarks :
    let v := localising 2 2
    let full := (List.range 16).map fun i => entry (i + 3)
    v.id < busy.nextVote ∧ v.origins.mend = false ∧
    (badDecision.verdict = .bad ∧ badDecision.leader = false ∧ badDecision.mendAllowed = true ∧
      badDecision.agreed = some 9 ∧ (∀ e ∈ busy.mends, e.key ≠ v.key) ∧ busy.mends.length < 16 ∧ v.own = .readOk 7) ∧
    badDecision.asksMend = true ∧ v.goodStations busy.strap.station.val (some 9) = [1, 2] ∧
    v.goodStations busy.strap.station.val (some 7) = [0] ∧ v.goodStations busy.strap.station.val none = [] ∧
    State.mendFull { busy with mends := full } v.key = true ∧ State.mendFull { busy with mends := full } (key 3) = false ∧
    16 ≤ full.length ∧ (∃ e ∈ busy.mends, e.key = (gathering 1 1).key) ∧ busy.port.reports.length < 63 ∧
    unreadableDecision.verdict = .unreadable ∧ v.origins.sweep = true ∧
    ({ v with flags := { v.flags with refDiffers := true } } : Vote).flags.refDiffers = true ∧
    (let w := { v with origins := { Origins.none with mend := true } }
     w.origins.order = false ∧ w.origins.mend = true ∧ w.origins.sweep = false ∧ w.origins.peer = false) ∧
    ({ badDecision with leader := true } : Decision).leader = true ∧
    (let w := { v with callPending := true }
     w.callPending = true ∧ busy.line.state ≠ .mute ∧ w.expected ≠ [] ∧ busy.line.queue.length < 32 ∧
       (busy.ownSum? w).isSome = true ∧ v.callPending = false) := by
  and_intros <;> decide +kernel

theorem test_witness_MendVotesSettleTheirEntry :
    let v := { answered (.readOk 9) none [] with origins := { Origins.none with mend := true } }
    let good : Decision := { badDecision with verdict := .good }
    let s := { busy with mends := [entry 1, entry 2] }
    v.origins.mend = true ∧ (s.mends.map MendEntry.key).Nodup ∧ s.mends = [] ++ entry 1 :: [entry 2] ∧
      (entry 1).key = v.key ∧ (good.verdict = .good ∧ v.own.summary = some (entry 1).agreed) ∧
      ¬ (badDecision.verdict = .good ∧ v.own.summary = some (entry 1).agreed) ∧ (entry 1).failed < 2 ∧
      2 ≤ ({ entry 1 with failed := 2 } : MendEntry).failed ∧ s.port.reports.length < 64 ∧
      (badDecision.verdict = .bad ∧ badDecision.agreed = some (entry 1).agreed) ∧ good.verdict ≠ .bad := by
  and_intros <;> decide +kernel

/-- An evidence entry of n checks. -/
def evidenceOf (n : Nat) : EvidenceEntry :=
  { number := 0, key := key 0, verdict := .bad, own := 7, agreed := some 9, tiles := n, checks := List.replicate n 6
    source := some (List.replicate n 6), badTiles := none }

theorem test_witness_EvidenceLeavesOldestFirst :
    (evidenceOf 255).slots ≤ 510 ∧ (base.ready (.takeEvidence []) = true ∧ base.evidence.entries = []) ∧
    (let s := { base with evidence := { entries := [evidenceOf 1], next := 1 } }
     s.ready (.takeEvidence []) = true ∧ s.evidence.entries = evidenceOf 1 :: []) := by
  and_intros <;> decide +kernel

theorem test_witness_PaceAndSettleSetTheGovernor :
    (base.ready (.pace [1, 0, 0, 0, 0, 0, 0, 0, 0, 0]) = true ∧ field [1, 0, 0, 0, 0, 0, 0, 0, 0, 0] 0 1 = 1) ∧
    (base.ready (.pace [2, 0, 0, 0, 0, 0, 0, 0, 0, 0]) = true ∧ field [2, 0, 0, 0, 0, 0, 0, 0, 0, 0] 0 1 = 2) ∧
    (base.ready (.pace [3, 0, 0, 0, 0, 0, 0, 0, 0, 0]) = true ∧ field [3, 0, 0, 0, 0, 0, 0, 0, 0, 0] 0 1 = 3) ∧
    base.ready (.settle []) = true ∧ base.governor.mode = .adaptive ∧
    ({ base with governor := { Governor.reset with mode := .fixed } } : State).governor.mode = .fixed := by
  and_intros <;> decide +kernel

/-- A governor with limits, gap and depth average. -/
def governorOf (gmin gmax gap average : Nat) : Governor :=
  { Governor.reset with gmin := gmin, gmax := gmax, gap := gap, average := average }

theorem test_witness_StepsLeaveTheGapInRange :
    ((governorOf 5 9 9 41).mode = .adaptive ∧ (let g := { governorOf 5 9 9 41 with mode := .fixed }
      g.mode = .fixed ∧ g.settle = 0 ∧ 1 ≤ ({ g with settle := 1 } : Governor).settle)) ∧
    ((governorOf 5 9 9 41).gmin ≤ (governorOf 5 9 9 41).gmax ∧ 4 < (governorOf 5 9 9 41).gmin ∧
      (governorOf 5 9 9 41).gmax < 10) ∧
    (governorOf 5 9 9 41).InRange ∧ 16 * 2 + 8 < (governorOf 5 9 9 41).average ∧
      (governorOf 5 9 9 41).gmax ≤ grow (governorOf 5 9 9 41).gap ∧
    (governorOf 5 9 5 23).InRange ∧ ((governorOf 5 9 5 23).average : Int) < 16 * 2 - 8 ∧
      shrink (governorOf 5 9 5 23).gap ≤ (governorOf 5 9 5 23).gmin ∧
    (governorOf 5 9 5 24).InRange ∧ (16 * 2 - 8 : Int) ≤ (governorOf 5 9 5 24).average ∧
      (governorOf 5 9 5 40).average ≤ 16 * 2 + 8 ∧ (governorOf 7 7 7 0).gmin = (governorOf 7 7 7 0).gmax := by
  refine ⟨by decide, by decide, ⟨?_, ?_, ?_, ?_, ?_, ?_, ?_, ?_⟩, by decide, by decide, ⟨?_, ?_, ?_, ?_, ?_, ?_, ?_, ?_⟩, by decide,
    by decide, ⟨?_, ?_, ?_, ?_, ?_, ?_, ?_, ?_⟩, by decide, by decide, by decide⟩ <;> decide

theorem test_witness_TimeCodesRise : (0 : Nat) < 8 ∧ (511 : Nat) < 512 ∧ (0 : Nat) < 4095 ∧
    timeOfCode 511 < timeOfCode 512 ∧ timeOfCode 4094 < timeOfCode 4095 := by decide

theorem test_witness_TimingSetsTheLimits :
    base.ready (.timing (List.replicate 10 0)) = true ∧ (List.replicate 10 (0 : Byte)).length = 10 ∧ base.votes = [] ∧
      base.read.fetches = [] ∧ base.mends = [] ∧
      (∀ station < 32, base.line.heardOf station = .unknown ∨ base.line.heardOf station = .self) := by
  and_intros <;> decide +kernel

/-- The busy state, with station 1 PRESENT. -/
def busyHeard : State := { busy with line := (busy.line.modifyRoster 1 fun e => { e with heard := .present 0 }) }

theorem test_witness_TimingExpiresWhatIsDue :
    busyHeard.ready (.timing (List.replicate 10 0)) = true ∧ Bounded busyHeard ∧ Consistent busyHeard ∧
      (gathering 1 1 ∈ busyHeard.votes ∧ (gathering 1 1).timer = some 0) ∧
      (fetchOf 0 0 ∈ busyHeard.read.fetches ∧ reading 0 0 ∈ busyHeard.votes ∧
        (fetchOf 0 0).issued + 0 ≤ busyHeard.now) ∧
      (localising 2 2 ∈ busyHeard.votes ∧ (localising 2 2).localisation.isSome = true) ∧
      busyHeard.line.heardOf 1 = .present 0 ∧
      (let s := { busyHeard with now := 1000000000 }
       entry 1 ∈ s.mends ∧ (entry 1).state = .awaitingRewrite 0 ∧ 0 + 1 * 1000000000 ≤ s.now) :=
  ⟨by decide +kernel, { bounded_busy with queue := by constructor <;> decide +kernel, listen := by decide +kernel },
    consistent_of_fit (by unfold Fit; decide +kernel), by decide +kernel, by decide +kernel, by decide +kernel,
    by decide +kernel, by decide +kernel⟩

/-- A watch with a history, an alarm and thresholds. -/
def watching (history : List Bool) (alarm : Bool) (rising falling : Nat) (enable : Bool) : State :=
  { base with watch := { history := history, alarm := alarm, rising := rising, falling := falling, reportEnable := enable } }

theorem test_witness_AlarmFollowsTheCount :
    (let s := watching [true] false 8 2 false
     s.ready (.watch [0, 1, 0, 0, 1]) = true ∧ (after (.watch [0, 1, 0, 0, 1]) s fun t => t.watch.alarm) = some true) ∧
    (let s := watching [true, true, true] true 8 2 false
     s.ready (.watch [0, 8, 0, 2, 1]) = true ∧ s.watch.alarm = true ∧ s.watch.reportEnable = false ∧
       (after (.watch [0, 8, 0, 2, 1]) s fun t => t.port.reports.length) = some 1) ∧
    (let s := watching (List.replicate 256 true) true 8 2 true
     256 ≤ s.watch.history.length ∧ (s.watchBit false (key 0)).watch.alarm = s.watch.alarm) ∧
    (let s := watching [true] false 2 0 true
     (s.watchBit true (key 0)).watch.alarm ≠ s.watch.alarm ∧ s.watch.reportEnable = true) := by
  and_intros <;> decide +kernel

theorem test_witness_CountersCountAndClear : base.ready (.clearCounters []) = true ∧ Counter.good ≠ Counter.bad := by
  decide +kernel

theorem test_witness_ViewAndPeekWalkTheViews :
    (base.ready (.view [1]) = true ∧ (1 : Byte).toNat = View.status.code ∧ (8 : Byte).toNat = View.settings.code) ∧
    (base.ready (.view [0]) = true ∧ (0 : Byte).toNat = 0 ∧ 8 < (9 : Byte).toNat) ∧
    (let s := { base with port := { base.port with view := .counters, index := 22 } }
     s.ready (.peek []) = true ∧ (s.viewRecord? s.port.view s.port.index).isSome = true) ∧
    (let s := { base with port := { base.port with view := .counters, index := 23 } }
     s.viewRecord? s.port.view s.port.index = none) ∧
    (busy.holdings[0]? = some oneHolding ∧ busy.votes[2]? = some (localising 2 2) ∧ busy.mends[0]? = some (entry 1) ∧
      ({ entries := [evidenceOf 1], next := 1 } : Evidence).entries[0]? = some (evidenceOf 1) ∧
      busy.line.roster[31]? = some { heard := .unknown, holdings := none }) := by
  and_intros <;> decide +kernel

theorem test_witness_ResetsLeaveTheResetValues :
    base.ready (.reset []) = true ∧
    (let s := { base with port := { base.port with resetTaken := true } }
     s.port.resetTaken = true ∧ s.port.replyStands = false) ∧
    base.port.resetTaken = false ∧ base.resetLine = false ∧
    (let s := { base with resetLine := true }
     s.resetLine = true ∧ s.port.link = none ∧ s.port.start = none) := by
  and_intros <;> decide +kernel

/-- A frame of two tiles: the last is of 1 byte. -/
def twoTiles : State :=
  { busy with
    holdings := [{ oneHolding with length := 65537, tiles := 2 }]
    votes := [{ reading 0 0 with checks := [6] }, gathering 1 1, localising 2 2]
    read := { fetches := [{ fetchOf 0 0 with next := 1 }], tagCounter := 1 } }

theorem test_witness_BlocksAreSortedByTagIndexAndLength : Consistent busy ∧
    (busy.ready (.block [0, 0, 0]) = true ∧ [(0 : Byte), 0, 0].length < 4) ∧
    ([(0 : Byte), 0, 0, 1, 2, 3, 4].getD 3 0 ≠ 0 ∧ [(0 : Byte), 0, 0, 1, 2, 3, 4].length < 8) ∧
    (readBlock [9, 0, 3, 0, 6]).isSome = true ∧ (∀ f ∈ busy.read.fetches, f.tag ≠ 9) ∧
    (readBlock [0, 0, 3, 0, 6] = some { tag := 0, index := 0, depth := 3, reference := none, tile := [6] } ∧
      fetchOf 0 0 ∈ busy.read.fetches ∧ reading 0 0 ∈ busy.votes ∧ (reading 0 0).key = (fetchOf 0 0).key ∧
      (fetchOf 0 0).next = 0 ∧ (fetchOf 0 0).next + 1 = oneHolding.tiles ∧
      tileLength oneHolding.length (tileSize busy.strap.tileCode) oneHolding.tiles 0 = 1) ∧
    (Consistent twoTiles ∧ ∃ f ∈ twoTiles.read.fetches, f.next + 1 = (twoTiles.holdingOf 5).tiles) ∧
    (let s := { twoTiles with votes := busy.votes, read := { fetches := [fetchOf 0 0], tagCounter := 1 } }
     Consistent s ∧ ∃ f ∈ s.read.fetches, f.next + 1 ≠ (s.holdingOf 5).tiles ∧
       tileLength 65537 (tileSize s.strap.tileCode) 2 f.next = (List.replicate 65536 (0 : Byte)).length) := by
  refine ⟨consistent_busy, ?_, ?_, ?_, ?_, ?_, ⟨consistent_of_fit (by unfold Fit; decide +kernel), ?_⟩,
    consistent_of_fit (by unfold Fit; decide +kernel), fetchOf 0 0, by decide, by decide, ?_⟩
  · decide +kernel
  · decide +kernel
  · decide +kernel
  · decide +kernel
  · and_intros <;> decide +kernel
  · decide +kernel
  · rw [List.length_replicate]; decide

theorem test_witness_FetchesEndUnreadable : Consistent busy ∧
    (busy.ready (.fetchFailed [0, 3]) = true ∧ (3 : Byte).toNat ≠ 1 ∧ (3 : Byte).toNat ≠ 2) ∧
    (busy.ready (.fetchFailed [9, 1]) = true ∧ ∀ f ∈ busy.read.fetches, f.tag ≠ 9) ∧
    (busy.ready (.fetchFailed [0, 2]) = true ∧ fetchOf 0 0 ∈ busy.read.fetches ∧ (fetchOf 0 0).tag = 0) ∧
    (busy.ready (.fetchFailed [0]) = true ∧ [(0 : Byte)].length ≠ 2) ∧
    busy.read.fetches = [] ++ fetchOf 0 0 :: [] ∧ (reading 0 0 ∈ busy.votes ∧ (reading 0 0).key = (fetchOf 0 0).key) ∧
    (timeOfCode busy.timers.fetch ≠ 0 ∧ base.read.fetches = [] ∧ busy.sweepState ≠ .running) ∧
    (timeOfCode (instant busy).timers.fetch = 0 ∧ (instant busy).read.fetches = fetchOf 0 0 :: []) ∧
    Bounded (instant busy) ∧ Consistent (instant busy) := by
  refine ⟨consistent_busy, ?_, ?_, ?_, ?_, ?_, ?_, ?_, ?_, bounded_busy.setTimers (by constructor <;> decide),
    { consistent_busy with }⟩
  all_goals and_intros <;> decide +kernel

theorem test_witness_OwnStatusMovesTheVoteOn :
    ((busy.votes.map Vote.id).Nodup ∧ reading 0 0 ∈ busy.votes ∧ OwnStatus.readOk 7 ≠ .pending) ∧
    ((∃ x ∈ (reading 0 0).expected, (reading 0 0).answered x = false ∧ busy.line.isSilent x = false) ∧
      (reading 0 0).callPending = false ∧ busy.line.state ≠ .mute ∧ busy.line.queue.length < 32) ∧
    ({ reading 0 0 with callPending := true } : Vote).callPending = true ∧
    (let v := { reading 0 0 with answers := [okAnswer 1 9] }
     ¬ ∃ x ∈ v.expected, v.answered x = false ∧ busy.line.isSilent x = false) ∧
    timeOfCode busy.timers.vote ≠ 0 ∧ timeOfCode (instant busy).timers.vote = 0 := by
  and_intros <;> decide +kernel

theorem test_witness_ArbiterIssuesByClassAndAge :
    busy.read.fetches.length < 4 ∧ (withVotes [waiting 0 0]).chosen? = some (waiting 0 0) ∧
    (withVotes [waiting 0 0]).read.fetches.length < 4 ∧
    State.chosen? { withVotes [waiting 0 0] with holdHigh := true } = none ∧
    (let four := [fetchOf 0 0, fetchOf 1 1, fetchOf 2 2, fetchOf 3 3]
     let s := { withVotes [waiting 0 0] with read := { ReadEngine.reset with fetches := four } }
     4 ≤ s.read.fetches.length ∧ (s.chosen?).isSome = true) := by
  and_intros <;> decide +kernel

theorem test_witness_HoldLineStopsAndReleases :
    base.holdAsserted = false ∧ State.holdAsserted { base with holdHigh := true } = true := by decide

theorem test_witness_FramesAreCheckedAndTestedForForm :
    State.resetLine { base with resetLine := true } = true ∧ base.hears = true ∧
    ((withQueue [{ callMessage with onLine := true }]).resetLine = false ∧
      (withQueue [{ callMessage with onLine := true }]).line.transmitting = true) ∧ checkCandidate [0xA5] = none ∧
    checkCandidate [] = none ∧ [(1 : Byte), 0, 4].length ≤ 65535 ∧ readFrame 4 1 [1, 0, 4] = some (.present .joining 4) ∧
    readFrame 5 1 [1, 0, 4] = none ∧ readFrame 4 32 [1, 0, 4] = none ∧ readFrame 1 1 [] = none ∧
    readFrame 2 1 [] = none ∧ readFrame 3 1 [] = none ∧ readFrame 4 1 [] = none ∧
    (let frame := (LineBody.present .beacon 512).frameBytes 31
     frame.length = 7 + field frame 3 2 ∧ (checkCandidate frame).isSome = true ∧
       checkCandidate (0xA4 :: frame.drop 1) = none ∧ checkCandidate (frame ++ [0]) = none ∧
       checkCandidate frame.dropLast = none ∧ checkCandidate (frame.dropLast ++ [0]) = none) := by
  and_intros <;> decide +kernel

/-- A malformed form of each kind beside one that is not: key, codes, counts and lengths at their bounds (R64, R178). -/
theorem test_malformed :
    (let key := fun (reel : Byte) (frame : List Byte) => [0, 0, 0, reel] ++ frame
     let sum := fun (k : List Byte) (status ref : Byte) => readFrame 1 1 (k ++ [status, 0, 0, 0, 9, 1, ref])
     let top := [(0 : Byte), 3, 255, 254]
     (sum (key 1 top) 4 2).isSome = true ∧ sum (key 0 top) 4 2 = none ∧ sum (key 1 [0, 3, 255, 255]) 4 2 = none ∧
       sum (key 1 top) 0 2 = none ∧ sum (key 1 top) 5 2 = none ∧ sum (key 1 top) 4 3 = none) ∧
    (let call := fun (count : Byte) (places : List Byte) => readFrame 2 1 ([0, 0, 0, 1, 0, 0, 0, 0, count] ++ places)
     (call 1 [31, 32, 255, 255]).isSome = true ∧ call 2 [31, 32, 255, 255] = none ∧ call 0 [1, 1, 1, 1] = none ∧
       call 5 [1, 1, 1, 1] = none ∧ call 1 [1, 1, 1] = none) ∧
    (let tiles := fun (n k : Byte) (checks : List Byte) =>
       readFrame 3 1 ([0, 0, 0, 1, 0, 0, 0, 0, 0, 0, 0, 9, n, 0, k] ++ checks)
     (tiles 1 1 [0, 0, 0, 8]).isSome = true ∧ tiles 0 1 [0, 0, 0, 8] = none ∧ tiles 1 2 [0, 0, 0, 8] = none ∧
       tiles 1 0 [] = none ∧ tiles 33 33 (List.replicate 132 0) = none) ∧
    (readFrame 4 31 [2, 2, 0]).isSome = true ∧ readFrame 4 31 [2, 2, 1] = none ∧ readFrame 4 31 [3, 2, 0] = none ∧
    readFrame 4 31 [0, 2, 0] = none ∧ readFrame 0 31 [2, 2, 0] = none := by
  and_intros <;> decide +kernel

theorem test_witness_LineFramesReadAsBuilt :
    (31 ≤ 31 ∧ 1 ≤ (4294967295 : Nat) ∧ (262142 : Nat) ≤ 262142 ∧ (255 : Nat) ≤ 255) ∧
    checkCandidate ((LineBody.present .beacon 512).frameBytes 31) =
      some { kind := 4, source := 31, body := [2, 2, 0] } := by decide +kernel

/-- Station 1 was SILENT. -/
def heardSilent : State := { base with line := (base.line.modifyRoster 1 fun e => { e with heard := .silent 0 }) }

theorem test_witness_StationsAreHeardAndDuplicatesMute :
    (readFrame 1 1 (sumBody 1 1) = some (.sum (key 1) .readOk 9 1 .none) ∧ readFrame 2 2 (callBody 1) =
      some (.call (key 1) [0]) ∧ readFrame 3 1 (tilesBody 1 0 [0, 0, 0, 8]) = some (.tiles (key 2) 9 1 0 [8]) ∧
      readFrame 4 1 [2, 2, 0] = some (.present .beacon 512)) ∧
    base.hears = true ∧ (1 : Byte).toNat ≠ base.strap.station.val ∧ (0 : Byte).toNat = base.strap.station.val ∧
    (base.line.isSilent 1 = false ∧ heardSilent.line.isSilent 1 = true ∧ heardSilent.hears = true) ∧
    base.line.state ≠ .mute ∧ base.port.reports.length < 64 ∧
    (timeOfCode base.timers.silence ≠ 0 ∧ timeOfCode (instant base).timers.silence = 0) ∧
    ({ base with line := { base.line with state := .mute } } : State).line.state = .mute := by
  and_intros <;> decide +kernel

/-- Entering MUTE clears CALL pending in the vote of a CALL that is lost, and leaves another vote as it was. -/
theorem test_mute_clears_callPending :
    (let pending := [{ gathering 0 0 with callPending := true }, { gathering 1 1 with callPending := true }]
     after (.present 0 [2, 0, 1])
       { withVotes pending with line := { base.line with queue := [callMessage] } } fun t => (t.line.state, t.votes)) =
      some (.mute, [gathering 0 0, { gathering 1 1 with callPending := true }]) := by decide +kernel

theorem test_witness_SumsAreRecordedOrStray : Consistent busy ∧ busy.hears = true ∧
    readFrame 1 1 (sumBody 1 1) = some (.sum (key 1) .readOk 9 1 .none) ∧ (1 : Byte).toNat ≠ busy.strap.station.val ∧
    (∀ v ∈ base.votes, v.key ≠ key 1) ∧ (localising 2 2 ∈ busy.votes ∧ (localising 2 2).state = .localising) ∧
    (let v := { gathering 1 1 with answers := (List.range 8).map fun i => okAnswer (i + 2) 7 }
     v.state ≠ .localising ∧ v.answered 1 = false ∧ 8 ≤ v.answers.length) ∧
    (reading 0 0 ∈ busy.votes ∧ (reading 0 0).state ≠ .gathering ∧ (reading 0 0).answers.length < 8) ∧
    (gathering 1 1 ∈ busy.votes ∧ (gathering 1 1).state = .gathering ∧
      ∀ y ∈ (gathering 1 1).expected, y = 1 ∨ (gathering 1 1).answered y = true) ∧
    ¬ ∀ y ∈ (gathering 1 1).expected, y = 2 ∨ (gathering 1 1).answered y = true ∨ busy.line.isSilent y = true := by
  refine ⟨consistent_busy, ?_⟩
  and_intros <;> decide +kernel

theorem test_witness_CallsMergeOpenOrAreAnswered : Consistent busy ∧ base.hears = true ∧
    readFrame 2 2 (callBody 1) = some (.call (key 1) [0]) ∧ (2 : Byte).toNat ≠ base.strap.station.val ∧
    (∀ v ∈ base.votes, v.key ≠ key 1) ∧ (key 1).frame < (base.holdingOf 5).frames ∧ base.votes.length < 24 ∧
    (let s := { fullTable with holdings := [{ oneHolding with frames := 25 }] }
     s.hears = true ∧ (∀ v ∈ s.votes, v.key ≠ key 24) ∧ 24 < (s.holdingOf 5).frames ∧ 24 ≤ s.votes.length) ∧
    (¬ 3 < (base.holdingOf 5).frames ∧ base.strap.station.val ∈ [0] ∧ base.strap.station.val ∉ [1]) ∧
    (gathering 1 1 ∈ busy.votes ∧ localising 2 2 ∈ busy.votes ∧ reading 0 0 ∈ busy.votes ∧
      (reading 0 0).own = .pending ∧ (gathering 1 1).own ≠ .pending ∧ busy.line.state ≠ .mute ∧
      (gathering 1 1).callPending = false ∧ busy.line.queue.length < 32) := by
  refine ⟨consistent_busy, ?_⟩
  and_intros <;> decide +kernel

theorem test_witness_TileChunksLocaliseTheBadTiles : Consistent busy ∧ busy.hears = true ∧
    readFrame 3 1 (tilesBody 1 0 [0, 0, 0, 8]) = some (.tiles (key 2) 9 1 0 [8]) ∧
    (1 : Byte).toNat ≠ busy.strap.station.val ∧ (∀ v ∈ base.votes, v.key = key 2 → v.state ≠ .localising) ∧
    (localising 2 2 ∈ busy.votes ∧ (localising 2 2).decision = some badDecision ∧ badDecision.agreed = some 9 ∧
      ∃ l, (localising 2 2).localisation = some l ∧ l.source = none ∧
        (∃ a ∈ (localising 2 2).answers, a.station = 1 ∧ a.status = .readOk ∧ a.summary = some 9) ∧
        placeChecks 0 [8] l.received = [8].map some ∧ frameSummary [8] = 9) ∧
    (badDecision.agreed ≠ some 8 ∧ (localising 2 2).checks.length = 1 ∧ 2 ≠ (localising 2 2).checks.length) ∧
    (readFrame 3 1 (tilesBody 1 1 [0, 0, 0, 8]) = some (.tiles (key 2) 9 1 1 [8]) ∧ 1 < 1 + [(8 : Word)].length) ∧
    ([(8 : Word)][0]? = some 8 ∧ placeChecks 1 [8] [none, none, some 5] = [none, some 8, some 5]) ∧
    (none ∈ placeChecks 0 [8] [none, none] ∧ frameSummary [7] ≠ 9) := by
  refine ⟨consistent_busy, by decide +kernel, by decide +kernel, by decide +kernel, by decide +kernel,
    ⟨by decide +kernel, by decide +kernel, by decide +kernel, { source := none, received := [none], start := 0 }, rfl, rfl,
      by decide +kernel, by decide +kernel, by decide +kernel⟩, ?_, ?_, ?_, ?_⟩ <;> decide +kernel

theorem test_witness_PresentRecordsTheHoldingCount :
    readFrame 4 1 [1, 0, 4] = some (.present .joining 4) ∧ base.hears = true ∧
      (1 : Byte).toNat ≠ base.strap.station.val ∧ base.line.state = .active ∧
      (∀ m ∈ base.line.queue, m.isBeacon = false) ∧ base.line.queue.length < 32 ∧
      readFrame 4 1 [2, 2, 0] = some (.present .beacon 512) := by
  and_intros <;> decide +kernel

/-- A full queue of messages of one body. -/
def fullQueue (body : LineBody) : State := withQueue (List.replicate 32 (message body))

theorem test_witness_OffersJoinByClassAndAge :
    ({ base with line := { base.line with state := .mute } } : State).line.state = .mute ∧
    ((withQueue (List.replicate 31 callMessage)).line.queue.length < 32 ∧ base.line.state ≠ .mute) ∧
    (let s := fullQueue (.present .beacon 1)
     32 ≤ s.line.queue.length ∧ s.line.queue = List.replicate 31 (message (.present .beacon 1)) ++
       message (.present .beacon 1) :: [] ∧ s.line.mayDiscard (message (.present .beacon 1)) = true ∧
       callMessage.body.lineClass < 3 ∧ (message (.present .beacon 1)).body.lineClass ≤ 3) ∧
    (let s := withQueue (List.replicate 32 callMessage)
     let sum := message (.sum (key 1) .notHeld 0 0 .none)
     s.line.queue.length = 32 ∧ s.line.queue = List.replicate 31 callMessage ++ callMessage :: [] ∧
       s.line.mayDiscard callMessage = true ∧ sum.body.lineClass < callMessage.body.lineClass ∧
       callMessage.body.lineClass ≤ 1) ∧
    (let s := withQueue (List.replicate 32 { callMessage with onLine := true })
     ∀ y ∈ s.line.queue, s.line.mayDiscard y = false) := by
  and_intros <;> decide +kernel

/-- A frame of the unit is on the line. -/
def onAir (m : Message) : State := withQueue [{ m with onLine := true }]

/-- The frame on the line is the unit's own, from the strapped station, and a receiver reads it. -/
theorem test_frameOnLine : (onAir (message (.present .beacon 1))).frameOnLine?.bind checkCandidate =
      some { kind := 4, source := BitVec.ofNat 8 base.strap.station.val, body := [2, 0, 1] } ∧
    (withQueue [callMessage]).frameOnLine? = none := by decide +kernel

/-- One frame on the line, of a message with 15 collisions behind it, is in range; two frames are not, and a queue out of
the order of classes is not. -/
theorem test_queueInRange : QueueInRange (onAir { callMessage with collisions := 15 }).line.queue ∧
    ¬ QueueInRange [{ callMessage with onLine := true }, { callMessage with onLine := true }] ∧
    ¬ QueueInRange [message (.present .beacon 1), callMessage] :=
  ⟨by constructor <;> decide, fun h => absurd h.sending (by decide), fun h => absurd h.ordered (by decide)⟩

/-- The line under a jam. -/
def jammed (s : State) : State := { s with line := s.line.jammed s.line.queue }

/-- A frame starts one slot later from a line under a jam than from a quiet one with a quiet count of 0 (log 17). -/
theorem test_lineFrameStart_after_jam :
    (after .lineFrameStart (jammed (withQueue [callMessage])) fun t => (t.now, t.line.quietCount, t.line.transmitting)) =
      some ((6 + 36 + base.strap.station.val + 1) * base.slotTime, 6 + 36 + base.strap.station.val, true) := by
  decide +kernel

theorem test_witness_FramesStartAndAreSent :
    (let s := withQueue [callMessage]
     s.resetLine = false ∧ s.line.transmitting = false ∧ s.line.activity = .quiet ∧
       s.line.queue = [] ++ callMessage :: [] ∧ s.line.state = .active) ∧
    (let s := { base with line := { base.line with
       state := .joining, queue := [callMessage, message (.present .joining 1)] } }
     s.line.transmitting = false ∧ s.line.queue = [callMessage] ++ message (.present .joining 1) :: [] ∧
       (message (.present .joining 1)).isJoining = true ∧ callMessage.isJoining = false) ∧
    (let s := jammed (withQueue [callMessage])
     s.line.transmitting = false ∧ s.line.activity = .jam ∧ s.line.quietCount < 6 + 36 * callMessage.body.lineClass) ∧
    (base.line.queue = [] ∧ (onAir callMessage).line.transmitting = true ∧ State.reset.line.state = .listen) ∧
    ({ base with line := { base.line with activity := .other } } : State).line.activity = .other ∧
    ((onAir callMessage).line.queue = [] ++ { callMessage with onLine := true } :: [] ∧
      (onAir (message (.present .beacon 1))).line.queue.map Message.owner = [none]) ∧
    (callMessage.body = .call (key 0) [1] ∧ callMessage.owner = some 0 ∧ (∀ w ∈ base.votes, w.id ≠ 0)) ∧
    (let s := withVotes [reading 0 0]
     (s.votes.map Vote.id).Nodup ∧ reading 0 0 ∈ s.votes ∧ (reading 0 0).id = 0 ∧ (reading 0 0).own = .pending) ∧
    (let s := withVotes [gathering 0 0]
     (s.votes.map Vote.id).Nodup ∧ gathering 0 0 ∈ s.votes ∧ s.line.state ≠ .mute ∧ (gathering 0 0).expected ≠ [] ∧
       s.line.queue.length < 32 ∧ (s.ownSum? (gathering 0 0)).isSome = true) := by
  and_intros <;> decide +kernel

theorem test_witness_CollisionsAreCountedToSixteen :
    (onAir callMessage).line.queue = [] ++ { callMessage with onLine := true } :: [] ∧
    ({ callMessage with collisions := 14 } : Message).collisions + 1 < 16 ∧
    16 ≤ ({ callMessage with collisions := 15 } : Message).collisions + 1 ∧
    (message (.present .beacon 1)).owner = none ∧ base.line.state ≠ .joining ∧
    (let m := { message (.present .joining 1) with collisions := 15, onLine := true }
     let s := { base with line := { base.line with state := .joining, queue := [m] } }
     16 ≤ m.collisions + 1 ∧ s.line.state = .joining ∧ m.isJoining = true ∧ s.line.queue = [] ++ m :: [] ∧
       ([] ++ [] : List Message).length < 32) ∧
    (base.line.transmitting = false ∧ callMessage.body = .call (key 0) [1] ∧ callMessage.owner = some 0) := by
  and_intros <;> decide +kernel

/-- A unit in LISTEN with messages in its queue. -/
def listening (q : List Message) : State :=
  { base with line := { base.line with state := .listen, listenCount := 290, queue := q } }

/-- A full queue loses its last message to the PRESENT JOINING (R72). -/
theorem test_enterJoining_full :
    (after .enterJoining (listening (List.replicate 32 (message (.present .beacon 1)))) fun t =>
      (t.line.state, t.line.queue.length, t.line.queue.countP Message.isJoining, t.count .lineDropped)) =
      some (.joining, 32, 1, 1) := by decide +kernel

theorem test_witness_ListenBeaconAndSilenceTimersExpire :
    (State.reset.resetLine = false ∧ State.reset.line.state = .listen ∧ State.reset.line.transmitting = false ∧
      State.reset.line.activity = .quiet ∧ State.reset.line.listenCount ≤ 290 ∧ State.reset.line.queue.length < 32) ∧
    ({ State.reset with line := { State.reset.line with listenCount := 290 } } : State).line.listenCount ≤ 290 ∧
    (let s := { State.reset with line := { State.reset.line with listenCount := 289, activity := .jam } }
     s.line.activity = .jam ∧ s.line.listenCount < 290) ∧
    (let s := listening (List.replicate 32 callMessage)
     s.line.state = .listen ∧ s.line.transmitting = false ∧ s.line.activity = .quiet ∧ s.line.listenCount ≤ 290 ∧
       s.line.queue = List.replicate 31 callMessage ++ [callMessage] ∧ 32 ≤ s.line.queue.length ∧
       ∀ m ∈ (fullQueue (.present .beacon 1)).line.queue, m.owner = none) ∧
    QueueInRange (listening (List.replicate 32 callMessage)).line.queue ∧
    base.line.state ≠ .listen ∧
    (let s := { base with line := { base.line with beacon := some { start := 0, length := 1 } } }
     s.line.beacon = some { start := 0, length := 1 } ∧ (∀ m ∈ s.line.queue, m.isBeacon = false) ∧
       s.line.state ≠ .mute ∧ s.line.queue.length < 32) ∧
    (∃ m ∈ (withQueue [message (.present .beacon 1)]).line.queue, m.isBeacon = true) ∧
    (busyHeard.line.heardOf 1 = .present 0 ∧
      ∀ x < 32, x ≠ 1 → busyHeard.line.heardOf x = .unknown ∨ busyHeard.line.heardOf x = .self) ∧
    (∀ v ∈ base.votes, v.state = .gathering → 1 ∉ v.expected) ∧ base.port.reports.length < 64 ∧ Consistent busyHeard ∧
    (gathering 1 1 ∈ busyHeard.votes ∧ (gathering 1 1).state = .gathering ∧ (1 : Nat) ∈ (gathering 1 1).expected ∧
      (after .silenceExpiry busyHeard fun t => t.line.isSilent 1) = some true) := by
  refine ⟨?_, ?_, ?_, ?_, by constructor <;> decide, ?_, ?_, ?_, ?_, ?_, ?_,
    consistent_of_fit (by unfold Fit; decide +kernel), ?_⟩
  all_goals and_intros <;> decide +kernel

/-! ### Time and the timers due (log 2, log 3) -/

/-- Every timer has reached its limit, and the head of the queue has waited for its slots. -/
def allDue : State :=
  { busyHeard with
    now := 4000000000000, sweep := gapRuns.sweep
    line := { busyHeard.line with
      beacon := some { start := 0, length := 5 }, queue := [callMessage], quietCount := 6 + 36 } }

theorem test_dueCommands : allDue.dueCommands = [.voteTimerExpiry, .fetchTimeout, .localisationTimeout, .silenceExpiry,
      .mendPatienceExpiry, .gapTimerExpiry, .beaconTimerExpiry, .lineFrameStart] ∧
    ({ allDue with now := 0, line := { allDue.line with quietCount := 41 } } : State).dueCommands = [] ∧
    (listening []).dueCommands = [.enterJoining] := by decide +kernel

theorem test_passUntil : (base.passUntil 2560).now = 2560 ∧ (base.passUntil 2561).now = 5120 ∧
    base.passUntil 0 = base := by decide +kernel

/-- A limit that is still to come, and one that has come already, of each kind of timer. -/
theorem test_witness_PassesUntil :
    (let at0 := [busy.now, busyHeard.now, base.now]
     let later := [allDue.now]
     (∀ x ∈ at0, x < 0 + timeOfCode busy.timers.vote * 1000000 ∧ x < 0 + timeOfCode busy.timers.fetch * 1000000 ∧
       x < 0 + timeOfCode busy.timers.localisation * 1000000 ∧ x < 0 + timeOfCode busy.timers.silence * 1000000 ∧
       x < 0 + busy.timers.patience * 1000000000 ∧ x < 0 + 5 * 1000000) ∧
     ∀ x ∈ later, 0 + timeOfCode busy.timers.vote * 1000000 ≤ x ∧ 0 + timeOfCode busy.timers.fetch * 1000000 ≤ x ∧
       0 + timeOfCode busy.timers.localisation * 1000000 ≤ x ∧ 0 + timeOfCode busy.timers.silence * 1000000 ≤ x ∧
       0 + busy.timers.patience * 1000000000 ≤ x ∧ 0 + 5 * 1000000 ≤ x) ∧
    Consistent allDue ∧ allDue.line.listenCount ≤ 290 ∧ PassesUntil base (base.passUntil 2561) 2561 := by
  refine ⟨by decide +kernel, consistent_of_fit (by unfold Fit; decide +kernel), by decide +kernel, base.passUntil_spec _⟩

/-! ### Figures of the manual's worked sequences (spec/13) -/

/-- A governor at its defaults with a depth average. -/
def averaging (average : Nat) : Governor := { Governor.reset with average := average }

theorem test_worked_depthAverage :
    ([24, 24, 30, 30, 30, 30].foldl Governor.takeDepth (averaging 40)).average = 268 ∧
    ([2, 2, 2, 2].foldl Governor.takeDepth (averaging 268)).average = 172 := by decide

theorem test_worked_burstEnds : (averaging 268).burstEnd.gap = 126 ∧
    ({ averaging 172 with gap := 126 } : Governor).burstEnd.gap = 158 := by decide

/-- An evidence entry of 73 tiles, with or without a source check list. -/
def evidence73 (located : Bool) : EvidenceEntry :=
  { number := 0, key := key 0, verdict := .bad, own := 7, agreed := some 9, tiles := 73, checks := List.replicate 73 6
    source := if located then some (List.replicate 73 6) else none, badTiles := none }

/-- The 28 entries 500 to 527. -/
def buffer28 : State :=
  { base with evidence :=
    { entries := (List.range 28).map fun i => { evidence73 false with number := BitVec.ofNat 16 (500 + i) }, next := 528 } }

theorem test_worked_eviction :
    (let t := buffer28.addEvidence (evidence73 true)
     (t.evidence.entries.map EvidenceEntry.number).head? = some 502 ∧ t.evidence.entries.length = 27 ∧
       t.evidence.slotsInUse = 2044 ∧ t.count .evidenceEvicted = 2) := by
  and_intros <;> decide +kernel

/-- Frame 40 of reel 51200 at stations 3 and 7: the case 3b and case 3a of the two-copy vote. -/
theorem test_worked_twoCopies :
    judged (answered (.readOk 2) (some 1) [okAnswer 7 1]) = (none, .bad) ∧
    judged (answered (.readOk 1) (some 1) [okAnswer 3 2]) = (none, .good) ∧
    judged (answered (.readOk 1) none [okAnswer 3 2]) = (none, .split) := by decide +kernel

theorem test_worked_callWaits : callMessage.wait 4 = 46 ∧ callMessage.wait 9 = 51 := by decide

/-! ### The manual's round 7 (spec/03, Two Rounds) -/

def reelOf (reel frames tier : Nat) : Holding := { oneHolding with reel := reel, frames := frames, tier := tier }

/-- Station 5 before RESUME: BURST 3, CADENCE of period 2 with masks 3, 1, 2 and 0, G 40, a PEER vote for 60002:1. -/
def beforeRound7 : State :=
  { withVotes [{ gathering 0 1 with key := { reel := 60002, frame := 1 } }] with
    holdings := [reelOf 60001 2 1, reelOf 60002 3 0, reelOf 60003 2 2]
    governor := { Governor.reset with mode := .fixed, gap := 40 }
    sweep := { Sweep.reset with period := 2, masks := #v[3, 1, 2, 0], burst := 3, remainder := 3, round := 7 } }

/-- Cursor, R, state and tallies. -/
def sweepRow (s : State) : (Nat × Nat) × Nat × SweepState × (Nat × Nat) :=
  ((s.sweep.cursorPos, s.sweep.cursorFrame), s.sweep.remainder, s.sweepState, (s.sweep.opened, s.sweep.covered))

theorem test_worked_round7_burst : after (.resume []) beforeRound7 sweepRow = some ((1, 1), 0, .gap, (3, 0)) := by
  decide +kernel

theorem test_worked_round7_done :
    ((after (.resume []) beforeRound7 id).bind fun t =>
      after .gapTimerExpiry t fun u => (u.now, (u.port.reports.map QueuedReport.report).head?)) =
        some (40000000, some (.roundDone 7 0 2 4 1)) := by
  decide +kernel

end Sys2Proof.Tests
end

section
/-! Every step keeps the ranges of each block and the tables together: the line's frames, the line's own commands, the
timers and the resets, on top of the laws for the shelf records. -/

namespace Sys2Proof.Machine

/-! ### Frames heard -/

/-- A change to one vote that leaves alone what Consistent reads of it. -/
theorem Consistent.changeVote {s : State} (c : Consistent s) {v : Vote} (hv : v ∈ s.votes) {f : Vote → Vote}
    (hf : (f v).core = v.core) : Consistent (s.modifyVote v.id f) := by
  obtain ⟨eid, ekey, estate, _, _, _, _, emend, elen⟩ := Vote.core_eq hf
  exact (State.change_consistent (free := nothing) (free' := nothing) (c.off nothing nothing) hv eid ekey emend
    (by rw [estate]) (fun _ => (c.fits v hv).of_core hf.symm) (fun _ _ _ => id) fun _ => elen).on

theorem State.takeSum_consistent {s : State} (k : Key) (a : Answer) (c : Consistent s) : Consistent (s.takeSum k a) := by
  unfold State.takeSum
  split
  · exact c.of_tables (s.bump_tables _)
  next v hv =>
    split
    · exact c.of_tables (s.bump_tables _)
    split
    · exact c.of_tables (s.bump_tables _)
    · exact State.closureTest_consistent _ (c.changeVote (State.vote?_mem hv).1 rfl)

theorem Vote.mergeCall_core (v : Vote) (caller : Nat) : (v.mergeCall caller).core = v.core := by
  unfold Vote.mergeCall
  split <;> rfl

theorem State.takeCall_consistent {s : State} (caller : Nat) (k : Key) (listed : List Nat) (c : Consistent s) :
    Consistent (s.takeCall caller k listed) := by
  unfold State.takeCall
  split
  next v hv =>
    have merged := c.changeVote (f := fun v => v.mergeCall caller) (State.vote?_mem hv).1 (v.mergeCall_core caller)
    exact (State.issueIfWaiting_consistent v.id (merged.off nothing nothing)).on.of_tables
      (State.offerOwnSum_tables _ _)
  next hv =>
    split
    · next inFrames =>
      split
      · refine State.openPeer_consistent c (State.vote?_none hv) ?_
        unfold State.holdingOf at inFrames
        cases e : s.holding? k.reel with
        | none => rw [e] at inFrames; exact absurd inFrames (Nat.not_lt_zero _)
        | some h => rw [e] at inFrames; exact Consistent.held e inFrames
      · exact c.of_tables ((s.bump_tables _).trans (State.offer_tables _ _))
    · split
      · exact c.of_tables (s.offer_tables _)
      · exact c

theorem State.takeTiles_consistent {s : State} (station : Nat) (k : Key) (x : Word) (n first : Nat)
    (checks : List Word) (c : Consistent s) : Consistent (s.takeTiles station k x n first checks) := by
  unfold State.takeTiles
  split
  next v hv =>
    split
    · next hs => exact State.takeChunk_consistent _ _ _ _ _ c (State.vote?_mem hv).1 hs
    · exact c.of_tables (s.bump_tables _)
  · exact c.of_tables (s.bump_tables _)

theorem State.enterMute_tables (s : State) : SameTables s s.enterMute := by
  have cleared : ∀ (ms : List Message) (t : State), SameTables t (ms.foldl (fun s m => (s.clearCall m).1) t) := by
    intro ms
    induction ms with
    | nil => exact SameTables.refl
    | cons m ms ih => exact fun t => (t.clearCall_tables m).trans (ih _)
  unfold State.enterMute
  split
  · exact SameTables.refl s
  · have quiet : SameTables s (s.setLine { s.line with state := .mute, queue := [], beacon := none }) :=
      ⟨rfl, rfl, rfl, rfl, rfl, id⟩
    exact ((quiet.trans (cleared _ _)).trans (State.bumpBy_tables _ _ _)).trans (State.pushReport_tables _ _)

/-- In reset the own roster entry is free, so that any entry may change. -/
theorem State.expireSilence_keeps {s : State} (t : Nat) (c : Consistent s) : Consistent (s.expireSilence t) := by
  cases hr : s.resetLine with
  | false => exact State.expireSilence_consistent t hr c
  | true =>
    unfold State.expireSilence
    split
    · next last _ =>
      have free : SameTables s (s.setLine (s.line.modifyRoster t fun e => { e with heard := .silent last })) :=
        ⟨rfl, rfl, rfl, rfl, rfl, fun _ e => absurd (hr.symm.trans e) (by decide)⟩
      exact foldl_consistent (fun _ i => State.closureTest_consistent i) _
        ((c.of_tables free).of_tables (State.pushReport_tables _ _))
    all_goals exact c

theorem State.silenceHeard_consistent {s : State} (t : Nat) (c : Consistent s) : Consistent (s.silenceHeard t) := by
  unfold State.silenceHeard
  split
  · exact State.expireSilence_keeps t c
  · exact c

theorem State.deliverBody_consistent {s : State} {station : Nat} (b : LineBody) (hs : station ≠ s.strap.station.val)
    (c : Consistent s) : Consistent (s.deliverBody station b) := by
  cases b with
  | sum k status x n ref => exact State.takeSum_consistent _ _ c
  | call k listed => exact State.takeCall_consistent _ _ _ c
  | tiles k x n first checks => exact State.takeTiles_consistent _ _ _ _ _ _ c
  | present mode count => exact c.of_tables (s.takePresent_tables mode count hs)

theorem State.hear_strap (s : State) (t : Nat) : (s.hear t).strap = s.strap := by
  unfold State.hear
  dsimp only
  split
  · exact (State.pushReport_frame _ _) .strap (by decide)
  · rfl

theorem State.takeFrame_consistent {s : State} (source : Nat) (b : LineBody) (c : Consistent s) :
    Consistent (s.takeFrame source b) := by
  have counted : Consistent (s.bump .lineReceived) := c.of_tables (s.bump_tables _)
  unfold State.takeFrame
  dsimp only
  split
  · exact counted.of_tables (State.enterMute_tables _)
  · next other =>
    exact State.silenceHeard_consistent _ (State.deliverBody_consistent b (by rw [State.hear_strap]; exact other)
      (counted.of_tables (State.hear_tables _ other)))

theorem State.takeChecked_consistent {s : State} (kind source : Byte) (body : List Byte) (c : Consistent s) :
    Consistent (s.takeChecked kind source body) := by
  unfold State.takeChecked
  split
  · exact State.takeFrame_consistent _ _ c
  · exact c.of_tables (s.bump_tables _)

theorem State.takeCandidate_consistent {s : State} (j : Bool) (bytes : List Byte) (c : Consistent s) :
    Consistent (s.takeCandidate j bytes) := by
  unfold State.takeCandidate
  split
  · exact c
  split
  · exact State.takeChecked_consistent _ _ _ c
  · exact c.of_tables (s.bump_tables _)

theorem State.heard_consistent {s : State} {act : State → State} (ha : ∀ t, Consistent t → Consistent (act t))
    (c : Consistent s) : Consistent (s.heard act) := by
  have ended : Consistent s.endActivity :=
    c.of_tables (show SameTables s s.endActivity from ⟨rfl, rfl, rfl, rfl, rfl, id⟩)
  unfold State.heard
  split
  · exact ended
  split
  · exact c
  · exact State.finish_keeps_consistent (ha _ ended)

/-! ### Both invariants of a state -/

/-- The two invariants together. -/
structure Sound (s : State) : Prop where
  bounded : Bounded s
  consistent : Consistent s

/-- A command answers a state that keeps both invariants. -/
def AnswersSound (o : Host.Outcome State Fault Refusal) : Prop := ∃ t, o = .next t ∧ Sound t

theorem Sound.answers {t : State} (h : Sound t) : AnswersSound (.next t) := ⟨t, rfl, h⟩

/-- An operation within the bounds whose frame leaves the tables alone. -/
theorem Sound.same {s t : State} (h : Sound s) (hb : Bounded t) (ht : SameTables s t) : Sound t :=
  ⟨hb, h.consistent.of_tables ht⟩

theorem Sound.finish {s : State} (h : Sound s) : Sound s.finish :=
  ⟨h.bounded.finish, State.finish_keeps_consistent h.consistent⟩

theorem Sound.sweepOn {s : State} (h : Sound s) : Sound s.sweepOn :=
  ⟨h.bounded.sweepOn, State.sweepOn_consistent h.consistent⟩

theorem Sound.arbitrate {s : State} (h : Sound s) : Sound s.arbitrate :=
  h.same h.bounded.arbitrate s.arbitrate_tables

theorem Sound.passSlots {s : State} (h : Sound s) (k : Nat) : Sound (s.passSlots k) :=
  h.same (h.bounded.passSlots k) ((s.passSlots_frame k).tables (by decide))

theorem Sound.passUntil {s : State} (h : Sound s) (due : Nat) : Sound (s.passUntil due) := h.passSlots _

theorem Sound.messageLeft {s : State} (h : Sound s) (m : Message) : Sound (s.messageLeft m) :=
  h.same (h.bounded.messageLeft m) (s.messageLeft_tables m)

theorem Sound.placeJoining {s : State} (h : Sound s) : Sound s.placeJoining :=
  h.same h.bounded.placeJoining s.placeJoining_tables

theorem Sound.bump {s : State} (h : Sound s) (c : Counter) : Sound (s.bump c) :=
  h.same (h.bounded.bump c) (s.bump_tables c)

/-- The line unit changes, but for its roster, within its ranges. -/
theorem Sound.setLine {s : State} (h : Sound s) {x : LineUnit} (hq : QueueInRange x.queue) (hl : x.listenCount ≤ 290)
    (hr : x.roster = s.line.roster) : Sound (s.setLine x) := by
  refine h.same (h.bounded.setLine hq hl) ⟨rfl, rfl, rfl, rfl, rfl, fun k e => ?_⟩
  show x.heardOf s.strap.station.val = .self
  unfold LineUnit.heardOf
  rw [hr]
  exact k e

theorem Sound.heard {s : State} (h : Sound s) {act : State → State} (hb : ∀ t, Bounded t → Bounded (act t))
    (hc : ∀ t, Consistent t → Consistent (act t)) : Sound (s.heard act) :=
  ⟨h.bounded.heard hb, State.heard_consistent hc h.consistent⟩

/-! ### Shelf records -/

/-- A command that is a shelf record arrives, and is taken by its kind. -/
theorem exec_record {i : Instr} (h : (toRecord i).isSome = true) (s : State) :
    exec i s = .next (s.arrive i (takeRecord i)) := by
  cases i with
  | gapTimerExpiry | resetOrderEffect _ | fetchTimeout | holdAsserted | holdReleased | sum _ _ | call _ _ | tiles _ _
  | present _ _ | candidateFrame _ _ | lineFrameStart | lineFrameSent | collision | enterJoining | beaconTimerExpiry
  | silenceExpiry | voteTimerExpiry | localisationTimeout | mendPatienceExpiry | recordSent | powerOn _
  | resetLineAsserted | resetLineReleased _ | lineActivityBegins | recordCutShort => exact nomatch h
  | _ => rfl

/-- The port may change as it likes. -/
theorem State.setPort_tables (s : State) (x : ShelfPort) : SameTables s (s.setPort x) :=
  ⟨rfl, rfl, rfl, rfl, rfl, id⟩

theorem Sound.arrive {s : State} (h : Sound s) (i : Instr) : Sound (s.arrive i (takeRecord i)) := by
  refine ⟨h.bounded.arrive _ _ (h.bounded.takeRecord h.consistent i), ?_⟩
  unfold State.arrive
  split
  · next ready =>
    have open' : s.resetLine = false := by
      simp only [State.mayTake, State.intakeOpen, Bool.and_eq_true, Bool.not_eq_true'] at ready
      exact ready.2.1.1.1
    exact (State.takeRecord_consistent i open' h.consistent).of_tables (State.arbitrate_tables _)
  · exact h.consistent.of_tables (s.setPort_tables _)

theorem Sound.record {s : State} (h : Sound s) {i : Instr} (hi : (toRecord i).isSome = true) :
    AnswersSound (exec i s) := by
  rw [exec_record hi]
  exact (h.arrive i).answers

theorem Sound.recordGone {s : State} (h : Sound s) : Sound s.recordGone := by
  refine ⟨h.bounded.recordGone, ?_⟩
  unfold State.recordGone
  split
  · exact State.sweepOn_consistent (h.consistent.of_tables (s.setPort_tables _))
  all_goals exact h.consistent.of_tables (s.setPort_tables _)

theorem Sound.recordSent {s : State} (h : Sound s) : AnswersSound (execRecordSent s) := by
  unfold execRecordSent
  split
  · have cleared : Sound s.clearInbound := h.same (h.bounded.setPort h.bounded.reports) (s.setPort_tables _)
    have gone := cleared.recordGone.arbitrate
    obtain ⟨hb, hc⟩ := State.intake_keeps s.port.inbound gone.bounded gone.consistent
    exact Sound.answers ⟨hb, hc⟩
  · exact h.answers

/-! ### The line's own commands -/

theorem Sound.lineFrameStart {s : State} (h : Sound s) : AnswersSound (execLineFrameStart s) := by
  unfold execLineFrameStart
  split
  · exact h.answers
  next ready =>
  split
  · exact h.answers
  split
  · next k _ =>
    dsimp only
    split
    · have idle : (s.passSlots k).line.transmitting = false := by
        have queue : (s.passSlots k).line.queue = s.line.queue := (s.passSlots_frame k) .lineQueue (by decide)
        simp only [Bool.or_eq_true, not_or, Bool.not_eq_true] at ready
        unfold LineUnit.transmitting
        rw [queue]
        exact ready.2
      exact ((h.passSlots k).setLine (x := (s.passSlots k).line.startHead) ((h.passSlots k).bounded.queue.putOnLine idle _)
        (h.passSlots k).bounded.listen rfl).answers
    · exact h.answers
  · exact h.answers

theorem Sound.lineFrameSent {s : State} (h : Sound s) : AnswersSound (execLineFrameSent s) := by
  unfold execLineFrameSent
  split
  next m rest e =>
    have freed := h.bounded.queue.sublist (takeLast_sublist e)
    refine Sound.answers ⟨h.bounded.frameSent m freed, ?_⟩
    unfold State.frameSent
    exact (((h.setLine (x := { s.line with
        queue := rest, quietCount := 0, activity := .quiet, state := s.line.state.afterSent m })
        freed h.bounded.listen rfl).bump .lineSent).consistent.of_tables
      ((State.startBeacon_frame _).tables (by decide))).of_tables (State.messageLeft_tables _ _)
  · exact h.answers

theorem Sound.collision {s : State} (h : Sound s) : AnswersSound (execCollision s) := by
  unfold execCollision
  split
  · exact h.answers
  next m rest e =>
    have counted := h.bump .collisions
    dsimp only
    split
    · next few =>
      exact (counted.setLine (x := (s.bump .collisions).line.jammed (s.line.queue.map Message.collided))
        (h.bounded.queue.collided e few) counted.bounded.listen rfl).answers
    · have dropped := (counted.setLine (x := (s.bump .collisions).line.jammed rest)
        (h.bounded.queue.sublist (takeLast_sublist e)) counted.bounded.listen rfl).bump .lineDropped
      split
      · exact dropped.placeJoining.answers
      · exact (dropped.messageLeft m).answers

theorem Sound.enterJoining {s : State} (h : Sound s) : AnswersSound (execEnterJoining s) := by
  unfold execEnterJoining
  split
  · exact h.answers
  split
  · next k _ =>
    exact ((h.passSlots k).setLine (x := { (s.passSlots k).line with state := .joining }) (h.passSlots k).bounded.queue
      (h.passSlots k).bounded.listen rfl).placeJoining.answers
  · exact h.answers

theorem Sound.beaconTimerExpiry {s : State} (h : Sound s) : AnswersSound (execBeaconTimerExpiry s) := by
  unfold execBeaconTimerExpiry
  split
  · next t _ =>
    have p := h.passUntil (dueMs t.start t.length)
    exact Sound.answers (p.same p.bounded.offerBeacon.startBeacon
      ((State.offerBeacon_tables _).trans ((State.startBeacon_frame _).tables (by decide))))
  · exact h.answers

theorem Sound.lineActivityBegins {s : State} (h : Sound s) : AnswersSound (execLineActivityBegins s) := by
  unfold execLineActivityBegins
  split
  · exact h.answers
  · exact (h.setLine (x := { s.line with activity := .other }) h.bounded.queue h.bounded.listen rfl).answers

/-! ### Timers and the hold line -/

theorem Sound.gapTimerExpiry {s : State} (h : Sound s) : AnswersSound (execGapTimerExpiry s) := by
  unfold execGapTimerExpiry
  split
  · next t _ =>
    have p := h.passUntil (dueMs t.start t.length)
    exact (p.same p.bounded.endGap ((State.endGap_frame _).tables (by decide))).sweepOn.arbitrate.answers
  · exact h.answers

theorem Sound.fetchTimeout {s : State} (h : Sound s) : AnswersSound (execFetchTimeout s) := by
  unfold execFetchTimeout
  split
  · next f _ =>
    have p := h.passUntil (dueMs f.issued s.fetchLimit)
    exact (Sound.finish ⟨p.bounded.expireFetch f.tag, State.expireFetch_consistent f.tag p.consistent⟩).answers
  · exact h.answers

theorem Sound.voteTimerExpiry {s : State} (h : Sound s) : AnswersSound (execVoteTimerExpiry s) := by
  unfold execVoteTimerExpiry
  split
  · next id start _ =>
    have p := h.passUntil (dueMs start s.voteLimit)
    exact (Sound.finish ⟨p.bounded.expireVote id, State.expireVote_consistent id p.consistent⟩).answers
  · exact h.answers

theorem Sound.localisationTimeout {s : State} (h : Sound s) : AnswersSound (execLocalisationTimeout s) := by
  unfold execLocalisationTimeout
  split
  · next id start _ =>
    have p := h.passUntil (dueMs start s.localisationLimit)
    exact (Sound.finish ⟨p.bounded.expireLocalisation id,
      State.expireLocalisation_consistent id p.consistent⟩).answers
  · exact h.answers

theorem Sound.silenceExpiry {s : State} (h : Sound s) : AnswersSound (execSilenceExpiry s) := by
  unfold execSilenceExpiry
  split
  · next t last _ =>
    have p := h.passUntil (dueMs last s.silenceLimit)
    exact (Sound.finish ⟨p.bounded.expireSilence t, State.expireSilence_keeps t p.consistent⟩).answers
  · exact h.answers

theorem Sound.mendPatienceExpiry {s : State} (h : Sound s) : AnswersSound (execMendPatienceExpiry s) := by
  unfold execMendPatienceExpiry
  split
  · next k start _ =>
    have p := h.passUntil (duePatience start s.timers.patience)
    exact (Sound.arbitrate ⟨p.bounded.lapse k, State.lapse_consistent k p.consistent⟩).answers
  · exact h.answers

theorem Sound.setHoldHigh {s : State} (h : Sound s) (level : Bool) : Sound (s.setHoldHigh level) :=
  h.same (h.bounded.setHoldHigh level) ((s.setHoldHigh_frame level).tables (by decide))

theorem Sound.issue {s : State} (h : Sound s) : Sound s.issue :=
  ⟨h.bounded.issue, (State.issue_consistent (h.consistent.off nothing nothing)).on⟩

theorem Sound.holdReleased {s : State} (h : Sound s) : AnswersSound (execHoldReleased s) := by
  unfold execHoldReleased
  split
  · exact (h.setHoldHigh s.strap.holdLow).issue.sweepOn.arbitrate.answers
  · exact h.answers

/-! ### Resets -/

/-- Empty tables fit together, whatever the rest of the state, once the own entry is SELF or the unit is in reset. -/
theorem consistent_of_empty {s : State} (h1 : s.holdings = []) (h2 : s.votes = []) (h3 : s.mends = [])
    (h4 : s.read.fetches = []) (h5 : s.resetLine = false → s.line.heardOf s.strap.station.val = .self) :
    Consistent s := by
  constructor <;> simp_all

theorem heardOf_startRoster (l : LineUnit) (own : Fin 32) :
    ({ l with roster := startRoster own } : LineUnit).heardOf own.val = .self := by
  simp [LineUnit.heardOf, startRoster]

/-- Once start has begun the own entry is SELF. -/
theorem State.begin_self (s : State) (pins : Strap) :
    (s.begin pins).line.heardOf (s.begin pins).strap.station.val = .self :=
  heardOf_startRoster s.line pins.station

theorem State.begin_consistent_of_empty {s : State} (pins : Strap) (h1 : s.holdings = []) (h2 : s.votes = [])
    (h3 : s.mends = []) (h4 : s.read.fetches = []) : Consistent (s.begin pins) :=
  consistent_of_empty h1 h2 h3 h4 fun _ => s.begin_self pins

theorem Sound.resetOrderEffect {s : State} (h : Sound s) (pins : Strap) :
    AnswersSound (execResetOrderEffect pins s) := by
  unfold execResetOrderEffect
  split
  · exact Sound.answers ⟨(h.bounded.enterReset.setCauses _).begin pins,
      State.begin_consistent_of_empty pins rfl rfl rfl rfl⟩
  · exact h.answers

theorem Sound.powerOn {s : State} (h : Sound s) (pins : Strap) : AnswersSound (execPowerOn pins s) := by
  unfold execPowerOn
  split
  · next inReset =>
    exact Sound.answers ⟨h.bounded.powerReset.setStrapPins pins,
      consistent_of_empty rfl rfl rfl rfl fun e => absurd (inReset.symm.trans e) (by decide)⟩
  · exact Sound.answers ⟨h.bounded.powerReset.begin pins, State.begin_consistent_of_empty pins rfl rfl rfl rfl⟩

theorem Sound.resetLineAsserted {s : State} (h : Sound s) : AnswersSound (execResetLineAsserted s) :=
  Sound.answers ⟨(h.bounded.enterReset.setCauses _).setResetLine true,
    consistent_of_empty rfl rfl rfl rfl fun e => nomatch e⟩

theorem Sound.resetLineReleased {s : State} (h : Sound s) (pins : Strap) :
    AnswersSound (execResetLineReleased pins s) := by
  unfold execResetLineReleased
  split
  · have begun : SameTables s ((s.setResetLine false).begin pins) :=
      ⟨rfl, rfl, rfl, rfl, rfl, fun _ _ => State.begin_self _ pins⟩
    exact (h.same ((h.bounded.setResetLine false).begin pins) begun).answers
  · exact h.answers

/-! ### Every command, and every step -/

/-- Every command keeps both invariants. -/
theorem Sound.exec {s : State} (h : Sound s) (i : Instr) : AnswersSound (exec i s) := by
  cases i with
  | gapTimerExpiry => exact h.gapTimerExpiry
  | resetOrderEffect pins => exact h.resetOrderEffect pins
  | fetchTimeout => exact h.fetchTimeout
  | holdAsserted => exact (h.setHoldHigh _).answers
  | holdReleased => exact h.holdReleased
  | sum source body | call source body | tiles source body | present source body =>
    exact (h.heard (fun _ b => b.takeChecked _ _ _) fun _ c => State.takeChecked_consistent _ _ _ c).answers
  | candidateFrame j bytes =>
    exact (h.heard (fun _ b => b.takeCandidate _ _) fun _ c => State.takeCandidate_consistent _ _ c).answers
  | lineFrameStart => exact h.lineFrameStart
  | lineFrameSent => exact h.lineFrameSent
  | collision => exact h.collision
  | enterJoining => exact h.enterJoining
  | beaconTimerExpiry => exact h.beaconTimerExpiry
  | silenceExpiry => exact h.silenceExpiry
  | voteTimerExpiry => exact h.voteTimerExpiry
  | localisationTimeout => exact h.localisationTimeout
  | mendPatienceExpiry => exact h.mendPatienceExpiry
  | recordSent => exact h.recordSent
  | powerOn pins => exact h.powerOn pins
  | resetLineAsserted => exact h.resetLineAsserted
  | resetLineReleased pins => exact h.resetLineReleased pins
  | lineActivityBegins => exact h.lineActivityBegins
  | recordCutShort => exact h.answers
  | _ => exact h.record rfl

/-- A slot that passes with no command waiting keeps both invariants. -/
theorem Sound.idle {s : State} (h : Sound s) : Sound s.idle :=
  (h.passSlots 1).same ((h.passSlots 1).bounded.setPending _) ((State.setPending_frame _ _).tables (by decide))

/-- Every step keeps both invariants. -/
theorem Sound.step {s t : State} (h : Sound s) (e : step s = .next t) : Sound t := by
  unfold Machine.step at e
  split at e
  · next i rest _ =>
    obtain ⟨u, eu, hu⟩ := (h.same (h.bounded.setPending rest) ((s.setPending_frame rest).tables (by decide))).exec i
    rw [eu] at e
    cases e
    exact hu
  · cases e
    exact h.idle

/-- Settles O5: the bounds are one half of the invariant that every command keeps. -/
theorem stepKeepsTheBounds : Obligations.StepKeepsTheBounds := by
  unfold Obligations.StepKeepsTheBounds
  exact fun s t h c e => (Sound.step ⟨h, c⟩ e).bounded

/-- Settles O6: the tables are the other half. -/
theorem stepKeepsTheTablesConsistent : Obligations.StepKeepsTheTablesConsistent := by
  unfold Obligations.StepKeepsTheTablesConsistent
  exact fun s t h c e => (Sound.step ⟨h, c⟩ e).consistent

theorem State.reset_bounded : Bounded State.reset where
  holdings := by decide
  cursor := by decide
  fetches := by decide
  votes := by decide
  ranges := fun _ hv => nomatch hv
  mends := by decide
  attempts := fun _ he => nomatch he
  evidence := by decide
  slots := by decide
  reports := by decide
  queue := QueueInRange.nil
  listen := by decide
  sweep := Sweep.reset_inRange
  watch := Watch.reset_inRange
  governor := Governor.reset_inRange
  timers := TimerSettings.reset_inRange
  counters := fun c => (Counters.count_reset c).le.trans (Nat.zero_le _)

/-- Settles O4: every table is empty after reset, and each range holds of its reset value. -/
theorem resetStateKeepsTheInvariants : Obligations.ResetStateKeepsTheInvariants := by
  unfold Obligations.ResetStateKeepsTheInvariants
  refine ⟨State.reset_bounded, consistent_of_empty rfl rfl rfl rfl fun _ => ?_⟩
  exact heardOf_startRoster _ State.defaultStrap.station

end Sys2Proof.Machine
end

section
/-! What the model's arithmetic, its records and its resets give: tiles and check values, the layouts of the records, the
reset values, and one slot of time. -/

namespace Sys2Proof.Machine

/-! ### Tiles and check values -/

theorem tileSize_pos (code : Fin 4) : 0 < tileSize code := Nat.mul_pos (by decide) (Nat.pow_pos (by decide))

/-- The tile count is the least number of tiles of `z` bytes that hold `len` bytes. -/
theorem tileCount_spec {len z : Nat} (hz : 0 < z) (hl : 1 ≤ len) :
    ∃ m, tileCount len z = m + 1 ∧ m * z < len ∧ len ≤ (m + 1) * z := by
  have low : tileCount len z * z ≤ len + z - 1 := Nat.div_mul_le_self _ _
  have high : len + z - 1 < (tileCount len z + 1) * z := (Nat.div_lt_iff_lt_mul hz).1 (Nat.lt_succ_self _)
  have some_tile : 0 < tileCount len z := Nat.div_pos (by omega) hz
  obtain ⟨m, hm⟩ : ∃ m, tileCount len z = m + 1 := ⟨tileCount len z - 1, by omega⟩
  rw [hm] at low high
  rw [Nat.succ_mul] at low high
  exact ⟨m, hm, by omega, by omega⟩

theorem foldFrom_append (c : Word) : ∀ (cs : List Word) (i : Nat),
    foldFrom i (cs ++ [c]) = foldFrom i cs + c.rotateLeft ((i + cs.length) % 32)
  | [], i => by simp [foldFrom]
  | d :: cs, i => by
    rw [List.cons_append, foldFrom, foldFrom, foldFrom_append c cs (i + 1), List.length_cons, BitVec.add_assoc,
      Nat.add_right_comm i 1, Nat.add_assoc]

/-- Settles O16: the tile count by its least-number property, the checks by evaluation, the fold by its last check. -/
theorem tilesAndCheckValues : Obligations.TilesAndCheckValues := by
  unfold Obligations.TilesAndCheckValues
  refine ⟨⟨fun _ _ => rfl, by decide, fun code len hl => ?_⟩, by decide +kernel, by decide +kernel, fun c => ?_,
    fun cs c => ?_⟩
  · obtain ⟨m, hm, low, high⟩ := tileCount_spec (tileSize_pos code) hl
    have last : tileLength len (tileSize code) (m + 1) m = len - m * tileSize code := by simp [tileLength]
    simp only [hm, Nat.add_sub_cancel, last]
    refine ⟨Nat.le_add_left 1 m, low, high, fun i hi => if_pos hi, trivial, by omega, ?_⟩
    rw [Nat.succ_mul] at high
    omega
  · have unrotated : c.rotateLeft 0 = c := by
      simp [BitVec.rotateLeft, BitVec.rotateLeftAux, BitVec.ushiftRight_eq_zero]
    simp [frameSummary, foldFrom, unrotated]
  · unfold frameSummary
    rw [foldFrom_append, List.length_append, Nat.zero_add]
    show BitVec.ofNat 32 (cs.length + 1) + _ = _
    rw [BitVec.ofNat_add]
    show _ + 1 + _ = _
    ring

/-! ### Records in (the header of a shelf record) -/

/-- A well-formed record is the command of its kind, and its body fits the length field. -/
theorem ofRecord_toRecord {i : Instr} {kind : Byte} {body : List Byte} (hw : WellFormed i = true)
    (e : toRecord i = some (kind, body)) : ofRecord kind body = i ∧ body.length ≤ maxRecordBody := by
  cases i with
  | unknownOrder k b => exact Laws.Recorded.unknownOrder k b hw kind body e
  | gapTimerExpiry | resetOrderEffect _ | fetchTimeout | holdAsserted | holdReleased | sum _ _ | call _ _ | tiles _ _
  | present _ _ | candidateFrame _ _ | lineFrameStart | lineFrameSent | collision | enterJoining | beaconTimerExpiry
  | silenceExpiry | voteTimerExpiry | localisationTimeout | mendPatienceExpiry | recordSent | powerOn _
  | resetLineAsserted | resetLineReleased _ | lineActivityBegins | recordCutShort => exact nomatch e
  | _ => cases e; exact ⟨rfl, of_decide_eq_true hw⟩

/-- The length field of a header reads back as the length it was written with. -/
theorem field_bytesOf {k n : Nat} (h : n < 256 ^ k) (rest : List Byte) : field (bytesOf k n ++ rest) 0 k = n := by
  unfold field
  rw [List.drop_zero, List.take_append_of_le_length (by simp), List.take_of_length_le (by simp), natOf_bytesOf h]

theorem decodeRecord_frame (kind : Byte) {body : List Byte} (h : body.length ≤ maxRecordBody) (rest : List Byte) :
    decodeRecord (kind :: bytesOf 3 body.length ++ body ++ rest) = some (ofRecord kind body, rest) := by
  have size : field (bytesOf 3 body.length ++ (body ++ rest)) 0 3 = body.length :=
    field_bytesOf (Nat.lt_succ_of_le h) _
  have behind : (bytesOf 3 body.length ++ (body ++ rest)).drop 3 = body ++ rest := List.drop_left' (by simp)
  simp only [List.cons_append, List.append_assoc, decodeRecord, size]
  rw [if_neg (by simp), ← List.drop_drop, behind, List.take_left, List.drop_left]

/-! ### Records out (R179) -/

theorem byte1_code (n : Nat) : byte1 n = [BitVec.ofNat 8 n] := by simp [byte1, bytesOf]

/-- A byte of bits is the sum of the weights of those that are set. -/
theorem foldr_bits : ∀ (bs : List Bool) (i : Nat),
    ((bs.zipIdx i).map fun x : Bool × Nat => x.1.toNat * 2 ^ x.2).sum =
      2 ^ i * bs.foldr (fun b n => b.toNat + 2 * n) 0
  | [], i => by simp
  | b :: bs, i => by
    rw [List.zipIdx_cons, List.map_cons, List.sum_cons, foldr_bits bs (i + 1), List.foldr_cons]
    ring

theorem bitsByte_eq (bs : List Bool) :
    bitsByte bs = bytesOf 1 (bs.zipIdx.map fun x : Bool × Nat => x.1.toNat * 2 ^ x.2).sum := by
  rw [foldr_bits, Nat.pow_zero, Nat.one_mul]
  rfl

theorem boolByte_eq (b : Bool) :
    boolByte b = bytesOf 1 ([b].zipIdx.map fun x : Bool × Nat => x.1.toNat * 2 ^ x.2).sum := by
  rw [← bitsByte_eq]
  cases b <;> rfl

theorem optWordBytes_eq (x : Option Word) : optWordBytes x = bytesOf 4 ((x.map BitVec.toNat).getD 0) := by
  cases x <;> rfl

/-- The bytes of an outgoing record from its kind and its body. -/
theorem OutRecord.bytes_eq {o : OutRecord} {kind : Byte} {body : List Byte} (hk : BitVec.ofNat 8 o.kind = kind)
    (hb : o.body = body) : o.bytes = [kind] ++ bytesOf 3 body.length ++ body := by
  rw [OutRecord.bytes, byte1_code, hk, hb]

/-- Settles O7: the header's length field reads back, and each field of a record is a piece of its layout. -/
theorem recordsDecodeAsEncoded : Obligations.RecordsDecodeAsEncoded := by
  unfold Obligations.RecordsDecodeAsEncoded
  refine ⟨fun i rest hw hr => ?_, fun r => ?_, fun tag k n => ⟨?_, ?_⟩, fun r => ?_, fun q => ?_⟩
  · obtain ⟨⟨kind, body⟩, e⟩ := Option.isSome_iff_exists.1 hr
    obtain ⟨back, short⟩ := ofRecord_toRecord hw e
    refine ⟨kind :: bytesOf 3 body.length ++ body, by rw [encodeRecord, e]; rfl, ?_⟩
    rw [decodeRecord_frame kind short, back]
  · refine OutRecord.bytes_eq rfl ?_
    obtain ⟨kind, result, payload⟩ := r
    show [kind] ++ byte1 result.code ++ payload = _
    rw [byte1_code]
    cases result <;> rfl
  · exact OutRecord.bytes_eq rfl rfl
  · exact OutRecord.bytes_eq rfl rfl
  · simp only [← bitsByte_eq]
    refine OutRecord.bytes_eq rfl ?_
    simp only [OutRecord.body, StartRecord.bytes, Strap.bytes, boolByte_eq, ← bitsByte_eq, List.append_assoc]
    rfl
  · obtain ⟨number, report⟩ := q
    simp only [← bitsByte_eq, ← optWordBytes_eq]
    cases report with
    | verdict k d o f own agreed good missing tiles =>
      refine OutRecord.bytes_eq rfl ?_
      simp only [OutRecord.body, QueuedReport.bytes, Report.bytes, byte1_code d.code, List.append_assoc]
      cases d <;> rfl
    | roundDone round r visited opened covered =>
      refine OutRecord.bytes_eq rfl ?_
      simp only [OutRecord.body, QueuedReport.bytes, Report.bytes, List.append_assoc]
      rfl
    | station station news =>
      refine OutRecord.bytes_eq rfl ?_
      simp only [OutRecord.body, QueuedReport.bytes, Report.bytes, byte1_code news.code, List.append_assoc]
      cases news <;> rfl
    | alarm on count held rising falling k =>
      refine OutRecord.bytes_eq rfl ?_
      simp only [OutRecord.body, QueuedReport.bytes, Report.bytes, boolByte_eq, ← bitsByte_eq, List.append_assoc]
      cases k <;> rfl
    | mend kind k agreed failed d own tiles =>
      refine OutRecord.bytes_eq (by cases kind <;> rfl) ?_
      simp only [OutRecord.body, QueuedReport.bytes, Report.bytes, byte1_code ((d.map Verdict.code).getD 0),
        List.append_assoc]
      obtain _ | d := d
      · rfl
      · cases d <;> rfl

end Sys2Proof.Machine
end

section
/-! The resets, and the passing of one slot with the timers then due. -/

namespace Sys2Proof.Machine

/-! ### Resets -/

/-- Settles O44: every reset is the state written out, once its guard is decided. -/
theorem resetsLeaveTheResetValues : Obligations.ResetsLeaveTheResetValues := by
  unfold Obligations.ResetsLeaveTheResetValues
  intro roster blank begun pins s
  have taken : ∀ h : s.port.resetTaken = true, ∀ k : s.port.replyStands = false,
      exec (.resetOrderEffect pins) s = .next (s.orderReset.begin pins) := fun h k => by
    show execResetOrderEffect pins s = _
    rw [execResetOrderEffect, h, k]
    rfl
  refine ⟨fun h => ?_, fun h k => taken h k, fun h => ?_, ⟨fun h => ?_, fun h => ?_⟩, rfl, fun h hl hs => ?_, fun h => ?_⟩
  · exact congrArg Host.Outcome.next (State.arrive_fits h 0x11 rfl _)
  · refine if_neg ?_
    rcases h with h | h <;> simp [h]
  · exact if_neg (by rw [h]; decide)
  · exact if_pos h
  · refine (if_pos h).trans ?_
    simp only [State.begin, State.arbitrate, ShelfPort.arbitrate, State.setResetLine, State.setPort, hl, begun, roster,
      startRoster, emptyRoster]
    rw [hs]
  · exact if_neg (by rw [h]; decide)

/-! ### The timers that are due -/

/-- One command for each entry whose timer has reached its limit, whatever list of timers the entries make. -/
theorem dueEach_filterMap {α β : Type} (due : β → Bool) (timer : α → Option β) (xs : List α) (i : Instr) :
    dueEach due (xs.filterMap timer) i = List.replicate (xs.countP fun x => (timer x).any due) i := by
  unfold dueEach
  rw [← List.countP_eq_length_filter, List.countP_filterMap]
  congr 2
  funext x
  cases timer x <;> rfl

theorem dueEach_toList {α : Type} (due : α → Bool) (x : Option α) (i : Instr) :
    dueEach due x.toList i = if x.any due = true then [i] else [] := by
  cases x with
  | none => rfl
  | some a => cases h : due a <;> simp [dueEach, h]

/-- The head of the queue, in a state in which the unit may transmit: in JOINING the PRESENT JOINING, in ACTIVE the
first message (R59, R72). -/
theorem LineUnit.head?_iff {l : LineUnit} {m : Message} : l.state.mayTransmit = true ∧ l.head? = some m ↔
    ∃ before after, l.queue = before ++ m :: after ∧
      ((l.state = .joining ∧ m.isJoining = true ∧ ∀ y ∈ before, y.isJoining = false) ∨
        (l.state = .active ∧ before = [])) := by
  unfold LineUnit.head?
  cases l.state with
  | listen | mute => simp [LineState.mayTransmit]
  | joining =>
    rw [if_pos rfl, List.find?_eq_some_iff_append]
    simp only [LineState.mayTransmit, true_and, reduceCtorEq, false_and, or_false, Bool.not_eq_true']
    exact ⟨fun ⟨hm, before, after, e, hb⟩ => ⟨before, after, e, hm, hb⟩,
      fun ⟨before, after, e, hm, hb⟩ => ⟨hm, before, after, e, hb⟩⟩
  | active =>
    rw [if_neg (by decide), List.head?_eq_some_iff]
    simp only [LineState.mayTransmit, true_and, reduceCtorEq, false_and, false_or]
    exact ⟨fun ⟨after, e⟩ => ⟨[], after, e, rfl⟩, fun ⟨_, after, e, hb⟩ => ⟨after, by rw [e, hb]; rfl⟩⟩

/-- The head's frame is due once its wait has passed on a quiet line. -/
theorem State.frameDue_iff (s : State) : s.frameDue = true ↔
    s.line.transmitting = false ∧ s.line.activity = .quiet ∧
      ∃ m, (s.line.state.mayTransmit = true ∧ s.line.head? = some m) ∧
        m.wait s.strap.station.val ≤ s.line.quietCount := by
  unfold State.frameDue
  cases s.line.head? with
  | none => simp
  | some m =>
    simp only [Bool.and_eq_true, Bool.not_eq_true', decide_eq_true_eq, Option.some.injEq]
    exact ⟨fun ⟨⟨⟨h1, h2⟩, h3⟩, h4⟩ => ⟨h2, h3, m, ⟨h1, rfl⟩, h4⟩, fun ⟨h2, h3, _, ⟨h1, rfl⟩, h4⟩ => ⟨⟨⟨h1, h2⟩, h3⟩, h4⟩⟩

/-- A timer that started at `start` has reached a limit in milliseconds. -/
def State.past (s : State) (start ms : Nat) : Bool := decide (start + ms * 1000000 ≤ s.now)

theorem State.isDue_dueMs (s : State) (start limit : Nat) : s.isDue (dueMs start limit) = s.past start limit := rfl

theorem State.isDue_duePatience (s : State) (start limit : Nat) :
    s.isDue (duePatience start limit) = s.past start (1000 * limit) := by
  have seconds : duePatience start limit = start + 1000 * limit * 1000000 := by
    unfold duePatience nsPerSecond
    omega
  exact congrArg s.isDue seconds

theorem State.voteTimers_due (s : State) (i : Instr) :
    dueEach (fun x => s.isDue (dueMs x.2 s.voteLimit)) s.voteTimers i =
      List.replicate (s.votes.countP fun v => v.timer.any fun x => s.past x s.voteLimit) i := by
  unfold State.voteTimers
  simp only [dueEach_filterMap, Option.any_map, State.isDue_dueMs]

theorem State.fetches_due (s : State) (i : Instr) :
    dueEach (fun f => s.isDue (dueMs f.issued s.fetchLimit)) s.read.fetches i =
      List.replicate (s.read.fetches.countP fun f => s.past f.issued s.fetchLimit) i := by
  unfold dueEach
  rw [← List.countP_eq_length_filter]
  rfl

theorem State.localisationTimers_due (s : State) (i : Instr) :
    dueEach (fun x => s.isDue (dueMs x.2 s.localisationLimit)) s.localisationTimers i =
      List.replicate (s.votes.countP fun v => decide (v.state = .localising) &&
        v.localisation.any fun l => s.past l.start s.localisationLimit) i := by
  unfold State.localisationTimers
  rw [dueEach_filterMap]
  refine congrArg (fun p => List.replicate (s.votes.countP p) i) (funext fun v => ?_)
  by_cases hl : v.state = .localising
  · rw [if_pos hl, decide_eq_true hl, Bool.true_and, Option.any_map]
    rfl
  · rw [if_neg hl, decide_eq_false hl]
    rfl

/-- The silence of a station is timed while it is PRESENT. -/
theorem State.heard_past (s : State) (station limit : Nat) (h : Heard) :
    Option.any (fun x : Nat × Nat => s.isDue (dueMs x.2 limit)) (match h with
      | .present last => some (station, last)
      | .unknown | .silent _ | .self => none) = match h with
      | .present last => s.past last limit
      | .unknown | .silent _ | .self => false := by
  cases h with
  | present last => rw [Option.any_some]; exact s.isDue_dueMs last limit
  | unknown | silent _ | self => rfl

theorem State.heardStations_due (s : State) (i : Instr) :
    dueEach (fun x => s.isDue (dueMs x.2 s.silenceLimit)) s.line.heardStations i =
      List.replicate ((List.range 32).countP fun x => match s.line.heardOf x with
        | .present last => s.past last s.silenceLimit
        | .unknown | .silent _ | .self => false) i := by
  unfold LineUnit.heardStations
  rw [dueEach_filterMap]
  exact congrArg (fun p => List.replicate ((List.range 32).countP p) i)
    (funext fun x => s.heard_past x s.silenceLimit (s.line.heardOf x))

/-- The patience of an entry runs while it is in AWAITING_REWRITE. -/
theorem State.mend_past (s : State) (k : Key) (limit : Nat) (x : MendState) :
    Option.any (fun x : Key × Nat => s.isDue (duePatience x.2 limit)) (match x with
      | .awaitingRewrite start => some (k, start)
      | .rechecking => none) = match x with
      | .awaitingRewrite start => s.past start (1000 * limit)
      | .rechecking => false := by
  cases x with
  | awaitingRewrite start => rw [Option.any_some]; exact s.isDue_duePatience start limit
  | rechecking => rfl

theorem State.patienceTimers_due (s : State) (i : Instr) :
    dueEach (fun x => s.isDue (duePatience x.2 s.timers.patience)) s.patienceTimers i =
      List.replicate (s.mends.countP fun e => match e.state with
        | .awaitingRewrite start => s.past start (1000 * s.timers.patience)
        | .rechecking => false) i := by
  unfold State.patienceTimers
  rw [dueEach_filterMap]
  exact congrArg (fun p => List.replicate (s.mends.countP p) i)
    (funext fun e => s.mend_past e.key s.timers.patience e.state)

theorem State.idle_line_reset (s : State) (h : s.resetLine = true) : s.idle.line = s.line := by
  show (s.passSlots 1).line = s.line
  simp only [State.passSlots, h, if_true]
  rfl

theorem State.idle_line (s : State) (h : s.resetLine = false) : s.idle.line = s.line.passSlots 1 := by
  show (s.passSlots 1).line = s.line.passSlots 1
  simp only [State.passSlots, h, Bool.false_eq_true, if_false]
  rfl

/-- Settles O2: an idle step passes one slot, and its list of due commands counts, kind after kind, the entries whose
limit has come. -/
theorem idleStepPassesOneSlot : Obligations.IdleStepPassesOneSlot := by
  unfold Obligations.IdleStepPassesOneSlot
  refine ⟨fun s hp => ⟨s.idle, ?_, ?_, rfl, ?_, s.idle_line_reset, fun hr ht hq => ?_, fun ho => ?_⟩, fun s => ⟨rfl, ?_⟩⟩
  · rw [step, hp]
  · exact (s.passSlots_now 1).trans (by rw [Nat.one_mul])
  · exact (s.passSlots_frame 1).comp (State.setPending_frame _ _) (by decide) (by decide)
  · have quiet : s.line.quietSlots 1 = 1 := by simp [LineUnit.quietSlots, ht, hq]
    rw [s.idle_line hr, LineUnit.passSlots, quiet]
    exact ⟨rfl, fun hl => if_pos hl⟩
  · cases hr : s.resetLine with
    | true => rw [s.idle_line_reset hr]; exact ⟨rfl, ho⟩
    | false =>
      rw [s.idle_line hr]
      simp [LineUnit.passSlots, LineUnit.quietSlots, LineUnit.activityAfter, ho]
  · intro past timers starts
    have due : s.frameDue = true ↔ starts := by
      rw [s.frameDue_iff]
      simp only [LineUnit.head?_iff, Message.wait]
      constructor
      · rintro ⟨h1, h2, m, ⟨before, after, e, h3⟩, h4⟩
        exact ⟨h1, h2, before, m, after, e, h3, h4⟩
      · rintro ⟨h1, h2, before, m, after, e, h3, h4⟩
        exact ⟨h1, h2, m, ⟨before, after, e, h3⟩, h4⟩
    have counted : s.dueCommands = timers ++ if s.frameDue then [.lineFrameStart] else [] := by
      unfold State.dueCommands
      rw [s.voteTimers_due, s.fetches_due, s.localisationTimers_due, s.heardStations_due, s.patienceTimers_due,
        dueEach_toList, dueEach_toList]
      rfl
    rw [counted]
    constructor
    · exact fun h => by rw [if_pos (due.2 h)]
    · exact fun h => by rw [if_neg (mt due.1 h), List.append_nil]

end Sys2Proof.Machine
end

section
/-! The issue arbiter's choice and its rounds, the end of the sweep's walk, and the release of the hold line. -/

namespace Sys2Proof.Machine

/-! ### The arbiter's choice (R6, R7) -/

theorem findSome?_range_iff {α : Type} {f : Nat → Option α} {a : α} : ∀ {n : Nat},
    (List.range n).findSome? f = some a ↔ ∃ k < n, f k = some a ∧ ∀ j < k, f j = none
  | 0 => by simp
  | n + 1 => by
    rw [List.range_succ, List.findSome?_append, Option.or_eq_some_iff, findSome?_range_iff, List.findSome?_eq_none_iff]
    simp only [List.mem_range, List.findSome?_singleton]
    constructor
    · rintro (⟨k, hk, e⟩ | ⟨before, e⟩)
      · exact ⟨k, Nat.lt_succ_of_lt hk, e⟩
      · exact ⟨n, Nat.lt_succ_self n, e, before⟩
    · rintro ⟨k, hk, e, before⟩
      rcases Nat.lt_succ_iff_lt_or_eq.1 hk with hk | rfl
      · exact Or.inl ⟨k, hk, e, before⟩
      · exact Or.inr ⟨before, e⟩

/-- The first of the entries of least rank, rank after rank. -/
theorem findSome?_rank_iff {α : Type} {p : α → Bool} {rank : α → Nat} {n : Nat} (hr : ∀ x, rank x < n) {xs : List α}
    {x : α} : ((List.range n).findSome? fun k => xs.find? fun y => p y && decide (rank y = k)) = some x ↔
      ∃ before after, xs = before ++ x :: after ∧ p x = true ∧ (∀ y ∈ before, p y = true → rank x < rank y) ∧
        ∀ y ∈ after, p y = true → rank x ≤ rank y := by
  simp only [findSome?_range_iff, List.find?_eq_some_iff_append, List.find?_eq_none, Bool.and_eq_true,
    Bool.not_eq_true', Bool.and_eq_false_iff, decide_eq_true_eq, decide_eq_false_iff_not, not_and]
  constructor
  · rintro ⟨k, -, ⟨⟨hp, rfl⟩, before, after, e, first⟩, least⟩
    have low : ∀ y ∈ xs, p y = true → rank x ≤ rank y := fun y hy py => by
      by_contra h
      exact least (rank y) (Nat.lt_of_not_le h) y hy py rfl
    refine ⟨before, after, e, hp, fun y hy py => ?_, fun y hy => low y (by simp [e, hy])⟩
    refine Nat.lt_of_le_of_ne (low y (by simp [e, hy]) py) fun same => ?_
    rcases first y hy with h | h
    · exact absurd (py.symm.trans h) (by decide)
    · exact h same.symm
  · rintro ⟨before, after, rfl, hp, first, least⟩
    refine ⟨rank x, hr x, ⟨⟨hp, rfl⟩, before, after, rfl, fun y hy => ?_⟩, fun j hj y hy py same => ?_⟩
    · by_cases py : p y = true
      · exact Or.inr (Nat.ne_of_gt (first y hy py))
      · exact Or.inl (Bool.eq_false_iff.2 py)
    · subst same
      rcases List.mem_append.1 hy with h | h
      · exact absurd (first y h py) (Nat.lt_asymm hj)
      · rcases List.mem_cons.1 h with rfl | h
        · exact Nat.lt_irrefl _ hj
        · exact absurd (least y h py) (Nat.not_le_of_lt hj)

theorem Origins.rank_lt (o : Origins) : o.rank < 4 := by
  unfold Origins.rank
  split
  · decide
  split
  · decide
  split <;> decide

theorem State.eligible_iff (s : State) (v : Vote) : s.eligible v = true ↔ v.state = .awaitingRead ∧
    (s.holdAsserted = true → (v.origins.peer = true ∨ v.origins.mend = true) ∧ s.read.fetches = []) := by
  unfold State.eligible
  cases s.holdAsserted <;> simp

/-- The arbiter's choice by class and age. -/
theorem State.chosen?_iff (s : State) (v : Vote) : s.chosen? = some v ↔
    ∃ before after, s.votes = before ++ v :: after ∧ s.eligible v = true ∧
      (∀ w ∈ before, s.eligible w = true → v.origins.rank < w.origins.rank) ∧
      ∀ w ∈ after, s.eligible w = true → v.origins.rank ≤ w.origins.rank :=
  findSome?_rank_iff (p := s.eligible) (rank := fun v : Vote => v.origins.rank) fun v => v.origins.rank_lt

theorem State.chosen?_none_iff (s : State) : s.chosen? = none ↔ ∀ v ∈ s.votes, ¬ s.eligible v = true := by
  simp only [State.chosen?, List.findSome?_eq_none_iff, List.mem_range, List.find?_eq_none, Bool.and_eq_true,
    decide_eq_true_eq, not_and]
  exact ⟨fun h v hv he => h _ v.origins.rank_lt v hv he rfl, fun h _ _ v hv he => absurd he (h v hv)⟩

/-! ### The arbiter's rounds -/

theorem State.issueFor_length (s : State) (v : Vote) :
    (s.issueFor v).read.fetches.length = s.read.fetches.length + 1 :=
  List.length_append

theorem State.issueFuel_full {s : State} (h : 4 ≤ s.read.fetches.length) : ∀ n, State.issueFuel n s = s
  | 0 => rfl
  | _ + 1 => if_neg (Nat.not_lt_of_le h)

theorem State.issueFuel_none {s : State} (h : s.chosen? = none) : ∀ n, State.issueFuel n s = s
  | 0 => rfl
  | n + 1 => by
    unfold State.issueFuel
    split
    · rw [h]
    · rfl

theorem State.issueFuel_succ {s : State} {v : Vote} (h : s.read.fetches.length < 4) (hv : s.chosen? = some v) (n : Nat) :
    State.issueFuel (n + 1) s = State.issueFuel n (s.issueFor v) := by
  rw [State.issueFuel, if_pos (show _ < Config.fetchSlots from h), hv]

/-- Each round fills a slot, so that more rounds than FREE slots change nothing. -/
theorem State.issueFuel_enough : ∀ (n m : Nat) {s : State}, 4 ≤ s.read.fetches.length + n →
    4 ≤ s.read.fetches.length + m → State.issueFuel n s = State.issueFuel m s
  | 0, m, s, hn, _ => (State.issueFuel_full hn m).symm
  | n + 1, 0, s, _, hm => State.issueFuel_full hm _
  | n + 1, m + 1, s, hn, hm => by
    by_cases full : 4 ≤ s.read.fetches.length
    · rw [State.issueFuel_full full, State.issueFuel_full full]
    · cases hv : s.chosen? with
      | none => rw [State.issueFuel_none hv, State.issueFuel_none hv]
      | some v =>
        rw [State.issueFuel_succ (Nat.lt_of_not_le full) hv, State.issueFuel_succ (Nat.lt_of_not_le full) hv]
        exact State.issueFuel_enough n m (by rw [s.issueFor_length]; omega) (by rw [s.issueFor_length]; omega)

theorem State.issue_of_chosen {s : State} {v : Vote} (h : s.read.fetches.length < 4) (hv : s.chosen? = some v) :
    s.issue = (s.issueFor v).issue :=
  (State.issueFuel_succ h hv 3).trans (State.issueFuel_enough 3 4 (by rw [s.issueFor_length]; omega) (by omega))

/-- The rounds end with no slot FREE or no vote eligible. -/
theorem State.issueFuel_ends : ∀ (n : Nat) {s : State}, 4 ≤ s.read.fetches.length + n →
    4 ≤ (State.issueFuel n s).read.fetches.length ∨ (State.issueFuel n s).chosen? = none
  | 0, _, h => Or.inl h
  | n + 1, s, h => by
    by_cases full : 4 ≤ s.read.fetches.length
    · rw [State.issueFuel_full full]; exact Or.inl full
    · cases hv : s.chosen? with
      | none => rw [State.issueFuel_none hv]; exact Or.inr hv
      | some v =>
        rw [State.issueFuel_succ (Nat.lt_of_not_le full) hv]
        exact State.issueFuel_ends n (by rw [s.issueFor_length]; omega)

theorem State.issueFuel_length : ∀ (n : Nat) (s : State),
    ∃ k ≤ n, (State.issueFuel n s).read.fetches.length = s.read.fetches.length + k
  | 0, s => ⟨0, Nat.le_refl 0, rfl⟩
  | n + 1, s => by
    by_cases full : 4 ≤ s.read.fetches.length
    · exact ⟨0, Nat.zero_le _, by rw [State.issueFuel_full full]; rfl⟩
    · cases hv : s.chosen? with
      | none => exact ⟨0, Nat.zero_le _, by rw [State.issueFuel_none hv]; rfl⟩
      | some v =>
        obtain ⟨k, hk, e⟩ := State.issueFuel_length n (s.issueFor v)
        refine ⟨k + 1, Nat.succ_le_succ hk, ?_⟩
        rw [State.issueFuel_succ (Nat.lt_of_not_le full) hv, e, s.issueFor_length]
        omega

/-- Settles O48: the choice is the first of least rank, and each round takes the next free tag. -/
theorem arbiterIssuesByClassAndAge : Obligations.ArbiterIssuesByClassAndAge := by
  unfold Obligations.ArbiterIssuesByClassAndAge
  intro s eligible rank
  refine ⟨?_, fun v => ?_, fun v => ⟨s.read.nextTag, rfl, fun room => ⟨fun f hf e => ?_, ?_⟩⟩,
    fun v h hv => State.issue_of_chosen h hv, ?_, State.issueFuel_ends 4 (Nat.le_add_left _ _),
    State.issueFuel_length 4 s⟩
  · simp only [s.chosen?_none_iff, s.eligible_iff]
    rfl
  · simp only [s.chosen?_iff, s.eligible_iff]
    rfl
  · exact ReadEngine.nextTag_fresh room (e ▸ List.mem_map_of_mem hf)
  · obtain ⟨j, -, e, past, -⟩ := stepPast_spec s.read.busyTags 4 s.read.tagCounter
    exact ⟨j, e, fun i hi => List.mem_map.1 (past i hi)⟩
  · rintro (h | h)
    · exact State.issueFuel_full h 4
    · exact State.issueFuel_none h 4

/-! ### The end of the walk (R44, R50) -/

/-- The steps a round still takes from a cursor: at most one for each frame, and one for each holding. -/
def stepsLeft (frames : List Nat) (pos frame : Nat) : Nat :=
  match frames.drop pos with
  | [] => 1
  | f :: rest => f - frame + 1 + (rest.map (· + 1)).sum

/-- The frame counts of the holdings, which the walk does not change. -/
def State.frameCounts (s : State) : List Nat := s.holdings.map Holding.frames

/-- The steps the round in progress still takes. -/
def State.stepsLeft (s : State) : Nat := Machine.stepsLeft s.frameCounts s.sweep.cursorPos s.sweep.cursorFrame

theorem stepsLeft_pos (frames : List Nat) (pos frame : Nat) : 0 < stepsLeft frames pos frame := by
  unfold stepsLeft
  split <;> omega

theorem stepsLeft_le (frames : List Nat) (pos frame : Nat) :
    stepsLeft frames pos frame ≤ (frames.map (· + 1)).sum + 1 := by
  have behind : ((frames.drop pos).map (· + 1)).sum ≤ (frames.map (· + 1)).sum :=
    ((List.drop_sublist pos frames).map _).sum_le_sum fun _ _ => Nat.zero_le _
  unfold stepsLeft
  split
  · omega
  · next f rest e =>
    rw [e, List.map_cons, List.sum_cons] at behind
    omega

theorem stepsLeft_nextFrame {frames : List Nat} {pos frame f : Nat} (h : frames[pos]? = some f) (hf : frame + 1 < f) :
    stepsLeft frames pos (frame + 1) < stepsLeft frames pos frame := by
  obtain ⟨hp, e⟩ := List.getElem?_eq_some_iff.1 h
  unfold stepsLeft
  rw [List.drop_eq_getElem_cons hp, e]
  dsimp only
  omega

theorem stepsLeft_nextHolding {frames : List Nat} {pos : Nat} (frame : Nat) (h : pos + 1 < frames.length) :
    stepsLeft frames (pos + 1) 0 < stepsLeft frames pos frame := by
  unfold stepsLeft
  rw [List.drop_eq_getElem_cons (Nat.lt_of_succ_lt h), List.drop_eq_getElem_cons h]
  dsimp only
  rw [List.map_cons, List.sum_cons]
  omega

/-- The walk goes on: the round has fewer steps left, or it has completed with a report. -/
structure WalksOn (s t : State) : Prop where
  frames : t.frameCounts = s.frameCounts
  onward : (t.port.reports.length = s.port.reports.length ∧ t.stepsLeft < s.stepsLeft) ∨
    t.port.reports.length = s.port.reports.length + 1

/-- What a frame without the holdings leaves of the frame counts. -/
theorem SameBut.frameCounts_eq {ps : List Part} {s t : State} (h : SameBut ps s t) (hp : Part.holdings ∉ ps) :
    t.frameCounts = s.frameCounts :=
  map_of_given (h .holdings hp) _ fun _ _ e => (Holding.given_eq e).2

theorem SameBut.reports_eq {ps : List Part} {s t : State} (h : SameBut ps s t) (hp : Part.reports ∉ ps) :
    t.port.reports = s.port.reports :=
  (h .reports hp).1

/-- A report joins a queue that has room. -/
theorem State.pushReport_reports {s : State} (h : s.port.reports.length < 64) (r : Report) :
    (s.pushReport r).port.reports = s.port.reports ++ [{ number := s.port.nextReport, report := r }] := by
  unfold State.pushReport
  rw [if_pos (show _ < Config.maxReports from h)]
  rfl

theorem State.completeRound_reports {s : State} (h : s.port.reports.length < 64) :
    s.completeRound.port.reports.length = s.port.reports.length + 1 := by
  unfold State.completeRound
  show (State.pushReport (s.setHoldings _) _).port.reports.length = _
  rw [State.pushReport_reports (s := s.setHoldings (s.holdings.map s.creditPass)) h, List.length_append]
  rfl

theorem WalksOn.completeRound {s : State} (h : s.port.reports.length < 64) : WalksOn s s.completeRound :=
  ⟨s.completeRound_frame.frameCounts_eq (by decide), Or.inr (State.completeRound_reports h)⟩

/-- The cursor moves on, to a place with fewer steps left or onto the end of the list. -/
theorem WalksOn.moveCursor {s : State} (h : s.port.reports.length < 64) {pos frame : Nat}
    (less : pos < s.holdings.length → Machine.stepsLeft s.frameCounts pos frame < s.stepsLeft) :
    WalksOn s (s.moveCursor pos frame) := by
  unfold State.moveCursor
  dsimp only
  split
  · next inside => exact ⟨rfl, Or.inl ⟨rfl, less inside⟩⟩
  · exact ⟨(State.completeRound_frame _).frameCounts_eq (by decide), Or.inr (State.completeRound_reports h)⟩

theorem WalksOn.nextHolding {s : State} (h : s.port.reports.length < 64) :
    WalksOn s (s.moveCursor (s.sweep.cursorPos + 1) 0) :=
  WalksOn.moveCursor h fun inside =>
    stepsLeft_nextHolding _ (show _ < (s.holdings.map Holding.frames).length by rw [List.length_map]; exact inside)

theorem WalksOn.cursorOn {s : State} (h : s.port.reports.length < 64) {x : Holding}
    (hx : s.frameCounts[s.sweep.cursorPos]? = some x.frames) : WalksOn s (s.cursorOn x) := by
  unfold State.cursorOn
  split
  · next more => exact WalksOn.moveCursor h fun _ => stepsLeft_nextFrame hx more
  · exact WalksOn.nextHolding h

/-- What goes on before the cursor moves, and behind it, leaves the walk's measure as it is. -/
theorem WalksOn.between {s s1 t1 t : State} (k : WalksOn s1 t1) (hf : s1.frameCounts = s.frameCounts)
    (hr : s1.port.reports = s.port.reports) (hc : s1.sweep.cursorPos = s.sweep.cursorPos)
    (hc' : s1.sweep.cursorFrame = s.sweep.cursorFrame) (hf' : t.frameCounts = t1.frameCounts)
    (hr' : t.port.reports = t1.port.reports) (hd : t.sweep.cursorPos = t1.sweep.cursorPos)
    (hd' : t.sweep.cursorFrame = t1.sweep.cursorFrame) : WalksOn s t := by
  obtain ⟨frames, onward⟩ := k
  have before : s1.stepsLeft = s.stepsLeft := by unfold State.stepsLeft; rw [hf, hc, hc']
  have behind : t.stepsLeft = t1.stepsLeft := by unfold State.stepsLeft; rw [hf', hd, hd']
  rw [before, ← behind, hr, ← hr'] at onward
  exact ⟨hf'.trans (frames.trans hf), onward⟩

theorem State.endBurst_cursor (s : State) : s.endBurst.sweep.cursorPos = s.sweep.cursorPos ∧
    s.endBurst.sweep.cursorFrame = s.sweep.cursorFrame := by
  unfold State.endBurst
  dsimp only
  split <;> exact ⟨rfl, rfl⟩

theorem State.spendBurst_cursor (s : State) : s.spendBurst.sweep.cursorPos = s.sweep.cursorPos ∧
    s.spendBurst.sweep.cursorFrame = s.sweep.cursorFrame := by
  unfold State.spendBurst
  dsimp only
  split
  · split
    · exact State.endBurst_cursor _
    · exact ⟨rfl, rfl⟩
  · exact ⟨rfl, rfl⟩

/-- A frame is counted as covered (R40). -/
def State.countCovered (s : State) : State :=
  s.setSweep { s.sweep with covered := min Config.countTop (s.sweep.covered + 1) }

/-- A vote is opened for a frame and counted in the round's tally, before the cursor moves on (R41). -/
def State.openSwept (s : State) (k : Key) : State :=
  (s.openCalling k .sweep).setSweep
    { (s.openCalling k .sweep).sweep with opened := min Config.countTop ((s.openCalling k .sweep).sweep.opened + 1) }

theorem State.callFrame_eq (s : State) (h : Holding) (k : Key) :
    s.callFrame h k = ((s.openSwept k).cursorOn h).spendBurst := rfl

/-- The cursor moves on from a frame once its vote has been opened. -/
theorem WalksOn.callFrame {s : State} (h : s.port.reports.length < 64) {x : Holding} (k : Key)
    (hx : s.frameCounts[s.sweep.cursorPos]? = some x.frames) : WalksOn s (s.callFrame x k) := by
  have opened := s.openCalling_frame k .sweep
  have sweep : (s.openCalling k .sweep).sweep = s.sweep := opened.sweep_eq (by decide) (by decide) (by decide)
  have frames : (s.openSwept k).frameCounts = s.frameCounts := opened.frameCounts_eq (by decide)
  have reports : (s.openSwept k).port.reports = s.port.reports := opened.reports_eq (by decide)
  have pos : (s.openSwept k).sweep.cursorPos = s.sweep.cursorPos :=
    (congrArg Sweep.cursorPos sweep :)
  have frame : (s.openSwept k).sweep.cursorFrame = s.sweep.cursorFrame :=
    (congrArg Sweep.cursorFrame sweep :)
  have spent := ((s.openSwept k).cursorOn x).spendBurst_frame
  rw [s.callFrame_eq]
  exact (WalksOn.cursorOn (reports ▸ h) (by rw [frames, pos]; exact hx)).between frames reports pos frame
    (spent.frameCounts_eq (by decide)) (spent.reports_eq (by decide)) (State.spendBurst_cursor _).1
    (State.spendBurst_cursor _).2

/-- Each step of the walk goes on. -/
theorem State.walkStep_walksOn {s : State} (h : s.port.reports.length < 64) : WalksOn s s.walkStep := by
  unfold State.walkStep
  split
  · exact WalksOn.completeRound h
  next x hx =>
    have counted : s.frameCounts[s.sweep.cursorPos]? = some x.frames := by
      unfold State.frameCounts
      rw [List.getElem?_map, hx]
      rfl
    split
    · exact WalksOn.nextHolding h
    split
    · exact WalksOn.nextHolding h
    dsimp only
    split
    · exact (WalksOn.cursorOn (s := s.countCovered) h counted).between rfl rfl rfl rfl rfl rfl rfl rfl
    · exact WalksOn.callFrame h _ counted

/-- The steps the walk can still take: rounds up to the 48th report, and the rest of the one in progress. -/
def State.walkMeasure (s : State) : Nat :=
  (48 - s.port.reports.length) * ((s.frameCounts.map (· + 1)).sum + 1) + s.stepsLeft

theorem WalksOn.measure_lt {s t : State} (k : WalksOn s t) (h : s.port.reports.length < 48) :
    t.walkMeasure < s.walkMeasure := by
  obtain ⟨frames, onward⟩ := k
  have room := stepsLeft_le t.frameCounts t.sweep.cursorPos t.sweep.cursorFrame
  have left : 0 < s.stepsLeft := stepsLeft_pos _ _ _
  unfold State.walkMeasure
  rw [← frames]
  rcases onward with ⟨reports, less⟩ | reports
  · rw [reports]
    omega
  · rw [reports, show 48 - s.port.reports.length = 48 - (s.port.reports.length + 1) + 1 by omega, Nat.succ_mul]
    unfold State.stepsLeft at *
    omega

theorem State.walkFuel_ends : ∀ (n : Nat) {s : State}, s.walkMeasure ≤ n →
    (State.walkFuel n s).sweepState ≠ .running
  | 0, s, h => fun _ => by
    have left : 0 < s.stepsLeft := stepsLeft_pos _ _ _
    unfold State.walkMeasure at h
    omega
  | n + 1, s, h => by
    unfold State.walkFuel
    split
    · next running =>
      have few := ((s.running_iff).1 running).2.2.2.2.2
      exact State.walkFuel_ends n (Nat.le_of_lt_succ
        (Nat.lt_of_lt_of_le ((State.walkStep_walksOn (Nat.lt_trans few (by decide))).measure_lt few) h))
    · next stopped => exact stopped

/-- After its walk the sweep is not RUNNING: the walk goes on until it stops. -/
theorem State.walk_stops (s : State) : s.walk.sweepState ≠ .running := by
  refine State.walkFuel_ends _ ?_
  have room := stepsLeft_le s.frameCounts s.sweep.cursorPos s.sweep.cursorFrame
  have steps : roundSteps s.holdings = (s.frameCounts.map (· + 1)).sum + 1 := by
    unfold roundSteps State.frameCounts
    rw [List.map_map]
    rfl
  unfold State.walkBound State.walkMeasure
  rw [steps]
  show _ ≤ (48 + 1) * _
  rw [Nat.succ_mul]
  exact Nat.add_le_add (Nat.mul_le_mul_right _ (Nat.sub_le _ _)) room

theorem State.walk_stopped {s : State} (h : s.sweepState ≠ .running) : s.walk = s := by
  unfold State.walk
  cases s.walkBound with
  | zero => rfl
  | succ n => exact if_neg h

/-! ### The hold line (R7, R47) -/

/-- The arbiter has nothing to do out of hold: every slot is BUSY, or no vote waits. -/
def State.Served (s : State) : Prop := 4 ≤ s.read.fetches.length ∨ ∀ v ∈ s.votes, v.state ≠ .awaitingRead

theorem State.issue_served {s : State} (h : s.holdAsserted = false) : s.issue.Served := by
  have held : s.issue.holdAsserted = false := by
    unfold State.holdAsserted
    rw [show s.issue.holdHigh = s.holdHigh from s.issue_frame .holdHigh (by decide),
      show s.issue.strap = s.strap from s.issue_frame .strap (by decide)]
    exact h
  rcases State.issueFuel_ends 4 (s := s) (Nat.le_add_left _ _) with full | none
  · exact Or.inl full
  · refine Or.inr fun v hv waits => ?_
    refine ((State.chosen?_none_iff _).1 none) v hv ((State.eligible_iff _ v).2 ⟨waits, fun asserted => ?_⟩)
    exact absurd (held.symm.trans asserted) (by decide)

/-- What leaves the votes and the slots leaves them served. -/
theorem State.Served.frame {s t : State} {ps : List Part} (k : s.Served) (h : SameBut ps s t) (hv : Part.votes ∉ ps)
    (hr : Part.read ∉ ps) : t.Served := by
  unfold State.Served
  rw [show t.votes = s.votes from h .votes hv, show t.read = s.read from h .read hr]
  exact k

theorem SameBut.holdAsserted_eq {ps : List Part} {s t : State} (h : SameBut ps s t) (h1 : Part.holdHigh ∉ ps)
    (h2 : Part.strap ∉ ps) : t.holdAsserted = s.holdAsserted := by
  unfold State.holdAsserted
  rw [show t.holdHigh = s.holdHigh from h .holdHigh h1, show t.strap = s.strap from h .strap h2]

theorem State.openCalling_served {s : State} (k : Key) (o : Origin) (h : s.holdAsserted = false) :
    (s.openCalling k o).Served := by
  refine State.issue_served ?_
  have opened := (s.addVote_frame (s.newVote k o none)).comp (State.offerCall_frame _ (s.newVote k o none))
    (rs := openParts) (by decide) (by decide)
  exact (opened.holdAsserted_eq (by decide) (by decide)).trans h

theorem State.Served.walkStep {s : State} (k : s.Served) (h : s.holdAsserted = false) : s.walkStep.Served := by
  have moved : ∀ {t : State}, t.Served → ∀ pos frame, (t.moveCursor pos frame).Served := fun k pos frame =>
    k.frame (State.moveCursor_frame _ pos frame) (by decide) (by decide)
  have on : ∀ {t : State}, t.Served → ∀ x, (t.cursorOn x).Served := fun k x =>
    k.frame (State.cursorOn_frame _ x) (by decide) (by decide)
  unfold State.walkStep
  split
  · exact k.frame s.completeRound_frame (by decide) (by decide)
  split
  · exact moved k _ _
  split
  · exact moved k _ _
  dsimp only
  split
  · exact on (t := s.countCovered) k _
  · next x _ _ _ _ _ =>
    have opened : (s.openSwept { reel := x.reel, frame := s.sweep.cursorFrame }).Served :=
      State.openCalling_served _ _ h
    rw [s.callFrame_eq]
    exact (on opened x).frame (State.spendBurst_frame _) (by decide) (by decide)

theorem State.Served.walkFuel : ∀ (n : Nat) {s : State}, s.Served → (State.walkFuel n s).Served
  | 0, _, k => k
  | n + 1, s, k => by
    unfold State.walkFuel
    split
    · next running => exact State.Served.walkFuel n (k.walkStep ((s.running_iff).1 running).2.1)
    · exact k

/-- Settles O49: the release lets the arbiter act, and the walk keeps what it has done and stops. -/
theorem holdLineStopsAndReleases : Obligations.HoldLineStopsAndReleases := by
  unfold Obligations.HoldLineStopsAndReleases
  intro s
  have released : State.holdAsserted { s with holdHigh := s.strap.holdLow } = false := by simp [State.holdAsserted]
  refine ⟨⟨rfl, by simp [State.holdAsserted]⟩, fun h => if_neg (by rw [h]; decide), fun h => ?_⟩
  intro u
  have acted : SameBut walkParts { s with holdHigh := s.strap.holdLow } u :=
    (State.issue_frame _).comp (State.walk_frame _) (by decide) (fun _ => id)
  refine ⟨if_pos h, acted .holdHigh (by decide), (acted.holdAsserted_eq (by decide) (by decide)).trans released,
    State.walk_stops _, State.Served.walkFuel _ (State.issue_served released), ?_⟩
  exact (s.setHoldHigh_frame s.strap.holdLow).comp acted (by decide) (by decide)

end Sys2Proof.Machine
end

section
/-! The end of a fetch: what the own status makes of its vote, how a BLOCK is sorted, and what ends a fetch unread. -/

namespace Sys2Proof.Machine

/-! ### A vote that an operation leaves alone -/

/-- A vote that the change to one vote would not change stays in the table. -/
theorem State.mem_modifyVote_of_fixed {s : State} {w : Vote} (h : w ∈ s.votes) {id : Nat} {f : Vote → Vote}
    (hf : w.id = id → f w = w) : w ∈ (s.modifyVote id f).votes := by
  refine List.mem_map.2 ⟨w, h, ?_⟩
  split
  · next e => exact hf e
  · rfl

theorem State.modifyVote_ids (s : State) (id : Nat) {f : Vote → Vote} (hf : ∀ v, (f v).id = v.id) :
    (s.modifyVote id f).votes.map Vote.id = s.votes.map Vote.id :=
  s.modifyVote_map id f Vote.id fun v _ _ => hf v

theorem State.issueFor_ids (s : State) (v : Vote) : (s.issueFor v).votes.map Vote.id = s.votes.map Vote.id :=
  s.modifyVote_ids v.id (f := fun w => { w with state := .reading, checks := [] }) fun _ => rfl

theorem State.issueFuel_ids : ∀ (n : Nat) (s : State),
    (State.issueFuel n s).votes.map Vote.id = s.votes.map Vote.id
  | 0, _ => rfl
  | n + 1, s => by
    unfold State.issueFuel
    split
    · split
      · rw [State.issueFuel_ids n, s.issueFor_ids]
      · rfl
    · rfl

/-- The arbiter leaves a vote alone that does not wait for its read. -/
theorem State.mem_issueFuel : ∀ (n : Nat) {s : State} {w : Vote}, (s.votes.map Vote.id).Nodup → w ∈ s.votes →
    w.state ≠ .awaitingRead → w ∈ (State.issueFuel n s).votes
  | 0, _, _, _, h, _ => h
  | n + 1, s, w, ids, h, hw => by
    unfold State.issueFuel
    split
    · split
      · next c hc =>
        obtain ⟨hc, waits⟩ := State.chosen?_mem hc
        refine State.mem_issueFuel n (by rw [s.issueFor_ids]; exact ids) ?_ hw
        refine State.mem_modifyVote_of_fixed (s := s) h fun e => absurd ?_ hw
        rw [eq_of_map_nodup ids h hc e]
        exact waits
      · exact h
    · exact h

/-! ### Messages that a message pushed out calls forth (R82, R92) -/

/-- A vote that a CALL pushed out owes nothing: it holds no SUM back, and has offered its own. -/
structure Vote.Settled (w : Vote) : Prop where
  free : w.callPending = false
  sent : w.sumSent = true

theorem State.mem_clearCall {s : State} {w : Vote} (h : w ∈ s.votes) (hw : w.Settled) (m : Message) :
    w ∈ (s.clearCall m).1.votes := by
  have free : ({ w with callPending := false } : Vote) = w := by rw [← hw.free]
  have sent : ({ w with sumSent := true } : Vote) = w := by rw [← hw.sent]
  unfold State.clearCall
  split
  · split
    · have first := fun id => State.mem_modifyVote_of_fixed (id := id) (f := fun v => { v with callPending := false }) h
        fun _ => free
      dsimp only
      split
      · exact State.mem_modifyVote_of_fixed (first _) fun _ => sent
      · exact first _
    · exact h
  all_goals exact h

/-- A message called forth is the own SUM of a vote. -/
theorem State.clearCall_held_sum {s t : State} {m held : Message} (h : s.clearCall m = (t, some held)) :
    ∃ (u : State) (v : Vote) (body : LineBody), u.ownSum? v = some body ∧ held = newMessage body none := by
  unfold State.clearCall at h
  split at h
  · split at h
    · next id _ _ v _ =>
      dsimp only at h
      split at h
      · next body e =>
        cases h
        unfold State.sumToOffer? at e
        split at e
        · cases e
        · exact ⟨_, v, body, e, rfl⟩
      · cases h
    · cases h
  all_goals cases h

/-- A message without an owner that joins leaves the votes alone. -/
theorem State.joinQueue_votes (s : State) {m : Message} (hm : m.owner = none) : (s.joinQueue m).votes = s.votes := by
  unfold State.joinQueue
  dsimp only
  split
  · next e => rw [hm] at e; cases e
  all_goals rfl

theorem State.mem_offerFuel : ∀ (n : Nat) {s : State} {m : Message} {w : Vote}, m.owner = none → w ∈ s.votes →
    w.Settled → w ∈ (State.offerFuel n m s).votes
  | 0, _, _, _, _, h, _ => h
  | n + 1, s, m, w, hm, h, hw => by
    unfold State.offerFuel
    split
    · exact h
    split
    · rw [State.joinQueue_votes _ hm]; exact h
    split
    · next victim rest _ =>
      split
      · have base : w ∈ (((s.setLine { s.line with queue := rest }).joinQueue m).bump .lineDropped).votes := by
          show w ∈ ((s.setLine { s.line with queue := rest }).joinQueue m).votes
          rw [State.joinQueue_votes _ hm]
          exact h
        have cleared := State.mem_clearCall base hw victim
        split
        · next t held e =>
          rw [e] at cleared
          obtain ⟨_, _, _, -, rfl⟩ := State.clearCall_held_sum e
          exact State.mem_offerFuel n rfl cleared hw
        · next t e =>
          rw [e] at cleared
          exact cleared
      · exact h
    · exact h

theorem State.mem_offer {s : State} {w : Vote} (h : w ∈ s.votes) (hw : w.Settled) (body : LineBody) :
    w ∈ (s.offer (newMessage body none)).votes :=
  State.mem_offerFuel _ rfl h hw

/-- An offer to a queue with room joins it (R66). -/
theorem State.offer_join {s : State} (hm : s.line.state ≠ .mute) (room : s.line.queue.length < 32) (m : Message) :
    s.offer m = s.joinQueue m := by
  unfold State.offer offerDepth State.offerFuel
  rw [if_neg hm, if_pos (show _ < Config.maxMessages from room)]

theorem State.joinQueue_queue (s : State) (m : Message) : (s.joinQueue m).line.queue = joinInOrder m s.line.queue := by
  unfold State.joinQueue
  dsimp only
  split <;> rfl

/-! ### The own status becomes known (R17, R91, R92, R99) -/

theorem SameBut.isSilent_eq {ps : List Part} {s t : State} (h : SameBut ps s t) (hp : Part.roster ∉ ps) (x : Nat) :
    t.line.isSilent x = s.line.isSilent x := by
  unfold LineUnit.isSilent LineUnit.heardOf
  rw [show t.line.roster = s.line.roster from h .roster hp]

theorem SameBut.holdingOf_eq {ps : List Part} {s t : State} (h : SameBut ps s t) (h1 : Part.holdings ∉ ps)
    (h2 : Part.passes ∉ ps) (reel : Nat) : t.holdingOf reel = s.holdingOf reel := by
  unfold State.holdingOf State.holding?
  rw [h.holdings_eq h1 h2]

/-- The vote of an ended fetch gathers, and the arbiter acts: the state in which the vote offers its SUM. -/
def State.gatherOn (s : State) (id : Nat) (own : OwnStatus) (checks : List Word) : State :=
  (s.modifyVote id (Vote.movedOn own checks s.now)).issue

theorem State.ownStatusKnown_eq (s : State) (id : Nat) (own : OwnStatus) (checks : List Word) :
    s.ownStatusKnown id own checks = if s.voteLimit = 0 then ((s.gatherOn id own checks).offerOwnSum id).expireVote id
      else ((s.gatherOn id own checks).offerOwnSum id).closureTest id := rfl

theorem State.gatherOn_frame (s : State) (id : Nat) (own : OwnStatus) (checks : List Word) :
    SameBut issueParts s (s.gatherOn id own checks) :=
  (s.modifyVote_frame id _).comp (State.issue_frame _) (by decide) fun _ h => h

theorem State.gatherOn_ids (s : State) (id : Nat) (own : OwnStatus) (checks : List Word) :
    (s.gatherOn id own checks).votes.map Vote.id = s.votes.map Vote.id :=
  (State.issueFuel_ids _ _).trans (s.modifyVote_ids id fun _ => rfl)

theorem State.mem_gatherOn {s : State} {v : Vote} (ids : (s.votes.map Vote.id).Nodup) (hv : v ∈ s.votes)
    (own : OwnStatus) (checks : List Word) : v.movedOn own checks s.now ∈ (s.gatherOn v.id own checks).votes := by
  refine State.mem_issueFuel _ (by rw [s.modifyVote_ids v.id (f := Vote.movedOn own checks s.now) fun _ => rfl]; exact ids)
    ?_ nofun
  exact State.mem_modifyVote.2 (Or.inl ⟨v, hv, rfl, rfl⟩)

/-- The SUM a vote offers once its own status is known (R91). -/
theorem State.sumToOffer?_movedOn {s t : State} {v : Vote} {own : OwnStatus} (h : own ≠ .pending)
    (hh : t.holdingOf v.key.reel = s.holdingOf v.key.reel) (checks : List Word) (now : Nat) :
    t.ownSum? (v.movedOn own checks now) = s.ownSum? { v with own := own } := by
  cases own with
  | pending => exact absurd rfl h
  | unreadable r | readOk x => simp only [State.ownSum?, Vote.movedOn, hh]

/-- A vote that may offer its SUM does (R91, R92). -/
theorem State.offerOwnSum_offers {s : State} {v : Vote} (ids : (s.votes.map Vote.id).Nodup) (hv : v ∈ s.votes)
    (h1 : v.callPending = false) (h2 : s.line.state ≠ .mute) (h3 : v.expected ≠ []) {body : LineBody}
    (hb : s.ownSum? v = some body) : s.offerOwnSum v.id =
      (s.modifyVote v.id fun x => { x with sumSent := true }).offer (newMessage body none) := by
  unfold State.offerOwnSum State.sumToOffer?
  rw [State.voteById?_of_mem ids hv]
  dsimp only
  rw [h1, if_neg (by decide), if_neg (by simp [h2, h3]), hb]

theorem State.offerOwnSum_holds {s : State} {v : Vote} (ids : (s.votes.map Vote.id).Nodup) (hv : v ∈ s.votes)
    (h : ¬ (v.callPending = false ∧ s.line.state ≠ .mute ∧ v.expected ≠ [])) : s.offerOwnSum v.id = s := by
  unfold State.offerOwnSum State.sumToOffer?
  rw [State.voteById?_of_mem ids hv]
  dsimp only
  split
  · rfl
  · next free =>
    rw [if_pos]
    by_contra quiet
    exact h ⟨by simpa using free, fun e => quiet (Or.inl e), fun e => quiet (Or.inr e)⟩

theorem State.offerOwnSum_ids (s : State) (id : Nat) :
    (s.offerOwnSum id).votes.map Vote.id = s.votes.map Vote.id :=
  map_of_core (s.offerOwnSum_tables id).votes _ fun _ _ e => (Vote.core_eq e).1

/-- The vote in the state that its offer leaves: SUM sent is set once it may offer. -/
theorem State.mem_offerOwnSum {s : State} {v : Vote} (ids : (s.votes.map Vote.id).Nodup) (hv : v ∈ s.votes)
    {body : LineBody} (hb : s.ownSum? v = some body) :
    ∃ sent, { v with sumSent := sent } ∈ (s.offerOwnSum v.id).votes ∧ (sent = true ↔ v.sumSent = true ∨
      (v.callPending = false ∧ s.line.state ≠ .mute ∧ v.expected ≠ [])) := by
  by_cases offers : v.callPending = false ∧ s.line.state ≠ .mute ∧ v.expected ≠ []
  · obtain ⟨h1, h2, h3⟩ := offers
    refine ⟨true, ?_, fun _ => Or.inr ⟨h1, h2, h3⟩, fun _ => rfl⟩
    rw [State.offerOwnSum_offers ids hv h1 h2 h3 hb]
    exact State.mem_offer (State.mem_modifyVote.2 (Or.inl ⟨v, hv, rfl, rfl⟩)) ⟨h1, rfl⟩ body
  · refine ⟨v.sumSent, ?_, fun h => Or.inl h, fun h => h.resolve_right offers⟩
    rw [State.offerOwnSum_holds ids hv offers]
    exact hv

theorem State.isComplete_iff (s : State) (v : Vote) :
    s.isComplete v = true ↔ ¬ ∃ x ∈ v.expected, v.answered x = false ∧ s.line.isSilent x = false := by
  simp only [State.isComplete, List.all_eq_true, Bool.or_eq_true, not_exists, not_and, Bool.not_eq_false]
  refine forall₂_congr fun x _ => ⟨fun h e => h.resolve_left (by rw [e]; decide), fun h => ?_⟩
  cases e : v.answered x with
  | true => exact Or.inl rfl
  | false => exact Or.inr (h e)

theorem State.closureTest_waits {s : State} {w : Vote} (ids : (s.votes.map Vote.id).Nodup) (hw : w ∈ s.votes)
    (h : ∃ x ∈ w.expected, w.answered x = false ∧ s.line.isSilent x = false) : s.closureTest w.id = s := by
  unfold State.closureTest
  rw [State.voteById?_of_mem ids hw]
  exact if_neg fun k => (s.isComplete_iff w).1 k.2 h

theorem State.closureTest_closes {s : State} {w : Vote} (ids : (s.votes.map Vote.id).Nodup) (hw : w ∈ s.votes)
    (hs : w.state = .gathering) (h : ¬ ∃ x ∈ w.expected, w.answered x = false ∧ s.line.isSilent x = false) :
    s.closureTest w.id = s.close w := by
  unfold State.closureTest
  rw [State.voteById?_of_mem ids hw]
  exact if_pos ⟨hs, (s.isComplete_iff w).2 h⟩

theorem State.expireVote_closes {s : State} {w : Vote} (ids : (s.votes.map Vote.id).Nodup) (hw : w ∈ s.votes)
    (hs : w.state = .gathering) : s.expireVote w.id = s.close w := by
  unfold State.expireVote
  rw [State.voteById?_of_mem ids hw]
  exact if_pos hs

/-- Settles O47: the vote moves on, is left alone by the arbiter, offers its SUM, and is then tested for closure. -/
theorem ownStatusMovesTheVoteOn : Obligations.OwnStatusMovesTheVoteOn := by
  unfold Obligations.OwnStatusMovesTheVoteOn
  intro v own checks s ids hv known t u waits n body offers
  have frame : SameBut issueParts s (s.gatherOn v.id own checks) := s.gatherOn_frame v.id own checks
  have offered : SameBut offerParts (s.gatherOn v.id own checks) u := State.offerOwnSum_frame _ v.id
  have both : SameBut [.read, .votes, .requests, .lineQueue, .counter .lineDropped] s u :=
    frame.comp offered (by decide) (by decide)
  have line : (s.gatherOn v.id own checks).line = s.line :=
    frame.line_eq (by decide) (by decide) (by decide) (by decide) (by decide)
  have gids : ((s.gatherOn v.id own checks).votes.map Vote.id).Nodup := by rw [s.gatherOn_ids]; exact ids
  have hm := State.mem_gatherOn ids hv own checks
  have sum : s.ownSum? { v with own := own } = some body := by
    cases own with
    | pending => exact absurd rfl known
    | unreadable _ => rfl
    | readOk x => cases e : v.reference <;> simp [State.ownSum?, body, n, e]
  have sum' : (s.gatherOn v.id own checks).ownSum? (v.movedOn own checks s.now) = some body := by
    rw [State.sumToOffer?_movedOn known (frame.holdingOf_eq (by decide) (by decide) _), sum]
  obtain ⟨sent, hw, hsent⟩ := State.mem_offerOwnSum gids hm sum'
  rw [line] at hsent
  have uids : (u.votes.map Vote.id).Nodup := by rw [State.offerOwnSum_ids]; exact gids
  have stays : (∃ x ∈ v.expected, v.answered x = false ∧ u.line.isSilent x = false) ↔ waits := by
    simp only [both.isSilent_eq (by decide), waits]
  refine ⟨s.ownStatusKnown_frame v.id own checks, both, ⟨{ v.movedOn own checks s.now with sumSent := sent }, hw, rfl, rfl,
    rfl, rfl, rfl, rfl, rfl, rfl, rfl, rfl, rfl, rfl, rfl, hsent, fun hwaits hlimit => ?_, fun h => ?_⟩, fun quiet => ?_,
    fun loud room => ?_, sum⟩
  · refine (s.ownStatusKnown_eq v.id own checks).trans ((if_neg hlimit).trans ?_)
    have same := State.closureTest_waits uids hw (stays.2 hwaits)
    exact same
  · refine (s.ownStatusKnown_eq v.id own checks).trans ?_
    by_cases hlimit : s.voteLimit = 0
    · exact (if_pos hlimit).trans (State.expireVote_closes uids hw rfl)
    · refine (if_neg hlimit).trans (State.closureTest_closes uids hw rfl fun k => ?_)
      exact (h.resolve_right hlimit) (stays.1 k)
  · show ((s.gatherOn v.id own checks).offerOwnSum (v.movedOn own checks s.now).id).line = s.line
    rw [State.offerOwnSum_holds gids hm (by rw [line]; exact quiet), line]
  · obtain ⟨h1, h2, h3⟩ := loud
    show ((s.gatherOn v.id own checks).offerOwnSum (v.movedOn own checks s.now).id).line.queue = _
    rw [State.offerOwnSum_offers gids hm h1 (by rw [line]; exact h2) h3 sum', State.offer_join, State.joinQueue_queue]
    · exact congrArg (fun l : LineUnit => joinInOrder (newMessage body none) l.queue) line
    · exact line ▸ h2
    · exact line ▸ room

end Sys2Proof.Machine
end

section
/-! How a BLOCK is read and sorted. -/

namespace Sys2Proof.Machine

/-! ### The fields of a BLOCK (spec/12) -/

theorem field_zero_one (b : Byte) (bs : List Byte) : field (b :: bs) 0 1 = b.toNat := by simp [field, natOf]

/-- Four bytes spell the 32-bit value that they are, most significant first. -/
theorem wordAt_four (a b c d : Byte) (rest : List Byte) : wordAt (a :: b :: c :: d :: rest) 0 = (a ++ b ++ c ++ d : Word) := by
  have spelled : field (a :: b :: c :: d :: rest) 0 4 = ((a.toNat * 256 + b.toNat) * 256 + c.toNat) * 256 + d.toNat := by
    simp [field, natOf]
  have join : ∀ (n : Nat) (y : Byte), n <<< 8 ||| y.toNat = n * 256 + y.toNat := fun n y => by
    rw [← Nat.shiftLeft_add_eq_or_of_lt y.isLt, Nat.shiftLeft_eq]
  apply BitVec.eq_of_toNat_eq
  rw [wordAt, spelled, BitVec.toNat_ofNat, BitVec.toNat_append, BitVec.toNat_append, BitVec.toNat_append, join, join,
    join, Nat.mod_eq_of_lt]
  have := a.isLt; have := b.isLt; have := c.isLt; have := d.isLt
  omega

theorem flagAt_cons (a b c mark : Byte) (rest : List Byte) : flagAt (a :: b :: c :: mark :: rest) 3 = (mark != 0) := by
  have spelled : field (a :: b :: c :: mark :: rest) 3 1 = mark.toNat := field_zero_one mark rest
  rw [flagAt, spelled, Bool.eq_iff_iff, bne_iff_ne, bne_iff_ne, ne_eq, ne_eq, BitVec.toNat_eq]
  rfl

theorem readBlock_unmarked (tag index depth : Byte) (tile : List Byte) :
    readBlock (tag :: index :: depth :: 0 :: tile) =
      some { tag := tag, index := index.toNat, depth := depth.toNat, reference := none, tile := tile } := by
  unfold readBlock
  rw [if_neg (by simp), flagAt_cons, if_neg (by decide)]
  simp [field, natOf]

theorem readBlock_marked (tag index depth q0 q1 q2 q3 : Byte) {mark : Byte} (h : mark ≠ 0) (tile : List Byte) :
    readBlock (tag :: index :: depth :: mark :: q0 :: q1 :: q2 :: q3 :: tile) =
      some { tag := tag, index := index.toNat, depth := depth.toNat, reference := some (q0 ++ q1 ++ q2 ++ q3)
             tile := tile } := by
  have word : wordAt (tag :: index :: depth :: mark :: q0 :: q1 :: q2 :: q3 :: tile) 4 = (q0 ++ q1 ++ q2 ++ q3 : Word) :=
    wordAt_four q0 q1 q2 q3 tile
  unfold readBlock
  rw [if_neg (by simp), flagAt_cons, if_pos (bne_iff_ne.2 h), if_neg (by simp), word]
  simp [field, natOf]

/-- A BLOCK too short for its fixed fields, the marked reference among them, is not read (R165). -/
theorem readBlock_short {body : List Byte} (h : body.length < 4 ∨ (body.getD 3 0 ≠ 0 ∧ body.length < 8)) :
    readBlock body = none := by
  by_cases short : body.length < 4
  · exact if_pos short
  · obtain ⟨marked, few⟩ := h.resolve_left short
    match body, short with
    | a :: b :: c :: mark :: rest, short =>
      unfold readBlock
      rw [if_neg short, flagAt_cons, if_pos (bne_iff_ne.2 (show mark ≠ 0 from marked)), if_pos few]

/-! ### Sorting a BLOCK (R9 to R13) -/

theorem exec_block {body : List Byte} {s : State} (h : s.ready (.block body) = true) :
    exec (.block body) s = .next (Machine.takeBlock body s).arbitrate :=
  congrArg Host.Outcome.next (State.arrive_ready h _)

theorem exec_block_read {body : List Byte} {s : State} (h : s.ready (.block body) = true) {b : BlockRecord}
    (hb : readBlock body = some b) : exec (.block body) s = .next (s.takeBlockRecord b).finish := by
  rw [exec_block h, Machine.takeBlock, hb]
  rfl

theorem Governor.takeDepth_eq (g : Governor) (d : Nat) : g.takeDepth d = { g with
    average := if g.average ≤ 16 * d then g.average + (16 * d - g.average) / 8
      else g.average - (g.average - 16 * d) / 8 } := by
  unfold Governor.takeDepth
  split <;> rfl

theorem ReadEngine.slot?_of_mem {e : ReadEngine} (h : (e.fetches.map Fetch.tag).Nodup) {f : Fetch} (hf : f ∈ e.fetches) :
    e.slot? f.tag = some f :=
  find_of_map_nodup h hf

/-- Of distinct numbers one vote changes, so that its new record may be written out. -/
theorem State.modifyVote_const {s : State} (ids : (s.votes.map Vote.id).Nodup) {v : Vote} (hv : v ∈ s.votes)
    (f : Vote → Vote) : s.modifyVote v.id f = s.modifyVote v.id fun _ => f v := by
  refine congrArg s.setVotes (List.map_congr_left fun w hw => ?_)
  by_cases e : w.id = v.id
  · rw [eq_of_map_nodup ids hw hv e]
  · rw [if_neg e, if_neg e]

/-- A good tile reaches the vote of its fetch (R12, R13). -/
theorem State.takeGood_eq {s : State} (c : Consistent s) {f : Fetch} {v : Vote} (hv : v ∈ s.votes) (hk : v.key = f.key)
    (b : BlockRecord) (n : Nat) : s.takeGood f b n =
      if f.next + 1 = n then ((s.modifyVote v.id fun _ => v.takeTile b).freeSlot f.tag).ownStatusKnown v.id
        (.readOk (frameSummary (v.takeTile b).checks)) (v.takeTile b).checks
      else (s.modifyVote v.id fun _ => v.takeTile b).nextTile f.tag := by
  unfold State.takeGood
  rw [← hk, State.vote?_of_mem c.keys hv]
  dsimp only
  rw [State.modifyVote_const c.ids hv]

theorem State.takeBlockRecord_late {s : State} {b : BlockRecord} (h : ∀ f ∈ s.read.fetches, f.tag ≠ b.tag) :
    s.takeBlockRecord b = (s.setGovernor (s.governor.takeDepth b.depth)).bump .lateBlocks := by
  have none : (s.setGovernor (s.governor.takeDepth b.depth)).read.slot? b.tag = none :=
    List.find?_eq_none.2 fun f hf => by simpa using h f hf
  unfold State.takeBlockRecord
  dsimp only
  rw [none]

/-- A BLOCK of a BUSY slot's tag, sorted by index and length. -/
theorem State.takeBlockRecord_busy {s : State} (c : Consistent s) {b : BlockRecord} {f : Fetch}
    (hf : f ∈ s.read.fetches) (ht : f.tag = b.tag) : s.takeBlockRecord b =
      if b.index ≠ f.next then (s.setGovernor (s.governor.takeDepth b.depth)).bump .blockDiscarded
      else if b.tile.length ≠ tileLength (s.holdingOf f.key.reel).length (tileSize s.strap.tileCode)
          (s.holdingOf f.key.reel).tiles f.next then
        (s.setGovernor (s.governor.takeDepth b.depth)).endUnreadable f .length true
      else (s.setGovernor (s.governor.takeDepth b.depth)).takeGood f b (s.holdingOf f.key.reel).tiles := by
  have slot : (s.setGovernor (s.governor.takeDepth b.depth)).read.slot? b.tag = some f :=
    ht ▸ ReadEngine.slot?_of_mem c.tags hf
  unfold State.takeBlockRecord
  dsimp only
  rw [slot]
  rfl

/-- Settles O45: the record's fields read back, and its tag, index and length choose what becomes of it. -/
theorem blocksAreSortedByTagIndexAndLength : Obligations.BlocksAreSortedByTagIndexAndLength := by
  unfold Obligations.BlocksAreSortedByTagIndexAndLength
  refine ⟨fun tag index depth q0 q1 q2 q3 mark tile h => ⟨readBlock_unmarked tag index depth tile,
    readBlock_marked tag index depth q0 q1 q2 q3 h tile⟩, fun body s ready => ⟨fun short => ?_, fun b hb => ?_⟩⟩
  · rw [exec_block ready, Machine.takeBlock, readBlock_short short]
    rfl
  · rw [exec_block_read ready hb]
    intro a u
    have depth : s.setGovernor (s.governor.takeDepth b.depth) = u := by
      rw [Governor.takeDepth_eq]
      rfl
    refine ⟨fun late => by rw [State.takeBlockRecord_late late, depth], fun f v c hf ht hv hk => ?_⟩
    intro h length taken stored
    have cu : Consistent u := c.of_tables (depth ▸ ((s.takeDepth_frame b.depth).tables (by decide)))
    rw [State.takeBlockRecord_busy c hf ht, depth]
    refine ⟨fun other => by rw [if_pos other], fun same wrong => ?_, fun same right more => ?_, fun same right last => ?_⟩
    · rw [if_neg (not_not.2 same), if_pos wrong]
    all_goals
      have tile : v.takeTile b = taken := by
        show ({ v with checks := _, reference := _ } : Vote) = _
        rw [same]
      rw [if_neg (not_not.2 same), if_neg (not_not.2 right), State.takeGood_eq cu hv hk, tile]
    · rw [if_neg more]
      rfl
    · rw [if_pos last]
      rfl

end Sys2Proof.Machine
end

section
/-! The fetches that end unread: FETCH FAILED, FETCH_TIMEOUT, and the timeouts of 0 ms, which come to an end. -/

namespace Sys2Proof.Machine

/-! ### Look-ups by start -/

theorem earliest_mem {α : Type} {start : α → Nat} : ∀ {xs : List α} {x : α}, earliest start xs = some x → x ∈ xs
  | y :: ys, x, h => by
    unfold earliest at h
    split at h
    · next z e =>
      split at h
      · cases h; exact List.mem_cons_of_mem _ (earliest_mem e)
      · cases h; exact List.mem_cons_self
    · cases h; exact List.mem_cons_self

/-- The earliest entry, and the first of several of its start. -/
theorem earliest_of_first {α : Type} {start : α → Nat} {x : α} {after : List α} (ha : ∀ y ∈ after, start x ≤ start y) :
    ∀ {before : List α}, (∀ y ∈ before, start x < start y) → earliest start (before ++ x :: after) = some x
  | [], _ => by
    rw [List.nil_append, earliest]
    split
    · next z e => rw [if_neg (Nat.not_lt_of_le (ha z (earliest_mem e)))]
    · rfl
  | y :: ys, hb => by
    rw [List.cons_append, earliest, earliest_of_first ha fun z hz => hb z (List.mem_cons_of_mem _ hz)]
    exact if_pos (hb y List.mem_cons_self)

/-! ### The reports only grow in number -/

theorem State.pushReport_length (s : State) (r : Report) :
    s.port.reports.length ≤ (s.pushReport r).port.reports.length ∧
      (s.port.reports.length < 64 → (s.pushReport r).port.reports.length = s.port.reports.length + 1) := by
  by_cases room : s.port.reports.length < 64
  · rw [State.pushReport_reports room, List.length_append]
    exact ⟨Nat.le_add_right _ _, fun _ => rfl⟩
  · unfold State.pushReport
    rw [if_neg (show ¬ _ < Config.maxReports from room)]
    exact ⟨Nat.le_refl _, fun h => absurd h room⟩

theorem State.walkFuel_reports : ∀ (n : Nat) (s : State),
    s.port.reports.length ≤ (State.walkFuel n s).port.reports.length
  | 0, _ => Nat.le_refl _
  | n + 1, s => by
    unfold State.walkFuel
    split
    · next running =>
      have few : s.port.reports.length < 64 := Nat.lt_trans ((s.running_iff).1 running).2.2.2.2.2 (by decide)
      refine Nat.le_trans ?_ (State.walkFuel_reports n s.walkStep)
      rcases (State.walkStep_walksOn few).onward with ⟨e, -⟩ | e
      · exact Nat.le_of_eq e.symm
      · exact e ▸ Nat.le_succ _
    · exact Nat.le_refl _

/-- The reports of a state, after an operation that may add to them. -/
def ReportsGrow (s t : State) : Prop := s.port.reports.length ≤ t.port.reports.length

theorem SameBut.reportsGrow {ps : List Part} {s t : State} (h : SameBut ps s t) (hp : Part.reports ∉ ps) :
    ReportsGrow s t := by
  unfold ReportsGrow
  rw [h.reports_eq hp]

theorem State.settleMend_reports (s : State) (v : Vote) (d : Decision) (b : Option (List Nat)) :
    ReportsGrow s (s.settleMend v d b) ∧ ((s.mend? v.key).isSome = true → s.port.reports.length < 64 →
      (s.settleMend v d b).port.reports.length = s.port.reports.length + 1) := by
  have removed := (s.removeMend v.key).pushReport_length
  unfold State.settleMend
  split
  · next e => exact ⟨Nat.le_refl _, fun h => absurd h (by rw [e]; decide)⟩
  next e _ =>
    have failed := (s.modifyMend v.key fun _ => e.fail s.now d b).pushReport_length
    split
    · exact ⟨(removed _).1, fun _ => (removed _).2⟩
    split
    · exact ⟨(failed _).1, fun _ => (failed _).2⟩
    · exact ⟨(removed _).1, fun _ => (removed _).2⟩

theorem State.deliverMend_reports (s : State) (v : Vote) (d : Decision) (b : Option (List Nat)) :
    ReportsGrow s (s.deliverMend v d b) ∧ (v.origins.mend = true → (s.mend? v.key).isSome = true →
      s.port.reports.length < 64 → (s.deliverMend v d b).port.reports.length = s.port.reports.length + 1) := by
  unfold State.deliverMend
  split
  · obtain ⟨grow, more⟩ := s.settleMend_reports v d b
    exact ⟨grow, fun _ => more⟩
  · next other =>
    refine ⟨?_, fun h => absurd h other⟩
    split
    · exact (s.requestMend_frame _ _ _).reportsGrow (by decide)
    · exact Nat.le_refl _
    · exact Nat.le_refl _

theorem State.alarmTest_reports (s : State) (k : Option Key) : ReportsGrow s (s.alarmTest k) := by
  have changed := (s.setWatch { s.watch with alarm := s.watch.testedAlarm }).pushReport_length
  unfold State.alarmTest
  dsimp only
  split
  · exact Nat.le_refl _
  split
  · exact (changed _).1
  · exact Nat.le_refl _

theorem State.deliverWatch_reports (s : State) (v : Vote) (d : Decision) : ReportsGrow s (s.deliverWatch v d) := by
  unfold State.deliverWatch State.watchBit
  split
  · exact State.alarmTest_reports (s.setWatch { s.watch with history := pushBit s.watch.history _ }) _
  · exact Nat.le_refl _

theorem State.deliverReport_reports (s : State) (v : Vote) (d : Decision) (f : VoteFlags) (b : Option (List Nat)) :
    ReportsGrow s (s.deliverReport v d f b) ∧ (isReported v.origins d.verdict f.refDiffers = true →
      s.port.reports.length < 64 → (s.deliverReport v d f b).port.reports.length = s.port.reports.length + 1) := by
  unfold State.deliverReport
  split
  · exact ⟨(s.pushReport_length _).1, fun _ => (s.pushReport_length _).2⟩
  · next silent => exact ⟨Nat.le_refl _, fun h => absurd h silent⟩

/-- An UNREADABLE that is delivered leaves a report: its own, or that of its mend entry (R120, R130, R131). -/
theorem State.deliverMarks_reports (s : State) (v : Vote) (d : Decision) : ReportsGrow s (s.deliverMarks v d none) ∧
    (d.verdict = .unreadable → (v.origins.mend = true → (s.mend? v.key).isSome = true) → s.port.reports.length < 64 →
      s.port.reports.length + 1 ≤ (s.deliverMarks v d none).port.reports.length) := by
  have counted := s.countVerdict_frame d.verdict v.flags.refDiffers
  unfold State.deliverMarks ReportsGrow
  dsimp only
  generalize s.countVerdict d.verdict v.flags.refDiffers = s1 at counted
  have reports1 : s1.port.reports = s.port.reports := counted.reports_eq (by cases d.verdict <;> decide)
  have mend1 : s1.mend? v.key = s.mend? v.key := by
    unfold State.mend?
    rw [show s1.mends = s.mends from counted .mends (by cases d.verdict <;> decide)]
  obtain ⟨grow2, more2⟩ := s1.deliverMend_reports v d (none.map Located.badTiles)
  have reports3 := ((s1.deliverMend v d (none.map Located.badTiles)).deliverEvidence_frame v d none).reports_eq (by decide)
  obtain ⟨grow4, more4⟩ := ((s1.deliverMend v d (none.map Located.badTiles)).deliverEvidence v d
    none).deliverReport_reports v d (s1.deliveredFlags v d) (none.map Located.badTiles)
  have grow5 := fun t : State => t.deliverWatch_reports v d
  unfold ReportsGrow at grow2 grow4 grow5
  rw [reports3] at grow4 more4
  rw [reports1] at grow2 more2
  refine ⟨(grow2.trans grow4).trans (grow5 _), fun hd hm room => Nat.le_trans ?_ (grow5 _)⟩
  cases mend : v.origins.mend with
  | true =>
    have pushed := more2 mend (mend1 ▸ hm mend) room
    omega
  | false =>
    have own : isReported v.origins d.verdict (s1.deliveredFlags v d).refDiffers = true := by
      simp [isReported, mend, hd, reportedVerdict]
    have pushed := more4 own
    omega

/-! ### The votes whose copy is unread -/

/-- The number of votes whose own status is PENDING. -/
def State.unread (s : State) : Nat := s.votes.countP fun v => decide (v.own = .pending)

theorem State.unread_le (s : State) : s.unread ≤ s.votes.length := List.countP_le_length

/-- The number depends on the own statuses alone. -/
theorem State.unread_of_map {s t : State} (h : t.votes.map Vote.own = s.votes.map Vote.own) : t.unread = s.unread := by
  have count : ∀ vs : List Vote, (vs.countP fun v => decide (v.own = .pending)) =
      (vs.map Vote.own).countP fun o => decide (o = .pending) := fun vs => by rw [List.countP_map]; rfl
  unfold State.unread
  rw [count, count, h]

theorem SameTables.unread {s t : State} (h : SameTables s t) : t.unread = s.unread :=
  State.unread_of_map (map_of_core h.votes _ fun _ _ e => (Vote.core_eq e).2.2.2.1)

theorem State.issueFuel_own : ∀ (n : Nat) (s : State),
    (State.issueFuel n s).votes.map Vote.own = s.votes.map Vote.own
  | 0, _ => rfl
  | n + 1, s => by
    unfold State.issueFuel
    split
    · split
      · next v _ =>
        rw [State.issueFuel_own n]
        exact s.modifyVote_map v.id (fun w => { w with state := .reading, checks := [] }) Vote.own fun _ _ _ => rfl
      · rfl
    · rfl

/-- A vote whose own status becomes known is no longer counted. -/
theorem State.unread_known {s : State} (ids : (s.votes.map Vote.id).Nodup) {v : Vote} (hv : v ∈ s.votes)
    (hp : v.own = .pending) {f : Vote → Vote} (hf : (f v).own ≠ .pending) :
    (s.modifyVote v.id f).unread + 1 = s.unread := by
  obtain ⟨before, after, e⟩ := List.append_of_mem hv
  have apart : ∀ w ∈ before ++ after, w.id ≠ v.id := by
    rw [e, List.map_append, List.map_cons, List.nodup_middle, ← List.map_append, List.nodup_cons] at ids
    exact fun w hw same => ids.1 (same ▸ List.mem_map_of_mem hw)
  have same : ∀ ws : List Vote, (∀ w ∈ ws, w.id ≠ v.id) → (ws.map fun w => if w.id = v.id then f w else w) = ws :=
    fun ws h => (List.map_congr_left fun w hw => if_neg (h w hw)).trans (List.map_id ws)
  show (s.votes.map fun w => if w.id = v.id then f w else w).countP _ + 1 = s.votes.countP _
  rw [e, List.map_append, List.map_cons, if_pos rfl, same before fun w hw => apart w (List.mem_append_left _ hw),
    same after fun w hw => apart w (List.mem_append_right _ hw), List.countP_append, List.countP_append,
    List.countP_cons_of_neg (by simpa using hf), List.countP_cons_of_pos (by simpa using hp)]
  rfl

/-- A vote that leaves the table with its own status known was not counted. -/
theorem State.unread_removeVote {s : State} {id : Nat} (h : ∀ w ∈ s.votes, w.id = id → w.own ≠ .pending) :
    (s.removeVote id).unread = s.unread := by
  show (s.votes.filter fun w => decide (w.id ≠ id)).countP _ = s.votes.countP _
  rw [List.countP_filter]
  refine List.countP_congr fun w hw => ?_
  simp only [Bool.and_eq_true, decide_eq_true_eq]
  exact ⟨fun k => k.1, fun k => ⟨k, fun e => h w hw e k⟩⟩

/-! ### A fetch that ends unread (R14 to R17) -/

/-- The slot of a fetch becomes FREE, with a CANCEL when the station ends it. -/
def State.endFetch (s : State) (f : Fetch) (cancel : Bool) : State :=
  { s with
    read := { s.read with fetches := s.read.fetches.filter fun g : Fetch => g.tag ≠ f.tag }
    port := { s.port with requests := s.port.requests ++ if cancel = true then [.cancel f.tag f.key] else [] } }

theorem State.endUnreadable_eq {s : State} (c : Consistent s) {v : Vote} (hv : v ∈ s.votes) {f : Fetch}
    (hk : v.key = f.key) (r : Reason) (cancel : Bool) :
    s.endUnreadable f r cancel = (s.endFetch f cancel).ownStatusKnown v.id (.unreadable r) [] := by
  have found : s.vote? f.key = some v := hk ▸ State.vote?_of_mem c.keys hv
  cases cancel with
  | true =>
    show (match s.vote? f.key with | some v => _ | none => _) = _
    rw [found]
    rfl
  | false =>
    show (match s.vote? f.key with | some v => _ | none => _) = _
    have freed : s.endFetch f false = s.freeSlot f.tag := by
      unfold State.endFetch
      rw [if_neg (by decide), List.append_nil]
      rfl
    rw [found, freed]
    rfl

/-- A fetch is its vote's, which waits for its own status (R4, R79). -/
theorem Consistent.vote_of_fetch {s : State} (c : Consistent s) {f : Fetch} (hf : f ∈ s.read.fetches) :
    ∃ v ∈ s.votes, v.key = f.key ∧ v.state = .reading ∧ v.own = .pending := by
  obtain ⟨v, hv, hk, hs⟩ := (c.reading f.key).1 ⟨f, hf, rfl⟩
  exact ⟨v, hv, hk, hs, (c.fits v hv).pending.2 (Or.inr hs)⟩

/-- A MEND vote has its mend entry (R127). -/
theorem Consistent.mend_of_vote {s : State} (c : Consistent s) {v : Vote} (hv : v ∈ s.votes)
    (h : v.origins.mend = true) : (s.mend? v.key).isSome = true := by
  obtain ⟨e, he, hk, -⟩ := (c.rechecking v.key).2 ⟨v, hv, rfl, h⟩
  exact List.find?_isSome.2 ⟨e, he, decide_eq_true hk⟩

/-- A vote whose copy is unread closes UNREADABLE, and is delivered at once (R107, R109). -/
theorem State.close_unreadable (s : State) {w : Vote} {r : Reason} (h : w.own = .unreadable r) :
    ∃ d : Decision, d.verdict = .unreadable ∧
      s.close w = (s.modifyVote w.id fun _ => w.closed false).deliver (w.closed false) d none := by
  have judged : ∀ x : Holding, (w.judgement x).verdict = .unreadable ∧ (w.judgement x).refDiffers = false := fun x => by
    unfold Vote.judgement
    rw [h]
    exact ⟨rfl, rfl⟩
  have verdict : (w.decidedBy (s.holdingOf w.key.reel)).verdict = .unreadable := by
    unfold Vote.decidedBy
    dsimp only
    rw [(judged _).1]
    rfl
  refine ⟨w.decidedBy (s.holdingOf w.key.reel), verdict, ?_⟩
  unfold State.close
  dsimp only
  rw [verdict, (judged _).2]
  dsimp only
  unfold State.offerTiles
  rw [verdict]

/-! ### The timeouts of 0 ms come to an end (R156) -/

/-- The delivery of an UNREADABLE adds to fewer than 48 reports, or lets the sweep open no vote. -/
theorem State.deliver_unreadable_progress {u : State} (ids : (u.votes.map Vote.id).Nodup) {w : Vote} (hw : w ∈ u.votes)
    {r : Reason} (hown : w.own = .unreadable r) {d : Decision} (hd : d.verdict = .unreadable)
    (hm : w.origins.mend = true → (u.mend? w.key).isSome = true) :
    let t := (u.modifyVote w.id fun _ => w.closed false).deliver (w.closed false) d none
    (t.unread = u.unread ∧ ReportsGrow u t) ∨
      (u.port.reports.length < 48 ∧ u.port.reports.length + 1 ≤ t.port.reports.length) := by
  intro t
  have frame := (u.modifyVote w.id fun _ => w.closed false).deliverMarks_frame (w.closed false) d none
  obtain ⟨grow, more⟩ := (u.modifyVote w.id fun _ => w.closed false).deliverMarks_reports (w.closed false) d
  have votes := frame .votes (by cases d.verdict <;> decide)
  generalize hx : (u.modifyVote w.id fun _ => w.closed false).deliverMarks (w.closed false) d none = x at *
  have votes : x.votes = (u.modifyVote w.id fun _ => w.closed false).votes := votes
  have xunread : x.unread = u.unread := by
    refine State.unread_of_map ?_
    rw [votes]
    exact u.modifyVote_map w.id (fun _ => w.closed false) Vote.own fun v hv e => by rw [eq_of_map_nodup ids hv hw e]; rfl
  have known : ∀ v ∈ x.votes, v.id = (w.closed false).id → v.own ≠ .pending := by
    rw [votes]
    intro v hv same
    rcases State.mem_modifyVote.1 hv with ⟨-, -, -, rfl⟩ | ⟨-, other⟩
    · rw [show (w.closed false).own = w.own from rfl, hown]
      exact nofun
    · exact absurd same other
  generalize hy : (x.removeVote (w.closed false).id).offerHeldSum (w.closed false) = y
  have ht : t = y.walk := by rw [← hy, ← hx]; rfl
  have yunread : y.unread = u.unread := by
    rw [← hy, (State.offerHeldSum_tables _ _).unread, State.unread_removeVote known, xunread]
  have yreports : y.port.reports = x.port.reports := by
    rw [← hy, (State.offerHeldSum_frame _ _).reports_eq (by decide)]
    exact (x.removeVote_frame _).reports_eq (by decide)
  have walked : ReportsGrow y y.walk := State.walkFuel_reports _ _
  unfold ReportsGrow at *
  rw [yreports] at walked
  rw [ht]
  by_cases few : u.port.reports.length < 48
  · exact Or.inr ⟨few, (more hd hm (Nat.lt_trans few (by decide))).trans walked⟩
  · have grow : u.port.reports.length ≤ x.port.reports.length := grow
    have stopped : y.sweepState ≠ .running := fun running => by
      have short := ((y.running_iff).1 running).2.2.2.2.2
      rw [yreports] at short
      omega
    rw [State.walk_stopped stopped, yunread, yreports]
    exact Or.inl ⟨rfl, grow⟩

/-- Once a vote's own status is UNREADABLE fewer votes are unread, unless its delivery has added to fewer than 48
reports. -/
theorem State.ownStatusKnown_progress {s : State} (ids : (s.votes.map Vote.id).Nodup) {v : Vote} (hv : v ∈ s.votes)
    (hp : v.own = .pending) (hm : v.origins.mend = true → (s.mend? v.key).isSome = true) (r : Reason) :
    ((s.ownStatusKnown v.id (.unreadable r) []).unread < s.unread ∧
        ReportsGrow s (s.ownStatusKnown v.id (.unreadable r) [])) ∨
      (s.port.reports.length < 48 ∧
        s.port.reports.length + 1 ≤ (s.ownStatusKnown v.id (.unreadable r) []).port.reports.length) := by
  obtain ⟨-, both, ⟨w, hw, hid, hkey, -, hown, -, -, -, -, -, -, horigins, -, -, -, waits, closes⟩, -⟩ :=
    ownStatusMovesTheVoteOn v (.unreadable r) [] s ids hv nofun
  generalize hu : State.offerOwnSum _ v.id = u at both hw waits closes
  have uids : (u.votes.map Vote.id).Nodup := by
    rw [← hu, State.offerOwnSum_ids]
    exact (s.gatherOn_ids v.id (.unreadable r) []) ▸ ids
  have unread : u.unread + 1 = s.unread := by
    rw [← hu, (State.offerOwnSum_tables _ _).unread]
    refine Eq.trans ?_ (State.unread_known ids hv hp (f := Vote.movedOn (.unreadable r) [] s.now) nofun)
    exact congrArg (· + 1) (State.unread_of_map (State.issueFuel_own _ _))
  have reports : u.port.reports = s.port.reports := both.reports_eq (by decide)
  by_cases stays : s.ownStatusKnown v.id (.unreadable r) [] = u
  · rw [stays]
    exact Or.inl ⟨by omega, by unfold ReportsGrow; rw [reports]⟩
  · have closed : s.ownStatusKnown v.id (.unreadable r) [] = u.close w := by
      refine closes ?_
      by_contra h
      rw [not_or, not_not] at h
      exact stays (waits h.1 h.2)
    obtain ⟨d, hd, e⟩ := u.close_unreadable hown
    have mend : w.origins.mend = true → (u.mend? w.key).isSome = true := by
      intro k
      unfold State.mend?
      rw [show u.mends = s.mends from both .mends (by decide), hkey]
      exact hm (horigins ▸ k)
    rw [closed, e, ← unread, ← reports]
    rcases State.deliver_unreadable_progress uids hw hown hd mend with ⟨same, grow⟩ | added
    · exact Or.inl ⟨by rw [same]; exact Nat.lt_succ_self _, by unfold ReportsGrow; rw [← reports]; exact grow⟩
    · exact Or.inr added

/-- The work that the timeouts of 0 ms still have: the votes whose copy is unread, and for each report up to the 48th the
votes that its delivery may let the sweep open. -/
def State.expiryMeasure (s : State) : Nat := 25 * (48 - s.port.reports.length) + s.unread

theorem Sound.expireFetch {s : State} (h : Sound s) (tag : Byte) : Sound (s.expireFetch tag) :=
  ⟨h.bounded.expireFetch tag, State.expireFetch_consistent tag h.consistent⟩

theorem State.expireFetch_eq {s : State} (c : Consistent s) {f : Fetch} (hf : f ∈ s.read.fetches) :
    s.expireFetch f.tag = (s.bump .fetchTimeouts).endUnreadable f .timeout true := by
  unfold State.expireFetch
  rw [ReadEngine.slot?_of_mem c.tags hf]

/-- Each fetch that ends leaves less work. -/
theorem State.expireFetch_less {s : State} (h : Sound s) {f : Fetch} (hf : f ∈ s.read.fetches) :
    (s.expireFetch f.tag).expiryMeasure < s.expiryMeasure := by
  obtain ⟨v, hv, hk, -, hp⟩ := h.consistent.vote_of_fetch hf
  have counted : Consistent (s.bump .fetchTimeouts) := h.consistent.of_tables (s.bump_tables _)
  have few := (State.unread_le _).trans (h.expireFetch f.tag).bounded.votes
  have progress := State.ownStatusKnown_progress (s := (s.bump .fetchTimeouts).endFetch f true) h.consistent.ids hv hp
    (h.consistent.mend_of_vote hv) .timeout
  rw [← State.endUnreadable_eq counted hv hk, ← State.expireFetch_eq h.consistent hf] at progress
  unfold State.expiryMeasure
  rcases progress with ⟨less, grow⟩ | ⟨room, added⟩
  · have less : (s.expireFetch f.tag).unread < s.unread := less
    have grow : s.port.reports.length ≤ (s.expireFetch f.tag).port.reports.length := grow
    omega
  · have room : s.port.reports.length < 48 := room
    have added : s.port.reports.length + 1 ≤ (s.expireFetch f.tag).port.reports.length := added
    omega

theorem State.expireFetches_ends : ∀ (n : Nat) {s : State}, Sound s → s.expiryMeasure ≤ n →
    (State.expireFetches n s).read.fetches = []
  | 0, s, h, hn => by
    refine List.eq_nil_iff_forall_not_mem.2 fun f hf => ?_
    have less := State.expireFetch_less h hf
    omega
  | n + 1, s, h, hn => by
    unfold State.expireFetches
    split
    · next f rest e =>
      have less := State.expireFetch_less h (f := f) (by rw [e]; exact List.mem_cons_self)
      exact State.expireFetches_ends n (h.expireFetch f.tag) (by omega)
    · next e => exact e

/-- With enough rounds, more of them change nothing. -/
theorem State.expireFetches_enough : ∀ (n m : Nat) {s : State}, Sound s → s.expiryMeasure ≤ n → s.expiryMeasure ≤ m →
    State.expireFetches n s = State.expireFetches m s
  | n, m, s, h, hn, hm => by
    cases e : s.read.fetches with
    | nil =>
      have stays : ∀ k, State.expireFetches k s = s := fun k => by
        cases k with
        | zero => rfl
        | succ k => rw [State.expireFetches, e]
      rw [stays n, stays m]
    | cons f rest =>
      have less := State.expireFetch_less h (f := f) (by rw [e]; exact List.mem_cons_self)
      match n, m with
      | 0, _ => omega
      | _, 0 => omega
      | n + 1, m + 1 =>
        rw [State.expireFetches, State.expireFetches, e]
        exact State.expireFetches_enough n m (h.expireFetch f.tag) (by omega) (by omega)

theorem State.expiryMeasure_le {s : State} (h : Bounded s) : s.expiryMeasure ≤ expiryBound := by
  have few := s.unread_le.trans h.votes
  show _ ≤ (24 + 1) * 48 + 24
  unfold State.expiryMeasure
  omega

/-- Under a fetch timeout of 0 ms no fetch stays outstanding. -/
theorem State.expireIssued_ends {s : State} (h : Sound s) (limit : s.fetchLimit = 0) :
    s.expireIssued.read.fetches = [] := by
  unfold State.expireIssued
  rw [if_pos limit]
  exact State.expireFetches_ends _ h (State.expiryMeasure_le h.bounded)

/-- Under a fetch timeout of 0 ms the fetch issued first ends first. -/
theorem State.expireIssued_cons {s : State} (h : Sound s) (limit : s.fetchLimit = 0) {f : Fetch} {rest : List Fetch}
    (e : s.read.fetches = f :: rest) : s.expireIssued = (s.expireFetch f.tag).expireIssued := by
  have later : (s.expireFetch f.tag).fetchLimit = 0 := by
    unfold State.fetchLimit
    rw [show (s.expireFetch f.tag).timers = s.timers from (s.expireFetch_frame f.tag) .timers (by decide)]
    exact limit
  have bound := State.expiryMeasure_le h.bounded
  have less := State.expireFetch_less h (f := f) (by rw [e]; exact List.mem_cons_self)
  unfold State.expireIssued
  rw [if_pos limit, if_pos later, show expiryBound = 1223 + 1 from rfl, State.expireFetches, e]
  exact State.expireFetches_enough _ _ (h.expireFetch f.tag) (Nat.le_of_lt_succ (Nat.lt_of_lt_of_le less bound))
    (State.expiryMeasure_le (h.expireFetch f.tag).bounded)

/-! ### The sweep stays stopped -/

/-- The parts that decide the sweep state, but for the number of votes. -/
def sweepStateParts : List Part :=
  [.suspendFlag, .cadence, .sweepRun, .holdHigh, .strap, .holdings, .passes, .reports]

theorem SameBut.stopped {ps : List Part} {s t : State} (h : SameBut ps s t) (hp : ∀ p ∈ sweepStateParts, p ∉ ps)
    (hv : t.votes.length = s.votes.length) (hs : s.sweepState ≠ .running) : t.sweepState ≠ .running := by
  have out : ∀ {p}, p ∈ sweepStateParts → p ∉ ps := fun hm => hp _ hm
  have sweep := h.sweep_eq (out (by decide)) (out (by decide)) (out (by decide))
  have holdings := h.holdings_eq (out (by decide)) (out (by decide))
  have hold := h.holdAsserted_eq (out (by decide)) (out (by decide))
  have reports := h.reports_eq (out (by decide))
  intro running
  refine hs ((s.running_iff).2 ?_)
  rw [← sweep, ← hold, ← hv, ← reports]
  have tiers : t.someTierSwept = s.someTierSwept := by unfold State.someTierSwept; rw [sweep, holdings]
  exact tiers ▸ (t.running_iff).1 running

theorem length_votes_of_ids {s t : State} (h : t.votes.map Vote.id = s.votes.map Vote.id) :
    t.votes.length = s.votes.length := by
  rw [← List.length_map (f := Vote.id), h, List.length_map]

theorem State.modifyVote_stopped {s : State} (id : Nat) (f : Vote → Vote) (h : s.sweepState ≠ .running) :
    (s.modifyVote id f).sweepState ≠ .running :=
  (s.modifyVote_frame id f).stopped (by decide) (List.length_map _) h

/-- A closure ends with the sweep's walk, or opens no vote. -/
theorem State.close_stopped {s : State} (v : Vote) (h : s.sweepState ≠ .running) :
    (s.close v).sweepState ≠ .running := by
  have located : ∀ {t : State} (w : Vote) (f : VoteFlags → VoteFlags), t.sweepState ≠ .running →
      (t.endUnlocated w f).sweepState ≠ .running := fun w f ht => by
    unfold State.endUnlocated
    split
    · exact State.walk_stops _
    · exact ht
  unfold State.close State.localise
  dsimp only
  split
  · split
    · exact located _ _ (State.modifyVote_stopped _ _ h)
    · exact State.modifyVote_stopped _ _ h
  · split
    · exact located _ _ (State.modifyVote_stopped _ _ h)
    · exact State.modifyVote_stopped _ _ h
  all_goals exact State.walk_stops _

theorem State.closureTest_stopped {s : State} (id : Nat) (h : s.sweepState ≠ .running) :
    (s.closureTest id).sweepState ≠ .running := by
  unfold State.closureTest
  split
  · split
    · exact State.close_stopped _ h
    · exact h
  · exact h

theorem State.expireVote_stopped {s : State} (id : Nat) (h : s.sweepState ≠ .running) :
    (s.expireVote id).sweepState ≠ .running := by
  unfold State.expireVote
  split
  · split
    · exact State.close_stopped _ h
    · exact h
  · exact h

theorem State.ownStatusKnown_stopped {s : State} (id : Nat) (own : OwnStatus) (checks : List Word)
    (h : s.sweepState ≠ .running) : (s.ownStatusKnown id own checks).sweepState ≠ .running := by
  have gathered := (s.gatherOn_frame id own checks).stopped (by decide)
    (length_votes_of_ids (s.gatherOn_ids id own checks)) h
  have offered := (State.offerOwnSum_frame (s.gatherOn id own checks) id).stopped (by decide)
    (length_votes_of_ids (State.offerOwnSum_ids _ id)) gathered
  rw [s.ownStatusKnown_eq]
  split
  · exact State.expireVote_stopped id offered
  · exact State.closureTest_stopped id offered

theorem State.endUnreadable_stopped {s : State} (f : Fetch) (r : Reason) (cancel : Bool)
    (h : s.sweepState ≠ .running) : (s.endUnreadable f r cancel).sweepState ≠ .running := by
  have freed := (s.freeSlot_frame f.tag).stopped (by decide) rfl h
  have asked := ((s.freeSlot f.tag).pushRequest_frame (.cancel f.tag f.key)).stopped (by decide) rfl freed
  have cancelled : (if cancel then (s.freeSlot f.tag).pushRequest (.cancel f.tag f.key)
      else s.freeSlot f.tag).sweepState ≠ .running := by
    split
    · exact asked
    · exact freed
  unfold State.endUnreadable
  dsimp only
  split
  · exact State.ownStatusKnown_stopped _ _ _ cancelled
  · exact (State.issue_frame _).stopped (by decide) (length_votes_of_ids (State.issueFuel_ids _ _)) cancelled

theorem State.expireFetches_stopped : ∀ (n : Nat) {s : State}, s.sweepState ≠ .running →
    (State.expireFetches n s).sweepState ≠ .running
  | 0, _, h => h
  | n + 1, s, h => by
    unfold State.expireFetches
    split
    · refine State.expireFetches_stopped n ?_
      unfold State.expireFetch
      split
      · exact State.endUnreadable_stopped _ _ _ ((s.bump_frame .fetchTimeouts).stopped (by decide) rfl h)
      · exact h
    · exact h

theorem State.expireIssued_stopped {s : State} (h : s.sweepState ≠ .running) :
    s.expireIssued.sweepState ≠ .running := by
  unfold State.expireIssued
  split
  · exact State.expireFetches_stopped _ h
  · exact h

/-! ### FETCH FAILED -/

theorem exec_fetchFailed {body : List Byte} {s : State} (h : s.ready (.fetchFailed body) = true) :
    exec (.fetchFailed body) s = .next (Machine.takeFetchFailed body s).arbitrate :=
  congrArg Host.Outcome.next (State.arrive_ready h _)

/-- The reason a FETCH FAILED names: 1 is unreadable, 2 absent. -/
theorem readFetchFailed_pair (tag code : Byte) : readFetchFailed [tag, code] =
    if code.toNat = 1 then some (tag, .unreadable) else if code.toNat = 2 then some (tag, .absent) else none := by
  have tagged : BitVec.ofNat 8 (field [tag, code] 0 1) = tag := by simp [field, natOf]
  have coded : field [tag, code] 1 1 = code.toNat := field_zero_one code []
  unfold readFetchFailed
  rw [if_pos (show [tag, code].length = 2 from rfl), tagged, coded]
  split
  · next e => rw [if_pos e]
  · next e => rw [if_neg (by rw [e]; decide), if_pos e]
  · next h1 h2 => rw [if_neg h1, if_neg h2]

theorem takeFetchFailed_late {tag : Byte} {r : Reason} {body : List Byte} {s : State}
    (hb : readFetchFailed body = some (tag, r)) (h : ∀ f ∈ s.read.fetches, f.tag ≠ tag) :
    Machine.takeFetchFailed body s = s.bump .lateBlocks := by
  have none : s.read.slot? tag = none := List.find?_eq_none.2 fun f hf => by simpa using h f hf
  unfold Machine.takeFetchFailed
  rw [hb]
  dsimp only
  rw [none]

theorem takeFetchFailed_busy {r : Reason} {body : List Byte} {s : State} (c : Consistent s) {f : Fetch}
    (hf : f ∈ s.read.fetches) (hb : readFetchFailed body = some (f.tag, r)) :
    Machine.takeFetchFailed body s = (s.endUnreadable f r false).expireIssued := by
  unfold Machine.takeFetchFailed
  rw [hb]
  dsimp only
  rw [ReadEngine.slot?_of_mem c.tags hf]

/-- The fetch whose timeout is due first ends, once time has passed to its end (R15). -/
theorem exec_fetchTimeout {s : State} (c : Consistent s) {f : Fetch} (hf : f ∈ s.read.fetches)
    (he : earliest Fetch.issued s.read.fetches = some f) : exec .fetchTimeout s =
      .next ((((s.passUntil (dueMs f.issued s.fetchLimit)).bump .fetchTimeouts).endUnreadable f .timeout true).finish) := by
  have passed := s.passUntil_frame (dueMs f.issued s.fetchLimit)
  have later : Consistent (s.passUntil (dueMs f.issued s.fetchLimit)) := c.of_tables (passed.tables (by decide))
  have still : f ∈ (s.passUntil (dueMs f.issued s.fetchLimit)).read.fetches := by
    rw [show State.read (s.passUntil _) = s.read from passed .read (by decide)]
    exact hf
  show execFetchTimeout s = _
  unfold execFetchTimeout
  rw [he]
  dsimp only
  rw [State.expireFetch_eq later still]

/-- Settles O46: the record's form and tag, the timeout due first, the end of those of 0 ms by a measure of the work left,
and what an unread fetch leaves of its vote. -/
theorem fetchesEndUnreadable : Obligations.FetchesEndUnreadable := by
  unfold Obligations.FetchesEndUnreadable
  refine ⟨fun tag code s ready => ⟨fun h1 h2 => ?_, fun h => ⟨fun late => ?_, fun f c hf ht => ?_⟩⟩,
    fun body s ready long => ?_, fun before after f s c e hb ha => ?_, fun s => ⟨rfl, s.expireIssued_frame, ?_, ?_,
      State.expireIssued_stopped⟩, fun f v r cancel s c hv hk => State.endUnreadable_eq c hv hk r cancel⟩
  · rw [exec_fetchFailed ready, Machine.takeFetchFailed, readFetchFailed_pair, if_neg h1, if_neg h2]
    rfl
  · have read : ∃ r, readFetchFailed [tag, code] = some (tag, r) := by
      rw [readFetchFailed_pair]
      rcases h with h | h
      · exact ⟨.unreadable, if_pos h⟩
      · exact ⟨.absent, by rw [if_neg (by omega), if_pos h]⟩
    obtain ⟨r, hr⟩ := read
    rw [exec_fetchFailed ready, takeFetchFailed_late hr late]
  · have read : readFetchFailed [tag, code] = some (f.tag, if code.toNat = 1 then .unreadable else .absent) := by
      rw [readFetchFailed_pair, ht]
      rcases h with h | h
      · rw [if_pos h, if_pos h]
      · rw [if_neg (by omega), if_pos h, if_neg (by omega)]
    rw [exec_fetchFailed ready, takeFetchFailed_busy c hf read]
    rfl
  · have unread : readFetchFailed body = none := if_neg long
    rw [exec_fetchFailed ready, Machine.takeFetchFailed, unread]
    rfl
  · exact ⟨s.passUntil_spec _, exec_fetchTimeout c (e ▸ List.mem_append_right _ List.mem_cons_self)
      (e ▸ earliest_of_first ha hb)⟩
  · rintro (h | h)
    · exact State.expireIssued_later h
    · exact State.expireIssued_none h
  · intro limit b c
    refine ⟨State.expireIssued_ends ⟨b, c⟩ limit, fun f rest e => ?_⟩
    rw [State.expireIssued_cons ⟨b, c⟩ limit e, State.expireFetch_eq c (e ▸ List.mem_cons_self)]

end Sys2Proof.Machine
end

section
/-! How votes and mend entries evolve: what the expiry of timers makes of the entries that were there, and what it adds. -/

namespace Sys2Proof.Machine

/-! ### Evolution -/

/-- What stays of a vote while it is in the table: its number, key and MEND origin, LOCALISING, and an own status that is
known. -/
structure Vote.Follows (v w : Vote) : Prop where
  id : w.id = v.id
  key : w.key = v.key
  mend : w.origins.mend = v.origins.mend
  localising : v.state = .localising → w.state = .localising
  own : v.own ≠ .pending → w.own = v.own

theorem Vote.Follows.refl (v : Vote) : v.Follows v := ⟨rfl, rfl, rfl, fun h => h, fun _ => rfl⟩

theorem Vote.Follows.trans {u v w : Vote} (h : u.Follows v) (k : v.Follows w) : u.Follows w :=
  ⟨k.id.trans h.id, k.key.trans h.key, k.mend.trans h.mend, fun e => k.localising (h.localising e),
    fun e => (k.own (by rw [h.own e]; exact e)).trans (h.own e)⟩

theorem Vote.Follows.of_core {v w : Vote} (h : v.core = w.core) : v.Follows w := by
  obtain ⟨eid, ekey, estate, eown, -, -, -, emend, -⟩ := Vote.core_eq h
  exact ⟨eid.symm, ekey.symm, emend.symm, fun e => estate ▸ e, fun _ => eown.symm⟩

/-- The vote numbers are distinct, and below the next (log 7). -/
structure Numbered (s : State) : Prop where
  ids : (s.votes.map Vote.id).Nodup
  below : ∀ v ∈ s.votes, v.id < s.nextVote

theorem Consistent.numbered {s : State} (c : Consistent s) : Numbered s := ⟨c.ids, c.idsBelow⟩

/-- From s to t no time passes; every vote was there, or is new and no MEND vote; and every mend entry was there, is made
anew, or waits again after a MEND vote of its key. -/
structure Evolves (s t : State) : Prop where
  now : t.now = s.now
  next : s.nextVote ≤ t.nextVote
  numbered : Numbered s → Numbered t
  votes : Numbered s → ∀ w ∈ t.votes, (∃ v ∈ s.votes, v.Follows w) ∨ (s.nextVote ≤ w.id ∧ w.origins.mend = false)
  mends : Numbered s → ∀ e ∈ t.mends, e ∈ s.mends ∨ (e.failed = 0 ∧ e.state = .awaitingRewrite s.now) ∨
    ((∃ n, e.state = .awaitingRewrite n) ∧ ∃ v ∈ s.votes, v.key = e.key ∧ v.origins.mend = true)

theorem Evolves.refl (s : State) : Evolves s s :=
  ⟨rfl, Nat.le_refl _, fun h => h, fun _ v hv => Or.inl ⟨v, hv, Vote.Follows.refl v⟩, fun _ _ he => Or.inl he⟩

theorem Evolves.trans {s t u : State} (h : Evolves s t) (k : Evolves t u) : Evolves s u := by
  refine ⟨k.now.trans h.now, h.next.trans k.next, fun n => k.numbered (h.numbered n), fun n w hw => ?_, fun n e he => ?_⟩
  · rcases k.votes (h.numbered n) w hw with ⟨v, hv, f⟩ | ⟨new, mend⟩
    · rcases h.votes n v hv with ⟨x, hx, g⟩ | ⟨new, mend⟩
      · exact Or.inl ⟨x, hx, g.trans f⟩
      · exact Or.inr ⟨f.id ▸ new, f.mend.trans mend⟩
    · exact Or.inr ⟨h.next.trans new, mend⟩
  · rcases k.mends (h.numbered n) e he with old | fresh | ⟨waits, v, hv, hk, hm⟩
    · exact h.mends n e old
    · exact Or.inr (Or.inl (h.now ▸ fresh))
    · rcases h.votes n v hv with ⟨x, hx, g⟩ | ⟨-, mend⟩
      · exact Or.inr (Or.inr ⟨waits, x, hx, g.key.symm.trans hk, g.mend.symm.trans hm⟩)
      · exact absurd (hm.symm.trans mend) (by decide)

/-- An evolution in which every outstanding fetch stays outstanding. -/
structure Grows (s t : State) : Prop where
  evolves : Evolves s t
  fetches : s.read.fetches ⊆ t.read.fetches

theorem Grows.refl (s : State) : Grows s s := ⟨Evolves.refl s, List.Subset.refl _⟩

theorem Grows.trans {s t u : State} (h : Grows s t) (k : Grows t u) : Grows s u :=
  ⟨h.evolves.trans k.evolves, List.Subset.trans h.fetches k.fetches⟩

theorem Grows.foldl {α : Type} {f : State → α → State} (h : ∀ s x, Grows s (f s x)) :
    ∀ (xs : List α) (s : State), Grows s (xs.foldl f s)
  | [], s => Grows.refl s
  | x :: xs, s => (h s x).trans (Grows.foldl h xs (f s x))

/-- The tables stay as they are. -/
theorem SameTables.grows {s t : State} (h : SameTables s t) (hn : t.now = s.now) : Grows s t := by
  have from_s : ∀ {w}, w ∈ t.votes → ∃ v ∈ s.votes, v.core = w.core := fun hw => mem_of_map_eq h.votes hw
  refine ⟨⟨hn, Nat.le_of_eq h.next.symm, fun n => ⟨?_, fun w hw => ?_⟩, fun _ w hw => ?_, fun _ e he => Or.inl (h.mends ▸ he)⟩,
    h.read ▸ List.Subset.refl _⟩
  · rw [map_of_core h.votes _ fun _ _ e => (Vote.core_eq e).1]
    exact n.ids
  · obtain ⟨v, hv, e⟩ := from_s hw
    rw [h.next, ← (Vote.core_eq e).1]
    exact n.below v hv
  · obtain ⟨v, hv, e⟩ := from_s hw
    exact Or.inl ⟨v, hv, Vote.Follows.of_core e⟩

/-- What a frame has to leave for the tables that evolve to stay as they are. -/
def evolvingParts : List Part := [.votes, .nextVote, .mends, .now, .read]

theorem SameBut.grows {ps : List Part} {s t : State} (h : SameBut ps s t) (hp : ∀ p ∈ evolvingParts, p ∉ ps) :
    Grows s t := by
  have votes : t.votes = s.votes := h .votes (hp _ (by decide))
  have next : t.nextVote = s.nextVote := h .nextVote (hp _ (by decide))
  have mends : t.mends = s.mends := h .mends (hp _ (by decide))
  have read : t.read = s.read := h .read (hp _ (by decide))
  refine ⟨⟨h .now (hp _ (by decide)), Nat.le_of_eq next.symm, fun n => ⟨by rw [votes]; exact n.ids, ?_⟩, fun _ w hw => ?_,
    fun _ e he => Or.inl (mends ▸ he)⟩, by rw [read]; exact List.Subset.refl _⟩
  · rw [votes, next]
    exact n.below
  · exact Or.inl ⟨w, votes ▸ hw, Vote.Follows.refl w⟩

/-- A change to one vote that it can follow. -/
theorem Grows.modifyVote {s : State} {id : Nat} {f : Vote → Vote}
    (hf : Numbered s → ∀ v ∈ s.votes, v.id = id → v.Follows (f v)) : Grows s (s.modifyVote id f) := by
  have from_s : Numbered s → ∀ w ∈ (s.modifyVote id f).votes, ∃ v ∈ s.votes, v.Follows w := fun n w hw => by
    rcases State.mem_modifyVote.1 hw with ⟨v, hv, e, rfl⟩ | ⟨hw, -⟩
    · exact ⟨v, hv, hf n v hv e⟩
    · exact ⟨w, hw, Vote.Follows.refl w⟩
  refine ⟨⟨rfl, Nat.le_refl _, fun n => ⟨?_, fun w hw => ?_⟩, fun n w hw => Or.inl (from_s n w hw), fun _ _ he => Or.inl he⟩,
    List.Subset.refl _⟩
  · rw [s.modifyVote_map id f Vote.id fun v hv e => (hf n v hv e).id]
    exact n.ids
  · obtain ⟨v, hv, g⟩ := from_s n w hw
    exact g.id ▸ n.below v hv

/-- A change to the record of one vote that is in the table. -/
theorem Grows.replaceVote {s : State} {v v1 : Vote} (hv : v ∈ s.votes) (h : v.Follows v1) :
    Grows s (s.modifyVote v.id fun _ => v1) :=
  Grows.modifyVote fun n _ hx e => eq_of_map_nodup n.ids hx hv e ▸ h

theorem Grows.removeVote (s : State) (id : Nat) : Grows s (s.removeVote id) := by
  have kept : ∀ {w}, w ∈ (s.removeVote id).votes → w ∈ s.votes := fun hw => (List.mem_filter.1 hw).1
  exact ⟨⟨rfl, Nat.le_refl _, fun n => ⟨nodup_of_sublist_map n.ids List.filter_sublist, fun w hw => n.below w (kept hw)⟩,
    fun _ w hw => Or.inl ⟨w, kept hw, Vote.Follows.refl w⟩, fun _ _ he => Or.inl he⟩, List.Subset.refl _⟩

/-! ### The arbiter and the walk -/

theorem Grows.issueFor {s : State} {v : Vote} (hv : v ∈ s.votes) (hw : v.state = .awaitingRead) :
    Grows s (s.issueFor v) := by
  have reading : Grows s (s.modifyVote v.id fun w => { w with state := .reading, checks := [] }) :=
    Grows.modifyVote fun n x hx e => by
      rw [eq_of_map_nodup n.ids hx hv e]
      exact ⟨rfl, rfl, rfl, fun h => absurd (hw.symm.trans h) (by decide), fun _ => rfl⟩
  obtain ⟨now, next, numbered, votes, mends⟩ := reading.evolves
  exact ⟨⟨now, next, fun n => ⟨(numbered n).ids, (numbered n).below⟩, votes, mends⟩, List.subset_append_left _ _⟩

theorem Grows.issueFuel : ∀ (n : Nat) (s : State), Grows s (State.issueFuel n s)
  | 0, s => Grows.refl s
  | n + 1, s => by
    unfold State.issueFuel
    split
    · split
      · next v hv =>
        obtain ⟨hv, waits⟩ := State.chosen?_mem hv
        exact (Grows.issueFor hv waits).trans (Grows.issueFuel n _)
      · exact Grows.refl s
    · exact Grows.refl s

theorem Grows.issue (s : State) : Grows s s.issue := Grows.issueFuel _ s

/-- A vote of another origin than MEND is opened with the next number. -/
theorem Grows.addVote (s : State) (k : Key) {o : Origin} (ho : o ≠ .mend) (caller : Option Nat) :
    Grows s (s.addVote (s.newVote k o caller)) := by
  have mem : ∀ {w}, w ∈ (s.addVote (s.newVote k o caller)).votes → w ∈ s.votes ∨ w = s.newVote k o caller := fun hw => by
    rcases List.mem_append.1 hw with h | h
    · exact Or.inl h
    · exact Or.inr (List.mem_singleton.1 h)
  refine ⟨⟨rfl, Nat.le_succ _, fun n => ⟨?_, fun w hw => ?_⟩, fun _ w hw => ?_, fun _ _ he => Or.inl he⟩, List.Subset.refl _⟩
  · exact nodup_append_one n.ids fun x hx => Nat.ne_of_lt (n.below x hx)
  · rcases mem hw with h | rfl
    · exact Nat.lt_succ_of_lt (n.below w h)
    · exact Nat.lt_succ_self _
  · rcases mem hw with h | rfl
    · exact Or.inl ⟨w, h, Vote.Follows.refl w⟩
    · exact Or.inr ⟨Nat.le_refl _, by cases o with | mend => exact absurd rfl ho | sweep | peer | order => rfl⟩

theorem Grows.offer (s : State) (m : Message) : Grows s (s.offer m) :=
  (s.offer_tables m).grows (s.offer_frame m .now (by decide))

theorem Grows.openCalling (s : State) (k : Key) {o : Origin} (ho : o ≠ .mend) : Grows s (s.openCalling k o) := by
  have called : ∀ (t : State) (v : Vote), Grows t (t.offerCall v) := fun t v =>
    (t.offerCall_tables v).grows (t.offerCall_frame v .now (by decide))
  exact ((Grows.addVote s k ho none).trans (called _ _)).trans (Grows.issue _)

theorem Grows.walkStep (s : State) : Grows s s.walkStep := by
  have moved : ∀ (t : State) (pos frame : Nat), Grows t (t.moveCursor pos frame) := fun t pos frame =>
    (t.moveCursor_frame pos frame).grows (by decide)
  unfold State.walkStep
  split
  · exact s.completeRound_frame.grows (by decide)
  split
  · exact moved s _ _
  split
  · exact moved s _ _
  next x _ _ _ =>
    dsimp only
    split
    · have covered : Grows s s.countCovered := ⟨⟨rfl, Nat.le_refl _, fun n => ⟨n.ids, n.below⟩, (Evolves.refl s).votes,
        (Evolves.refl s).mends⟩, List.Subset.refl _⟩
      exact covered.trans ((State.cursorOn_frame _ x).grows (by decide))
    · rw [s.callFrame_eq]
      have opened := Grows.openCalling s { reel := x.reel, frame := s.sweep.cursorFrame } (o := .sweep) nofun
      have tallied : Grows (s.openCalling { reel := x.reel, frame := s.sweep.cursorFrame } .sweep)
          (s.openSwept { reel := x.reel, frame := s.sweep.cursorFrame }) :=
        ⟨⟨rfl, Nat.le_refl _, fun n => ⟨n.ids, n.below⟩, (Evolves.refl _).votes, (Evolves.refl _).mends⟩,
          List.Subset.refl _⟩
      exact ((opened.trans tallied).trans ((State.cursorOn_frame _ x).grows (by decide))).trans
        ((State.spendBurst_frame _).grows (by decide))

theorem Grows.walkFuel : ∀ (n : Nat) (s : State), Grows s (State.walkFuel n s)
  | 0, s => Grows.refl s
  | n + 1, s => by
    unfold State.walkFuel
    split
    · exact (Grows.walkStep s).trans (Grows.walkFuel n _)
    · exact Grows.refl s

theorem Grows.walk (s : State) : Grows s s.walk := Grows.walkFuel _ s

/-! ### Delivery and closure -/

/-- The mend list's part of a delivery, of a vote that follows one in the table. -/
theorem Grows.deliverMend {s : State} {x v : Vote} (hx : x ∈ s.votes) (h : x.Follows v) (d : Decision)
    (b : Option (List Nat)) : Grows s (s.deliverMend v d b) := by
  have frame := s.deliverMend_frame v d b
  have same : ∀ p ∈ [Part.votes, .nextVote, .now, .read], p.same s (s.deliverMend v d b) := fun p hp =>
    frame p (by revert p; decide)
  have votes : (s.deliverMend v d b).votes = s.votes := same .votes (by decide)
  have next : (s.deliverMend v d b).nextVote = s.nextVote := same .nextVote (by decide)
  have read : (s.deliverMend v d b).read = s.read := same .read (by decide)
  have entries : ∀ e ∈ (s.deliverMend v d b).mends, e ∈ s.mends ∨ (e.failed = 0 ∧ e.state = .awaitingRewrite s.now) ∨
      ((∃ n, e.state = .awaitingRewrite n) ∧ e.key = v.key ∧ v.origins.mend = true) := by
    intro e he
    unfold State.deliverMend at he
    split at he
    · next mend =>
      unfold State.settleMend at he
      split at he
      · exact Or.inl he
      next e0 he0 =>
        split at he
        · rw [State.pushReport_mends] at he
          exact Or.inl (List.mem_filter.1 he).1
        split at he
        · rw [State.pushReport_mends] at he
          obtain ⟨e1, he1, rfl⟩ := List.mem_map.1 he
          dsimp only
          split
          · exact Or.inr (Or.inr ⟨⟨s.now, rfl⟩, (State.mend?_mem he0).2, mend⟩)
          · exact Or.inl he1
        · rw [State.pushReport_mends] at he
          exact Or.inl (List.mem_filter.1 he).1
    · split at he
      · unfold State.requestMend at he
        split at he
        · exact Or.inl he
        · rcases List.mem_append.1 he with h | h
          · exact Or.inl h
          · rw [List.mem_singleton.1 h]
            exact Or.inr (Or.inl ⟨rfl, rfl⟩)
      · exact Or.inl he
      · exact Or.inl he
  refine ⟨⟨same .now (by decide), Nat.le_of_eq next.symm, fun n => ⟨by rw [votes]; exact n.ids, ?_⟩, fun _ w hw => ?_,
    fun _ e he => ?_⟩, by rw [read]; exact List.Subset.refl _⟩
  · rw [votes, next]
    exact n.below
  · exact Or.inl ⟨w, votes ▸ hw, Vote.Follows.refl w⟩
  · rcases entries e he with old | fresh | ⟨waits, key, mend⟩
    · exact Or.inl old
    · exact Or.inr (Or.inl fresh)
    · exact Or.inr (Or.inr ⟨waits, x, hx, h.key.symm.trans key.symm, h.mend.symm.trans mend⟩)

theorem Grows.deliverMarks {s : State} {x v : Vote} (hx : x ∈ s.votes) (h : x.Follows v) (d : Decision)
    (l : Option Located) : Grows s (s.deliverMarks v d l) := by
  have counted := s.countVerdict_frame d.verdict v.flags.refDiffers
  have still : x ∈ (s.countVerdict d.verdict v.flags.refDiffers).votes := by
    rw [show State.votes (s.countVerdict _ _) = s.votes from counted .votes (by cases d.verdict <;> decide)]
    exact hx
  unfold State.deliverMarks
  exact ((((counted.grows (by cases d.verdict <;> decide)).trans (Grows.deliverMend still h d _)).trans
    ((State.deliverEvidence_frame _ v d l).grows (by decide))).trans
    ((State.deliverReport_frame _ v d _ _).grows (by decide))).trans ((State.deliverWatch_frame _ v d).grows (by decide))

/-- Before the walk of a delivery the vote has left the table. -/
theorem Grows.leave {s : State} {x v : Vote} (hx : x ∈ s.votes) (h : x.Follows v) (d : Decision) (l : Option Located) :
    Grows s (((s.deliverMarks v d l).removeVote v.id).offerHeldSum v) ∧
      ∀ w ∈ (((s.deliverMarks v d l).removeVote v.id).offerHeldSum v).votes, w.id ≠ v.id := by
  have held := State.offerHeldSum_tables ((s.deliverMarks v d l).removeVote v.id) v
  refine ⟨((Grows.deliverMarks hx h d l).trans (Grows.removeVote _ _)).trans
    (held.grows ((State.offerHeldSum_frame _ v) .now (by decide))), fun w hw e => ?_⟩
  obtain ⟨y, hy, core⟩ := mem_of_map_eq held.votes hw
  exact of_decide_eq_true (List.mem_filter.1 hy).2 ((Vote.core_eq core).1.trans e)

/-- A delivered vote leaves the table for good: new votes have new numbers. -/
theorem Grows.deliver {s : State} {x v : Vote} (hx : x ∈ s.votes) (h : x.Follows v) (d : Decision) (l : Option Located) :
    Grows s (s.deliver v d l) ∧ (Numbered s → ∀ w ∈ (s.deliver v d l).votes, w.id ≠ v.id) := by
  obtain ⟨grows, gone⟩ := Grows.leave hx h d l
  refine ⟨grows.trans (Grows.walk _), fun n w hw e => ?_⟩
  rcases (Grows.walk _).evolves.votes (grows.evolves.numbered n) w hw with ⟨y, hy, f⟩ | ⟨new, -⟩
  · exact gone y hy (f.id.symm.trans e)
  · have low := n.below x hx
    have up := grows.evolves.next
    have same : w.id = x.id := e.trans h.id
    omega

end Sys2Proof.Machine
end

section
/-! How the votes and the mend entries evolve when timers expire: closures, localisations that end, stations that fall
silent, patience that lapses, and fetches that end unread. -/

namespace Sys2Proof.Machine

/-! ### What an evolution keeps -/

/-- A number that has been given, and what holds of every vote that has it. -/
structure VoteIs (id : Nat) (P : Vote → Prop) (s : State) : Prop where
  given : id < s.nextVote
  holds : ∀ v ∈ s.votes, v.id = id → P v

/-- What stays true of a vote. -/
def Lasting (P : Vote → Prop) : Prop := ∀ v w : Vote, v.Follows w → P v → P w

theorem VoteIs.carry {id : Nat} {P : Vote → Prop} {s t : State} (p : VoteIs id P s) (hP : Lasting P) (h : Evolves s t)
    (n : Numbered s) : VoteIs id P t := by
  refine ⟨Nat.lt_of_lt_of_le p.given h.next, fun w hw e => ?_⟩
  rcases h.votes n w hw with ⟨v, hv, f⟩ | ⟨new, -⟩
  · exact hP v w f (p.holds v hv (f.id.symm.trans e))
  · have low := p.given
    omega

theorem lasting_localising : Lasting fun v => v.state = .localising := fun _ _ f => f.localising

theorem lasting_known : Lasting fun v => v.own ≠ .pending := fun _ _ f h e =>
  h ((f.own h).symm.trans e)

theorem lasting_own {own : OwnStatus} (h : own ≠ .pending) : Lasting fun v => v.own = own :=
  fun v _ f e => (f.own (by rw [e]; exact h)).trans e

theorem lasting_key (k : Key) : Lasting fun v => v.key = k := fun _ _ f e => f.key.trans e

theorem lasting_false : Lasting fun _ => False := fun _ _ _ => id

theorem VoteIs.of_mem {s : State} (n : Numbered s) {v : Vote} (hv : v ∈ s.votes) {P : Vote → Prop} (h : P v) :
    VoteIs v.id P s :=
  ⟨n.below v hv, fun _ hw e => eq_of_map_nodup n.ids hw hv e ▸ h⟩

/-- An operation that keeps the tables together, and in which they evolve. -/
def Carries (s t : State) : Prop := Consistent s → Consistent t ∧ Evolves s t

theorem Carries.trans {s t u : State} (h : Carries s t) (k : Carries t u) : Carries s u := fun c =>
  have ⟨c1, e1⟩ := h c
  have ⟨c2, e2⟩ := k c1
  ⟨c2, e1.trans e2⟩

theorem Carries.foldl {α : Type} {f : State → α → State} (h : ∀ s x, Carries s (f s x)) :
    ∀ (xs : List α) (s : State), Carries s (xs.foldl f s)
  | [], s => fun c => ⟨c, Evolves.refl s⟩
  | x :: xs, s => (h s x).trans (Carries.foldl h xs (f s x))

/-- What holds of a state whose tables fit together, and lasts. -/
def Stays (P : State → Prop) : Prop := ∀ s t, Consistent s → Evolves s t → P s → P t

theorem stays_voteIs {id : Nat} {P : Vote → Prop} (hP : Lasting P) : Stays (VoteIs id P) :=
  fun _ _ c h p => p.carry hP h c.numbered

theorem Carries.keeps {P : State → Prop} (hP : Stays P) {s t : State} (h : Carries s t) (p : Consistent s ∧ P s) :
    Consistent t ∧ P t :=
  have ⟨c, e⟩ := h p.1
  ⟨c, hP s t p.1 e p.2⟩

/-! ### Folds -/

theorem foldl_kept {α : Type} {f : State → α → State} {P : State → Prop} (h : ∀ s x, P s → P (f s x)) :
    ∀ (xs : List α) {s : State}, P s → P (xs.foldl f s)
  | [], _, p => p
  | x :: xs, _, p => foldl_kept h xs (h _ x p)

/-- One of the entries makes it so; those before do not prevent it, and those behind do not undo it. -/
theorem foldl_reaches {α : Type} {f : State → α → State} {P Q : State → Prop} {a : α}
    (before : ∀ s x, x ≠ a → P s → P (f s x)) (at_a : ∀ s, P s → Q (f s a)) (behind : ∀ s x, Q s → Q (f s x)) :
    ∀ {xs : List α}, a ∈ xs → ∀ {s : State}, P s → Q (xs.foldl f s)
  | x :: xs, h, s, p => by
    by_cases e : x = a
    · exact foldl_kept behind xs (e ▸ at_a s p)
    · exact foldl_reaches before at_a behind ((List.mem_cons.1 h).resolve_left (Ne.symm e)) (before s x e p)

/-! ### Localisations that end, and closures -/

theorem SameTables.mem {s t : State} (h : SameTables s t) {v : Vote} (hv : v ∈ s.votes) : ∃ x ∈ t.votes, x.Follows v := by
  obtain ⟨x, hx, e⟩ := mem_of_map_eq h.votes.symm hv
  exact ⟨x, hx, Vote.Follows.of_core e⟩

theorem State.mem_replaceVote {s : State} {v v1 : Vote} (hv : v ∈ s.votes) :
    v1 ∈ (s.modifyVote v.id fun _ => v1).votes :=
  State.mem_modifyVote.2 (Or.inl ⟨v, hv, rfl, rfl⟩)

/-- A localisation that ends unlocated takes its vote out of the table. -/
theorem Grows.endUnlocated {s : State} {v : Vote} (hv : v ∈ s.votes) (f : VoteFlags → VoteFlags) :
    Grows s (s.endUnlocated v f) ∧
      (Numbered s → v.decision.isSome = true → ∀ w ∈ (s.endUnlocated v f).votes, w.id ≠ v.id) := by
  unfold State.endUnlocated
  split
  · next d _ =>
    have follows : v.Follows { v with flags := f v.flags, localisation := none } := ⟨rfl, rfl, rfl, id, fun _ => rfl⟩
    have changed := Grows.replaceVote hv follows
    obtain ⟨delivered, gone⟩ := Grows.deliver (State.mem_replaceVote hv) (Vote.Follows.refl _) d none
    exact ⟨changed.trans delivered, fun n _ => gone (changed.evolves.numbered n)⟩
  · next none => exact ⟨Grows.refl s, fun _ h => absurd h (by rw [none]; decide)⟩

/-- A vote that goes into LOCALISING stays in it, or is gone. -/
theorem Grows.localise {s : State} {v : Vote} (hv : v ∈ s.votes) (r : Bool) (d : Decision) :
    let v1 := (v.closed r).enterLocalising s.now d
    Grows s (s.localise v1) ∧ (Numbered s → ∀ w ∈ (s.localise v1).votes, w.id = v.id → w.state = .localising) := by
  intro v1
  have follows : v.Follows v1 := ⟨rfl, rfl, rfl, fun _ => rfl, fun _ => rfl⟩
  have changed : Grows s (s.modifyVote v1.id fun _ => v1) := Grows.replaceVote (v := v) hv follows
  have mem : v1 ∈ (s.modifyVote v1.id fun _ => v1).votes := State.mem_replaceVote (v := v) hv
  unfold State.localise
  dsimp only
  split
  · obtain ⟨ended, gone⟩ := Grows.endUnlocated mem VoteFlags.failLocate
    exact ⟨changed.trans ended, fun n w hw e => absurd e (gone (changed.evolves.numbered n) rfl w hw)⟩
  · exact ⟨changed, fun n w hw e => (VoteIs.of_mem (changed.evolves.numbered n) mem
      (P := fun w => w.state = .localising) rfl).holds w hw e⟩

/-- A vote that closes is in LOCALISING, or gone. -/
theorem Grows.close {s : State} {v : Vote} (hv : v ∈ s.votes) :
    Grows s (s.close v) ∧ (Numbered s → ∀ w ∈ (s.close v).votes, w.id = v.id → w.state = .localising) := by
  have delivered : ∀ (r : Bool) (d : Decision),
      let t := ((s.modifyVote v.id fun _ => v.closed r).offerTiles (v.closed r) d).deliver (v.closed r) d none
      Grows s t ∧ (Numbered s → ∀ w ∈ t.votes, w.id = v.id → w.state = .localising) := fun r d => by
    have changed := Grows.replaceVote hv (v1 := v.closed r) ⟨rfl, rfl, rfl, id, fun _ => rfl⟩
    have tables := (s.modifyVote v.id fun _ => v.closed r).offerTiles_tables (v.closed r) d
    have offered := changed.trans (tables.grows ((State.offerTiles_frame _ _ d) .now (by decide)))
    obtain ⟨x, hx, follows⟩ := tables.mem (State.mem_replaceVote hv)
    obtain ⟨grows, gone⟩ := Grows.deliver hx follows d none
    exact ⟨offered.trans grows, fun n w hw e => absurd e (gone (offered.evolves.numbered n) w hw)⟩
  unfold State.close
  dsimp only
  split
  · exact Grows.localise hv _ _
  · exact Grows.localise hv _ _
  all_goals exact delivered _ _

theorem Grows.closureTest (s : State) (id : Nat) : Grows s (s.closureTest id) := by
  unfold State.closureTest
  split
  · next v hv =>
    split
    · exact (Grows.close (State.voteById?_mem hv).1).1
    · exact Grows.refl s
  · exact Grows.refl s

theorem Grows.expireVote (s : State) (id : Nat) : Grows s (s.expireVote id) := by
  unfold State.expireVote
  split
  · next v hv =>
    split
    · exact (Grows.close (State.voteById?_mem hv).1).1
    · exact Grows.refl s
  · exact Grows.refl s

theorem Grows.expireLocalisation (s : State) (id : Nat) : Grows s (s.expireLocalisation id) := by
  unfold State.expireLocalisation
  split
  · next v hv =>
    split
    · exact (Grows.endUnlocated (State.voteById?_mem hv).1 _).1
    · exact Grows.refl s
  · exact Grows.refl s

theorem Grows.pushReport (s : State) (r : Report) : Grows s (s.pushReport r) :=
  (s.pushReport_frame r).grows (by decide)

theorem Grows.expireSilence (s : State) (station : Nat) : Grows s (s.expireSilence station) := by
  unfold State.expireSilence
  split
  · next last _ =>
    have marked := s.modifyRoster_frame station fun e => { e with heard := .silent last }
    exact ((marked.grows (by decide)).trans (Grows.pushReport _ _)).trans (Grows.foldl Grows.closureTest _ _)
  all_goals exact Grows.refl s

theorem Grows.lapse (s : State) (k : Key) : Grows s (s.lapse k) := by
  have removed : Grows s (s.removeMend k) := ⟨⟨rfl, Nat.le_refl _, fun n => ⟨n.ids, n.below⟩, (Evolves.refl s).votes,
    fun _ e he => Or.inl (List.mem_filter.1 he).1⟩, List.Subset.refl _⟩
  unfold State.lapse
  split
  · split
    · exact removed.trans (Grows.pushReport _ _)
    · exact Grows.refl s
  · exact Grows.refl s

/-! ### Fetches that end -/

/-- The own status of a vote becomes known, and stays. -/
theorem Grows.ownStatusKnown {s : State} {v : Vote} (hv : v ∈ s.votes) (hp : v.own = .pending) (hs : v.state = .reading)
    {own : OwnStatus} (ho : own ≠ .pending) (checks : List Word) : Grows s (s.ownStatusKnown v.id own checks) ∧
      (Numbered s → VoteIs v.id (fun w => w.own = own) (s.ownStatusKnown v.id own checks)) := by
  have moved : Grows s (s.modifyVote v.id (Vote.movedOn own checks s.now)) := Grows.modifyVote fun n x hx e => by
    rw [eq_of_map_nodup n.ids hx hv e]
    exact ⟨rfl, rfl, rfl, fun k => absurd (hs.symm.trans k) (by decide), fun k => absurd hp k⟩
  have gathered : Grows s (s.gatherOn v.id own checks) := moved.trans (Grows.issue _)
  have rest : Grows (s.gatherOn v.id own checks) (s.ownStatusKnown v.id own checks) := by
    have offered := ((s.gatherOn v.id own checks).offerOwnSum_tables v.id).grows
      ((State.offerOwnSum_frame _ v.id) .now (by decide))
    rw [s.ownStatusKnown_eq]
    split
    · exact offered.trans (Grows.expireVote _ _)
    · exact offered.trans (Grows.closureTest _ _)
  refine ⟨gathered.trans rest, fun n => ?_⟩
  have known : VoteIs v.id (fun w => w.own = own) (s.gatherOn v.id own checks) :=
    VoteIs.of_mem (v := v.movedOn own checks s.now) (gathered.evolves.numbered n) (State.mem_gatherOn n.ids hv own checks)
      rfl
  exact known.carry (lasting_own ho) rest.evolves (gathered.evolves.numbered n)

/-- The timeout of a fetch makes its vote's own status known, and leaves the other fetches outstanding. -/
theorem State.expireFetch_reads {s : State} (c : Consistent s) {f : Fetch} (hf : f ∈ s.read.fetches) :
    Evolves s (s.expireFetch f.tag) ∧
      (∀ g ∈ s.read.fetches, g.tag ≠ f.tag → g ∈ (s.expireFetch f.tag).read.fetches) ∧
      ∃ v ∈ s.votes, v.key = f.key ∧
        VoteIs v.id (fun w => w.own = .unreadable .timeout) (s.expireFetch f.tag) := by
  obtain ⟨v, hv, hk, hs, hp⟩ := c.vote_of_fetch hf
  have counted : Consistent (s.bump .fetchTimeouts) := c.of_tables (s.bump_tables _)
  have ended : Evolves s ((s.bump .fetchTimeouts).endFetch f true) :=
    ⟨rfl, Nat.le_refl _, fun n => ⟨n.ids, n.below⟩, (Evolves.refl s).votes, (Evolves.refl s).mends⟩
  obtain ⟨grows, known⟩ := Grows.ownStatusKnown (s := (s.bump .fetchTimeouts).endFetch f true) hv hp hs
    (own := .unreadable .timeout) nofun []
  rw [State.expireFetch_eq c hf, State.endUnreadable_eq counted hv hk]
  refine ⟨ended.trans grows.evolves, fun g hg ht => grows.fetches (List.mem_filter.2 ⟨hg, decide_eq_true ht⟩), v, hv, hk,
    known (ended.numbered c.numbered)⟩

theorem State.expireFetch_none {s : State} {tag : Byte} (h : ∀ f ∈ s.read.fetches, f.tag ≠ tag) :
    s.expireFetch tag = s := by
  have none : s.read.slot? tag = none := List.find?_eq_none.2 fun f hf => by simpa using h f hf
  unfold State.expireFetch
  rw [none]

theorem Carries.expireFetch (s : State) (tag : Byte) : Carries s (s.expireFetch tag) := by
  intro c
  refine ⟨State.expireFetch_consistent tag c, ?_⟩
  by_cases busy : ∃ f ∈ s.read.fetches, f.tag = tag
  · obtain ⟨f, hf, rfl⟩ := busy
    exact (State.expireFetch_reads c hf).1
  · rw [State.expireFetch_none fun f hf e => busy ⟨f, hf, e⟩]
    exact Evolves.refl s

/-- A fetch of another tag stays outstanding. -/
theorem State.mem_expireFetch {s : State} (c : Consistent s) {g : Fetch} (hg : g ∈ s.read.fetches) {tag : Byte}
    (ht : g.tag ≠ tag) : g ∈ (s.expireFetch tag).read.fetches := by
  by_cases busy : ∃ f ∈ s.read.fetches, f.tag = tag
  · obtain ⟨f, hf, rfl⟩ := busy
    exact (State.expireFetch_reads c hf).2.1 g hg ht
  · rw [State.expireFetch_none fun f hf e => busy ⟨f, hf, e⟩]
    exact hg

theorem Carries.expireFetches : ∀ (n : Nat) (s : State), Carries s (State.expireFetches n s)
  | 0, s => fun c => ⟨c, Evolves.refl s⟩
  | n + 1, s => by
    unfold State.expireFetches
    split
    · exact (Carries.expireFetch s _).trans (Carries.expireFetches n _)
    · exact fun c => ⟨c, Evolves.refl s⟩

theorem Carries.expireIssued (s : State) : Carries s s.expireIssued := by
  unfold State.expireIssued
  split
  · exact Carries.expireFetches _ s
  · exact fun c => ⟨c, Evolves.refl s⟩

theorem Carries.expireVote (s : State) (id : Nat) : Carries s (s.expireVote id) := fun c =>
  ⟨State.expireVote_consistent id c, (Grows.expireVote s id).evolves⟩

theorem Carries.expireLocalisation (s : State) (id : Nat) : Carries s (s.expireLocalisation id) := fun c =>
  ⟨State.expireLocalisation_consistent id c, (Grows.expireLocalisation s id).evolves⟩

theorem Carries.expireSilence (s : State) (station : Nat) : Carries s (s.expireSilence station) := fun c =>
  ⟨State.expireSilence_keeps station c, (Grows.expireSilence s station).evolves⟩

theorem Carries.lapse (s : State) (k : Key) : Carries s (s.lapse k) := fun c =>
  ⟨State.lapse_consistent k c, (Grows.lapse s k).evolves⟩

end Sys2Proof.Machine
end

section
/-! TIMING: the timers that have reached their new limits expire, kind after kind (R155). -/

namespace Sys2Proof.Machine

/-! ### What is due -/

/-- The votes whose timers have reached the vote timeout. -/
def State.dueVotes (s : State) : List Nat :=
  (s.voteTimers.filter fun x => s.isDue (dueMs x.2 s.voteLimit)).map Prod.fst

/-- The fetches that have reached the fetch timeout. -/
def State.dueFetches (s : State) : List Byte :=
  (s.read.fetches.filter fun f => s.isDue (dueMs f.issued s.fetchLimit)).map Fetch.tag

/-- The votes whose localisation has reached its timeout. -/
def State.dueLocalisations (s : State) : List Nat :=
  (s.localisationTimers.filter fun x => s.isDue (dueMs x.2 s.localisationLimit)).map Prod.fst

/-- The stations that have reached the silence limit. -/
def State.dueSilences (s : State) : List Nat :=
  (s.line.heardStations.filter fun x => s.isDue (dueMs x.2 s.silenceLimit)).map Prod.fst

/-- The keys of the mend entries that have reached the mend patience. -/
def State.dueMends (s : State) : List Key :=
  (s.patienceTimers.filter fun x => s.isDue (duePatience x.2 s.timers.patience)).map Prod.fst

/-- The reads end, and then the localisations: the expiries that leave the roster alone. -/
def State.expireReads (s : State) (votes : List Nat) (fetches : List Byte) : State :=
  fetches.foldl State.expireFetch (votes.foldl State.expireVote s)

/-- A moment that has come is due. -/
theorem State.isDue_of_le {s : State} {start limit : Nat} (h : start + limit * 1000000 ≤ s.now) :
    s.isDue (dueMs start limit) = true :=
  (s.isDue_dueMs start limit).trans (decide_eq_true h)

theorem State.mem_dueVotes {s : State} {v : Vote} (hv : v ∈ s.votes) {start : Nat} (ht : v.timer = some start)
    (due : start + s.voteLimit * 1000000 ≤ s.now) : v.id ∈ s.dueVotes :=
  List.mem_map.2 ⟨(v.id, start), List.mem_filter.2 ⟨List.mem_filterMap.2 ⟨v, hv, by rw [ht]; rfl⟩,
    State.isDue_of_le due⟩, rfl⟩

theorem State.mem_dueFetches {s : State} {f : Fetch} (hf : f ∈ s.read.fetches)
    (due : f.issued + s.fetchLimit * 1000000 ≤ s.now) : f.tag ∈ s.dueFetches :=
  List.mem_map.2 ⟨f, List.mem_filter.2 ⟨hf, State.isDue_of_le due⟩, rfl⟩

theorem State.mem_dueLocalisations {s : State} {v : Vote} (hv : v ∈ s.votes) (hs : v.state = .localising)
    {l : Localisation} (hl : v.localisation = some l) (due : l.start + s.localisationLimit * 1000000 ≤ s.now) :
    v.id ∈ s.dueLocalisations :=
  List.mem_map.2 ⟨(v.id, l.start), List.mem_filter.2 ⟨List.mem_filterMap.2 ⟨v, hv, by rw [if_pos hs, hl]; rfl⟩,
    State.isDue_of_le due⟩, rfl⟩

theorem LineUnit.station_lt {l : LineUnit} {station last : Nat} (h : l.heardOf station = .present last) : station < 32 := by
  unfold LineUnit.heardOf at h
  split at h
  · next e => exact (Vector.getElem?_eq_some_iff.1 e).1
  · cases h

theorem State.mem_dueSilences {s : State} {station last : Nat} (h : s.line.heardOf station = .present last)
    (due : last + s.silenceLimit * 1000000 ≤ s.now) : station ∈ s.dueSilences :=
  List.mem_map.2 ⟨(station, last), List.mem_filter.2 ⟨List.mem_filterMap.2
    ⟨station, List.mem_range.2 (LineUnit.station_lt h), by rw [h]⟩, State.isDue_of_le due⟩, rfl⟩

theorem State.mem_dueMends {s : State} {e : MendEntry} (he : e ∈ s.mends) {start : Nat}
    (hs : e.state = .awaitingRewrite start) (due : start + s.timers.patience * 1000000000 ≤ s.now) :
    e.key ∈ s.dueMends :=
  List.mem_map.2 ⟨(e.key, start), List.mem_filter.2 ⟨List.mem_filterMap.2 ⟨e, he, by rw [hs]⟩, decide_eq_true due⟩, rfl⟩

/-! ### Votes -/

/-- A vote whose own status is known closes into LOCALISING, or leaves. -/
theorem State.expireVote_localising {s : State} (c : Consistent s) {id : Nat}
    (known : VoteIs id (fun v => v.own ≠ .pending) s) :
    VoteIs id (fun v => v.state = .localising) (s.expireVote id) := by
  refine ⟨Nat.lt_of_lt_of_le known.given (Grows.expireVote s id).evolves.next, ?_⟩
  have other : ∀ v ∈ s.votes, v.id = id → v.state ≠ .gathering → v.state = .localising := fun v hv e ng => by
    have read := mt (c.fits v hv).pending.2 (known.holds v hv e)
    cases hs : v.state with
    | localising => rfl
    | gathering => exact absurd hs ng
    | awaitingRead => exact absurd (Or.inl hs) read
    | reading => exact absurd (Or.inr hs) read
  unfold State.expireVote
  split
  · next v e =>
    obtain ⟨hv, rfl⟩ := State.voteById?_mem e
    split
    · exact (Grows.close hv).2 c.numbered
    · next ng => exact fun w hw e => other w hw e (eq_of_map_nodup c.ids hw hv e ▸ ng)
  · next e => exact fun w hw same => absurd same (by simpa using List.find?_eq_none.1 e w hw)

theorem expireVotes_localising {s : State} (c : Consistent s) {v : Vote} (hv : v ∈ s.votes) (ht : v.timer.isSome = true)
    {ids : List Nat} (h : v.id ∈ ids) : let t := ids.foldl State.expireVote s
    Consistent t ∧ VoteIs v.id (fun w => w.state = .localising) t := by
  have known : v.own ≠ .pending := fun p => by
    have gathering := (c.fits v hv).timer.1 ht
    rcases (c.fits v hv).pending.1 p with k | k <;> exact absurd (gathering.symm.trans k) (by decide)
  exact foldl_reaches (P := fun u => Consistent u ∧ VoteIs v.id (fun w => w.own ≠ .pending) u)
    (Q := fun u => Consistent u ∧ VoteIs v.id (fun w => w.state = .localising) u)
    (fun u id _ => (Carries.expireVote u id).keeps (stays_voteIs lasting_known))
    (fun u p => ⟨State.expireVote_consistent _ p.1, State.expireVote_localising p.1 p.2⟩)
    (fun u id => (Carries.expireVote u id).keeps (stays_voteIs lasting_localising)) h
    ⟨c, VoteIs.of_mem c.numbered hv known⟩

/-! ### Fetches -/

/-- A fetch is outstanding, and a vote is its vote. -/
structure Reads (f : Fetch) (id : Nat) (s : State) : Prop where
  consistent : Consistent s
  busy : f ∈ s.read.fetches
  vote : VoteIs id (fun v => v.key = f.key) s

theorem Reads.expireVote {f : Fetch} {id : Nat} {s : State} (h : Reads f id s) (x : Nat) : Reads f id (s.expireVote x) :=
  ⟨State.expireVote_consistent x h.consistent, (Grows.expireVote s x).fetches h.busy,
    h.vote.carry (lasting_key _) (Grows.expireVote s x).evolves h.consistent.numbered⟩

theorem Reads.expireFetch {f : Fetch} {id : Nat} {s : State} (h : Reads f id s) {tag : Byte} (ht : tag ≠ f.tag) :
    Reads f id (s.expireFetch tag) :=
  have ⟨c, e⟩ := Carries.expireFetch s tag h.consistent
  ⟨c, State.mem_expireFetch h.consistent h.busy ht.symm, h.vote.carry (lasting_key _) e h.consistent.numbered⟩

/-- The timeout of a fetch leaves its vote UNREADABLE. -/
theorem Reads.timeout {f : Fetch} {id : Nat} {s : State} (h : Reads f id s) :
    VoteIs id (fun v => v.own = .unreadable .timeout) (s.expireFetch f.tag) := by
  obtain ⟨evolves, -, v, hv, hk, known⟩ := State.expireFetch_reads h.consistent h.busy
  by_cases e : v.id = id
  · exact e ▸ known
  · have gone : VoteIs id (fun _ => False) s := ⟨h.vote.given, fun w hw same => e <| by
      rw [← same, eq_of_map_nodup h.consistent.keys hv hw (hk.trans (h.vote.holds w hw same).symm)]⟩
    have still := gone.carry lasting_false evolves h.consistent.numbered
    exact ⟨still.given, fun w hw same => (still.holds w hw same).elim⟩

theorem expireReads_unreadable {s : State} (c : Consistent s) {v : Vote} (hv : v ∈ s.votes) {f : Fetch}
    (hf : f ∈ s.read.fetches) (hk : v.key = f.key) (ids : List Nat) {tags : List Byte} (h : f.tag ∈ tags) :
    let t := s.expireReads ids tags
    Consistent t ∧ VoteIs v.id (fun w => w.own = .unreadable .timeout) t := by
  have votes : Reads f v.id (ids.foldl State.expireVote s) :=
    foldl_kept (P := Reads f v.id) (fun _ x p => p.expireVote x) ids ⟨c, hf, VoteIs.of_mem c.numbered hv hk⟩
  exact foldl_reaches (P := Reads f v.id)
    (Q := fun u => Consistent u ∧ VoteIs v.id (fun w => w.own = .unreadable .timeout) u)
    (fun u x ne p => p.expireFetch ne)
    (fun u p => ⟨State.expireFetch_consistent _ p.consistent, p.timeout⟩)
    (fun u x => (Carries.expireFetch u x).keeps (stays_voteIs (lasting_own (own := .unreadable .timeout) nofun))) h votes

theorem Carries.expireReads (s : State) (ids : List Nat) (tags : List Byte) : Carries s (s.expireReads ids tags) :=
  (Carries.foldl Carries.expireVote ids s).trans (Carries.foldl Carries.expireFetch tags _)

/-! ### Localisations -/

theorem State.expireLocalisation_gone {s : State} (c : Consistent s) {id : Nat}
    (h : VoteIs id (fun v => v.state = .localising) s) : VoteIs id (fun _ => False) (s.expireLocalisation id) := by
  refine ⟨Nat.lt_of_lt_of_le h.given (Grows.expireLocalisation s id).evolves.next, ?_⟩
  unfold State.expireLocalisation
  split
  · next v e =>
    obtain ⟨hv, rfl⟩ := State.voteById?_mem e
    have located := h.holds v hv rfl
    rw [if_pos located]
    exact (Grows.endUnlocated hv _).2 c.numbered ((c.fits v hv).decision.2 located)
  · next e => exact fun w hw same => absurd same (by simpa using List.find?_eq_none.1 e w hw)

theorem expireLocalisations_gone {s : State} (c : Consistent s) {id : Nat}
    (hl : VoteIs id (fun v => v.state = .localising) s) {ids : List Nat} (h : id ∈ ids) :
    let t := ids.foldl State.expireLocalisation s
    Consistent t ∧ VoteIs id (fun _ => False) t :=
  foldl_reaches (P := fun u => Consistent u ∧ VoteIs id (fun w => w.state = .localising) u)
    (Q := fun u => Consistent u ∧ VoteIs id (fun _ => False) u)
    (fun u x _ => (Carries.expireLocalisation u x).keeps (stays_voteIs lasting_localising))
    (fun _ p => ⟨State.expireLocalisation_consistent _ p.1, State.expireLocalisation_gone p.1 p.2⟩)
    (fun u x => (Carries.expireLocalisation u x).keeps (stays_voteIs lasting_false)) h ⟨c, hl⟩

/-! ### The roster -/

theorem SameBut.heardOf_eq {ps : List Part} {s t : State} (h : SameBut ps s t) (hp : Part.roster ∉ ps) (x : Nat) :
    t.line.heardOf x = s.line.heardOf x := by
  unfold LineUnit.heardOf
  rw [show t.line.roster = s.line.roster from h .roster hp]

theorem LineUnit.heardOf_silent {l : LineUnit} {station last : Nat} (h : l.heardOf station = .present last) :
    (l.modifyRoster station fun e => { e with heard := .silent last }).heardOf station = .silent last := by
  have inside := LineUnit.station_lt h
  have entry : l.roster[station]? = some l.roster[station] := Vector.getElem?_eq_getElem inside
  unfold LineUnit.modifyRoster
  rw [entry]
  unfold LineUnit.heardOf
  dsimp only
  rw [Vector.getElem?_setIfInBounds_self_of_lt inside]

/-- What the silence of a station makes of the roster. -/
theorem State.expireSilence_roster {s : State} {x last : Nat} (h : s.line.heardOf x = .present last) (station : Nat) :
    (s.expireSilence x).line.heardOf station =
      (s.line.modifyRoster x fun e => { e with heard := .silent last }).heardOf station := by
  unfold State.expireSilence
  rw [h]
  dsimp only
  rw [(SameBut.foldl State.closureTest_frame _ _).heardOf_eq (by decide), (State.pushReport_frame _ _).heardOf_eq (by decide)]
  rfl

theorem State.expireSilence_quiet {s : State} {x : Nat} (h : ∀ last, s.line.heardOf x ≠ .present last) :
    s.expireSilence x = s := by
  unfold State.expireSilence
  split
  · next last e => exact absurd e (h last)
  all_goals rfl

/-- The other stations are heard as before. -/
theorem State.expireSilence_other {s : State} {x station : Nat} (h : x ≠ station) :
    (s.expireSilence x).line.heardOf station = s.line.heardOf station := by
  by_cases present : ∃ last, s.line.heardOf x = .present last
  · obtain ⟨last, e⟩ := present
    rw [State.expireSilence_roster e, LineUnit.heardOf_modify h.symm]
  · rw [State.expireSilence_quiet fun last e => present ⟨last, e⟩]

theorem expireSilences_silent {s : State} {station last : Nat} (hp : s.line.heardOf station = .present last)
    {stations : List Nat} (h : station ∈ stations) :
    (stations.foldl State.expireSilence s).line.heardOf station = .silent last := by
  refine foldl_reaches (P := fun u => u.line.heardOf station = .present last)
    (Q := fun u => u.line.heardOf station = .silent last) (fun u x ne p => (State.expireSilence_other ne).trans p)
    (fun u p => (State.expireSilence_roster p station).trans (LineUnit.heardOf_silent p)) (fun u x p => ?_) h hp
  by_cases e : x = station
  · rw [State.expireSilence_quiet fun last' k => by rw [e, p] at k; cases k]
    exact p
  · exact (State.expireSilence_other e).trans p

/-! ### Patience -/

/-- Every entry of a key awaits a rewrite. -/
def Awaits (k : Key) (s : State) : Prop := ∀ e ∈ s.mends, e.key = k → ∃ start, e.state = .awaitingRewrite start

theorem stays_awaits (k : Key) : Stays (Awaits k) := fun s _ c h p e he hk => by
  rcases h.mends c.numbered e he with old | ⟨-, fresh⟩ | ⟨waits, -⟩
  · exact p e old hk
  · exact ⟨_, fresh⟩
  · exact waits

theorem State.lapse_removes {s : State} {k : Key} (h : Awaits k s) : ∀ e ∈ (s.lapse k).mends, e.key ≠ k := by
  unfold State.lapse
  split
  · next x e =>
    obtain ⟨hx, hk⟩ := State.mend?_mem e
    obtain ⟨start, hs⟩ := h x hx hk
    rw [hs]
    dsimp only
    rw [State.pushReport_mends]
    exact fun e he => of_decide_eq_true (List.mem_filter.1 he).2
  · next e => exact State.mend?_none e

theorem State.lapse_mends_subset (s : State) (k : Key) : (s.lapse k).mends ⊆ s.mends := by
  unfold State.lapse
  split
  · split
    · rw [State.pushReport_mends]
      exact List.filter_subset_self _
    · exact List.Subset.refl _
  · exact List.Subset.refl _

theorem lapses_remove {s : State} {k : Key} (hs : Awaits k s) {ks : List Key} (h : k ∈ ks) :
    ∀ e ∈ (ks.foldl State.lapse s).mends, e.key ≠ k :=
  foldl_reaches (P := Awaits k) (Q := fun u => ∀ e ∈ u.mends, e.key ≠ k)
    (fun u x _ p e he => p e (State.lapse_mends_subset u x he)) (fun _ p => State.lapse_removes p)
    (fun u x q e he => q e (State.lapse_mends_subset u x he)) h hs

/-- Where no entry of a key is left, one that the fetches of 0 ms bring back is new. -/
theorem Evolves.entry_new {s t : State} (h : Evolves s t) (c : Consistent s) {k : Key} (none : ∀ e ∈ s.mends, e.key ≠ k)
    {x : MendEntry} (hx : x ∈ t.mends) (hk : x.key = k) : x.failed = 0 ∧ x.state = .awaitingRewrite s.now := by
  rcases h.mends c.numbered x hx with old | fresh | ⟨-, v, hv, same, mend⟩
  · exact absurd hk (none x old)
  · exact fresh
  · obtain ⟨e, he, key, -⟩ := (c.rechecking k).2 ⟨v, hv, same.trans hk, mend⟩
    exact absurd key (none e he)

/-! ### The order -/

/-- The state once the timers, but for silence and patience, have expired. -/
def State.timedOut (u : State) : State :=
  u.dueLocalisations.foldl State.expireLocalisation (u.expireReads u.dueVotes u.dueFetches)

theorem Carries.timedOut (u : State) : Carries u u.timedOut :=
  (Carries.expireReads u _ _).trans (Carries.foldl Carries.expireLocalisation _ _)

/-- The state once every timer that is due has expired. -/
def State.settledTimers (u : State) : State :=
  u.dueMends.foldl State.lapse (u.dueSilences.foldl State.expireSilence u.timedOut)

theorem Carries.settledTimers (u : State) : Carries u.timedOut u.settledTimers :=
  (Carries.foldl Carries.expireSilence _ _).trans (Carries.foldl Carries.lapse _ _)

/-- The answer to TIMING, from the state that has taken the settings. -/
def State.timingDone (u : State) : State := u.settledTimers.expireIssued.answered 0x0C .done []

theorem State.setTiming_eq (s : State) (t : TimerSettings) : s.setTiming t = (s.setTimers t).settledTimers := rfl

/-- The settings take their values, and what is due expires. -/
theorem exec_timing {body : List Byte} {s : State} (ready : s.ready (.timing body) = true) (length : body.length = 10) :
    exec (.timing body) s = .next (s.setTimers (timingSettings body)).timingDone := by
  refine congrArg Host.Outcome.next ?_
  unfold State.timingDone
  rw [← State.setTiming_eq]
  exact State.arrive_fits ready 0x0C (decide_eq_true length) _

/-- What has become true of a vote by the time the localisations end lasts to the answer. -/
theorem VoteIs.answered {u : State} {id : Nat} {P : Vote → Prop} (hP : Lasting P)
    (h : Consistent u.timedOut ∧ VoteIs id P u.timedOut) {w : Vote}
    (hw : w ∈ u.timingDone.votes) (e : w.id = id) : P w := by
  have ⟨_, p⟩ := ((Carries.settledTimers u).trans (Carries.expireIssued _)).keeps (stays_voteIs hP) h
  exact p.holds w ((State.answered_frame _ 0x0C .done []) .votes (by decide) ▸ hw) e

/-- The frames of the expiries that leave the roster alone. -/
theorem State.timedOut_frame (u : State) : SameBut expiryParts u u.timedOut :=
  (((SameBut.foldl State.expireVote_frame _ u).mono (by decide)).trans (SameBut.foldl State.expireFetch_frame _ _)).trans
    ((SameBut.foldl State.expireLocalisation_frame _ _).mono (by decide))

theorem State.lapses_frame (u : State) (ks : List Key) : SameBut expiryParts u (ks.foldl State.lapse u) :=
  (SameBut.foldl State.lapse_frame ks u).mono (by decide)

theorem State.timingDone_silent {u : State} {station last : Nat} (hp : u.line.heardOf station = .present last)
    (due : last + u.silenceLimit * 1000000 ≤ u.now) : u.timingDone.line.heardOf station = .silent last := by
  have present : u.timedOut.line.heardOf station = .present last :=
    (u.timedOut_frame.heardOf_eq (by decide) station).trans hp
  have silent := expireSilences_silent present (State.mem_dueSilences hp due)
  have lapsed := (State.lapses_frame (u.dueSilences.foldl State.expireSilence u.timedOut) u.dueMends).heardOf_eq (by decide)
    station
  have issued := (State.expireIssued_frame u.settledTimers).heardOf_eq (by decide) station
  have answered := (State.answered_frame u.settledTimers.expireIssued 0x0C .done []).heardOf_eq (by decide) station
  exact answered.trans (issued.trans (lapsed.trans silent))

theorem State.settledTimers_timers (u : State) : u.settledTimers.timers = u.timers := by
  have timed : u.timedOut.timers = u.timers := u.timedOut_frame .timers (by decide)
  have silenced := SameBut.foldl State.expireSilence_frame u.dueSilences u.timedOut .timers (by decide)
  have lapsed := State.lapses_frame (u.dueSilences.foldl State.expireSilence u.timedOut) u.dueMends .timers (by decide)
  exact Eq.trans lapsed (Eq.trans silenced timed)

/-- An entry whose patience is up is gone, and one of its key is new, brought back by fetches of 0 ms. -/
theorem State.timingDone_mends {u : State} (c : Consistent u) {e : MendEntry} (he : e ∈ u.mends) {start : Nat}
    (hs : e.state = .awaitingRewrite start) (due : start + u.timers.patience * 1000000000 ≤ u.now) {x : MendEntry}
    (hx : x ∈ u.timingDone.mends) (hk : x.key = e.key) :
    u.fetchLimit = 0 ∧ x.failed = 0 ∧ x.state = .awaitingRewrite u.now := by
  have awaits : Awaits e.key u := fun y hy hk => ⟨start, eq_of_map_nodup c.mendKeys hy he hk ▸ hs⟩
  have ⟨_, p1⟩ := ((Carries.timedOut u).trans (Carries.foldl Carries.expireSilence u.dueSilences _)).keeps
    (stays_awaits e.key) ⟨c, awaits⟩
  have none : ∀ y ∈ u.settledTimers.mends, y.key ≠ e.key := lapses_remove p1 (State.mem_dueMends he hs due)
  obtain ⟨c2, evolves⟩ := (Carries.timedOut u).trans (Carries.settledTimers u) c
  have hx : x ∈ u.settledTimers.expireIssued.mends :=
    (State.answered_frame _ 0x0C .done []) .mends (by decide) ▸ hx
  obtain ⟨failed, state⟩ := (Carries.expireIssued _ c2).2.entry_new c2 none hx hk
  refine ⟨?_, failed, state.trans (congrArg MendState.awaitingRewrite evolves.now)⟩
  by_contra later
  have limit : u.settledTimers.fetchLimit ≠ 0 := by
    unfold State.fetchLimit
    rw [u.settledTimers_timers]
    exact later
  rw [State.expireIssued_later limit] at hx
  exact none x hx hk

/-- Settles O40: each kind of timer expires in its own round, and what a round makes of a vote, of a station or of an entry
lasts through those behind it. -/
theorem timingExpiresWhatIsDue : Obligations.TimingExpiresWhatIsDue := by
  unfold Obligations.TimingExpiresWhatIsDue
  intro body s ready length _ c ms
  let u := s.setTimers (timingSettings body)
  have cu : Consistent u := c.of_tables ((s.setTimers_frame _).tables (by decide))
  refine ⟨u.timingDone, exec_timing ready length, fun v hv start ht due w hw e => ?_, fun f hf due v hv hk w hw e => ?_,
    fun v hv l hl due w hw e => ?_, fun station last hp due => ?_, fun e he start hs due x hx hk => ?_⟩
  · have localised := expireVotes_localising cu hv (by rw [ht]; rfl) (State.mem_dueVotes (s := u) hv ht due)
    have later := ((Carries.foldl Carries.expireFetch u.dueFetches _).trans
      (Carries.foldl Carries.expireLocalisation u.dueLocalisations _)).keeps (stays_voteIs lasting_localising) localised
    exact VoteIs.answered (u := u) lasting_localising later hw e
  · have unread := expireReads_unreadable cu hv hf hk u.dueVotes (State.mem_dueFetches (s := u) hf due)
    have lasts : Lasting fun w => w.own = .unreadable .timeout := lasting_own nofun
    have later := (Carries.foldl Carries.expireLocalisation u.dueLocalisations _).keeps (stays_voteIs lasts) unread
    exact VoteIs.answered (u := u) lasts later hw e
  · have located : v.state = .localising := (c.fits v hv).localisation.1 (by rw [hl]; rfl)
    have ⟨c1, p1⟩ := (Carries.expireReads u u.dueVotes u.dueFetches).keeps (stays_voteIs lasting_localising)
      ⟨cu, VoteIs.of_mem cu.numbered hv located⟩
    have gone := expireLocalisations_gone c1 p1 (State.mem_dueLocalisations (s := u) hv located hl due)
    exact VoteIs.answered (u := u) lasting_false gone hw e
  · exact State.timingDone_silent (u := u) hp due
  · obtain ⟨limit, failed, state⟩ := State.timingDone_mends (u := u) cu he hs due hx hk
    have limit : timeOfCode (min 4095 (field body 2 2)) = 0 := limit
    exact ⟨(congrArg (· * 1000000) limit).trans (Nat.zero_mul _), failed, state⟩

end Sys2Proof.Machine
end

section
/-! What an offer to the line leaves of the votes and of the queue, and what the arbiter and the walk add to the requests,
the reports and the queue. -/

namespace Sys2Proof.Machine

/-! ### Votes that offers touch (R66, R82, R92) -/

/-- A vote is the same but for CALL pending and SUM sent, and SUM sent stays set. -/
def Vote.Alike (v w : Vote) : Prop :=
  ∃ pending sent, w = { v with callPending := pending, sumSent := sent } ∧ (v.sumSent = true → sent = true)

theorem Vote.Alike.refl (v : Vote) : v.Alike v := ⟨v.callPending, v.sumSent, rfl, fun e => e⟩

theorem Vote.Alike.trans {u v w : Vote} (h : u.Alike v) (k : v.Alike w) : u.Alike w := by
  obtain ⟨_, _, rfl, h⟩ := h
  obtain ⟨pending, sent, rfl, k⟩ := k
  exact ⟨pending, sent, rfl, fun e => k (h e)⟩

theorem Vote.Alike.id_key {v w : Vote} (h : v.Alike w) : w.id = v.id ∧ w.key = v.key := by
  obtain ⟨_, _, rfl, -⟩ := h
  exact ⟨rfl, rfl⟩

theorem Vote.Alike.abandonedReport {v w : Vote} (h : v.Alike w) : w.abandonedReport = v.abandonedReport := by
  obtain ⟨_, _, rfl, -⟩ := h
  rfl

/-- The votes of two states are alike, one by one. -/
structure AlikeVotes (s t : State) : Prop where
  into : ∀ v ∈ s.votes, ∃ w ∈ t.votes, v.Alike w
  back : ∀ w ∈ t.votes, ∃ v ∈ s.votes, v.Alike w

theorem AlikeVotes.of_eq {s t : State} (h : t.votes = s.votes) : AlikeVotes s t :=
  ⟨fun v hv => ⟨v, h ▸ hv, Vote.Alike.refl v⟩, fun w hw => ⟨w, h ▸ hw, Vote.Alike.refl w⟩⟩

theorem AlikeVotes.trans {s t u : State} (h : AlikeVotes s t) (k : AlikeVotes t u) : AlikeVotes s u := by
  refine ⟨fun v hv => ?_, fun w hw => ?_⟩
  · obtain ⟨x, hx, e⟩ := h.into v hv
    obtain ⟨w, hw, f⟩ := k.into x hx
    exact ⟨w, hw, e.trans f⟩
  · obtain ⟨x, hx, f⟩ := k.back w hw
    obtain ⟨v, hv, e⟩ := h.back x hx
    exact ⟨v, hv, e.trans f⟩

theorem State.modifyVote_alike (s : State) (id : Nat) {f : Vote → Vote} (hf : ∀ v : Vote, v.Alike (f v)) :
    AlikeVotes s (s.modifyVote id f) := by
  refine ⟨fun v hv => ?_, fun w hw => ?_⟩
  · by_cases e : v.id = id
    · exact ⟨f v, State.mem_modifyVote.2 (Or.inl ⟨v, hv, e, rfl⟩), hf v⟩
    · exact ⟨v, State.mem_modifyVote.2 (Or.inr ⟨hv, e⟩), Vote.Alike.refl v⟩
  · rcases State.mem_modifyVote.1 hw with ⟨v, hv, -, rfl⟩ | ⟨hw, -⟩
    · exact ⟨v, hv, hf v⟩
    · exact ⟨w, hw, Vote.Alike.refl w⟩

theorem State.setCallPending_alike (s : State) (id : Nat) (b : Bool) :
    AlikeVotes s (s.modifyVote id fun v => { v with callPending := b }) :=
  s.modifyVote_alike id fun v => ⟨b, v.sumSent, rfl, fun e => e⟩

theorem State.setSumSent_alike (s : State) (id : Nat) :
    AlikeVotes s (s.modifyVote id fun v => { v with sumSent := true }) :=
  s.modifyVote_alike id fun v => ⟨v.callPending, true, rfl, fun _ => rfl⟩

theorem State.joinQueue_alike (s : State) (m : Message) : AlikeVotes s (s.joinQueue m) := by
  unfold State.joinQueue
  dsimp only
  split
  · next id _ _ =>
    obtain ⟨into, back⟩ := s.setCallPending_alike id true
    exact ⟨into, back⟩
  all_goals exact AlikeVotes.of_eq rfl

theorem State.clearCall_alike (s : State) (m : Message) : AlikeVotes s (s.clearCall m).1 := by
  unfold State.clearCall
  split
  · next id _ _ =>
    split
    · dsimp only
      split
      · exact (s.setCallPending_alike id false).trans (State.setSumSent_alike _ id)
      · exact s.setCallPending_alike id false
    · exact AlikeVotes.of_eq rfl
  all_goals exact AlikeVotes.of_eq rfl

/-! ### The queue (R66, R67) -/

theorem mem_joinInOrder_iff {m x : Message} {q : List Message} : x ∈ joinInOrder m q ↔ x = m ∨ x ∈ q := by
  refine ⟨mem_joinInOrder, fun h => ?_⟩
  have parts : x ∈ q ↔ x ∈ q.takeWhile (fun y => decide (y.body.lineClass ≤ m.body.lineClass)) ∨
      x ∈ q.dropWhile (fun y => decide (y.body.lineClass ≤ m.body.lineClass)) := by
    rw [← List.mem_append, List.takeWhile_append_dropWhile]
  unfold joinInOrder
  rw [List.mem_append, List.mem_cons]
  rcases h with h | h
  · exact Or.inr (Or.inl h)
  · rcases parts.1 h with h | h
    · exact Or.inl h
    · exact Or.inr (Or.inr h)

/-- A body that is no SUM NOT_HELD. -/
def LineBody.NoNotHeld (b : LineBody) : Prop := ∀ k, b ≠ bareSum k .notHeld

theorem State.ownSum?_held {s : State} {v : Vote} {b : LineBody} (h : s.ownSum? v = some b) : b.NoNotHeld := by
  intro k e
  subst e
  unfold State.ownSum? at h
  split at h <;> cases h

/-- What an offer makes of the queue: no SUM leaves it, and besides the message itself no SUM NOT_HELD joins. -/
structure Queued (m : Message) (s t : State) : Prop where
  sums : ∀ x ∈ s.line.queue, x.body.lineClass = 0 → x ∈ t.line.queue
  fresh : ∀ x ∈ t.line.queue, x ∈ s.line.queue ∨ x = m ∨ x.body.NoNotHeld

theorem Queued.of_eq {s t : State} (m : Message) (h : t.line.queue = s.line.queue) : Queued m s t :=
  ⟨fun _ hx _ => h ▸ hx, fun _ hx => Or.inl (h ▸ hx)⟩

theorem State.clearCall_queue (s : State) (m : Message) : (s.clearCall m).1.line.queue = s.line.queue :=
  (s.clearCall_frame m) .lineQueue (by decide)

theorem State.clearCall_sum_held {s t : State} {m held : Message} (h : s.clearCall m = (t, some held)) :
    held.body.NoNotHeld := by
  obtain ⟨_, _, _, own, rfl⟩ := State.clearCall_held_sum h
  exact State.ownSum?_held own

theorem State.offerFuel_queued : ∀ (n : Nat) (m : Message) (s : State),
    AlikeVotes s (State.offerFuel n m s) ∧ Queued m s (State.offerFuel n m s)
  | 0, m, _ => ⟨AlikeVotes.of_eq rfl, Queued.of_eq m rfl⟩
  | n + 1, m, s => by
    unfold State.offerFuel
    split
    · exact ⟨AlikeVotes.of_eq rfl, Queued.of_eq m rfl⟩
    split
    · refine ⟨s.joinQueue_alike m, ?_, ?_⟩ <;> rw [State.joinQueue_queue]
      · exact fun x hx _ => mem_joinInOrder_iff.2 (Or.inr hx)
      · exact fun x hx => (mem_joinInOrder_iff.1 hx).elim (fun e => Or.inr (Or.inl e)) Or.inl
    split
    · next victim rest out =>
      split
      · next lower =>
        obtain ⟨-, before, after, e, e', -⟩ := takeLast_spec out
        have kept : ∀ x ∈ s.line.queue, x.body.lineClass = 0 → x ∈ rest := fun x hx zero => by
          rw [e, List.mem_append, List.mem_cons] at hx
          rw [e', List.mem_append]
          rcases hx with h | rfl | h
          · exact Or.inl h
          · omega
          · exact Or.inr h
        have alike := (s.setLine { s.line with queue := rest }).joinQueue_alike m
        have alike : AlikeVotes s (((s.setLine { s.line with queue := rest }).joinQueue m).bump .lineDropped) :=
          ⟨alike.into, alike.back⟩
        have cleared := alike.trans (State.clearCall_alike _ victim)
        have queue : ((((s.setLine { s.line with queue := rest }).joinQueue m).bump .lineDropped).clearCall
            victim).1.line.queue = joinInOrder m rest :=
          (State.clearCall_queue _ victim).trans (State.joinQueue_queue (s.setLine { s.line with queue := rest }) m)
        have joined : ∀ x ∈ joinInOrder m rest, x ∈ s.line.queue ∨ x = m := fun x hx =>
          (mem_joinInOrder_iff.1 hx).elim Or.inr fun h => Or.inl ((takeLast_sublist out).subset h)
        split
        · next t held h =>
          rw [h] at cleared queue
          have queue : t.line.queue = joinInOrder m rest := queue
          obtain ⟨again, sums, fresh⟩ := State.offerFuel_queued n held t
          refine ⟨cleared.trans again, fun x hx zero => sums x ?_ zero, fun x hx => ?_⟩
          · rw [queue]
            exact mem_joinInOrder_iff.2 (Or.inr (kept x hx zero))
          · rcases fresh x hx with old | rfl | other
            · exact (joined x (queue ▸ old)).imp_right Or.inl
            · exact Or.inr (Or.inr (State.clearCall_sum_held h))
            · exact Or.inr (Or.inr other)
        · next t h =>
          rw [h] at cleared queue
          have queue : t.line.queue = joinInOrder m rest := queue
          refine ⟨cleared, fun x hx zero => ?_, fun x hx => (joined x (queue ▸ hx)).imp_right Or.inl⟩
          rw [queue]
          exact mem_joinInOrder_iff.2 (Or.inr (kept x hx zero))
      · exact ⟨AlikeVotes.of_eq rfl, Queued.of_eq m rfl⟩
    · exact ⟨AlikeVotes.of_eq rfl, Queued.of_eq m rfl⟩

theorem State.offer_alike (s : State) (m : Message) : AlikeVotes s (s.offer m) := (State.offerFuel_queued _ m s).1

theorem State.offer_queued (s : State) (m : Message) : Queued m s (s.offer m) := (State.offerFuel_queued _ m s).2

/-! ### The arbiter and the walk -/

/-- What the arbiter and the walk do: requests and reports only join, no SUM leaves the queue and no SUM NOT_HELD joins it,
and every vote keeps its number and key. -/
structure Extends (s t : State) : Prop where
  requests : s.port.requests <+: t.port.requests
  reports : s.port.reports <+: t.port.reports
  sums : ∀ m ∈ s.line.queue, m.body.lineClass = 0 → m ∈ t.line.queue
  fresh : ∀ m ∈ t.line.queue, m ∈ s.line.queue ∨ m.body.NoNotHeld
  votes : ∀ v ∈ s.votes, ∃ w ∈ t.votes, w.id = v.id ∧ w.key = v.key

theorem Extends.refl (s : State) : Extends s s :=
  ⟨List.prefix_rfl, List.prefix_rfl, fun _ h _ => h, fun _ => Or.inl, fun v hv => ⟨v, hv, rfl, rfl⟩⟩

theorem Extends.trans {s t u : State} (h : Extends s t) (k : Extends t u) : Extends s u := by
  refine ⟨h.requests.trans k.requests, h.reports.trans k.reports, fun m hm zero => k.sums m (h.sums m hm zero) zero,
    fun m hm => (k.fresh m hm).elim (h.fresh m) Or.inr, fun v hv => ?_⟩
  obtain ⟨x, hx, eid, ekey⟩ := h.votes v hv
  obtain ⟨w, hw, fid, fkey⟩ := k.votes x hx
  exact ⟨w, hw, fid.trans eid, fkey.trans ekey⟩

/-- A frame that leaves the requests, the queue and the votes alone, and to whose reports some may join. -/
theorem SameBut.extends {ps : List Part} {s t : State} (h : SameBut ps s t)
    (hp : ∀ p ∈ [Part.requests, .lineQueue, .votes], p ∉ ps) (hr : s.port.reports <+: t.port.reports) : Extends s t := by
  have requests : t.port.requests = s.port.requests := h .requests (hp _ (by decide))
  have queue : t.line.queue = s.line.queue := h .lineQueue (hp _ (by decide))
  have votes : t.votes = s.votes := h .votes (hp _ (by decide))
  exact ⟨by rw [requests], hr, fun m hm _ => queue ▸ hm, fun m hm => Or.inl (queue ▸ hm),
    fun v hv => ⟨v, votes ▸ hv, rfl, rfl⟩⟩

theorem SameBut.extends_quiet {ps : List Part} {s t : State} (h : SameBut ps s t)
    (hp : ∀ p ∈ [Part.requests, .lineQueue, .votes, .reports], p ∉ ps) : Extends s t :=
  h.extends (fun p hm => hp p (List.mem_append_left [Part.reports] hm))
    (by rw [h.reports_eq (hp _ (by decide))])

theorem State.pushReport_prefix (s : State) (r : Report) : s.port.reports <+: (s.pushReport r).port.reports := by
  unfold State.pushReport
  split
  · exact List.prefix_append _ _
  · exact List.prefix_rfl

theorem Extends.offerCall (s : State) (v : Vote) : Extends s (s.offerCall v) := by
  unfold State.offerCall
  dsimp only
  split
  · exact Extends.refl s
  · obtain ⟨sums, fresh⟩ := s.offer_queued (newMessage (.call v.key (stationSet (s.holdingOf v.key.reel).peers)) (some v.id))
    have frame := s.offer_frame (newMessage (.call v.key (stationSet (s.holdingOf v.key.reel).peers)) (some v.id))
    refine ⟨by rw [show State.port (s.offer _) = s.port from frame.port_eq (by decide) (by decide) (by decide) (by decide)
      (by decide)], by rw [frame.reports_eq (by decide)], sums, fun m hm => ?_, fun w hw => ?_⟩
    · rcases fresh m hm with old | rfl | other
      · exact Or.inl old
      · exact Or.inr nofun
      · exact Or.inr other
    · obtain ⟨x, hx, alike⟩ := (s.offer_alike _).into w hw
      exact ⟨x, hx, alike.id_key⟩

theorem Extends.issueFor (s : State) (v : Vote) : Extends s (s.issueFor v) := by
  refine ⟨List.prefix_append _ _, List.prefix_rfl, fun _ h _ => h, fun _ => Or.inl, fun w hw => ?_⟩
  by_cases e : w.id = v.id
  · exact ⟨{ w with state := .reading, checks := [] },
      (State.mem_modifyVote (s := s)).2 (Or.inl ⟨w, hw, e, rfl⟩), rfl, rfl⟩
  · exact ⟨w, (State.mem_modifyVote (s := s)).2 (Or.inr ⟨hw, e⟩), rfl, rfl⟩

theorem Extends.issueFuel : ∀ (n : Nat) (s : State), Extends s (State.issueFuel n s)
  | 0, s => Extends.refl s
  | n + 1, s => by
    unfold State.issueFuel
    split
    · split
      · exact (Extends.issueFor s _).trans (Extends.issueFuel n _)
      · exact Extends.refl s
    · exact Extends.refl s

theorem Extends.issue (s : State) : Extends s s.issue := Extends.issueFuel _ s

theorem Extends.openCalling (s : State) (k : Key) (o : Origin) : Extends s (s.openCalling k o) := by
  have added : Extends s (s.addVote (s.newVote k o none)) :=
    ⟨List.prefix_rfl, List.prefix_rfl, fun _ h _ => h, fun _ => Or.inl,
      fun v hv => ⟨v, List.mem_append_left _ hv, rfl, rfl⟩⟩
  exact (added.trans (Extends.offerCall _ _)).trans (Extends.issue _)

theorem Extends.completeRound (s : State) : Extends s s.completeRound :=
  s.completeRound_frame.extends (by decide)
    (State.pushReport_prefix (s.setHoldings (s.holdings.map s.creditPass)) _)

theorem Extends.moveCursor (s : State) (pos frame : Nat) : Extends s (s.moveCursor pos frame) := by
  have moved : Extends s (s.setSweep { s.sweep with cursorPos := pos, cursorFrame := frame }) :=
    (s.setRun_frame _).extends_quiet (by decide)
  unfold State.moveCursor
  dsimp only
  split
  · exact moved
  · exact moved.trans (Extends.completeRound _)

theorem Extends.cursorOn (s : State) (h : Holding) : Extends s (s.cursorOn h) := by
  unfold State.cursorOn
  split
  · exact Extends.moveCursor s _ _
  · exact Extends.moveCursor s _ _

theorem Extends.walkStep (s : State) : Extends s s.walkStep := by
  unfold State.walkStep
  split
  · exact Extends.completeRound s
  split
  · exact Extends.moveCursor s _ _
  split
  · exact Extends.moveCursor s _ _
  next x _ _ _ =>
    dsimp only
    split
    · have covered : Extends s s.countCovered := (s.setRun_frame _).extends_quiet (by decide)
      exact covered.trans (Extends.cursorOn _ x)
    · rw [s.callFrame_eq]
      have tallied := fun k : Key => (Extends.openCalling s k .sweep).trans
        ((State.setRun_frame _ (s.openSwept k).sweep).extends_quiet (by decide))
      exact ((tallied _).trans (Extends.cursorOn (s.openSwept _) x)).trans
        ((State.spendBurst_frame _).extends_quiet (by decide))

theorem Extends.walkFuel : ∀ (n : Nat) (s : State), Extends s (State.walkFuel n s)
  | 0, s => Extends.refl s
  | n + 1, s => by
    unfold State.walkFuel
    split
    · exact (Extends.walkStep s).trans (Extends.walkFuel n _)
    · exact Extends.refl s

theorem Extends.walk (s : State) : Extends s s.walk := Extends.walkFuel _ s

end Sys2Proof.Machine
end

section
/-! The votes of a dropped reel: the CANCEL, the SUM and the report that each leaves behind (R26 to R29). -/

namespace Sys2Proof.Machine

/-! ### One vote is abandoned -/

/-- Where keys are distinct, one entry has the key of an entry. -/
theorem filter_eq_singleton {α β : Type} [DecidableEq β] {f : α → β} : ∀ {xs : List α}, (xs.map f).Nodup → ∀ {x : α},
    x ∈ xs → xs.filter (fun y => decide (f y = f x)) = [x]
  | y :: ys, h, x, hx => by
    obtain ⟨apart, rest⟩ := List.nodup_cons.1 h
    rcases List.mem_cons.1 hx with rfl | hx
    · rw [List.filter_cons_of_pos (by simp), List.filter_eq_nil_iff.2]
      exact fun z hz e => apart (of_decide_eq_true e ▸ List.mem_map_of_mem hz)
    · rw [List.filter_cons_of_neg, filter_eq_singleton rest hx]
      exact fun e => apart (of_decide_eq_true e ▸ List.mem_map_of_mem hx)

/-- The CANCELs of the fetches of a key. -/
def State.cancels (s : State) (k : Key) : List Request :=
  (s.read.fetches.filter fun f : Fetch => f.key = k).map fun f => .cancel f.tag f.key

/-- No two outstanding fetches have one tag or one vote (R4). -/
structure FetchesApart (s : State) : Prop where
  tags : (s.read.fetches.map Fetch.tag).Nodup
  keys : (s.read.fetches.map Fetch.key).Nodup

theorem State.cancelFetch_cancels {s : State} (h : FetchesApart s) (k : Key) :
    (s.cancelFetch k).port.requests = s.port.requests ++ s.cancels k ∧
      (s.cancelFetch k).read.fetches = s.read.fetches.filter fun f : Fetch => f.key ≠ k := by
  unfold State.cancelFetch State.cancels
  split
  · next f e =>
    have hf := List.mem_of_find?_eq_some e
    obtain rfl : f.key = k := by simpa using List.find?_some e
    rw [filter_eq_singleton h.keys hf]
    refine ⟨rfl, List.filter_congr fun g hg => ?_⟩
    rw [decide_eq_decide]
    exact not_congr ⟨fun t => congrArg Fetch.key (eq_of_map_nodup h.tags hg hf t),
      fun t => congrArg Fetch.tag (eq_of_map_nodup h.keys hg hf t)⟩
  · next e =>
    have other : ∀ f ∈ s.read.fetches, f.key ≠ k := fun f hf => by simpa using List.find?_eq_none.1 e f hf
    rw [List.filter_eq_nil_iff.2 fun f hf => by simpa using other f hf,
      List.filter_eq_self.2 fun f hf => decide_eq_true (other f hf)]
    exact ⟨(List.append_nil _).symm, rfl⟩

/-- The vote has left with its fetch, and has offered its SUM. -/
def State.sumOffered (s : State) (v : Vote) : State := ((s.cancelFetch v.key).removeVote v.id).offerNotHeld v

theorem State.abandon_eq (s : State) (v : Vote) :
    s.abandon v = ((s.sumOffered v).pushReport v.abandonedReport).bump .abandoned := rfl

theorem State.reported_frame (s : State) (r : Report) :
    SameBut [.reports, .counter .reportsLost, .counter .abandoned] s ((s.pushReport r).bump .abandoned) :=
  (s.pushReport_frame r).comp (State.bump_frame _ _) (by decide) (by decide)

theorem State.left_frame (s : State) (v : Vote) :
    SameBut [.read, .requests, .votes] s ((s.cancelFetch v.key).removeVote v.id) :=
  (s.cancelFetch_frame v.key).comp (State.removeVote_frame _ v.id) (by decide) (by decide)

theorem State.abandon_requests {s : State} (h : FetchesApart s) (v : Vote) :
    (s.abandon v).port.requests = s.port.requests ++ s.cancels v.key ∧
      (s.abandon v).read.fetches = s.read.fetches.filter fun f : Fetch => f.key ≠ v.key := by
  obtain ⟨requests, fetches⟩ := State.cancelFetch_cancels h v.key
  have rest := (State.offerNotHeld_frame ((s.cancelFetch v.key).removeVote v.id) v).comp
    (rs := .reports :: .counter .reportsLost :: .counter .abandoned :: offerParts)
    (State.reported_frame _ v.abandonedReport) (by decide) (by decide)
  have rest_requests : (s.abandon v).port.requests = (s.cancelFetch v.key).port.requests := rest .requests (by decide)
  have rest_read : (s.abandon v).read = (s.cancelFetch v.key).read := rest .read (by decide)
  exact ⟨rest_requests.trans requests, by rw [rest_read]; exact fetches⟩

theorem State.sumOffered_frame (s : State) (v : Vote) :
    SameBut (.read :: .requests :: offerParts) s (s.sumOffered v) :=
  (s.left_frame v).comp (State.offerNotHeld_frame _ v) (by decide) (by decide)

theorem State.abandon_reports (s : State) (v : Vote) (room : s.port.reports.length < 64) :
    (s.abandon v).port.reports.map QueuedReport.report =
      s.port.reports.map QueuedReport.report ++ [v.abandonedReport] := by
  have before := (s.sumOffered_frame v).reports_eq (by decide)
  have pushed := State.pushReport_reports (s := s.sumOffered v) (by rw [before]; exact room) v.abandonedReport
  show ((s.sumOffered v).pushReport v.abandonedReport).port.reports.map QueuedReport.report = _
  rw [pushed, before, List.map_append]
  rfl

theorem State.abandon_count (s : State) (v : Vote) :
    (s.abandon v).count .abandoned = min 4294967295 (s.count .abandoned + 1) := by
  have before := (s.sumOffered_frame v).comp (rs := .read :: .requests :: offerParts ++ reportParts)
    ((s.sumOffered v).pushReport_frame v.abandonedReport) (by decide) (by decide)
  have same : ((s.sumOffered v).pushReport v.abandonedReport).count .abandoned = s.count .abandoned :=
    before (.counter .abandoned) (by decide)
  rw [s.abandon_eq, State.count_bump, if_pos rfl, same]
  rfl

theorem State.offerNotHeld_alike (s : State) (v : Vote) : AlikeVotes s (s.offerNotHeld v) := by
  unfold State.offerNotHeld
  split
  · exact AlikeVotes.of_eq rfl
  · exact s.offer_alike _

theorem State.left_votes (s : State) (v : Vote) :
    ((s.cancelFetch v.key).removeVote v.id).votes = (s.removeVote v.id).votes := by
  show (s.cancelFetch v.key).votes.filter _ = _
  rw [show (s.cancelFetch v.key).votes = s.votes from s.cancelFetch_frame v.key .votes (by decide)]
  rfl

/-- The other votes stay as they are, but for what offers touch. -/
theorem State.abandon_alike (s : State) (v : Vote) : AlikeVotes (s.removeVote v.id) (s.abandon v) := by
  have after : (s.abandon v).votes = (s.sumOffered v).votes := State.reported_frame _ v.abandonedReport .votes (by decide)
  exact ((AlikeVotes.of_eq (s.left_votes v)).trans (State.offerNotHeld_alike _ v)).trans (AlikeVotes.of_eq after)

theorem State.mem_removeVote {s : State} {id : Nat} {w : Vote} : w ∈ (s.removeVote id).votes ↔ w ∈ s.votes ∧ w.id ≠ id := by
  show w ∈ s.votes.filter _ ↔ _
  rw [List.mem_filter, decide_eq_true_eq]

theorem State.abandon_ids {s : State} (v : Vote) (h : (s.votes.map Vote.id).Nodup) :
    ((s.abandon v).votes.map Vote.id).Nodup := by
  rw [map_of_core (s.abandon_core v) Vote.id fun _ _ e => (Vote.core_eq e).1]
  exact nodup_of_sublist_map h List.filter_sublist

/-! ### One after another -/

/-- Votes that wait to be abandoned, as they were when the order came: each is still there, but for what offers touch. -/
structure Leaving (vs : List Vote) (s : State) : Prop where
  ids : (s.votes.map Vote.id).Nodup
  there : ∀ v ∈ vs, ∃ w ∈ s.votes, v.Alike w
  apart : (vs.map Vote.id).Nodup
  keys : (vs.map Vote.key).Nodup
  fetches : FetchesApart s

/-- The first of them is abandoned as it then stands, and the others still wait. -/
theorem Leaving.cons {v : Vote} {vs : List Vote} {s : State} (h : Leaving (v :: vs) s) :
    ∃ w, v.Alike w ∧ s.abandonById v.id = s.abandon w ∧ Leaving vs (s.abandon w) := by
  obtain ⟨w, hw, alike⟩ := h.there v List.mem_cons_self
  obtain ⟨other, apart⟩ := List.nodup_cons.1 h.apart
  obtain ⟨-, fetches⟩ := State.abandon_requests h.fetches w
  refine ⟨w, alike, ?_, State.abandon_ids w h.ids, fun x hx => ?_, apart, (List.nodup_cons.1 h.keys).2, ?_, ?_⟩
  · unfold State.abandonById
    rw [← alike.id_key.1, State.voteById?_of_mem h.ids hw]
  · obtain ⟨y, hy, same⟩ := h.there x (List.mem_cons_of_mem _ hx)
    have stays : y.id ≠ w.id := by
      rw [same.id_key.1, alike.id_key.1]
      exact fun e => other (e ▸ List.mem_map_of_mem hx)
    obtain ⟨z, hz, again⟩ := (s.abandon_alike w).into y (State.mem_removeVote.2 ⟨hy, stays⟩)
    exact ⟨z, hz, same.trans again⟩
  · rw [fetches]
    exact nodup_of_sublist_map h.fetches.tags List.filter_sublist
  · rw [fetches]
    exact nodup_of_sublist_map h.fetches.keys List.filter_sublist

/-- The abandonment of votes, oldest first. -/
def State.abandonAll (s : State) (vs : List Vote) : State := (vs.map Vote.id).foldl State.abandonById s

theorem State.abandonReel_eq (s : State) (reel : Nat) :
    s.abandonReel reel = s.abandonAll (s.votes.filter fun v => v.key.reel = reel) := rfl

theorem State.abandonAll_cons (s : State) (v : Vote) (vs : List Vote) :
    s.abandonAll (v :: vs) = (s.abandonById v.id).abandonAll vs := rfl

theorem State.abandonAll_requests : ∀ {vs : List Vote} {s : State}, Leaving vs s →
    (s.abandonAll vs).port.requests = s.port.requests ++ vs.flatMap fun v => s.cancels v.key
  | [], _, _ => (List.append_nil _).symm
  | v :: vs, s, h => by
    obtain ⟨w, alike, e, rest⟩ := h.cons
    obtain ⟨requests, fetches⟩ := State.abandon_requests h.fetches w
    have later : ∀ x ∈ vs, (s.abandon w).cancels x.key = s.cancels x.key := fun x hx => by
      have other : x.key ≠ w.key := by
        rw [alike.id_key.2]
        exact fun same => (List.nodup_cons.1 h.keys).1 (same ▸ List.mem_map_of_mem hx)
      unfold State.cancels
      rw [fetches, List.filter_filter]
      refine congrArg _ (List.filter_congr fun f _ => ?_)
      rw [← Bool.decide_and, decide_eq_decide]
      exact ⟨fun k => k.1, fun k => ⟨k, fun k' => other (k.symm.trans k')⟩⟩
    rw [State.abandonAll_cons, e, State.abandonAll_requests rest, requests, List.flatMap_cons, List.append_assoc,
      List.flatMap_congr later, alike.id_key.2]

theorem State.abandonAll_reports : ∀ {vs : List Vote} {s : State}, Leaving vs s →
    s.port.reports.length + vs.length ≤ 64 → (s.abandonAll vs).port.reports.map QueuedReport.report =
      s.port.reports.map QueuedReport.report ++ vs.map Vote.abandonedReport
  | [], _, _, _ => (List.append_nil _).symm
  | v :: vs, s, h, room => by
    obtain ⟨w, alike, e, rest⟩ := h.cons
    rw [List.length_cons] at room
    have reports := s.abandon_reports w (by omega)
    have length := congrArg List.length reports
    rw [List.length_append, List.length_map, List.length_map, List.length_singleton] at length
    rw [State.abandonAll_cons, e, State.abandonAll_reports rest (by omega), reports, List.append_assoc,
      alike.abandonedReport]
    rfl

theorem State.abandonAll_count : ∀ {vs : List Vote} {s : State}, Leaving vs s → s.count .abandoned ≤ 4294967295 →
    (s.abandonAll vs).count .abandoned = min 4294967295 (s.count .abandoned + vs.length)
  | [], _, _, low => (Nat.min_eq_right low).symm
  | v :: vs, s, h, low => by
    obtain ⟨w, -, e, rest⟩ := h.cons
    have count := s.abandon_count w
    rw [State.abandonAll_cons, e, State.abandonAll_count rest (by omega), count, List.length_cons]
    omega

/-! ### The SUMs they leave (R28) -/

/-- The SUM NOT_HELD of a vote that is abandoned. -/
def Vote.dropSum (v : Vote) : Message := newMessage (bareSum v.key .notHeld) none

theorem State.abandon_queue (s : State) (v : Vote) : (s.abandon v).line.queue = (s.sumOffered v).line.queue :=
  State.reported_frame _ v.abandonedReport .lineQueue (by decide)

theorem State.left_line (s : State) (v : Vote) : ((s.cancelFetch v.key).removeVote v.id).line = s.line :=
  (s.left_frame v).line_eq (by decide) (by decide) (by decide) (by decide) (by decide)

theorem State.abandon_lineState (s : State) (v : Vote) : (s.abandon v).line.state = s.line.state :=
  ((s.sumOffered_frame v).comp (rs := .reports :: .counter .reportsLost :: .counter .abandoned :: .read :: .requests ::
    offerParts) (State.reported_frame _ v.abandonedReport) (by decide) (by decide)) .lineState (by decide)

theorem State.offerNotHeld_queued (s : State) (v : Vote) : Queued v.dropSum s (s.offerNotHeld v) := by
  unfold State.offerNotHeld
  split
  · exact Queued.of_eq _ rfl
  · exact s.offer_queued _

theorem State.abandon_queued (s : State) (v : Vote) : Queued v.dropSum s (s.abandon v) := by
  obtain ⟨sums, fresh⟩ := ((s.cancelFetch v.key).removeVote v.id).offerNotHeld_queued v
  rw [s.left_line v] at sums fresh
  exact ⟨by rw [s.abandon_queue]; exact sums, by rw [s.abandon_queue]; exact fresh⟩

theorem State.abandonById_sums (s : State) (id : Nat) {m : Message} (hm : m ∈ s.line.queue)
    (zero : m.body.lineClass = 0) : m ∈ (s.abandonById id).line.queue := by
  unfold State.abandonById
  split
  · exact (s.abandon_queued _).sums m hm zero
  · exact hm

/-- Where the queue has room, a SUM joins it, and the other votes stay as they are. -/
theorem State.abandon_room {s : State} (v : Vote) (hm : s.line.state ≠ .mute) (room : s.line.queue.length < 32) :
    (s.abandon v).votes = (s.removeVote v.id).votes ∧ (s.abandon v).line.queue.length ≤ s.line.queue.length + 1 ∧
      (v.sumSent = false → v.expected ≠ [] → v.dropSum ∈ (s.abandon v).line.queue) := by
  have after : (s.abandon v).votes = (s.sumOffered v).votes := State.reported_frame _ v.abandonedReport .votes (by decide)
  have line := s.left_line v
  rw [s.abandon_queue, after]
  unfold State.sumOffered State.offerNotHeld
  rw [line]
  split
  · next silent =>
    rw [line]
    refine ⟨s.left_votes v, Nat.le_succ _, fun unsent expects => ?_⟩
    rcases silent with h | h | h
    · exact absurd (unsent.symm.trans h) (by decide)
    · exact absurd h hm
    · exact absurd h expects
  · rw [State.offer_join (by rw [line]; exact hm) (by rw [line]; exact room), State.joinQueue_votes _ rfl,
      State.joinQueue_queue, line, length_joinInOrder]
    exact ⟨s.left_votes v, Nat.le_refl _, fun _ _ => mem_joinInOrder_iff.2 (Or.inl rfl)⟩

theorem State.abandonAll_sums (s : State) (vs : List Vote) {m : Message} (hm : m ∈ s.line.queue)
    (zero : m.body.lineClass = 0) : m ∈ (s.abandonAll vs).line.queue :=
  foldl_kept (P := fun t => m ∈ t.line.queue) (fun t id h => t.abandonById_sums id h zero) _ hm

/-- With room for all of them, each vote leaves its SUM. -/
theorem State.mem_abandonAll {vs : List Vote} : ∀ {s : State}, (s.votes.map Vote.id).Nodup → (vs.map Vote.id).Nodup →
    vs ⊆ s.votes → s.line.state ≠ .mute → s.line.queue.length + vs.length ≤ 32 → ∀ v ∈ vs, v.sumSent = false →
    v.expected ≠ [] → v.dropSum ∈ (s.abandonAll vs).line.queue := by
  induction vs with
  | nil => exact fun _ _ _ _ _ v hv => absurd hv List.not_mem_nil
  | cons v vs ih =>
    intro s ids apart sub hm room x hx unsent expects
    rw [List.length_cons] at room
    obtain ⟨other, apart⟩ := List.nodup_cons.1 apart
    obtain ⟨votes, length, joins⟩ := State.abandon_room (s := s) v hm (by omega)
    have e : s.abandonById v.id = s.abandon v := by
      unfold State.abandonById
      rw [State.voteById?_of_mem ids (sub List.mem_cons_self)]
    rw [State.abandonAll_cons, e]
    rcases List.mem_cons.1 hx with rfl | hx
    · exact State.abandonAll_sums _ vs (joins unsent expects) rfl
    · refine ih (State.abandon_ids v ids) apart (fun y hy => ?_) (by rw [s.abandon_lineState]; exact hm) (by omega) x hx
        unsent expects
      rw [votes]
      exact State.mem_removeVote.2 ⟨sub (List.mem_cons_of_mem _ hy), fun k => other (k ▸ List.mem_map_of_mem hy)⟩

/-- No vote of a key owes a SUM NOT_HELD. -/
def Silent (k : Key) (s : State) : Prop :=
  ∀ v ∈ s.votes, v.key = k → v.sumSent = true ∨ s.line.state = .mute ∨ v.expected = []

theorem Silent.abandon {k : Key} {s : State} (h : Silent k s) (w : Vote) : Silent k (s.abandon w) := by
  intro y hy hk
  obtain ⟨x, hx, pending, sent, rfl, kept⟩ := (s.abandon_alike w).back y hy
  rw [s.abandon_lineState]
  rcases h x (State.mem_removeVote.1 hx).1 hk with h | h
  · exact Or.inl (kept h)
  · exact Or.inr h

/-- The queue of s holds no SUM NOT_HELD of the key that q did not hold. -/
def NoNewSum (k : Key) (q : List Message) (s : State) : Prop :=
  ∀ m ∈ s.line.queue, m.body = bareSum k .notHeld → m ∈ q

theorem NoNewSum.abandon {k : Key} {q : List Message} {s : State} (h : NoNewSum k q s) (quiet : Silent k s) {w : Vote}
    (hw : w ∈ s.votes) : NoNewSum k q (s.abandon w) := by
  intro m hm hb
  rw [s.abandon_queue] at hm
  unfold State.sumOffered State.offerNotHeld at hm
  rw [s.left_line w] at hm
  split at hm
  · rw [s.left_line w] at hm
    exact h m hm hb
  · next loud =>
    rcases (State.offer_queued _ _).fresh m hm with old | rfl | other
    · rw [s.left_line w] at old
      exact h m old hb
    · have key : w.key = k := by
        injection hb
      exact absurd (quiet w hw key) loud
    · exact absurd hb (other k)

theorem State.abandonAll_noNewSum {k : Key} {s : State} (vs : List Vote) (quiet : Silent k s) :
    NoNewSum k s.line.queue (s.abandonAll vs) := by
  have step : ∀ (t : State) (id : Nat), Silent k t ∧ NoNewSum k s.line.queue t →
      Silent k (t.abandonById id) ∧ NoNewSum k s.line.queue (t.abandonById id) := fun t id h => by
    unfold State.abandonById
    split
    · next w e => exact ⟨h.1.abandon w, h.2.abandon h.1 (State.voteById?_mem e).1⟩
    · exact h
  exact (foldl_kept step _ ⟨quiet, fun _ hm _ => hm⟩).2

/-! ### The votes of other reels -/

/-- A vote that is not in the list keeps its number and key. -/
theorem State.abandonAll_others : ∀ {vs : List Vote} {s : State} {v : Vote}, v ∈ s.votes → v.id ∉ vs.map Vote.id →
    ∃ w ∈ (s.abandonAll vs).votes, w.id = v.id ∧ w.key = v.key
  | [], _, v, hv, _ => ⟨v, hv, rfl, rfl⟩
  | x :: vs, s, v, hv, out => by
    rw [List.map_cons, List.mem_cons, not_or] at out
    have kept : ∃ w ∈ (s.abandonById x.id).votes, w.id = v.id ∧ w.key = v.key := by
      unfold State.abandonById
      split
      · next y e =>
        have ne : v.id ≠ y.id := by rw [(State.voteById?_mem e).2]; exact out.1
        obtain ⟨w, hw, alike⟩ := (s.abandon_alike y).into v (State.mem_removeVote.2 ⟨hv, ne⟩)
        exact ⟨w, hw, alike.id_key⟩
      · exact ⟨v, hv, rfl, rfl⟩
    obtain ⟨w, hw, eid, ekey⟩ := kept
    obtain ⟨z, hz, fid, fkey⟩ := State.abandonAll_others (vs := vs) hw (by rw [eid]; exact out.2)
    exact ⟨z, hz, fid.trans eid, fkey.trans ekey⟩

end Sys2Proof.Machine
end

section
/-! DROP HOLDING: the votes, the mend entries and the record of the reel go, and the walk goes on (R26 to R31). -/

namespace Sys2Proof.Machine

/-! ### The mend entries and the record -/

/-- The report of a mend entry that is dropped with its reel (R30). -/
def MendEntry.droppedReport (e : MendEntry) : Report := e.report .dropped none none

theorem State.dropMend_reports (s : State) (e : MendEntry) : s.port.reports <+: (s.dropMend e).port.reports ∧
    (s.port.reports.length < 64 → (s.dropMend e).port.reports.map QueuedReport.report =
      s.port.reports.map QueuedReport.report ++ [e.droppedReport]) := by
  refine ⟨State.pushReport_prefix (s.removeMend e.key) _, fun room => ?_⟩
  unfold State.dropMend
  rw [State.pushReport_reports (s := s.removeMend e.key) room, List.map_append]
  rfl

theorem State.dropAll_reports : ∀ (es : List MendEntry) (s : State), s.port.reports.length + es.length ≤ 64 →
    (es.foldl State.dropMend s).port.reports.map QueuedReport.report =
      s.port.reports.map QueuedReport.report ++ es.map MendEntry.droppedReport
  | [], _, _ => (List.append_nil _).symm
  | e :: es, s, room => by
    rw [List.length_cons] at room
    have reports := (s.dropMend_reports e).2 (by omega)
    have length := congrArg List.length reports
    rw [List.length_append, List.length_map, List.length_map, List.length_singleton] at length
    rw [List.foldl_cons, State.dropAll_reports es _ (by omega), reports, List.append_assoc]
    rfl

/-- The mend entries of the reel, dropped, leave the requests, the queue and the votes alone. -/
theorem Extends.dropMends (s : State) (reel : Nat) : Extends s (s.dropMends reel) := by
  refine (s.dropMends_frame reel).extends (by decide) ?_
  exact foldl_kept (P := fun t : State => s.port.reports <+: t.port.reports)
    (fun t e h => h.trans (t.dropMend_reports e).1) _ List.prefix_rfl

/-- Where reels are distinct, the record at the position of a reel is the one of that reel. -/
theorem eraseIdx_findIdx_reel : ∀ {xs : List Holding} (reel : Nat), (xs.map Holding.reel).Nodup →
    xs.eraseIdx (xs.findIdx fun x => x.reel = reel) = xs.filter fun x : Holding => x.reel ≠ reel
  | [], _, _ => rfl
  | x :: xs, reel, h => by
    obtain ⟨apart, rest⟩ := List.nodup_cons.1 h
    by_cases e : x.reel = reel
    · rw [List.findIdx_cons, decide_eq_true e, List.filter_cons_of_neg (by simpa using e), List.filter_eq_self.2]
      · rfl
      · exact fun y hy => decide_eq_true fun k => apart (e.trans k.symm ▸ List.mem_map_of_mem hy)
    · rw [List.findIdx_cons, decide_eq_false e, List.filter_cons_of_pos (by simpa using e),
        ← eraseIdx_findIdx_reel reel rest]
      rfl

theorem State.removeHolding_given {s : State} (h : (s.holdings.map Holding.reel).Nodup) (reel : Nat) :
    (s.removeHolding reel).holdings.map Holding.given =
      (s.holdings.filter fun x : Holding => x.reel ≠ reel).map Holding.given := by
  rw [← eraseIdx_findIdx_reel reel h]
  unfold State.removeHolding
  dsimp only
  split
  · exact State.moveCursor_frame _ _ _ .holdings (by decide)
  split <;> rfl

theorem Extends.removeHolding (s : State) (reel : Nat) : Extends s (s.removeHolding reel) := by
  have set : ∀ hs : List Holding, Extends s (s.setHoldings hs) := fun hs =>
    (s.setHoldings_frame hs).extends_quiet (by decide)
  unfold State.removeHolding
  dsimp only
  split
  · exact (set _).trans (Extends.moveCursor _ _ _)
  split
  · exact (set _).trans ((State.setRun_frame _ _).extends_quiet (by decide))
  · exact set _

/-! ### The whole of it -/

/-- The state that DROP HOLDING leaves, before fetches of 0 ms end. -/
def State.reelDropped (s : State) (reel : Nat) : State :=
  ((((s.abandonReel reel).issue).dropMends reel).removeHolding reel).walk

theorem exec_dropHolding {body : List Byte} {s : State} (ready : s.ready (.dropHolding body) = true)
    (length : body.length = 4) :
    ((∀ x ∈ s.holdings, x.reel ≠ field body 0 4) → exec (.dropHolding body) s = .next (s.answered 0x02 .notHeld [])) ∧
      ((∃ x ∈ s.holdings, x.reel = field body 0 4) → exec (.dropHolding body) s =
        .next ((s.reelDropped (field body 0 4)).expireIssued.answered 0x02 .done [])) := by
  have taken : exec (.dropHolding body) s = .next ((s.dropHolding (field body 0 4)).state.answered 0x02
      (s.dropHolding (field body 0 4)).result (s.dropHolding (field body 0 4)).payload) :=
    congrArg Host.Outcome.next (State.arrive_fits ready 0x02 (decide_eq_true length) _)
  refine ⟨fun none => ?_, fun ⟨x, hx, e⟩ => ?_⟩
  · have absent : s.holding? (field body 0 4) = .none := List.find?_eq_none.2 fun x hx => by simpa using none x hx
    rw [taken, State.dropHolding, absent]
    rfl
  · have held : (s.holding? (field body 0 4)).isSome = true := List.find?_isSome.2 ⟨x, hx, decide_eq_true e⟩
    obtain ⟨h, held⟩ := Option.isSome_iff_exists.1 held
    rw [taken, State.dropHolding, held]
    rfl

theorem State.reelDropped_frame (s : State) (reel : Nat) :
    SameBut (.holdings :: .mends :: .counter .abandoned :: walkParts) s (s.reelDropped reel) :=
  (((((s.abandonReel_frame reel).mono (by decide)).trans ((State.issue_frame _).mono (by decide))).trans
    ((State.dropMends_frame _ reel).mono (by decide))).trans
    ((State.removeHolding_frame _ reel).mono (by decide))).trans ((State.walk_frame _).mono (by decide))

/-- What follows the abandonment of the votes. -/
theorem Extends.reelDropped (s : State) (reel : Nat) : Extends (s.abandonReel reel) (s.reelDropped reel) :=
  (((Extends.issue _).trans (Extends.dropMends _ reel)).trans (Extends.removeHolding _ reel)).trans (Extends.walk _)

/-- What comes before the record goes leaves the holdings alone. -/
theorem State.beforeRemoval_holdings (s : State) (reel : Nat) :
    (((s.abandonReel reel).issue).dropMends reel).holdings = s.holdings := by
  have frame := ((s.abandonReel_frame reel).comp (rs := .mends :: abandonParts) (State.issue_frame _) (by decide)
    (by decide)).trans ((State.dropMends_frame _ reel).mono (by decide))
  exact frame.holdings_eq (by decide) (by decide)

theorem State.reelDropped_given {s : State} (c : Consistent s) (reel : Nat) :
    (s.reelDropped reel).holdings.map Holding.given =
      (s.holdings.filter fun x : Holding => x.reel ≠ reel).map Holding.given := by
  have before := s.beforeRemoval_holdings reel
  have walked : (s.reelDropped reel).holdings.map Holding.given = _ := State.walk_frame _ .holdings (by decide)
  rw [walked, State.removeHolding_given (by rw [before]; exact c.reels), before]

theorem State.reelDropped_mends (s : State) (reel : Nat) :
    (s.reelDropped reel).mends = s.mends.filter fun e : MendEntry => e.key.reel ≠ reel := by
  have after : (s.reelDropped reel).mends = (((s.abandonReel reel).issue).dropMends reel).mends :=
    ((State.removeHolding_frame _ reel).trans ((State.walk_frame _).mono (by decide))) .mends (by decide)
  have before : (s.abandonReel reel).issue.mends = s.mends :=
    ((s.abandonReel_frame reel).trans ((State.issue_frame _).mono (by decide))) .mends (by decide)
  rw [after, State.dropMends_mends, before]

theorem State.reelDropped_consistent {s : State} (c : Consistent s) (reel : Nat) : Consistent (s.reelDropped reel) := by
  obtain ⟨off, gone⟩ := State.abandonReel_off reel c
  have others : ∀ v ∈ (s.abandonReel reel).issue.votes, v.key.reel ≠ reel := fun v hv => by
    obtain ⟨w, hw, e⟩ := mem_of_map_eq (State.issueFuel_keys _ (s.abandonReel reel)) hv
    rw [← e]
    exact gone w hw
  have dropped := State.dropMends_consistent reel (State.issue_consistent off) others
  refine State.walk_consistent (State.removeHolding_consistent reel dropped (fun v hv => ?_) fun e he => ?_)
  · rw [show (State.dropMends _ reel).votes = _ from State.dropMends_frame _ reel .votes (by decide)] at hv
    exact others v hv
  · rw [State.dropMends_mends] at he
    exact of_decide_eq_true (List.mem_filter.1 he).2

/-- No vote of the reel is left, since every vote is of a frame that is held. -/
theorem State.reelDropped_votes {s : State} (c : Consistent s) (reel : Nat) :
    ∀ v ∈ (s.reelDropped reel).votes, v.key.reel ≠ reel := by
  intro v hv e
  obtain ⟨h, hh, same, -⟩ := (State.reelDropped_consistent c reel).votesHeld v hv
  obtain ⟨x, hx, given⟩ := mem_of_map_eq (State.reelDropped_given c reel) hh
  exact of_decide_eq_true (List.mem_filter.1 hx).2 ((Holding.given_eq given).1.trans (same.trans e))

theorem Consistent.leaving {s : State} (c : Consistent s) (reel : Nat) :
    Leaving (s.votes.filter fun v : Vote => v.key.reel = reel) s :=
  ⟨c.ids, fun v hv => ⟨v, (List.mem_filter.1 hv).1, Vote.Alike.refl v⟩, nodup_of_sublist_map c.ids List.filter_sublist,
    nodup_of_sublist_map c.keys List.filter_sublist, c.tags, c.fetchKeys⟩

theorem State.reelDropped_others {s : State} (c : Consistent s) {reel : Nat} {v : Vote} (hv : v ∈ s.votes)
    (hr : v.key.reel ≠ reel) : ∃ w ∈ (s.reelDropped reel).votes, w.id = v.id ∧ w.key = v.key := by
  have out : v.id ∉ (s.votes.filter fun v : Vote => v.key.reel = reel).map Vote.id := fun h => by
    obtain ⟨x, hx, e⟩ := List.mem_map.1 h
    obtain ⟨hx, same⟩ := List.mem_filter.1 hx
    exact hr (eq_of_map_nodup c.ids hx hv e ▸ of_decide_eq_true same)
  obtain ⟨x, hx, eid, ekey⟩ := State.abandonAll_others hv out
  obtain ⟨w, hw, fid, fkey⟩ := (Extends.reelDropped s reel).votes x hx
  exact ⟨w, hw, fid.trans eid, fkey.trans ekey⟩

theorem State.reelDropped_count {s : State} (c : Consistent s) (low : s.count .abandoned ≤ 4294967295) (reel : Nat) :
    (s.reelDropped reel).count .abandoned =
      min 4294967295 (s.count .abandoned + (s.votes.filter fun v : Vote => v.key.reel = reel).length) := by
  have later : (s.reelDropped reel).count .abandoned = (s.abandonReel reel).count .abandoned :=
    ((((State.issue_frame _).comp (rs := .mends :: .holdings :: walkParts) (State.dropMends_frame _ reel) (by decide)
      (by decide)).trans ((State.removeHolding_frame _ reel).mono (by decide))).trans
      ((State.walk_frame _).mono (by decide))) (.counter .abandoned) (by decide)
  rw [later, s.abandonReel_eq]
  exact State.abandonAll_count (c.leaving reel) low

theorem State.reelDropped_requests {s : State} (c : Consistent s) (reel : Nat) :
    ∃ later, (s.reelDropped reel).port.requests = s.port.requests ++
      ((s.votes.filter fun v : Vote => v.key.reel = reel).flatMap fun v => s.cancels v.key) ++ later := by
  obtain ⟨later, e⟩ := (Extends.reelDropped s reel).requests
  rw [s.abandonReel_eq, State.abandonAll_requests (c.leaving reel)] at e
  exact ⟨later, e.symm⟩

theorem State.reelDropped_reports {s : State} (c : Consistent s) (reel : Nat)
    (room : s.port.reports.length + (s.votes.filter fun v : Vote => v.key.reel = reel).length +
      (s.mends.filter fun e : MendEntry => e.key.reel = reel).length ≤ 64) :
    ∃ later, (s.reelDropped reel).port.reports.map QueuedReport.report = s.port.reports.map QueuedReport.report ++
      (s.votes.filter fun v : Vote => v.key.reel = reel).map Vote.abandonedReport ++
      (s.mends.filter fun e : MendEntry => e.key.reel = reel).map MendEntry.droppedReport ++ later := by
  have reports := State.abandonAll_reports (c.leaving reel) (by omega)
  rw [← s.abandonReel_eq, ← (State.issue_frame (s.abandonReel reel)).reports_eq (by decide)] at reports
  have length := congrArg List.length reports
  rw [List.length_append, List.length_map, List.length_map, List.length_map] at length
  have before : (s.abandonReel reel).issue.mends = s.mends :=
    ((s.abandonReel_frame reel).trans ((State.issue_frame _).mono (by decide))) .mends (by decide)
  have dropped : ((s.abandonReel reel).issue.dropMends reel).port.reports.map QueuedReport.report = _ :=
    State.dropAll_reports _ (s.abandonReel reel).issue (by rw [before]; omega)
  obtain ⟨later, e⟩ := ((Extends.removeHolding ((s.abandonReel reel).issue.dropMends reel) reel).trans
    (Extends.walk _)).reports
  refine ⟨later.map QueuedReport.report, ?_⟩
  show (State.walk _).port.reports.map _ = _
  rw [← e, List.map_append, dropped, reports, before]

theorem State.reelDropped_sums {s : State} (c : Consistent s) {reel : Nat} {v : Vote}
    (hv : v ∈ s.votes.filter fun v : Vote => v.key.reel = reel) :
    (v.sumSent = false → s.line.state ≠ .mute → v.expected ≠ [] →
      s.line.queue.length + (s.votes.filter fun v : Vote => v.key.reel = reel).length ≤ 32 →
        v.dropSum ∈ (s.reelDropped reel).line.queue) ∧
      (v.sumSent = true ∨ s.line.state = .mute ∨ v.expected = [] →
        NoNewSum v.key s.line.queue (s.reelDropped reel)) := by
  have later := Extends.reelDropped s reel
  refine ⟨fun unsent loud expects room => ?_, fun quiet m hm hb => ?_⟩
  · have leaving := c.leaving reel
    exact later.sums _ (State.mem_abandonAll c.ids leaving.apart (List.filter_subset_self _) loud room v hv unsent expects)
      rfl
  · have silent : Silent v.key s := fun w hw hk =>
      eq_of_map_nodup c.keys hw (List.mem_filter.1 hv).1 hk ▸ quiet
    rcases later.fresh m hm with old | other
    · exact State.abandonAll_noNewSum _ silent m old hb
    · exact absurd hb (other v.key)

/-- Settles O17: each vote leaves its CANCEL, its SUM and its report in turn, and what follows only adds to them. -/
theorem dropHoldingClearsTheReel : Obligations.DropHoldingClearsTheReel := by
  unfold Obligations.DropHoldingClearsTheReel
  intro body s ready length reel votes entries done
  obtain ⟨refused, taken⟩ := exec_dropHolding ready length
  refine ⟨refused, fun held b c => ⟨s.reelDropped reel, taken held, ?_, State.reelDropped_given c reel,
    State.reelDropped_votes c reel, s.reelDropped_mends reel, fun v hv hr => State.reelDropped_others c hv hr,
    State.reelDropped_count c (b.counters .abandoned) reel, State.reelDropped_requests c reel,
    State.reelDropped_reports c reel, fun v hv => ?_, State.walk_stops _, s.reelDropped_frame reel⟩⟩
  · have frame := (s.reelDropped_frame reel).comp (rs := .holdings :: .mends :: .counter .abandoned :: .roster ::
      expiryParts) (State.expireIssued_frame _) (by decide) (by decide)
    exact State.replied_after (i := .dropHolding body) rfl ready frame (by decide) 0x02 .done []
  · obtain ⟨joins, none⟩ := State.reelDropped_sums c hv
    exact ⟨fun unsent loud expects room => ⟨_, joins unsent loud expects room, rfl⟩, none⟩

end Sys2Proof.Machine
end

section
/-! Every command answers a next state, and every order that is taken gets its reply (R22, R166, R167). -/

namespace Sys2Proof.Machine

/-! ### No command stops the station (log 23) -/

/-- An outcome is a next state. -/
def Answers (o : Host.Outcome State Fault Refusal) : Prop := ∃ t, o = .next t

theorem Answers.next (t : State) : Answers (.next t) := ⟨t, rfl⟩

/-- A command that is no shelf record answers a next state on each of its branches. -/
theorem exec_answers_unrecorded {i : Instr} (h : toRecord i = none) (s : State) : Answers (exec i s) := by
  cases i with
  | holdAsserted | sum _ _ | call _ _ | tiles _ _ | present _ _ | candidateFrame _ _ | resetLineAsserted
  | lineActivityBegins | recordCutShort => exact Answers.next _
  | gapTimerExpiry =>
    show Answers (execGapTimerExpiry s)
    unfold execGapTimerExpiry
    split <;> exact Answers.next _
  | resetOrderEffect pins =>
    show Answers (execResetOrderEffect pins s)
    unfold execResetOrderEffect
    split <;> exact Answers.next _
  | fetchTimeout =>
    show Answers (execFetchTimeout s)
    unfold execFetchTimeout
    split <;> exact Answers.next _
  | holdReleased =>
    show Answers (execHoldReleased s)
    unfold execHoldReleased
    split <;> exact Answers.next _
  | lineFrameStart =>
    show Answers (execLineFrameStart s)
    unfold execLineFrameStart
    split
    · exact Answers.next _
    split
    · exact Answers.next _
    split
    · dsimp only
      split <;> exact Answers.next _
    · exact Answers.next _
  | lineFrameSent =>
    show Answers (execLineFrameSent s)
    unfold execLineFrameSent
    split <;> exact Answers.next _
  | collision =>
    show Answers (execCollision s)
    unfold execCollision
    split
    · exact Answers.next _
    dsimp only
    split
    · exact Answers.next _
    · split <;> exact Answers.next _
  | enterJoining =>
    show Answers (execEnterJoining s)
    unfold execEnterJoining
    split
    · exact Answers.next _
    · split <;> exact Answers.next _
  | beaconTimerExpiry =>
    show Answers (execBeaconTimerExpiry s)
    unfold execBeaconTimerExpiry
    split <;> exact Answers.next _
  | silenceExpiry =>
    show Answers (execSilenceExpiry s)
    unfold execSilenceExpiry
    split <;> exact Answers.next _
  | voteTimerExpiry =>
    show Answers (execVoteTimerExpiry s)
    unfold execVoteTimerExpiry
    split <;> exact Answers.next _
  | localisationTimeout =>
    show Answers (execLocalisationTimeout s)
    unfold execLocalisationTimeout
    split <;> exact Answers.next _
  | mendPatienceExpiry =>
    show Answers (execMendPatienceExpiry s)
    unfold execMendPatienceExpiry
    split <;> exact Answers.next _
  | recordSent =>
    show Answers (execRecordSent s)
    unfold execRecordSent
    split <;> exact Answers.next _
  | powerOn pins =>
    show Answers (execPowerOn pins s)
    unfold execPowerOn
    split <;> exact Answers.next _
  | resetLineReleased pins =>
    show Answers (execResetLineReleased pins s)
    unfold execResetLineReleased
    split <;> exact Answers.next _
  | _ => exact nomatch h

/-- Every command answers a next state: a shelf record is taken or waits, and no other command has a branch that stops. -/
theorem exec_answers (i : Instr) (s : State) : Answers (exec i s) := by
  by_cases record : (toRecord i).isSome = true
  · exact ⟨_, exec_record record s⟩
  · exact exec_answers_unrecorded (Option.not_isSome_iff_eq_none.1 record) s

/-- Settles O3: a step runs the front command, which answers, or lets a slot pass. -/
theorem everyStepAnswersANextState : Obligations.EveryStepAnswersANextState := by
  unfold Obligations.EveryStepAnswersANextState
  intro s
  unfold step
  split
  · exact exec_answers _ _
  · exact Answers.next _

/-! ### Orders and their replies -/

/-- An answer from `s` leaves the outgoing link alone, and when it refuses it leaves the whole state and carries
nothing. -/
structure Answered.Fair (a : Answered) (s : State) : Prop where
  link : Part.link.same s a.state
  refusal : a.result ≠ .done → a = s.refuse a.result

theorem Answered.Fair.refuse (s : State) (r : Result) : (s.refuse r).Fair s :=
  ⟨⟨rfl, rfl, rfl⟩, fun _ => rfl⟩

theorem Answered.Fair.done {s t : State} (link : Part.link.same s t) : t.done.Fair s :=
  ⟨link, fun h => absurd rfl h⟩

theorem Answered.Fair.sweptOn {s t : State} (link : Part.link.same s t) : t.sweepOn.done.Fair s :=
  Answered.Fair.done (Part.same_trans link (t.sweepOn_frame .link (by decide)))

/-- An owner that is fair, or the refusal MALFORMED of a body that does not fit. -/
theorem Answered.Fair.fits {s : State} {a : Answered} (h : a.Fair s) (fits : Bool) :
    (if fits then a else s.refuse .malformed).Fair s := by
  split
  · exact h
  · exact Answered.Fair.refuse s _

theorem State.loadHolding_fair (s : State) (h : Holding) : (s.loadHolding h).Fair s := by
  refine ⟨s.loadHolding_frame h .link (by decide), ?_⟩
  unfold State.loadHolding
  split
  · exact fun _ => rfl
  split
  · exact fun _ => rfl
  split
  · split
    · exact fun _ => rfl
    · exact fun no => absurd rfl no
  · split
    · exact fun _ => rfl
    · exact fun no => absurd rfl no

theorem State.dropHolding_fair (s : State) (reel : Nat) : (s.dropHolding reel).Fair s := by
  refine ⟨s.dropHolding_frame reel .link (by decide), ?_⟩
  unfold State.dropHolding
  split
  · exact fun _ => rfl
  · exact fun no => absurd rfl no

theorem State.verifyKey_fair (s : State) (k : Key) : (s.verifyKey k).Fair s := by
  refine ⟨s.verifyKey_frame k .link (by decide), ?_⟩
  unfold State.verifyKey
  split
  · exact fun _ => rfl
  split
  · exact fun _ => rfl
  split
  · exact fun no => absurd rfl no
  · split
    · exact fun _ => rfl
    · exact fun no => absurd rfl no

theorem State.rewritten_fair (s : State) (k : Key) : (s.rewritten k).Fair s := by
  refine ⟨s.rewritten_frame k .link (by decide), ?_⟩
  unfold State.rewritten
  split
  · split
    · exact fun no => absurd rfl no
    · split
      · exact fun _ => rfl
      · exact fun no => absurd rfl no
  all_goals exact fun _ => rfl

theorem State.takeOldest_fair (s : State) : s.takeOldest.Fair s := by
  refine ⟨s.takeOldest_frame .link (by decide), ?_⟩
  unfold State.takeOldest
  split <;> exact fun no => absurd rfl no

theorem State.pace_fair (s : State) (body : List Byte) : (s.pace body).Fair s := by
  refine ⟨s.pace_frame body .link (by decide), ?_⟩
  unfold State.pace
  split
  · exact fun no => absurd rfl no
  · exact fun _ => rfl

theorem State.selectView_fair (s : State) (code : Nat) : (s.selectView code).Fair s := by
  refine ⟨s.selectView_frame code .link (by decide), ?_⟩
  unfold State.selectView
  split
  · exact fun no => absurd rfl no
  · exact fun _ => rfl

theorem State.peek_fair (s : State) : s.peek.Fair s := by
  refine ⟨s.peek_frame .link (by decide), ?_⟩
  unfold State.peek
  split <;> exact fun no => absurd rfl no

/-- The taking of an order is a reply to a fair answer. -/
theorem takeRecord_fair {i : Instr} {kind : Byte} {body : List Byte} (order : isOrder i = true)
    (record : toRecord i = some (kind, body)) (s : State) :
    ∃ a : Answered, takeRecord i s = State.reply kind a ∧ a.Fair s := by
  cases i with
  | loadHolding b => cases record; exact ⟨_, rfl, (s.loadHolding_fair _).fits _⟩
  | dropHolding b => cases record; exact ⟨_, rfl, (s.dropHolding_fair _).fits _⟩
  | cadence b => cases record; exact ⟨_, rfl, (Answered.Fair.sweptOn (s.setCadence_frame _ .link (by decide))).fits _⟩
  | burst b => cases record; exact ⟨_, rfl, (Answered.Fair.sweptOn (s.setBurst_frame _ .link (by decide))).fits _⟩
  | suspend b =>
    cases record
    exact ⟨_, rfl, (Answered.Fair.done (s.setSuspended_frame true .link (by decide))).fits _⟩
  | resume b =>
    cases record
    exact ⟨_, rfl, (Answered.Fair.sweptOn (s.setSuspended_frame false .link (by decide))).fits _⟩
  | verify b => cases record; exact ⟨_, rfl, (s.verifyKey_fair _).fits _⟩
  | rewritten b => cases record; exact ⟨_, rfl, (s.rewritten_fair _).fits _⟩
  | takeEvidence b => cases record; exact ⟨_, rfl, s.takeOldest_fair.fits _⟩
  | pace b => cases record; exact ⟨_, rfl, (s.pace_fair _).fits _⟩
  | settle b => cases record; exact ⟨_, rfl, (Answered.Fair.done (s.settled_frame .link (by decide))).fits _⟩
  | timing b =>
    cases record
    exact ⟨_, rfl, (Answered.Fair.done (Part.same_trans (s.setTiming_frame _ .link (by decide))
      (State.expireIssued_frame _ .link (by decide)))).fits _⟩
  | watch b => cases record; exact ⟨_, rfl, (Answered.Fair.done (s.setWatching_frame _ _ _ .link (by decide))).fits _⟩
  | clearCounters b =>
    cases record
    exact ⟨_, rfl, (Answered.Fair.done (s := s) (t := s.clearCounters) ⟨rfl, rfl, rfl⟩).fits _⟩
  | view b => cases record; exact ⟨_, rfl, (s.selectView_fair _).fits _⟩
  | peek b => cases record; exact ⟨_, rfl, s.peek_fair.fits _⟩
  | reset b =>
    cases record
    exact ⟨_, rfl, (Answered.Fair.done (s := s) (t := s.setPort { s.port with resetTaken := true }) ⟨rfl, rfl, rfl⟩).fits _⟩
  | unknownOrder k b => cases record; exact ⟨_, rfl, Answered.Fair.refuse s _⟩
  | _ => exact nomatch order

/-- A reply to an order that is ready stands at the port when the order's effects leave the link alone. -/
theorem State.answered_stands {s t : State} {i : Instr} (order : isOrder i = true) (ready : s.ready i = true)
    (link : Part.link.same s t) {kind : Byte} {r : Result} {payload : List Byte} :
    (t.answered kind r payload).replied kind r payload := by
  obtain ⟨_, _, noStart, _, _⟩ := State.ready_order order ready
  obtain ⟨linkSame, startSame, _⟩ := link
  refine State.answered_replied ?_ kind r payload
  unfold ShelfPort.startStands at noStart ⊢
  rw [linkSame, startSame]
  exact noStart

/-- Settles O9: an order is taken with a fair answer, whose reply then stands at the port. -/
theorem everyOrderTakenIsAnswered : Obligations.EveryOrderTakenIsAnswered := by
  unfold Obligations.EveryOrderTakenIsAnswered
  intro i kind body s order record ready
  obtain ⟨a, taken, link, refusal⟩ := takeRecord_fair order record s
  have answered : exec i s = .next (a.state.answered kind a.result a.payload) := by
    rw [exec_record (record ▸ rfl), State.arrive_ready ready, taken, State.reply_arbitrate]
  refine ⟨_, a.result, a.payload, answered, State.answered_stands order ready link, fun refused => ?_⟩
  rw [refusal refused]
  exact ⟨rfl, rfl⟩

end Sys2Proof.Machine
end

section
/-! LOAD HOLDING: the four steps that refuse it, and what the record that passes them leaves (R20, R22 to R24). -/

namespace Sys2Proof.Machine

/-! ### The order and its four steps -/

/-- A field of one byte is that byte. -/
theorem field_byte {body : List Byte} {i : Nat} (h : i < body.length) : field body i 1 = (body.getD i 0).toNat := by
  have head : (body.drop i).take 1 = [body[i]] := by rw [List.drop_eq_getElem_cons h]; rfl
  rw [field, head, List.getD_eq_getElem _ _ h]
  exact (Nat.zero_add _ : 0 * 256 + _ = _)

theorem fitsLoadHolding_of_length {body : List Byte} (low : 19 ≤ body.length)
    (length : body.length = 19 + (body.getD 18 0).toNat) : fitsLoadHolding body = true := by
  unfold fitsLoadHolding
  rw [field_byte (Nat.lt_of_lt_of_le (by decide) low), decide_eq_true low, decide_eq_true length]
  rfl

/-- A LOAD HOLDING that fits is answered by the four steps on the record it describes. -/
theorem exec_loadHolding {body : List Byte} {s : State} (ready : s.ready (.loadHolding body) = true)
    (low : 19 ≤ body.length) (length : body.length = 19 + (body.getD 18 0).toNat) {a : Answered}
    (answer : s.loadHolding (loadedHolding (tileSize s.strap.tileCode) body) = a) :
    exec (.loadHolding body) s = .next (a.state.answered 0x01 a.result a.payload) := by
  rw [← answer]
  exact congrArg Host.Outcome.next (State.arrive_fits ready 0x01 (fitsLoadHolding_of_length low length) _)

theorem Holding.inRange_iff (h : Holding) (own : Nat) : h.inRange own = true ↔
    1 ≤ h.reel ∧ 1 ≤ h.frames ∧ h.frames ≤ 262143 ∧ 1 ≤ h.length ∧ h.tier ≤ 3 ∧ h.head ≤ 4095 ∧ h.tail ≤ 4095 ∧
      h.peers.length ≤ 4 ∧ (∀ p ∈ h.peers, p ≤ 31 ∧ p ≠ own) ∧ h.peers.Nodup := by
  simp only [Holding.inRange, Bool.and_eq_true, decide_eq_true_eq, List.all_eq_true, and_assoc]

theorem State.isBusy_iff (s : State) (reel : Nat) : s.isBusy reel = true ↔
    (∃ v ∈ s.votes, v.key.reel = reel) ∨ ∃ e ∈ s.mends, e.key.reel = reel := by
  simp only [State.isBusy, Bool.or_eq_true, List.any_eq_true, decide_eq_true_eq]

theorem State.holding?_none {s : State} {reel : Nat} (h : ¬ ∃ x ∈ s.holdings, x.reel = reel) : s.holding? reel = none :=
  List.find?_eq_none.2 fun x hx e => h ⟨x, hx, of_decide_eq_true e⟩

theorem State.holding?_some {s : State} {reel : Nat} (h : ∃ x ∈ s.holdings, x.reel = reel) :
    ∃ x, s.holding? reel = some x := by
  obtain ⟨x, hx, e⟩ := h
  exact Option.isSome_iff_exists.1 (List.find?_isSome.2 ⟨x, hx, decide_eq_true e⟩)

theorem State.loadHolding_range {s : State} {h : Holding} (out : h.inRange s.strap.station.val = false) :
    s.loadHolding h = s.refuse .range := if_pos out

section
variable {s : State} {h : Holding} (inRange : h.inRange s.strap.station.val = true)
include inRange

theorem State.loadHolding_geometry (many : 255 < h.tiles) : s.loadHolding h = s.refuse .geometry := by
  unfold State.loadHolding
  rw [if_neg (by rw [inRange]; decide)]
  exact if_pos many

variable (tiles : h.tiles ≤ 255)
include tiles

/-- The steps behind RANGE and GEOMETRY, for a reel that is held. -/
theorem State.loadHolding_held (held : ∃ x ∈ s.holdings, x.reel = h.reel) :
    s.loadHolding h = if s.isBusy h.reel then s.refuse .busy else (s.replaceHolding h).sweepOn.done := by
  obtain ⟨x, hx⟩ := State.holding?_some held
  unfold State.loadHolding
  rw [if_neg (by rw [inRange]; decide), if_neg (show ¬ Config.maxTiles < h.tiles from Nat.not_lt.2 tiles), hx]

/-- The steps behind RANGE and GEOMETRY, for a reel that is not held. -/
theorem State.loadHolding_new (new : ¬ ∃ x ∈ s.holdings, x.reel = h.reel) :
    s.loadHolding h = if 512 ≤ s.holdings.length then s.refuse .full else (s.appendHolding h).sweepOn.done := by
  unfold State.loadHolding
  rw [if_neg (by rw [inRange]; decide), if_neg (show ¬ Config.maxTiles < h.tiles from Nat.not_lt.2 tiles), State.holding?_none new]
  rfl

end

/-- Settles O14: the steps are tried in order, and each that fails answers a refusal of the state as it stands. -/
theorem loadHoldingRefusals : Obligations.LoadHoldingRefusals := by
  unfold Obligations.LoadHoldingRefusals
  intro body s ready low length h inRange held busy
  have ranges : h.inRange s.strap.station.val = true ↔ inRange := h.inRange_iff _
  refine ⟨fun out => ?_, fun fits many => ?_, fun fits tiles isHeld isBusy => ?_, fun fits tiles new full => ?_⟩
  · exact exec_loadHolding ready low length
      (State.loadHolding_range (Bool.eq_false_iff.2 fun fits => out (ranges.1 fits)))
  · exact exec_loadHolding ready low length (State.loadHolding_geometry (ranges.2 fits) many)
  · exact exec_loadHolding ready low length ((State.loadHolding_held (ranges.2 fits) tiles isHeld).trans
      (if_pos ((s.isBusy_iff h.reel).2 isBusy)))
  · exact exec_loadHolding ready low length ((State.loadHolding_new (ranges.2 fits) tiles new).trans (if_pos full))

/-! ### The record in the list, and the cursor (R23, R24) -/

/-- The list with the record of a reel in the old one's place. -/
def State.replaced (s : State) (h : Holding) : State :=
  s.setHoldings (s.holdings.map fun old => if old.reel = h.reel then h else old)

/-- A cursor in the replaced record may stay: its frame is below the new F and the new tier is visited (R24). -/
def State.KeepsCursor (s : State) (h : Holding) : Prop := s.sweep.cursorFrame < h.frames ∧ s.visited h = true

/-- A cursor stands in the record of a reel that is held only at the reel's position. -/
theorem State.cursorPos_ne_positionOf {s : State} {reel : Nat} (held : ∃ x ∈ s.holdings, x.reel = reel)
    (off : ∀ x, s.holdings[s.sweep.cursorPos]? = some x → x.reel ≠ reel) : s.sweep.cursorPos ≠ s.positionOf reel := by
  intro e
  obtain ⟨x, hx⟩ := State.holding?_some held
  have inside : s.positionOf reel < s.holdings.length := State.positionOf_lt hx
  exact off _ (by rw [e]; exact List.getElem?_eq_getElem inside) (of_decide_eq_true (List.findIdx_getElem (w := inside)))

/-- Where reels are distinct, a cursor in the record of a reel stands at the reel's position. -/
theorem State.cursorPos_eq_positionOf {s : State} {reel : Nat} (reels : (s.holdings.map Holding.reel).Nodup)
    (stands : ∃ x, s.holdings[s.sweep.cursorPos]? = some x ∧ x.reel = reel) : s.sweep.cursorPos = s.positionOf reel := by
  obtain ⟨x, hx, e⟩ := stands
  obtain ⟨inside, rfl⟩ := List.getElem?_eq_some_iff.1 hx
  have found : s.positionOf reel < s.holdings.length :=
    List.findIdx_lt_length_of_exists ⟨_, List.getElem_mem inside, decide_eq_true e⟩
  refine (reels.getElem_inj_iff (hi := by simpa using inside) (hj := by simpa using found)).1 ?_
  rw [List.getElem_map, List.getElem_map, e]
  exact (of_decide_eq_true (List.findIdx_getElem (w := found))).symm

/-- A cursor that is elsewhere, or that may stay, stays where it is. -/
theorem State.replaceHolding_stays {s : State} {h : Holding}
    (stays : s.sweep.cursorPos ≠ s.positionOf h.reel ∨ s.KeepsCursor h) : s.replaceHolding h = s.replaced h := by
  refine if_neg fun ⟨at', leaves⟩ => ?_
  rcases stays with off | ⟨below, visited⟩
  · exact off at'
  · rcases leaves with past | unvisited
    · exact absurd below (Nat.not_lt.2 past)
    · exact absurd (visited.symm.trans unvisited) (by decide)

/-- A cursor in the record that may not stay leaves it as after the last frame. -/
theorem State.replaceHolding_leaves {s : State} {h : Holding} (stands : s.sweep.cursorPos = s.positionOf h.reel)
    (leaves : ¬ s.KeepsCursor h) : s.replaceHolding h = (s.replaced h).moveCursor (s.sweep.cursorPos + 1) 0 := by
  refine if_pos ⟨stands, ?_⟩
  by_cases below : s.sweep.cursorFrame < h.frames
  · exact Or.inr (Bool.eq_false_iff.2 fun visited => leaves ⟨below, visited⟩)
  · exact Or.inl (Nat.not_lt.1 below)

theorem State.replaced_given (s : State) (h : Holding) : (s.replaced h).holdings.map Holding.given =
    s.holdings.map fun x : Holding => if x.reel = h.reel then h.given else x.given := by
  show (s.holdings.map _).map Holding.given = _
  rw [List.map_map]
  exact List.map_congr_left fun x _ => apply_ite Holding.given _ _ _

theorem State.replaceHolding_given (s : State) (h : Holding) : (s.replaceHolding h).holdings.map Holding.given =
    s.holdings.map fun x : Holding => if x.reel = h.reel then h.given else x.given := by
  rw [← s.replaced_given h]
  unfold State.replaceHolding
  dsimp only
  split
  · exact State.moveCursor_frame _ _ _ .holdings (by decide)
  · rfl

theorem State.moveCursor_inside {s : State} {pos : Nat} (frame : Nat) (inside : pos < s.holdings.length) :
    s.moveCursor pos frame = s.setSweep { s.sweep with cursorPos := pos, cursorFrame := frame } := if_pos inside

theorem State.moveCursor_onto_end {s : State} {pos : Nat} (frame : Nat) (ends : s.holdings.length ≤ pos) :
    s.moveCursor pos frame = (s.setSweep { s.sweep with cursorPos := pos, cursorFrame := frame }).completeRound :=
  if_neg (Nat.not_lt.2 ends)

theorem State.walk_suspended {s : State} (h : s.sweep.suspended = true) : s.walk = s :=
  State.walk_stopped fun running => absurd (h.symm.trans (s.running_iff.1 running).1) (by decide)

/-- A LOAD HOLDING whose record is in the list is DONE, with its reply at the port, once the walk has stopped. -/
theorem exec_loadHolding_done {body : List Byte} {s u : State} (ready : s.ready (.loadHolding body) = true)
    (low : 19 ≤ body.length) (length : body.length = 19 + (body.getD 18 0).toNat)
    (answer : s.loadHolding (loadedHolding (tileSize s.strap.tileCode) body) = u.sweepOn.done)
    (frame : SameBut (.holdings :: walkParts) s u) :
    exec (.loadHolding body) s = .next (u.walk.expireIssued.answered 0x01 .done []) ∧
      (u.walk.expireIssued.answered 0x01 .done []).replied 0x01 .done [] ∧ u.walk.sweepState ≠ .running ∧
      SameBut (.holdings :: walkParts) s u.walk := by
  have walked : SameBut (.holdings :: walkParts) s u.walk := frame.trans (u.walk_frame.mono (by decide))
  refine ⟨exec_loadHolding ready low length answer, ?_, u.walk_stops, walked⟩
  exact State.answered_stands (i := .loadHolding body) rfl ready
    (Part.same_trans (walked .link (by decide)) (State.expireIssued_frame _ .link (by decide)))

/-- Settles O15: the record is appended or replaced, the cursor in a replaced one stays or leaves, and the walk goes on. -/
theorem loadHoldingStoresTheRecord : Obligations.LoadHoldingStoresTheRecord := by
  unfold Obligations.LoadHoldingStoresTheRecord
  intro body s ready low length h held done inRange tiles
  refine ⟨fun u => State.walk_suspended, fun new room => ?_, fun isHeld idle => ?_⟩
  · have answer : s.loadHolding h = (s.appendHolding h).sweepOn.done :=
      (State.loadHolding_new inRange tiles new).trans (if_neg (Nat.not_le.2 room))
    obtain ⟨taken, reply, stopped, frame⟩ := exec_loadHolding_done ready low length answer
      ((s.setHoldings_frame _).mono (by decide))
    refine ⟨taken, reply, ?_, stopped, frame⟩
    rw [show List.map Holding.given (State.walk _).holdings = _ from State.walk_frame _ .holdings (by decide)]
    exact List.map_append
  · have answer : s.loadHolding h = (s.replaceHolding h).sweepOn.done :=
      (State.loadHolding_held inRange tiles isHeld).trans (if_neg (by rw [idle]; decide))
    obtain ⟨taken, reply, stopped, frame⟩ := exec_loadHolding_done ready low length answer (s.replaceHolding_frame h)
    have walks : ∀ {u : State}, s.replaceHolding h = u → exec (.loadHolding body) s = .next (done u.walk) :=
      fun e => e ▸ taken
    have size : (s.replaced h).holdings.length = s.holdings.length := List.length_map _
    refine ⟨fun off => walks (State.replaceHolding_stays (Or.inl (State.cursorPos_ne_positionOf isHeld off))),
      fun reels stands => ?_, _, taken, reply, ?_, stopped, frame⟩
    · have at' := State.cursorPos_eq_positionOf reels stands
      refine ⟨fun stays => walks (State.replaceHolding_stays (Or.inr stays)), fun leaves more => ?_, fun leaves last => ?_⟩
      · exact walks ((State.replaceHolding_leaves at' leaves).trans (State.moveCursor_inside 0 (size ▸ more)))
      · exact walks ((State.replaceHolding_leaves at' leaves).trans (State.moveCursor_onto_end 0 (size.trans last.symm).le))
    · rw [show List.map Holding.given (State.walk _).holdings = _ from State.walk_frame _ .holdings (by decide)]
      exact s.replaceHolding_given h

end Sys2Proof.Machine
end

section
/-! One step of the walk: how the cursor moves on, what a completed round leaves, and what a called frame leaves
(R35 to R43, R48, R49). -/

namespace Sys2Proof.Machine

/-! ### The cursor and the round (R35, R36, R39, R42, R43) -/

theorem State.cursorOn_within {s : State} {h : Holding} (more : s.sweep.cursorFrame + 1 < h.frames) :
    s.cursorOn h = s.moveCursor s.sweep.cursorPos (s.sweep.cursorFrame + 1) := if_pos more

theorem State.cursorOn_next {s : State} {h : Holding} (last : h.frames ≤ s.sweep.cursorFrame + 1) :
    s.cursorOn h = s.moveCursor (s.sweep.cursorPos + 1) 0 := if_neg (Nat.not_lt.2 last)

/-- The ROUND_DONE report of the round in progress (R43). -/
def State.roundReport (s : State) : Report :=
  .roundDone s.sweep.round s.sweep.r (s.holdings.filter s.visited).length s.sweep.opened s.sweep.covered

theorem State.pushReport_sweep (s : State) (r : Report) : (s.pushReport r).sweep = s.sweep :=
  (s.pushReport_frame r).sweep_eq (by decide) (by decide) (by decide)

theorem State.pushReport_holdings (s : State) (r : Report) : (s.pushReport r).holdings = s.holdings :=
  (s.pushReport_frame r).holdings_eq (by decide) (by decide)

theorem State.completeRound_holdings (s : State) : s.completeRound.holdings = s.holdings.map s.creditPass :=
  State.pushReport_holdings (s.setHoldings (s.holdings.map s.creditPass)) s.roundReport

theorem State.completeRound_sweep (s : State) : s.completeRound.sweep = { s.sweep with
    r := (s.sweep.r + 1) % s.sweep.period, round := min 4294967295 (s.sweep.round + 1), opened := 0, covered := 0
    cursorPos := 0, cursorFrame := 0 } := by
  have kept := State.pushReport_sweep (s.setHoldings (s.holdings.map s.creditPass)) s.roundReport
  show ({ State.sweep (State.pushReport _ s.roundReport) with
    r := _, round := _, opened := _, covered := _, cursorPos := _, cursorFrame := _ } : Sweep) = _
  rw [kept]
  rfl

theorem State.completeRound_report {s : State} (room : s.port.reports.length < 64) :
    s.completeRound.port.reports = s.port.reports ++ [{ number := s.port.nextReport, report := s.roundReport }] :=
  State.pushReport_reports (s := s.setHoldings (s.holdings.map s.creditPass)) room s.roundReport

/-- Settles O25: each move is a branch of the cursor's, and a completed round is the one report with its new values. -/
theorem cursorMovesOnAndRoundsComplete : Obligations.CursorMovesOnAndRoundsComplete := by
  unfold Obligations.CursorMovesOnAndRoundsComplete
  refine ⟨fun h pos frame s => ⟨State.cursorOn_within, State.cursorOn_next, State.moveCursor_inside frame,
    State.moveCursor_onto_end frame⟩, fun s => ?_⟩
  exact ⟨s.completeRound_holdings, s.completeRound_sweep, State.completeRound_report, s.completeRound_frame⟩

/-! ### A vote is opened (R79, R81) -/

/-- A message of a class behind CALL is no CALL, and no vote owes a SUM for it. -/
theorem State.clearCall_behind_call {m : Message} (s : State) (behind : 1 < m.body.lineClass) : s.clearCall m = (s, none) := by
  unfold State.clearCall
  split
  · next e _ => rw [e] at behind; exact absurd behind (Nat.lt_irrefl 1)
  all_goals rfl

/-- A CALL that is offered touches no vote, or sets CALL pending in its own: it pushes no other CALL out. -/
theorem State.offer_call_votes (s : State) (k : Key) (listed : List Nat) (id : Nat) :
    (s.offer (newMessage (.call k listed) (some id))).votes = s.votes ∨
      (s.offer (newMessage (.call k listed) (some id))).votes =
        (s.modifyVote id fun v => { v with callPending := true }).votes := by
  unfold State.offer offerDepth State.offerFuel
  split
  · exact Or.inl rfl
  split
  · exact Or.inr rfl
  split
  · next victim rest _ =>
    split
    · next behind =>
      rw [State.clearCall_behind_call _ behind]
      exact Or.inr rfl
    · exact Or.inl rfl
  · exact Or.inl rfl

section
variable {id : Nat} {k : Key} {o : Origin} {expected callers : List Nat} {now : Nat}

/-- The vote as it was opened, whatever its CALL pending. -/
theorem Vote.IsNew.callPending {v : Vote} (h : v.IsNew id k o expected callers now) (b : Bool) :
    Vote.IsNew { v with callPending := b } id k o expected callers now := { h with }

/-- The vote as it was opened, once the arbiter has given it a slot. -/
theorem Vote.IsNew.reading {v : Vote} (h : v.IsNew id k o expected callers now) :
    Vote.IsNew { v with state := .reading, checks := [] } id k o expected callers now :=
  { h with state := Or.inr rfl, checks := rfl }

/-- A vote of the table is as it was opened. -/
def State.HasNew (s : State) (id : Nat) (k : Key) (o : Origin) (expected callers : List Nat) (now : Nat) : Prop :=
  ∃ v ∈ s.votes, v.IsNew id k o expected callers now

theorem State.HasNew.modifyVote {s : State} (h : s.HasNew id k o expected callers now) (x : Nat) {f : Vote → Vote}
    (hf : ∀ v : Vote, v.IsNew id k o expected callers now → (f v).IsNew id k o expected callers now) :
    (s.modifyVote x f).HasNew id k o expected callers now := by
  obtain ⟨v, hv, new⟩ := h
  by_cases e : v.id = x
  · exact ⟨f v, State.mem_modifyVote.2 (Or.inl ⟨v, hv, e, rfl⟩), hf v new⟩
  · exact ⟨v, State.mem_modifyVote.2 (Or.inr ⟨hv, e⟩), new⟩

theorem State.HasNew.issueFuel : ∀ (n : Nat) {s : State}, s.HasNew id k o expected callers now →
    (State.issueFuel n s).HasNew id k o expected callers now
  | 0, _, h => h
  | n + 1, s, h => by
    unfold State.issueFuel
    split
    · split
      · next v _ => exact State.HasNew.issueFuel n (h.modifyVote v.id fun _ new => new.reading)
      · exact h
    · exact h

theorem State.HasNew.offerCall {s : State} (h : s.HasNew id k o expected callers now) (v : Vote) :
    (s.offerCall v).HasNew id k o expected callers now := by
  unfold State.offerCall
  dsimp only
  split
  · exact h
  · rcases s.offer_call_votes v.key (stationSet (s.holdingOf v.key.reel).peers) v.id with e | e
    · obtain ⟨w, hw, new⟩ := h
      exact ⟨w, e ▸ hw, new⟩
    · obtain ⟨w, hw, new⟩ := h.modifyVote v.id fun _ new => new.callPending true
      exact ⟨w, e ▸ hw, new⟩

end

theorem State.newVote_isNew (s : State) (k : Key) (o : Origin) :
    (s.newVote k o none).IsNew s.nextVote k o (stationSet (s.holdingOf k.reel).peers) [] s.now :=
  ⟨rfl, rfl, rfl, congrArg stationSet (List.append_nil _), rfl, rfl, Or.inl rfl, rfl, rfl, rfl, rfl, rfl, rfl, rfl, rfl,
    rfl⟩

theorem State.offerCall_keys (s : State) (v : Vote) : (s.offerCall v).votes.map Vote.key = s.votes.map Vote.key :=
  map_of_core (s.offerCall_tables v).votes _ fun _ _ e => (Vote.core_eq e).2.1

/-- A SWEEP, ORDER or MEND vote is opened with the peer list as its E. -/
theorem State.openCalling_opens (s : State) (k : Key) (o : Origin) :
    Opens s (s.openCalling k o) k o (stationSet (s.holdingOf k.reel).peers) [] := by
  have later : SameBut (.read :: .requests :: offerParts) (s.addVote (s.newVote k o none)) (s.openCalling k o) :=
    (State.offerCall_frame _ _).comp (State.issue_frame _) (by decide) (by decide)
  have keys : (s.openCalling k o).votes.map Vote.key = (s.votes ++ [s.newVote k o none]).map Vote.key :=
    (State.issueFuel_keys _ _).trans (State.offerCall_keys _ _)
  have added : (s.addVote (s.newVote k o none)).HasNew s.nextVote k o (stationSet (s.holdingOf k.reel).peers) [] s.now :=
    ⟨_, List.mem_append_right _ (List.mem_singleton_self _), s.newVote_isNew k o⟩
  refine ⟨keys.trans List.map_append, later .nextVote (by decide), ?_, (added.offerCall _).issueFuel _⟩
  exact (later (.counter .votesOpened) (by decide)).trans ((State.count_bump _ _ _).trans (if_pos rfl))

/-- What leaves the votes and their count alone leaves them as they were opened. -/
theorem Opens.later {s t u : State} {k : Key} {o : Origin} {expected callers : List Nat} (h : Opens s t k o expected callers)
    {ps : List Part} (frame : SameBut ps t u) (votes : Part.votes ∉ ps) (next : Part.nextVote ∉ ps)
    (count : Part.counter .votesOpened ∉ ps) : Opens s u k o expected callers := by
  unfold Opens
  rw [show u.votes = t.votes from frame .votes votes, show u.nextVote = t.nextVote from frame .nextVote next,
    show u.count .votesOpened = t.count .votesOpened from frame (.counter .votesOpened) count]
  exact h

/-! ### A frame is called (R41, R48, R49) -/

/-- The burst changes R and the gap alone of the sweep. -/
theorem State.spendBurst_sweep (s : State) : s.spendBurst.sweep =
    { s.sweep with remainder := s.spendBurst.sweep.remainder, gap := s.spendBurst.sweep.gap } := by
  have ended : ∀ u : State, u.endBurst.sweep =
      { u.sweep with remainder := u.endBurst.sweep.remainder, gap := u.endBurst.sweep.gap } := fun u => by
    unfold State.endBurst
    dsimp only
    split <;> rfl
  unfold State.spendBurst
  dsimp only
  split
  · split
    · exact ended _
    · rfl
  · rfl

/-- The state once a frame has been called and the cursor has moved on, before the burst is spent. -/
def State.calledOn (s : State) (h : Holding) (k : Key) : State := (s.openSwept k).cursorOn h

theorem State.openSwept_frame (s : State) (k : Key) : SameBut (.sweepRun :: openParts) s (s.openSwept k) :=
  (s.openCalling_frame k .sweep).comp (State.setRun_frame _ _) (by decide) (by decide)

/-- Opening the vote changes the tally of votes opened alone of the sweep. -/
theorem State.openSwept_sweep (s : State) (k : Key) :
    (s.openSwept k).sweep = { s.sweep with opened := min 4294967295 (s.sweep.opened + 1) } := by
  have kept : (s.openCalling k .sweep).sweep = s.sweep :=
    (s.openCalling_frame k .sweep).sweep_eq (by decide) (by decide) (by decide)
  show ({ State.sweep _ with opened := _ } : Sweep) = _
  rw [kept]
  rfl

theorem State.calledOn_frame (s : State) (h : Holding) (k : Key) :
    SameBut (.passes :: .sweepRun :: .reports :: .counter .reportsLost :: openParts) s (s.calledOn h k) :=
  (s.openSwept_frame k).comp (State.cursorOn_frame _ h) (by decide) (by decide)

/-- The call before the burst is spent leaves the gap, B and R alone. -/
theorem State.calledOn_burst (s : State) (h : Holding) (k : Key) : (s.calledOn h k).sweep.gap = s.sweep.gap ∧
    (s.calledOn h k).sweep.burst = s.sweep.burst ∧ (s.calledOn h k).sweep.remainder = s.sweep.remainder := by
  have moved := (s.openSwept k).cursorOn_burst h
  rw [s.openSwept_sweep k] at moved
  exact moved

theorem State.callFrame_opens (s : State) (h : Holding) (k : Key) :
    Opens s (s.callFrame h k) k .sweep (stationSet (s.holdingOf k.reel).peers) [] := by
  have opened := (s.openCalling_opens k .sweep).later (u := s.openSwept k) (State.setRun_frame _ _) (by decide) (by decide)
    (by decide)
  exact (opened.later (State.cursorOn_frame _ h) (by decide) (by decide) (by decide)).later (State.spendBurst_frame _)
    (by decide) (by decide) (by decide)

/-- A called frame that leaves the round in progress: the cursor moves inside the list. -/
theorem State.callFrame_goesOn {s : State} {h : Holding} {k : Key} {pos frame : Nat} (inside : pos < s.holdings.length)
    (moves : (s.openSwept k).cursorOn h = (s.openSwept k).moveCursor pos frame) :
    (s.callFrame h k).sweep.cursorPos = pos ∧ (s.callFrame h k).sweep.cursorFrame = frame ∧
      (s.callFrame h k).sweep.opened = min 4294967295 (s.sweep.opened + 1) ∧
      (s.callFrame h k).sweep.covered = s.sweep.covered ∧ (s.callFrame h k).sweep.round = s.sweep.round ∧
      (s.callFrame h k).sweep.r = s.sweep.r ∧ (s.callFrame h k).holdings = s.holdings ∧
      (s.callFrame h k).port.reports = s.port.reports := by
  have opened := s.openSwept_frame k
  have holdings : (s.openSwept k).holdings = s.holdings := opened.holdings_eq (by decide) (by decide)
  rw [State.moveCursor_inside frame (by rw [holdings]; exact inside), s.openSwept_sweep k] at moves
  have spent := ((s.openSwept k).cursorOn h).spendBurst_frame
  rw [s.callFrame_eq, State.spendBurst_sweep, spent.holdings_eq (by decide) (by decide), spent.reports_eq (by decide), moves]
  exact ⟨rfl, rfl, rfl, rfl, rfl, rfl, holdings, opened.reports_eq (by decide)⟩

/-- A called frame that is the last of the list completes the round. -/
theorem State.callFrame_completes {s : State} {h : Holding} {k : Key} (last : h.frames ≤ s.sweep.cursorFrame + 1)
    (ends : s.holdings.length ≤ s.sweep.cursorPos + 1) :
    (s.callFrame h k).sweep.cursorPos = 0 ∧ (s.callFrame h k).sweep.cursorFrame = 0 ∧
      (s.callFrame h k).sweep.opened = 0 ∧ (s.callFrame h k).sweep.covered = 0 ∧
      (s.callFrame h k).sweep.round = min 4294967295 (s.sweep.round + 1) ∧
      (s.callFrame h k).sweep.r = (s.sweep.r + 1) % s.sweep.period ∧
      (s.callFrame h k).holdings = s.holdings.map s.creditPass ∧
      (s.port.reports.length < 64 → (s.callFrame h k).port.reports = s.port.reports ++ [{
        number := s.port.nextReport
        report := .roundDone s.sweep.round s.sweep.r (s.holdings.filter s.visited).length
          (min 4294967295 (s.sweep.opened + 1)) s.sweep.covered }]) := by
  have opened := s.openSwept_frame k
  have holdings : (s.openSwept k).holdings = s.holdings := opened.holdings_eq (by decide) (by decide)
  obtain ⟨reports, next⟩ := opened .reports (by decide)
  have sweep := s.openSwept_sweep k
  have moves : (s.openSwept k).cursorOn h = State.completeRound ((s.openSwept k).setSweep
      { (s.openSwept k).sweep with cursorPos := (s.openSwept k).sweep.cursorPos + 1, cursorFrame := 0 }) := by
    rw [State.cursorOn_next (by rw [sweep]; exact last), State.moveCursor_onto_end 0 (by rw [sweep, holdings]; exact ends)]
  rw [sweep] at moves
  have spent := ((s.openSwept k).cursorOn h).spendBurst_frame
  rw [s.callFrame_eq, State.spendBurst_sweep, spent.holdings_eq (by decide) (by decide), spent.reports_eq (by decide), moves,
    State.completeRound_sweep, State.completeRound_holdings]
  refine ⟨rfl, rfl, rfl, rfl, rfl, rfl, ?_, fun room => ?_⟩
  · show List.map _ (s.openSwept k).holdings = _
    rw [holdings]
    rfl
  · rw [State.completeRound_report (by rw [← reports] at room; exact room)]
    show (s.openSwept k).port.reports ++ [QueuedReport.mk (s.openSwept k).port.nextReport
      (.roundDone _ _ (List.filter _ (s.openSwept k).holdings).length _ _)] = _
    rw [reports, next, holdings]
    rfl

/-- What is spent of the burst for a vote: nothing, one of R, or the last of it, which ends the burst (R41, R48, R49). -/
theorem State.spendBurst_rows (s : State) :
    (s.sweep.burst = 255 → s.spendBurst.sweep.remainder = s.sweep.remainder ∧ s.spendBurst.sweep.gap = s.sweep.gap ∧
      s.spendBurst.governor = s.governor) ∧
    (s.sweep.burst < 255 → 1 < s.sweep.remainder → s.spendBurst.sweep.remainder = s.sweep.remainder - 1 ∧
      s.spendBurst.sweep.gap = s.sweep.gap ∧ s.spendBurst.governor = s.governor) ∧
    (s.sweep.burst < 255 → s.sweep.remainder = 1 → s.spendBurst.governor = s.governor.burstEnd ∧
      (s.spendBurst.governor.gap = 0 →
        s.spendBurst.sweep.remainder = s.sweep.burst ∧ s.spendBurst.sweep.gap = s.sweep.gap) ∧
      (s.spendBurst.governor.gap ≠ 0 → s.spendBurst.sweep.remainder = 0 ∧
        s.spendBurst.sweep.gap = some { start := s.now, length := s.spendBurst.governor.gap })) := by
  refine ⟨fun full => ?_, fun small more => ?_, fun small last => ?_⟩
  · rw [s.spendBurst_continuous (by omega)]
    exact ⟨rfl, rfl, rfl⟩
  · rw [s.spendBurst_more small (by omega)]
    exact ⟨rfl, rfl, rfl⟩
  · rw [s.spendBurst_last small (by omega)]
    by_cases zero : s.governor.burstEnd.gap = 0
    · rw [State.endBurst_refill (s.setSweep { s.sweep with remainder := 0 }) zero]
      exact ⟨rfl, fun _ => ⟨rfl, rfl⟩, fun runs => absurd zero runs⟩
    · rw [State.endBurst_gap (s.setSweep { s.sweep with remainder := 0 }) zero]
      exact ⟨rfl, fun none => absurd none zero, fun _ => ⟨rfl, rfl⟩⟩

/-! ### The rows of a step (R38) -/

/-- A record that is not visited, or whose frames are all called, is passed over. -/
theorem State.walkStep_passes {s : State} {h : Holding} (at' : s.holdings[s.sweep.cursorPos]? = some h)
    (passed : ¬ s.visited h = true ∨ h.frames ≤ s.sweep.cursorFrame) :
    s.walkStep = s.moveCursor (s.sweep.cursorPos + 1) 0 := by
  unfold State.walkStep
  rw [at']
  dsimp only
  split
  · rfl
  · next visited =>
    rcases passed with unvisited | called
    · exact absurd (by simpa using visited) unvisited
    · exact if_pos called

section
variable {s : State} {h : Holding} (at' : s.holdings[s.sweep.cursorPos]? = some h) (visited : s.visited h = true)
  (left : s.sweep.cursorFrame < h.frames)
include at' visited left

/-- A frame that is left of a visited record is covered or called. -/
theorem State.walkStep_visits : s.walkStep =
    if (s.vote? { reel := h.reel, frame := s.sweep.cursorFrame }).isSome then s.coverFrame h
    else s.callFrame h { reel := h.reel, frame := s.sweep.cursorFrame } := by
  unfold State.walkStep
  rw [at']
  dsimp only
  rw [if_neg (by rw [visited]; decide), if_neg (Nat.not_le.2 left)]
  cases s.vote? { reel := h.reel, frame := s.sweep.cursorFrame } <;> rfl

theorem State.walkStep_covers (opened : ∃ v ∈ s.votes, v.key = { reel := h.reel, frame := s.sweep.cursorFrame }) :
    s.walkStep = s.coverFrame h := by
  obtain ⟨v, hv, e⟩ := opened
  exact (State.walkStep_visits at' visited left).trans (if_pos (List.find?_isSome.2 ⟨v, hv, decide_eq_true e⟩))

theorem State.walkStep_calls (unopened : ¬ ∃ v ∈ s.votes, v.key = { reel := h.reel, frame := s.sweep.cursorFrame }) :
    s.walkStep = s.callFrame h { reel := h.reel, frame := s.sweep.cursorFrame } := by
  refine (State.walkStep_visits at' visited left).trans (if_neg fun opened => unopened ?_)
  obtain ⟨v, hv, e⟩ := List.find?_isSome.1 opened
  exact ⟨v, hv, of_decide_eq_true e⟩

end

/-- Settles O24: each row is a branch of the step; of a called frame the vote, the cursor and the burst are told apart. -/
theorem walkStepRows : Obligations.WalkStepRows := by
  unfold Obligations.WalkStepRows
  refine fun s => ⟨fun ends => by unfold State.walkStep; rw [ends], fun h at' => ?_⟩
  refine ⟨State.walkStep_passes at', State.walkStep_covers at', fun visited left unopened => ?_⟩
  rw [State.walkStep_calls at' visited left unopened]
  have inside : s.sweep.cursorPos < s.holdings.length := (List.getElem?_eq_some_iff.1 at').1
  have sweep := s.openSwept_sweep { reel := h.reel, frame := s.sweep.cursorFrame }
  have frame := s.calledOn_frame h { reel := h.reel, frame := s.sweep.cursorFrame }
  obtain ⟨gap, burst, remainder⟩ := s.calledOn_burst h { reel := h.reel, frame := s.sweep.cursorFrame }
  have rows := (s.calledOn h { reel := h.reel, frame := s.sweep.cursorFrame }).spendBurst_rows
  rw [gap, burst, remainder, frame.governor_eq (by decide) (by decide) (by decide),
    show State.now (s.calledOn h _) = s.now from frame .now (by decide)] at rows
  refine ⟨s.callFrame_opens h _, fun more => ?_, fun last next => ?_, State.callFrame_completes, rows⟩
  · exact State.callFrame_goesOn inside (by rw [State.cursorOn_within (by rw [sweep]; exact more), sweep])
  · exact State.callFrame_goesOn next (by rw [State.cursorOn_next (by rw [sweep]; exact last), sweep])

end Sys2Proof.Machine
end

section
/-! Where DROP HOLDING leaves the cursor of a suspended sweep, which no delivery of the order moves (R31, R45). -/

namespace Sys2Proof.Machine

/-! ### A suspended sweep rests -/

/-- What leaves a suspended sweep as it is. -/
def Rests (s t : State) : Prop := s.sweep.suspended = true → t.sweep = s.sweep

theorem Rests.refl (s : State) : Rests s s := fun _ => rfl

theorem Rests.trans {s t u : State} (h : Rests s t) (k : Rests t u) : Rests s u := fun suspended =>
  (k (by rw [h suspended]; exact suspended)).trans (h suspended)

theorem SameBut.rests {ps : List Part} {s t : State} (h : SameBut ps s t)
    (out : ∀ p ∈ [Part.suspendFlag, .cadence, .sweepRun], p ∉ ps) : Rests s t := fun _ =>
  h.sweep_eq (out _ (by decide)) (out _ (by decide)) (out _ (by decide))

theorem Rests.walk (s : State) : Rests s s.walk := fun suspended => congrArg State.sweep (State.walk_suspended suspended)

/-- A delivery moves the sweep by the walk at its end alone. -/
theorem Rests.deliver (s : State) (v : Vote) (d : Decision) (l : Option Located) : Rests s (s.deliver v d l) :=
  ((((s.deliverMarks_frame v d l).rests (by simp)).trans ((State.removeVote_frame _ _).rests (by decide))).trans
    ((State.offerHeldSum_frame _ v).rests (by decide))).trans (Rests.walk _)

theorem Rests.modifyVote (s : State) (id : Nat) (f : Vote → Vote) : Rests s (s.modifyVote id f) :=
  (s.modifyVote_frame id f).rests (by decide)

theorem Rests.endUnlocated (s : State) (v : Vote) (f : VoteFlags → VoteFlags) : Rests s (s.endUnlocated v f) := by
  unfold State.endUnlocated
  split
  · exact (Rests.modifyVote s _ _).trans (Rests.deliver _ _ _ _)
  · exact Rests.refl s

theorem Rests.localise (s : State) (v : Vote) : Rests s (s.localise v) := by
  unfold State.localise
  dsimp only
  split
  · exact (Rests.modifyVote s _ _).trans (Rests.endUnlocated _ _ _)
  · exact Rests.modifyVote s _ _

theorem Rests.close (s : State) (v : Vote) : Rests s (s.close v) := by
  unfold State.close
  dsimp only
  split
  · exact Rests.localise s _
  · exact Rests.localise s _
  all_goals
    exact ((Rests.modifyVote s _ _).trans ((State.offerTiles_frame _ _ _).rests (by decide))).trans (Rests.deliver _ _ _ _)

theorem Rests.closureTest (s : State) (id : Nat) : Rests s (s.closureTest id) := by
  unfold State.closureTest
  split
  · split
    · exact Rests.close s _
    · exact Rests.refl s
  · exact Rests.refl s

theorem Rests.expireVote (s : State) (id : Nat) : Rests s (s.expireVote id) := by
  unfold State.expireVote
  split
  · split
    · exact Rests.close s _
    · exact Rests.refl s
  · exact Rests.refl s

theorem Rests.ownStatusKnown (s : State) (id : Nat) (own : OwnStatus) (checks : List Word) :
    Rests s (s.ownStatusKnown id own checks) := by
  have offered : Rests s ((s.gatherOn id own checks).offerOwnSum id) :=
    ((s.gatherOn_frame id own checks).rests (by decide)).trans ((State.offerOwnSum_frame _ id).rests (by decide))
  rw [s.ownStatusKnown_eq]
  split
  · exact offered.trans (Rests.expireVote _ id)
  · exact offered.trans (Rests.closureTest _ id)

theorem Rests.endUnreadable (s : State) (f : Fetch) (r : Reason) (cancel : Bool) : Rests s (s.endUnreadable f r cancel) := by
  have freed : Rests s (if cancel then (s.freeSlot f.tag).pushRequest (.cancel f.tag f.key) else s.freeSlot f.tag) := by
    split
    · exact ((s.freeSlot_frame f.tag).rests (by decide)).trans ((State.pushRequest_frame _ _).rests (by decide))
    · exact (s.freeSlot_frame f.tag).rests (by decide)
  unfold State.endUnreadable
  dsimp only
  split
  · exact freed.trans (Rests.ownStatusKnown _ _ _ _)
  · exact freed.trans ((State.issue_frame _).rests (by decide))

theorem Rests.expireFetches : ∀ (n : Nat) (s : State), Rests s (State.expireFetches n s)
  | 0, s => Rests.refl s
  | n + 1, s => by
    unfold State.expireFetches
    split
    · refine Rests.trans ?_ (Rests.expireFetches n _)
      unfold State.expireFetch
      split
      · exact ((s.bump_frame .fetchTimeouts).rests (by decide)).trans (Rests.endUnreadable _ _ _ _)
      · exact Rests.refl s
    · exact Rests.refl s

theorem Rests.expireIssued (s : State) : Rests s s.expireIssued := by
  unfold State.expireIssued
  split
  · exact Rests.expireFetches _ s
  · exact Rests.refl s

/-! ### The cursor when a record goes (R31) -/

/-- The list without the record at the position of a reel. -/
def State.withoutRecord (s : State) (reel : Nat) : State := s.setHoldings (s.holdings.eraseIdx (s.positionOf reel))

theorem State.removeHolding_under_cursor {s : State} {reel : Nat} (under : s.sweep.cursorPos = s.positionOf reel) :
    s.removeHolding reel = (s.withoutRecord reel).moveCursor (s.positionOf reel) 0 := if_pos under

theorem State.removeHolding_before_cursor {s : State} {reel : Nat} (before : s.positionOf reel < s.sweep.cursorPos) :
    (s.removeHolding reel).sweep = { s.sweep with cursorPos := s.sweep.cursorPos - 1 } := by
  unfold State.removeHolding
  dsimp only
  rw [if_neg (Nat.ne_of_gt before), if_pos before]
  rfl

theorem State.removeHolding_behind_cursor {s : State} {reel : Nat} (behind : s.sweep.cursorPos < s.positionOf reel) :
    (s.removeHolding reel).sweep = s.sweep := by
  unfold State.removeHolding
  dsimp only
  rw [if_neg (Nat.ne_of_lt behind), if_neg (Nat.lt_asymm behind)]
  rfl

section
variable {s : State} {reel : Nat} (under : s.sweep.cursorPos = s.positionOf reel)
include under

/-- A cursor in the record that goes moves to frame 0 of the record that takes its place. -/
theorem State.removeHolding_enters_next (more : s.positionOf reel + 1 < s.holdings.length) :
    (s.removeHolding reel).sweep = { s.sweep with cursorPos := s.positionOf reel, cursorFrame := 0 } := by
  have length := List.length_eraseIdx_of_lt (Nat.lt_of_succ_lt more)
  have inside : s.positionOf reel < (s.withoutRecord reel).holdings.length :=
    Nat.lt_of_lt_of_eq (by omega) length.symm
  rw [State.removeHolding_under_cursor under, State.moveCursor_inside 0 inside]
  rfl

/-- A cursor in the last record, when that goes, completes the round. -/
theorem State.removeHolding_completes (last : s.positionOf reel + 1 = s.holdings.length) :
    (s.removeHolding reel).sweep = { s.sweep with
      r := (s.sweep.r + 1) % s.sweep.period, round := min 4294967295 (s.sweep.round + 1), opened := 0, covered := 0
      cursorPos := 0, cursorFrame := 0 } := by
  have length := List.length_eraseIdx_of_lt (Nat.lt_of_succ_le last.le)
  have ends : (s.withoutRecord reel).holdings.length ≤ s.positionOf reel := length.trans_le (by omega)
  rw [State.removeHolding_under_cursor under, State.moveCursor_onto_end 0 ends, State.completeRound_sweep]
  rfl

end

/-! ### DROP HOLDING with the sweep suspended -/

theorem State.beforeRemoval_sweep (s : State) (reel : Nat) :
    (((s.abandonReel reel).issue).dropMends reel).sweep = s.sweep :=
  (((s.abandonReel_frame reel).comp (rs := .mends :: abandonParts) (State.issue_frame _) (by decide) (by decide)).trans
    ((State.dropMends_frame _ reel).mono (by decide))).sweep_eq (by decide) (by decide) (by decide)

/-- With the sweep suspended DROP HOLDING leaves the sweep that the removal of the record leaves. -/
theorem State.reelDropped_sweep {s : State} (suspended : s.sweep.suspended = true) (reel : Nat) :
    (s.reelDropped reel).expireIssued.sweep =
      ((((s.abandonReel reel).issue).dropMends reel).removeHolding reel).sweep := by
  have flag : ((((s.abandonReel reel).issue).dropMends reel).removeHolding reel).sweep.suspended = _ :=
    State.removeHolding_frame _ reel .suspendFlag (by decide)
  rw [s.beforeRemoval_sweep reel, suspended] at flag
  exact ((Rests.walk _).trans (Rests.expireIssued _)) flag

/-- Settles O18: what comes before the record goes leaves the cursor and the list alone, and so does what follows. -/
theorem dropHoldingMovesTheCursor : Obligations.DropHoldingMovesTheCursor := by
  unfold Obligations.DropHoldingMovesTheCursor
  intro body s ready length suspended held pos
  refine ⟨_, (exec_dropHolding ready length).2 held, ?_⟩
  have left : State.sweep (State.answered _ 0x02 .done []) = _ := State.reelDropped_sweep suspended (field body 0 4)
  have holdings := s.beforeRemoval_holdings (field body 0 4)
  have sweep := s.beforeRemoval_sweep (field body 0 4)
  have at' : (((s.abandonReel (field body 0 4)).issue).dropMends (field body 0 4)).positionOf (field body 0 4) = pos :=
    congrArg (List.findIdx fun x : Holding => x.reel = field body 0 4) holdings
  rw [left]
  refine ⟨fun under more => ?_, fun under last => ?_, fun before => ?_, fun behind => ?_⟩
  · rw [State.removeHolding_enters_next (by rw [sweep, at']; exact under) (by rw [at', holdings]; exact more), sweep, at']
  · rw [State.removeHolding_completes (by rw [sweep, at']; exact under) (by rw [at', holdings]; exact last), sweep]
    exact ⟨rfl, rfl, rfl, rfl, rfl⟩
  · rw [State.removeHolding_before_cursor (by rw [sweep, at']; exact before), sweep]
  · rw [State.removeHolding_behind_cursor (by rw [sweep, at']; exact behind), sweep]

end Sys2Proof.Machine
end

section
/-! The verdict by the table, and what the closure of a vote does with it (R100, R107 to R112, R116). -/

namespace Sys2Proof.Machine

/-! ### The table (R107, R108) -/

section
variable {agreed reference : Option Word} {peers : List Word}

theorem judge_unreadable (r : Reason) : judge (.unreadable r) agreed reference peers =
    { verdict := .unreadable, agreed := agreed, good := agreed, refDiffers := false } := rfl

theorem judge_agreed_same (a : Word) : judge (.readOk a) (some a) reference peers =
    { verdict := .good, agreed := some a, good := some a, refDiffers := reference.any fun q => q != a } := if_pos rfl

theorem judge_agreed_other {o a : Word} (ne : o ≠ a) : judge (.readOk o) (some a) reference peers =
    { verdict := .bad, agreed := some a, good := some a, refDiffers := false } := if_neg ne

theorem judge_reference_same (q : Word) : judge (.readOk q) none (some q) peers =
    { verdict := .good, agreed := none, good := some q, refDiffers := false } := if_pos rfl

theorem judge_reference_held {o q : Word} (ne : o ≠ q) (held : q ∈ peers) : judge (.readOk o) none (some q) peers =
    { verdict := .bad, agreed := some q, good := some q, refDiffers := false } := (if_neg ne).trans (if_pos held)

theorem judge_reference_alone {o q : Word} (ne : o ≠ q) (alone : q ∉ peers) : judge (.readOk o) none (some q) peers =
    { verdict := .split, agreed := none, good := none, refDiffers := false } := (if_neg ne).trans (if_neg alone)

theorem judge_differing {o : Word} (differs : ∃ p ∈ peers, OwnStatus.readOk o ≠ .readOk p) :
    judge (.readOk o) none none peers = { verdict := .split, agreed := none, good := none, refDiffers := false } := by
  obtain ⟨p, hp, ne⟩ := differs
  have other : p ≠ o := fun e => ne (congrArg OwnStatus.readOk e.symm)
  have any : (peers.any fun p => p != o) = true := List.any_eq_true.2 ⟨p, hp, bne_iff_ne.2 other⟩
  exact if_pos any

theorem judge_alike {o : Word} (alike : ¬ ∃ p ∈ peers, OwnStatus.readOk o ≠ .readOk p) :
    judge (.readOk o) none none peers = { verdict := .unconfirmed, agreed := none, good := none, refDiffers := false } := by
  refine if_neg fun any => alike ?_
  obtain ⟨p, hp, ne⟩ := List.any_eq_true.1 any
  exact ⟨p, hp, fun e => bne_iff_ne.1 ne (OwnStatus.readOk.inj e).symm⟩

/-- REF_DIFFERS is set in the case of GOOD by an agreed value alone. -/
theorem judge_refDiffers (own : OwnStatus) : (judge own agreed reference peers).refDiffers = true ↔
    ∃ a q, agreed = some a ∧ own = .readOk a ∧ reference = some q ∧ q ≠ a := by
  constructor
  · intro set
    unfold judge at set
    split at set
    · cases set
    · cases set
    · split at set
      · split at set
        · next o a same =>
          obtain ⟨q, hq, ne⟩ := (Option.any_eq_true _ _).1 set
          exact ⟨a, q, rfl, congrArg OwnStatus.readOk same, hq, bne_iff_ne.1 (same ▸ ne)⟩
        · cases set
      · repeat' split at set
        all_goals cases set
  · rintro ⟨a, q, rfl, rfl, rfl, ne⟩
    rw [judge_agreed_same]
    exact bne_iff_ne.2 ne

/-- The table itself gives no LEADER_BAD. -/
theorem judge_not_leaderBad (own : OwnStatus) : (judge own agreed reference peers).verdict ≠ .leaderBad := by
  unfold judge
  repeat' split
  all_goals nofun

/-- A BAD leaves REF_DIFFERS clear. -/
theorem judge_bad_refDiffers {own : OwnStatus} (bad : (judge own agreed reference peers).verdict = .bad) :
    (judge own agreed reference peers).refDiffers = false := by
  refine Bool.eq_false_iff.2 fun set => ?_
  obtain ⟨a, q, rfl, rfl, rfl, -⟩ := (judge_refDiffers own).1 set
  rw [judge_agreed_same] at bad
  cases bad

end

/-- The decision takes verdict, agreed summary and good value from the judgement, but for the leader's BAD. -/
theorem Vote.decidedBy_of {v : Vote} {h : Holding} {j : Judgement} (e : v.judgement h = j) :
    (v.decidedBy h).verdict = (if j.verdict = .bad ∧ h.isLeader v.key.frame = true then .leaderBad else j.verdict) ∧
      (v.decidedBy h).agreed = j.agreed ∧ (v.decidedBy h).good = j.good := by
  rw [← e]
  exact ⟨rfl, rfl, rfl⟩

theorem Vote.decidedBy_bad {v : Vote} {h : Holding} {j : Judgement} (e : v.judgement h = j) (bad : j.verdict = .bad) :
    (v.decidedBy h).verdict = (if h.isLeader v.key.frame = true then .leaderBad else .bad) ∧
      (v.decidedBy h).agreed = j.agreed ∧ (v.decidedBy h).good = j.good := by
  have decided := Vote.decidedBy_of e
  simp only [bad, true_and] at decided
  exact decided

theorem Vote.decidedBy_plain {v : Vote} {h : Holding} {j : Judgement} (e : v.judgement h = j) (plain : j.verdict ≠ .bad) :
    (v.decidedBy h).verdict = j.verdict ∧ (v.decidedBy h).agreed = j.agreed ∧ (v.decidedBy h).good = j.good := by
  have decided := Vote.decidedBy_of e
  rw [if_neg fun bad => plain bad.1] at decided
  exact decided

theorem Holding.isLeader_iff (h : Holding) (frame : Nat) : h.isLeader frame = true ↔
    frame < h.head ∨ (h.frames : Int) - (h.tail : Int) ≤ (frame : Int) := by
  simp only [Holding.isLeader, Bool.or_eq_true, decide_eq_true_eq]

/-- Settles O32: the decision follows the judgement, whose every case is one row of the table. -/
theorem verdictIsTheFirstCase : Obligations.VerdictIsTheFirstCase := by
  unfold Obligations.VerdictIsTheFirstCase
  intro v h known x d differs
  have judged : ∀ {own : OwnStatus} {agreed reference : Option Word}, v.own = own → x = agreed →
      v.reference = reference → v.judgement h = judge own agreed reference v.peerSummaries := by
    rintro _ _ _ rfl rfl rfl
    rfl
  refine ⟨fun r unread => ?_, fun o read => ⟨fun a found => ⟨fun same => ?_, fun other => ?_⟩, fun none =>
    ⟨fun q held => ⟨fun same => ?_, fun other among => ?_, fun other alone => ?_⟩, fun bare => ⟨fun some => ?_, fun no => ?_⟩⟩⟩,
    judge_refDiffers v.own, rfl, rfl, h.isLeader_iff _⟩
  · exact Vote.decidedBy_plain (judged unread rfl rfl) nofun
  · subst same
    exact Vote.decidedBy_plain ((judged read found rfl).trans (judge_agreed_same o)) nofun
  · exact Vote.decidedBy_bad ((judged read found rfl).trans (judge_agreed_other other)) rfl
  · subst same
    exact Vote.decidedBy_plain ((judged read none held).trans (judge_reference_same o)) nofun
  · exact Vote.decidedBy_bad ((judged read none held).trans (judge_reference_held other among)) rfl
  · exact Vote.decidedBy_plain ((judged read none held).trans (judge_reference_alone other alone)) nofun
  · exact Vote.decidedBy_plain ((judged read none bare).trans (judge_differing (read ▸ some))) nofun
  · exact Vote.decidedBy_plain ((judged read none bare).trans (judge_alike (read ▸ no))) nofun

/-! ### The TILES of a closing vote (R110, R111) -/

/-- The chunks of a check list: chunk j holds the checks of the 32 tiles from 32j on. -/
theorem tileChunks_eq (k : Key) (x : Word) (n : Nat) : ∀ (fuel first : Nat) (cs : List Word), cs.length ≤ fuel →
    tileChunks k x n fuel first cs = (List.range ((cs.length + 31) / 32)).map fun j =>
      LineBody.tiles k x n (first + 32 * j) ((cs.drop (32 * j)).take 32)
  | 0, _, cs, h => by
    rw [List.eq_nil_of_length_eq_zero (Nat.le_zero.1 h)]
    rfl
  | fuel + 1, first, [], _ => rfl
  | fuel + 1, first, c :: cs, h => by
    have rest : ((c :: cs).drop 32).length ≤ fuel := by
      rw [List.length_drop]
      rw [List.length_cons] at h ⊢
      omega
    have count : ((c :: cs).length + 31) / 32 = (((c :: cs).drop 32).length + 31) / 32 + 1 := by
      rw [List.length_drop, List.length_cons]
      omega
    rw [count, List.range_succ_eq_map, List.map_cons, List.map_map]
    show LineBody.tiles k x n first ((c :: cs).take 32) :: tileChunks k x n fuel (first + 32) ((c :: cs).drop 32) = _
    rw [tileChunks_eq k x n fuel (first + 32) _ rest]
    refine congrArg (LineBody.tiles k x n first ((c :: cs).take 32) :: ·) (List.map_congr_left fun j _ => ?_)
    rw [List.drop_drop]
    show _ = LineBody.tiles k x n (first + 32 * (j + 1)) (((c :: cs).drop (32 * (j + 1))).take 32)
    rw [show first + 32 * (j + 1) = first + 32 + 32 * j by omega, show 32 * (j + 1) = 32 + 32 * j by omega]

theorem Vote.mem_peerSummaries {v : Vote} {p : Word} : p ∈ v.peerSummaries ↔
    ∃ a ∈ v.answers, a.status = .readOk ∧ a.summary = some p := by
  unfold Vote.peerSummaries
  rw [List.mem_filterMap]
  refine exists_congr fun a => and_congr_right fun _ => ?_
  split
  · next ok => exact (and_iff_right ok).symm
  · next other => exact ⟨nofun, fun both => absurd both.1 other⟩

/-- The station sends TILES when some READ_OK answer differs and no answerer with the value has a lower number. -/
theorem Vote.isTilesSender_iff (v : Vote) (own : Nat) (x : Word) : v.isTilesSender own x = true ↔
    (∃ a ∈ v.answers, a.status = .readOk ∧ ∃ p, a.summary = some p ∧ p ≠ x) ∧
      ∀ a ∈ v.answers, a.status = .readOk → a.summary = some x → own < a.station := by
  have differing : v.hasDiffering x = true ↔
      ∃ a ∈ v.answers, a.status = .readOk ∧ ∃ p, a.summary = some p ∧ p ≠ x := by
    simp only [Vote.hasDiffering, List.any_eq_true, Vote.mem_peerSummaries, bne_iff_ne]
    exact ⟨fun ⟨p, ⟨a, ha, ok, e⟩, ne⟩ => ⟨a, ha, ok, p, e, ne⟩, fun ⟨a, ha, ok, p, e, ne⟩ => ⟨p, ⟨a, ha, ok, e⟩, ne⟩⟩
  have lowest : ((v.answerersWith x).all fun t => decide (own < t)) = true ↔
      ∀ a ∈ v.answers, a.status = .readOk → a.summary = some x → own < a.station := by
    simp only [Vote.answerersWith, List.all_eq_true, List.mem_map, List.mem_filter, Bool.and_eq_true,
      decide_eq_true_eq]
    exact ⟨fun all a ha ok e => all _ ⟨a, ⟨ha, ok, e⟩, rfl⟩, fun all t ⟨a, ⟨ha, ok, e⟩, k⟩ => k ▸ all a ha ok e⟩
  rw [Vote.isTilesSender, Bool.and_eq_true, differing, lowest]

theorem State.offerTiles_sends {s : State} {v : Vote} {d : Decision} {x : Word} (good : d.verdict = .good)
    (agreed : d.agreed = some x) (sender : v.isTilesSender s.strap.station.val x = true) :
    s.offerTiles v d = s.offerAll ((List.range ((v.checks.length + 31) / 32)).map fun j =>
      LineBody.tiles v.key x v.checks.length (32 * j) ((v.checks.drop (32 * j)).take 32)) := by
  have chunks : v.chunks x = _ := tileChunks_eq v.key x v.checks.length v.checks.length 0 v.checks (Nat.le_refl _)
  unfold State.offerTiles
  rw [good, agreed]
  dsimp only
  rw [if_pos sender, chunks]
  simp only [Nat.zero_add]

theorem State.offerTiles_silent {s : State} {v : Vote} {d : Decision}
    (silent : ∀ x, d.verdict = .good → d.agreed = some x → v.isTilesSender s.strap.station.val x = false) :
    s.offerTiles v d = s := by
  unfold State.offerTiles
  split
  · next x good agreed => exact if_neg (by rw [silent x good agreed]; decide)
  all_goals rfl

/-- A decision of BAD or LEADER_BAD comes of a judgement of BAD, and leaves REF_DIFFERS clear. -/
theorem Vote.judgement_clear_of_bad {v : Vote} {h : Holding}
    (bad : (v.decidedBy h).verdict = .bad ∨ (v.decidedBy h).verdict = .leaderBad) : (v.judgement h).refDiffers = false := by
  refine judge_bad_refDiffers (by_contra fun plain => ?_)
  rw [(Vote.decidedBy_plain rfl plain).1] at bad
  exact bad.elim plain (judge_not_leaderBad _)

/-! ### The closure (R100, R109, R112, R116) -/

theorem Vote.missing_eq (v : Vote) : v.missing = v.expected.filter fun t => !(v.answers.map Answer.station).contains t :=
  List.filter_congr fun t _ => congrArg (!·) (Bool.eq_iff_iff.2 (by simp [Vote.answered]))

theorem State.replaceVote_twice (s : State) {x : Vote} (y : Vote) {id : Nat} (e : x.id = id) :
    (s.modifyVote id fun _ => x).modifyVote id (fun _ => y) = s.modifyVote id fun _ => y := by
  refine congrArg s.setVotes ((List.map_map).trans (List.map_congr_left fun w _ => ?_))
  show (if (if w.id = id then x else w).id = id then y else if w.id = id then x else w) = if w.id = id then y else w
  split <;> simp_all

section
variable {s : State} {v : Vote}

/-- A vote that closes BAD or LEADER_BAD enters LOCALISING, with REF_DIFFERS clear. -/
theorem State.close_localises
    (bad : (v.decidedBy (s.holdingOf v.key.reel)).verdict = .bad ∨
      (v.decidedBy (s.holdingOf v.key.reel)).verdict = .leaderBad) :
    s.close v = s.localise ((v.closed false).enterLocalising s.now (v.decidedBy (s.holdingOf v.key.reel))) := by
  have clear := Vote.judgement_clear_of_bad bad
  unfold State.close
  dsimp only
  rw [clear]
  rcases bad with e | e <;> rw [e]

/-- A vote that closes with any other verdict is delivered, after its TILES. -/
theorem State.close_delivers (notBad : (v.decidedBy (s.holdingOf v.key.reel)).verdict ≠ .bad)
    (notLeader : (v.decidedBy (s.holdingOf v.key.reel)).verdict ≠ .leaderBad) :
    let closed := v.closed (v.judgement (s.holdingOf v.key.reel)).refDiffers
    s.close v = ((s.modifyVote v.id fun _ => closed).offerTiles closed (v.decidedBy (s.holdingOf v.key.reel))).deliver
      closed (v.decidedBy (s.holdingOf v.key.reel)) none := by
  unfold State.close
  dsimp only
  split
  · next bad => exact absurd bad notBad
  · next bad => exact absurd bad notLeader
  all_goals rfl

end

/-- A verdict is counted once, in its own counter. -/
theorem State.countVerdict_count (s : State) (verdict : Verdict) (refDiffers : Bool) :
    (s.countVerdict verdict refDiffers).count verdict.counter = min 4294967295 (s.count verdict.counter + 1) := by
  have counted : (s.bump verdict.counter).count verdict.counter = min 4294967295 (s.count verdict.counter + 1) :=
    (s.count_bump _ _).trans (if_pos rfl)
  unfold State.countVerdict
  split
  · exact ((State.count_bump _ _ _).trans (if_neg (by cases verdict <;> decide))).trans counted
  · exact counted

/-- What a delivery does once the verdict has been counted touches the counter of no verdict. -/
theorem State.deliver_counted_frame (s : State) (v : Vote) (d : Decision) (l : Option Located) :
    SameBut (.mends :: .evidence :: .watch :: .counter .evidenceEvicted :: walkParts)
      (s.countVerdict d.verdict v.flags.refDiffers) (s.deliver v d l) :=
  (((((((State.deliverMend_frame _ v d _).mono (by decide)).trans
    ((State.deliverEvidence_frame _ v d l).mono (by decide))).trans
    ((State.deliverReport_frame _ v d _ _).mono (by decide))).trans
    ((State.deliverWatch_frame _ v d).mono (by decide))).trans
    ((State.removeVote_frame _ v.id).mono (by decide))).trans
    ((State.offerHeldSum_frame _ v).mono (by decide))).trans ((State.walk_frame _).mono (by decide))

theorem State.deliver_count (s : State) (v : Vote) (d : Decision) (l : Option Located) :
    (s.deliver v d l).count d.verdict.counter = min 4294967295 (s.count d.verdict.counter + 1) :=
  (s.deliver_counted_frame v d l (.counter d.verdict.counter) (by cases d.verdict <;> decide)).trans
    (s.countVerdict_count _ _)

/-- A vote that is delivered as it closes is gone from the table, and the walk that follows gives no vote its number. -/
theorem State.closed_gone {s : State} {v : Vote} (c : Consistent s) (hv : v ∈ s.votes) (r : Bool) (d : Decision) :
    ∀ w ∈ (((s.modifyVote v.id fun _ => v.closed r).offerTiles (v.closed r) d).deliver (v.closed r) d none).votes,
      w.id ≠ v.id := by
  have changed := Grows.replaceVote hv (v1 := v.closed r) ⟨rfl, rfl, rfl, id, fun _ => rfl⟩
  have tables := (s.modifyVote v.id fun _ => v.closed r).offerTiles_tables (v.closed r) d
  have offered := changed.trans (tables.grows ((State.offerTiles_frame _ _ d) .now (by decide)))
  obtain ⟨x, hx, follows⟩ := tables.mem (State.mem_replaceVote hv)
  exact (Grows.deliver hx follows d none).2 (offered.evolves.numbered c.numbered)

/-- Settles O30: a closure is one of two branches, and each is what the verdict unit does with the decision. -/
theorem closureDecidesTheVote : Obligations.ClosureDecidesTheVote := by
  unfold Obligations.ClosureDecidesTheVote
  intro v s c hv h d put
  refine ⟨v.missing_eq, rfl, rfl, fun bad => ?_, fun notBad notLeader => ?_⟩
  · have localises : s.close v = s.localise ((v.closed false).enterLocalising s.now d) := State.close_localises bad
    refine ⟨fun runs => localises.trans (if_neg runs), fun instant => (localises.trans (if_pos instant)).trans ?_⟩
    exact congrArg (State.deliver · _ d none) (s.replaceVote_twice _ rfl)
  · intro closed sends n
    have delivers : s.close v = ((put closed).offerTiles closed d).deliver closed d none :=
      State.close_delivers notBad notLeader
    refine ⟨delivers, fun x ⟨good, agreed, sender⟩ => ?_, fun silent => ?_, ?_, ?_, ?_, s.close_frame v⟩
    · exact State.offerTiles_sends good agreed ((closed.isTilesSender_iff _ x).2 sender)
    · exact State.offerTiles_silent fun x good agreed => Bool.eq_false_iff.2 fun sender =>
        silent x ⟨good, agreed, (closed.isTilesSender_iff _ x).1 sender⟩
    · rw [delivers]
      exact State.closed_gone c hv _ d
    · rw [delivers]
      exact State.walk_stops _
    · have before : ((put closed).offerTiles closed d).count d.verdict.counter = s.count d.verdict.counter :=
        State.offerTiles_frame (put closed) closed d (.counter _) (by cases d.verdict <;> decide)
      rw [delivers, State.deliver_count, before]

end Sys2Proof.Machine
end

section
/-! VIEW and PEEK, and the layout of each view's records (R33, R76, R103, R134, R143, R163, R170 to R172). -/

namespace Sys2Proof.Machine

/-! ### VIEW and PEEK (R170, R171) -/

@[simp] theorem viewOfCode_code (v : View) : viewOfCode v.code = some v := by cases v <;> rfl

theorem viewOfCode_eq_none {n : Nat} (outside : n = 0 ∨ 8 < n) : viewOfCode n = none := by
  unfold viewOfCode
  split
  case h_9 => rfl
  all_goals omega

theorem exec_view {s : State} {b : Byte} (ready : s.ready (.view [b]) = true) {a : Answered}
    (answer : s.selectView b.toNat = a) :
    exec (.view [b]) s = .next (a.state.answered 0x0F a.result a.payload) := by
  rw [← answer, ← field_zero_one b []]
  exact congrArg Host.Outcome.next (State.arrive_fits ready 0x0F rfl _)

theorem State.selectView_code (s : State) (v : View) :
    s.selectView v.code = (s.setPort { s.port with view := v, index := 0 }).done := by
  rw [State.selectView, viewOfCode_code]

theorem State.selectView_range (s : State) {code : Nat} (outside : code = 0 ∨ 8 < code) :
    s.selectView code = s.refuse .range := by
  rw [State.selectView, viewOfCode_eq_none outside]

theorem exec_peek {s : State} (ready : s.ready (.peek []) = true) {a : Answered} (answer : s.peek = a) :
    exec (.peek []) s = .next (a.state.answered 0x10 a.result a.payload) := by
  rw [← answer]
  exact congrArg Host.Outcome.next (State.arrive_fits ready 0x10 rfl _)

theorem State.peek_record {s : State} {record : List Byte}
    (stands : s.viewRecord? s.port.view s.port.index = some record) :
    s.peek = (s.setPort { s.port with index := s.port.index + 1 }).doneWith
      (BitVec.ofNat 8 s.port.view.code :: record) := by
  rw [State.peek, stands]
  exact congrArg (State.doneWith _) (congrArg (· ++ record) (byte1_code _))

theorem State.peek_end {s : State} (past : s.viewRecord? s.port.view s.port.index = none) :
    s.peek = (s.setPort { s.port with index := 0 }).doneWith [0] := by
  rw [State.peek, past]
  rfl

/-! ### How many records a view has -/

theorem ite_some_isSome {α : Type} (i : Nat) (x : α) : (if i = 0 then some x else none).isSome = true ↔ i < 1 := by
  rw [Nat.lt_one_iff]
  split <;> simp [*]

theorem State.viewRecord?_status (s : State) : s.viewRecord? .status 0 = some s.statusRecord := by
  rw [State.viewRecord?, if_pos rfl]

theorem State.viewRecord?_settings (s : State) : s.viewRecord? .settings 0 = some s.settingsRecord := by
  rw [State.viewRecord?, if_pos rfl]

theorem map_getElem?_isSome {α β : Type} (xs : List α) (f : α → β) (i : Nat) :
    ((xs[i]?).map f).isSome = true ↔ i < xs.length := by
  simp

theorem map_vector_getElem?_isSome {α β : Type} {n : Nat} (xs : Vector α n) (f : α → β) (i : Nat) :
    ((xs[i]?).map f).isSome = true ↔ i < n := by
  simp

/-! ### The pieces that records are made of (R179) -/

theorem boolByte_eq_bitsByte (b : Bool) : boolByte b = bitsByte [b] := by cases b <;> rfl

theorem byte1_eq : byte1 = bytesOf 1 := rfl

theorem byte2_eq : byte2 = bytesOf 2 := rfl

theorem byte4_eq : byte4 = bytesOf 4 := rfl

theorem wordBytes_eq (x : Word) : wordBytes x = bytesOf 4 x.toNat := rfl

theorem countedBytes_eq (ns : List Nat) : countedBytes ns = bytesOf 1 ns.length ++ ns.flatMap (bytesOf 1) := rfl

theorem Key.bytes_eq (k : Key) : k.bytes = bytesOf 4 k.reel ++ bytesOf 4 k.frame := rfl

theorem bytesOf_one (n : Nat) : bytesOf 1 n = [BitVec.ofNat 8 n] := byte1_code n

/-! ### Times shown (R76, R103, R134) -/

theorem shownIn_mul {unit : Nat} (pos : 0 < unit) (m : Nat) : shownIn unit (m * unit) = m := by
  rw [shownIn, if_pos (Nat.mul_mod_left m unit), Nat.mul_div_cancel m pos]

theorem shownMs_mul (m : Nat) : shownMs (m * 1000000) = min 65535 m :=
  congrArg (min 65535) (shownIn_mul (by decide : 0 < nsPerMs) m)

/-! ### The parts of a STATUS record and of a VOTES record (R103, R172) -/

theorem State.cursorBytes_append (s : State) (rest : List Byte) :
    bitsByte [s.cursorReel.isSome] ++ (bytesOf 4 (s.cursorReel.getD 0) ++ rest) =
      (match s.holdings[s.sweep.cursorPos]? with
        | some h => bitsByte [true] ++ bytesOf 4 h.reel
        | none => bitsByte [false] ++ bytesOf 4 0) ++ rest := by
  unfold State.cursorReel
  cases s.holdings[s.sweep.cursorPos]? <;> rfl

/-- The own status of a vote and the reason of one that is UNREADABLE. -/
theorem OwnStatus.codeBytes_append (o : OwnStatus) (rest : List Byte) :
    bytesOf 1 o.code ++ (bytesOf 1 o.reasonCode ++ rest) = (match o with
      | .pending => [0, 0]
      | .readOk _ => [1, 0]
      | .unreadable .length => [2, 1]
      | .unreadable .timeout => [2, 2]
      | .unreadable .unreadable => [2, 3]
      | .unreadable .absent => [2, 4]) ++ rest := by
  simp only [bytesOf_one]
  rcases o with _ | x | r
  · rfl
  · rfl
  · cases r <;> rfl

theorem Answer.bytes_eq : Answer.bytes = fun a => bytesOf 1 a.station ++ bytesOf 1 a.status.code
    ++ optWordBytes a.summary ++ bytesOf 1 a.tiles ++ bytesOf 1 a.ref.code := rfl

theorem getD_map_eq_match (f : Nat → Nat) (x : Option Nat) :
    (x.map f).getD 0 = match x with | some n => f n | none => 0 := by
  cases x <;> rfl

theorem State.timerLeft_shown (s : State) (v : Vote) :
    ((s.timerLeft v).map shownMs).getD 0 = match v.timer with
      | some start => shownMs (start + timeOfCode s.timers.vote * 1000000 - s.now)
      | none => 0 := by
  rw [State.timerLeft, Option.map_map, Function.comp_def, getD_map_eq_match]
  rfl

theorem Vote.checksReceived_eq (v : Vote) : v.checksReceived = match v.localisation with
    | some l => l.received.countP Option.isSome
    | none => 0 := by
  unfold Vote.checksReceived
  cases v.localisation with
  | none => rfl
  | some l => exact List.countP_eq_length_filter.symm

/-! ### The parts of a MEND, an EVIDENCE, a COUNTERS and a SETTINGS record (R134, R143, R163) -/

theorem MendState.codeBytes_append (m : MendState) (rest : List Byte) :
    bytesOf 1 m.code ++ rest = (match m with | .awaitingRewrite _ => [1] | .rechecking => [2]) ++ rest := by
  rw [bytesOf_one]
  cases m <;> rfl

/-- The time left, for any way of showing it: the flag that it stands, and two bytes. -/
theorem MendState.leftBytes_append (shown : Nat → Nat) (m : MendState) (rest : List Byte) :
    bitsByte [(match m with | .awaitingRewrite start => some (shown start) | .rechecking => none).isSome]
      ++ (bytesOf 2 ((match m with | .awaitingRewrite start => some (shown start) | .rechecking => none).getD 0)
        ++ rest) = (match m with
        | .awaitingRewrite start => bitsByte [true] ++ bytesOf 2 (shown start)
        | .rechecking => bitsByte [false] ++ bytesOf 2 0) ++ rest := by
  cases m <;> rfl

theorem State.patienceBytes_append (s : State) (e : MendEntry) (rest : List Byte) :
    bitsByte [(s.patienceLeft e).isSome] ++ (bytesOf 2 ((s.patienceLeft e).getD 0) ++ rest) = (match e.state with
      | .awaitingRewrite start => bitsByte [true]
        ++ bytesOf 2 (shownIn 1000000000 (start + s.timers.patience * 1000000000 - s.now))
      | .rechecking => bitsByte [false] ++ bytesOf 2 0) ++ rest :=
  MendState.leftBytes_append (fun start => shownIn 1000000000 (start + s.timers.patience * 1000000000 - s.now))
    e.state rest

theorem EvidenceEntry.slots_eq (e : EvidenceEntry) :
    e.slots = e.checks.length + (e.source.map List.length).getD 0 := by
  unfold EvidenceEntry.slots
  cases e.source <;> rfl

theorem counterRecord_at (s : State) (c : Counter) :
    s.viewRecord? .counters c.place = some (counterRecord (c.place + 1) (s.count c)) :=
  congrArg (Option.map _) (Vector.getElem?_eq_getElem c.place.isLt)

/-- The counters in the order of their name codes stand at their places in the table. -/
theorem counters_in_order : ∀ x ∈ [Counter.votesOpened, .good, .bad, .leaderBad, .unreadable, .split, .unconfirmed,
    .abandoned, .refDiffers, .lineSent, .lineReceived, .lineBadCheck, .lineMalformed, .collisions, .lineDropped,
    .deferredSent, .stray, .answersOverflow, .lateBlocks, .blockDiscarded, .fetchTimeouts, .reportsLost,
    .evidenceEvicted].zipIdx, x.2 = x.1.place := by decide

theorem PaceMode.codeBytes_append (m : PaceMode) (rest : List Byte) :
    bytesOf 1 m.code ++ rest = (match m with | .fixed => [1] | .adaptive => [2]) ++ rest := by
  cases m <;> rfl

/-! ### The views -/

/-- Settles O43: the answers first, then how far each view goes, then the layouts in the order of the view codes. -/
theorem viewAndPeekWalkTheViews : Obligations.ViewAndPeekWalkTheViews := by
  unfold Obligations.ViewAndPeekWalkTheViews
  intro s
  refine ⟨fun b ready => ⟨fun v code => ?_, fun outside => ?_⟩, fun ready => ⟨fun record stands => ?_, fun past => ?_⟩,
    fun i => ⟨ite_some_isSome _ _, map_getElem?_isSome _ _ _, map_getElem?_isSome _ _ _, map_getElem?_isSome _ _ _,
      map_getElem?_isSome _ _ _, map_vector_getElem?_isSome _ _ _, map_vector_getElem?_isSome _ _ _,
      ite_some_isSome _ _⟩, ?_⟩
  · exact exec_view ready (code ▸ s.selectView_code v)
  · exact exec_view ready (s.selectView_range outside)
  · exact exec_peek ready (State.peek_record stands)
  · exact exec_peek ready (State.peek_end past)
  simp only [← bitsByte_eq, ← optWordBytes_eq, ← EvidenceEntry.slots_eq]
  refine ⟨?_, fun i h at' => ?_, fun i v at' => ?_, fun i e at' => ?_, fun i e at' => ?_, rfl, fun i e at' => ?_, ?_,
    ?_, fun m => ⟨shownMs_mul m, shownIn_mul (by decide) m⟩⟩
  · rw [State.viewRecord?_status]
    delta State.statusRecord
    simp only [boolByte_eq_bitsByte, byte1_eq, byte2_eq, byte4_eq, ResetCauses.bytes, State.cursorBytes_append,
      List.append_assoc]
    rfl
  · refine (congrArg (Option.map _) at').trans (congrArg some ?_)
    simp only [Holding.record, boolByte_eq_bitsByte]
    rfl
  · refine (congrArg (Option.map _) at').trans (congrArg some ?_)
    simp only [State.voteRecord, byte1_eq, byte2_eq, countedBytes_eq, Key.bytes_eq, Origins.bytes, Vote.flagBytes,
      Vote.source, State.timerLeft_shown, Vote.checksReceived_eq, OwnStatus.codeBytes_append,
      Answer.bytes_eq, List.append_assoc]
    rfl
  · refine (congrArg (Option.map _) at').trans (congrArg some ?_)
    simp only [State.mendRecord, Key.bytes_eq, byte1_eq, byte2_eq, countedBytes_eq, wordBytes_eq,
      MendState.codeBytes_append, State.patienceBytes_append, List.append_assoc] <;> rfl
  · refine (congrArg (Option.map _) at').trans (congrArg some ?_)
    simp only [EvidenceEntry.record, EvidenceEntry.bytes, List.append_assoc]
    rfl
  · refine (congrArg (Option.map _) at').trans (congrArg some ?_)
    cases heard : e.heard with
    | unknown | self =>
      simp only [State.rosterRecord, State.rosterCount, heard, List.append_assoc]
      rfl
    | present last | silent last =>
      simp only [State.rosterRecord, State.rosterCount, heard, Heard.code, Heard.last, List.append_assoc]
      rfl
  · refine List.all_eq_true.2 fun x hx => decide_eq_true ?_
    have place : x.2 = x.1.place := counters_in_order x hx
    rw [place, counterRecord_at]
    rfl
  · rw [State.viewRecord?_settings]
    delta State.settingsRecord
    simp only [boolByte_eq_bitsByte, Strap.bytes, byte1_eq, byte2_eq, PaceMode.codeBytes_append, State.voteLimit,
      State.fetchLimit, State.localisationLimit, State.silenceLimit, List.append_assoc]
    rfl

end Sys2Proof.Machine
end

section
/-! The sweep: its state by its conditions, its walk as steps one after another, and its orders and gap timer, each of
which moves the sweep's settings and lets the walk go on (R44 to R53). -/

namespace Sys2Proof.Machine

/-! ### The sweep state (R44, R53) -/

theorem State.someTierSwept_eq_false (s : State) :
    s.someTierSwept = false ↔ ∀ h ∈ s.holdings, s.sweep.mask h.tier = 0 := by
  simp [State.someTierSwept]

theorem State.sweepState_suspended {s : State} (suspended : s.sweep.suspended = true) : s.sweepState = .suspended :=
  if_pos suspended

section
variable {s : State} (resumed : s.sweep.suspended = false)
include resumed

theorem State.sweepState_held (held : s.holdAsserted = true) : s.sweepState = .held := by
  simp [State.sweepState, resumed, held]

variable (released : s.holdAsserted = false)
include released

theorem State.sweepState_gap (runs : s.sweep.gap.isSome = true) : s.sweepState = .gap := by
  simp [State.sweepState, resumed, released, runs]

variable (ended : s.sweep.gap = none)
include ended

theorem State.sweepState_idle (unswept : s.someTierSwept = false) : s.sweepState = .idle := by
  simp [State.sweepState, resumed, released, ended, unswept]

theorem State.sweepState_backedUp (swept : s.someTierSwept = true)
    (full : 24 ≤ s.votes.length ∨ 48 ≤ s.port.reports.length) : s.sweepState = .backedUp := by
  simp [State.sweepState, resumed, released, ended, swept, Config.maxVotes, Config.backOffReports, full]

end

/-! ### The walk as repeated steps (R38) -/

/-- A function repeated from its first value on is the function repeated once more. -/
theorem repeat_first {α : Type} (f : α → α) (x : α) : ∀ n, Nat.repeat f n (f x) = Nat.repeat f (n + 1) x
  | 0 => rfl
  | n + 1 => congrArg f (repeat_first f x n)

/-- The walk with fuel is steps one after another, each from a RUNNING state. -/
theorem State.walkFuel_repeats : ∀ (fuel : Nat) (s : State), ∃ n,
    State.walkFuel fuel s = Nat.repeat State.walkStep n s ∧ ∀ k < n, (Nat.repeat State.walkStep k s).sweepState = .running
  | 0, _ => ⟨0, rfl, nofun⟩
  | fuel + 1, s => by
    unfold State.walkFuel
    split
    · next running =>
      obtain ⟨n, steps, each⟩ := State.walkFuel_repeats fuel s.walkStep
      refine ⟨n + 1, steps.trans (repeat_first _ _ _), fun k less => ?_⟩
      cases k with
      | zero => exact running
      | succ k => exact repeat_first State.walkStep s k ▸ each k (Nat.lt_of_succ_lt_succ less)
    · exact ⟨0, rfl, nofun⟩

/-- Settles O23: the state is read off its conditions in order, and the walk's fuel does not run out. -/
theorem sweepWalksWhileRunning : Obligations.SweepWalksWhileRunning := by
  unfold Obligations.SweepWalksWhileRunning
  refine ⟨fun s => ?_, fun s => ?_⟩
  · refine ⟨State.sweepState_suspended, fun resumed => ⟨State.sweepState_held resumed, fun released =>
      ⟨State.sweepState_gap resumed released, fun ended => ⟨fun idle => ?_, fun busy => ?_⟩⟩⟩⟩
    · exact State.sweepState_idle resumed released ended (s.someTierSwept_eq_false.2 idle)
    · have swept : s.someTierSwept = true :=
        Bool.eq_true_of_not_eq_false fun unswept => busy (s.someTierSwept_eq_false.1 unswept)
      refine ⟨State.sweepState_backedUp resumed released ended swept, fun room => s.running_iff.2 ?_⟩
      obtain ⟨votes, reports⟩ := not_or.1 room
      exact ⟨resumed, released, ended, swept, Nat.lt_of_not_le votes, Nat.lt_of_not_le reports⟩
  · obtain ⟨n, steps, each⟩ := State.walkFuel_repeats s.walkBound s
    exact ⟨n, steps, s.walk_stops, each⟩

/-! ### Orders to the sweep -/

/-- An order that moves the sweep's settings is DONE, with its reply at the port, once the walk has stopped. -/
theorem exec_sweptOn {i : Instr} {kind : Byte} {s u : State} {ps : List Part} (order : isOrder i = true)
    (record : (toRecord i).isSome = true) (ready : s.ready i = true)
    (taken : takeRecord i s = State.reply kind u.sweepOn.done) (frame : SameBut ps s u)
    (walks : ∀ p ∈ walkParts, p ∈ ps) (link : Part.link ∉ ps) :
    exec i s = .next (u.walk.expireIssued.answered kind .done []) ∧
      (u.walk.expireIssued.answered kind .done []).replied kind .done [] ∧ u.walk.sweepState ≠ .running ∧
      SameBut ps s u.walk := by
  have walked : SameBut ps s u.walk := frame.trans (u.walk_frame.mono walks)
  refine ⟨?_, ?_, u.walk_stops, walked⟩
  · rw [exec_record record, State.arrive_ready ready, taken, State.reply_arbitrate]
    rfl
  · exact State.answered_stands order ready
      (Part.same_trans (walked .link link) (State.expireIssued_frame _ .link (by decide)))

theorem exec_suspend {s : State} (ready : s.ready (.suspend []) = true) :
    exec (.suspend []) s = .next ((s.setSuspended true).answered 0x05 .done []) :=
  congrArg Host.Outcome.next (State.arrive_fits ready 0x05 rfl _)

/-- Settles O19: SUSPEND is answered as it stands, RESUME once the walk has stopped. -/
theorem suspendAndResumeMoveTheFlag : Obligations.SuspendAndResumeMoveTheFlag := by
  unfold Obligations.SuspendAndResumeMoveTheFlag
  intro s
  refine ⟨exec_suspend, fun ready => ?_⟩
  obtain ⟨taken, reply, stopped, frame⟩ := exec_sweptOn (u := s.setSuspended false) (ps := .suspendFlag :: walkParts)
    rfl rfl ready rfl ((s.setSuspended_frame false).mono (by decide)) (by decide) (by decide)
  have flag : (s.setSuspended false).walk.sweep.suspended = false := State.walk_frame _ .suspendFlag (by decide)
  exact ⟨fun stays => State.walk_stopped stays ▸ taken, taken, reply, flag, stopped, frame⟩

/-- The bits of a mask below the period are the mask modulo 2 to the period. -/
theorem trimMask_ofNat {p : Nat} (low : p ≤ 16) (m : Nat) :
    trimMask p (BitVec.ofNat 16 m) = BitVec.ofNat 16 (m % 2 ^ p) := by
  apply BitVec.eq_of_toNat_eq
  have top : 2 ^ p ≤ 2 ^ 16 := Nat.pow_le_pow_right (by decide) low
  have pos : 0 < 2 ^ p := Nat.two_pow_pos p
  have below : m % 2 ^ p < 2 ^ 16 := Nat.lt_of_lt_of_le (Nat.mod_lt _ pos) top
  rw [trimMask, BitVec.toNat_and, BitVec.toNat_ofNat, BitVec.toNat_ofNat, BitVec.toNat_ofNat,
    Nat.mod_eq_of_lt (show 2 ^ p - 1 < 2 ^ 16 by omega), Nat.and_two_pow_sub_one_eq_mod, Nat.mod_eq_of_lt below,
    Nat.mod_mod_of_dvd m (Nat.pow_dvd_pow 2 low)]

theorem cadenceMasks_eq {p : Nat} (low : p ≤ 16) (body : List Byte) : cadenceMasks p body =
    #v[BitVec.ofNat 16 (field body 1 2 % 2 ^ p), BitVec.ofNat 16 (field body 3 2 % 2 ^ p),
      BitVec.ofNat 16 (field body 5 2 % 2 ^ p), BitVec.ofNat 16 (field body 7 2 % 2 ^ p)] := by
  simp only [cadenceMasks, trimMask_ofNat low]

theorem State.setCadence_eq (s : State) {body : List Byte} {p : Nat} {masks : Vector (BitVec 16) 4}
    (clamped : clampPeriod (field body 0 1) = p) (cut : cadenceMasks p body = masks) :
    s.setCadence body = s.setSweep { s.sweep with period := p, masks := masks, r := s.sweep.r % p } := by
  rw [← cut, ← clamped]
  rfl

/-- Settles O20: the masks are cut as the period says, and the walk keeps what CADENCE has set. -/
theorem cadenceSetsPeriodAndMasks : Obligations.CadenceSetsPeriodAndMasks := by
  unfold Obligations.CadenceSetsPeriodAndMasks
  intro body s ready length p masks done set u
  have effect : s.setCadence body = set := s.setCadence_eq rfl (cadenceMasks_eq (Nat.min_le_left _ _) body)
  have act : takeRecord (.cadence body) s = State.reply 0x03 set.sweepOn.done := by
    rw [takeRecord, takeCadence, State.takeOrder, decide_eq_true length, effect]
    rfl
  obtain ⟨taken, reply, stopped, frame⟩ := exec_sweptOn (ps := .cadence :: walkParts) rfl rfl ready act
    (effect ▸ (s.setCadence_frame body).mono (by decide)) (by decide) (by decide)
  obtain ⟨period, masked, burst⟩ := set.walk_frame .cadence (by decide)
  exact ⟨fun suspended => State.walk_suspended (s := set) suspended ▸ taken, taken, reply, period, masked, burst,
    stopped, frame⟩

/-- BURST as its order gives it: B is set, and R with it unless a gap runs on. -/
theorem State.setBurst_eq (s : State) (n : Nat) : s.setBurst n =
    s.setSweep (if s.sweep.gap.isSome = true ∧ max 1 n < 255 then { s.sweep with burst := max 1 n }
      else { s.sweep with burst := max 1 n, remainder := max 1 n, gap := none }) := by
  unfold State.setBurst
  dsimp only
  split <;> rfl

theorem State.setBurst_kept (s : State) (n : Nat) : (s.setBurst n).sweep.burst = max 1 n ∧
    (s.setBurst n).sweep.period = s.sweep.period ∧ (s.setBurst n).sweep.masks = s.sweep.masks ∧
    (s.setBurst n).sweep.suspended = s.sweep.suspended := by
  unfold State.setBurst
  dsimp only
  split <;> exact ⟨rfl, rfl, rfl, rfl⟩

/-- Settles O21: whether a gap runs on or not, B is set, the cadence stays, and the walk goes on. -/
theorem burstSetsTheCount : Obligations.BurstSetsTheCount := by
  unfold Obligations.BurstSetsTheCount
  intro b s ready n done set u
  have effect : s.setBurst b.toNat = set := s.setBurst_eq b.toNat
  have act : takeRecord (.burst [b]) s = State.reply 0x04 set.sweepOn.done := by
    rw [← effect, ← field_zero_one b []]
    rfl
  obtain ⟨taken, reply, stopped, frame⟩ := exec_sweptOn (ps := .cadence :: walkParts) rfl rfl ready act
    (effect ▸ (s.setBurst_frame _).mono (by decide)) (by decide) (by decide)
  obtain ⟨count, period, masks, flag⟩ := effect ▸ s.setBurst_kept b.toNat
  obtain ⟨keepsPeriod, keepsMasks, keepsCount⟩ := set.walk_frame .cadence (by decide)
  exact ⟨fun suspended => State.walk_suspended (flag.trans suspended) ▸ taken, taken, reply, keepsCount.trans count,
    keepsPeriod.trans period, keepsMasks.trans masks, stopped, frame⟩

/-! ### The gap timer (R47, R48) -/

theorem State.walk_held {s : State} (held : s.holdAsserted = true) : s.walk = s :=
  State.walk_stopped fun running => absurd (held.symm.trans (s.running_iff.1 running).2.1) (by decide)

theorem exec_gapTimerExpiry {s : State} {g : Timer} (runs : s.sweep.gap = some g) :
    exec .gapTimerExpiry s = .next (s.passUntil (dueMs g.start g.length)).endGap.walk.finish := by
  show execGapTimerExpiry s = _
  rw [execGapTimerExpiry, runs]
  rfl

/-- Settles O22: time passes to the gap's end, which refills R, and the walk goes on from there. -/
theorem gapTimerExpiryEndsTheGap : Obligations.GapTimerExpiryEndsTheGap := by
  unfold Obligations.GapTimerExpiryEndsTheGap
  intro g s runs due u ended
  have passed : SameBut [.now, .lineClock] s u := s.passUntil_frame due
  have sweep : u.sweep = s.sweep := passed.sweep_eq (by decide) (by decide) (by decide)
  have effect : u.endGap = ended := by rw [State.endGap, sweep]; rfl
  have expires : exec .gapTimerExpiry s = .next ended.walk.finish := effect ▸ exec_gapTimerExpiry runs
  refine ⟨fun stays => ?_, s.passUntil_spec due, expires, ended.walk_stops, ?_⟩
  · have still : ended.walk = ended := stays.elim (fun suspended => State.walk_suspended (s := ended) suspended)
      fun held => State.walk_held (s := ended) ((passed.holdAsserted_eq (by decide) (by decide)).trans held)
    rw [expires, still]
  · rw [← effect]
    exact (u.endGap_frame.mono (by decide)).trans (State.walk_frame _)

end Sys2Proof.Machine
end

section
/-! The outgoing link moves on: a record goes out, the arbiter picks the next one, and the records that waited on the
incoming link are taken in turn (R165, R166, R168, R169, R175, R176). -/

namespace Sys2Proof.Machine

/-! ### What stands at the port, and what may be taken -/

theorem ShelfPort.startStands_eq_false (p : ShelfPort) :
    p.startStands = false ↔ p.start = none ∧ ∀ r, p.link ≠ some (.start r) := by
  unfold ShelfPort.startStands
  split <;> simp_all

theorem ShelfPort.replyStands_eq_false (p : ShelfPort) :
    p.replyStands = false ↔ p.reply = none ∧ ∀ r, p.link ≠ some (.reply r) := by
  unfold ShelfPort.replyStands
  split <;> simp_all

theorem State.mayTake_iff (s : State) (i : Instr) : s.mayTake i = true ↔
    s.resetLine = false ∧ s.port.startStands = false ∧ s.port.resetTaken = false ∧
      (isOrder i = true → s.port.replyStands = false) := by
  simp [State.mayTake, State.intakeOpen, and_assoc, imp_iff_not_or]

/-- With neither START nor a reply waiting, the arbiter puts neither on a free link. -/
theorem ShelfPort.arbitrate_neither {p : ShelfPort} (free : p.link = none) (start : p.start = none)
    (reply : p.reply = none) : p.arbitrate.startStands = false ∧ p.arbitrate.replyStands = false := by
  rw [ShelfPort.startStands_eq_false, ShelfPort.replyStands_eq_false]
  unfold ShelfPort.arbitrate
  rw [free, start, reply]
  dsimp only
  split
  · simp [free, start, reply]
  split
  · simp
  split
  · simp
  · simp [free, start, reply]

/-! ### Taking a record leaves those that wait -/

theorem SameBut.inbound_eq {ps : List Part} {s t : State} (h : SameBut ps s t) (hp : Part.intake ∉ ps) :
    t.port.inbound = s.port.inbound :=
  (h .intake hp).1

theorem State.arbitrate_inbound (s : State) : s.arbitrate.port.inbound = s.port.inbound :=
  s.arbitrate_frame.inbound_eq (by decide)

/-- A good tile touches its vote and its slot, and the last one what a closure touches. -/
theorem State.takeGood_frame (s : State) (f : Fetch) (b : BlockRecord) (n : Nat) :
    SameBut deliverParts s (s.takeGood f b n) := by
  unfold State.takeGood
  split
  · next v _ =>
    have stored : SameBut deliverParts s (s.modifyVote v.id fun v => v.takeTile b) :=
      (s.modifyVote_frame _ _).mono (by decide)
    dsimp only
    split
    · exact (stored.trans ((State.freeSlot_frame _ _).mono (by decide))).trans (State.ownStatusKnown_frame _ _ _ _)
    · exact stored.trans ((State.setRead_frame _ _).mono (by decide))
  · exact SameBut.refl _ s

/-- A BLOCK touches the depth average, the counters of the tiles not taken, and what the end of a fetch touches. -/
theorem State.takeBlockRecord_frame (s : State) (b : BlockRecord) :
    SameBut (.depthAverage :: .counter .lateBlocks :: .counter .blockDiscarded :: deliverParts) s
      (s.takeBlockRecord b) := by
  have depth := (s.takeDepth_frame b.depth).mono
    (qs := .depthAverage :: .counter .lateBlocks :: .counter .blockDiscarded :: deliverParts) (by decide)
  unfold State.takeBlockRecord
  refine depth.trans ?_
  dsimp only
  split
  · exact (State.bump_frame _ _).mono (by decide)
  split
  · exact (State.bump_frame _ _).mono (by decide)
  split
  · exact (State.endUnreadable_frame _ _ _ _).mono (by decide)
  · exact (State.takeGood_frame _ _ _ _).mono (by decide)

/-- An order leaves the records that wait as its owner leaves them. -/
theorem State.takeOrder_inbound {s : State} {act : State → Answered}
    (owner : (act s).state.port.inbound = s.port.inbound) (kind : Byte) (fits : Bool) :
    (s.takeOrder kind fits act).port.inbound = s.port.inbound := by
  cases fits
  · rfl
  · exact owner

theorem State.sweepOn_inbound (s : State) : s.sweepOn.port.inbound = s.port.inbound :=
  s.sweepOn_frame.inbound_eq (by decide)

/-- No record that is taken touches those that wait. -/
theorem takeRecord_inbound (i : Instr) (s : State) : (takeRecord i s).port.inbound = s.port.inbound := by
  cases i with
  | loadHolding body => exact State.takeOrder_inbound ((s.loadHolding_frame _).inbound_eq (by decide)) _ _
  | dropHolding body => exact State.takeOrder_inbound ((s.dropHolding_frame _).inbound_eq (by decide)) _ _
  | cadence body => exact State.takeOrder_inbound (s.setCadence body).sweepOn_inbound _ _
  | burst body =>
    exact State.takeOrder_inbound
      ((State.sweepOn_inbound _).trans ((s.setBurst_frame (field body 0 1)).inbound_eq (by decide))) _ _
  | suspend body => exact State.takeOrder_inbound rfl _ _
  | resume body => exact State.takeOrder_inbound (s.setSuspended false).sweepOn_inbound _ _
  | verify body => exact State.takeOrder_inbound ((s.verifyKey_frame _).inbound_eq (by decide)) _ _
  | rewritten body => exact State.takeOrder_inbound ((s.rewritten_frame _).inbound_eq (by decide)) _ _
  | takeEvidence body => exact State.takeOrder_inbound (s.takeOldest_frame.inbound_eq (by decide)) _ _
  | pace body => exact State.takeOrder_inbound ((s.pace_frame _).inbound_eq (by decide)) _ _
  | settle body => exact State.takeOrder_inbound (s.settled_frame.inbound_eq (by decide)) _ _
  | timing body =>
    exact State.takeOrder_inbound (((State.expireIssued_frame _).inbound_eq (by decide)).trans
      ((s.setTiming_frame _).inbound_eq (by decide))) _ _
  | watch body => exact State.takeOrder_inbound ((s.setWatching_frame _ _ _).inbound_eq (by decide)) _ _
  | clearCounters body => exact State.takeOrder_inbound rfl _ _
  | view body => exact State.takeOrder_inbound ((s.selectView_frame _).inbound_eq (by decide)) _ _
  | peek body => exact State.takeOrder_inbound (s.peek_frame.inbound_eq (by decide)) _ _
  | reset body => exact State.takeOrder_inbound rfl _ _
  | block body =>
    show (takeBlock body s).port.inbound = _
    unfold takeBlock
    split
    · exact ((State.expireIssued_frame _).inbound_eq (by decide)).trans
        ((s.takeBlockRecord_frame _).inbound_eq (by decide))
    · rfl
  | fetchFailed body =>
    show (takeFetchFailed body s).port.inbound = _
    unfold takeFetchFailed
    split
    · split
      · exact ((State.expireIssued_frame _).inbound_eq (by decide)).trans
          ((s.endUnreadable_frame _ _ _).inbound_eq (by decide))
      · rfl
    · rfl
  | _ => rfl

/-! ### The records that waited (log 4) -/

/-- The first of the records that waited is taken as one that arrives then, and the others after it. -/
theorem State.intake_takes {s : State} {i : Instr} (rest : List Instr) (record : (toRecord i).isSome = true)
    (alone : s.port.inbound = []) (may : s.mayTake i = true) :
    ∃ u, exec i s = .next u ∧ u.port.inbound = [] ∧ State.intake (i :: rest) s = State.intake rest u := by
  have ready : s.ready i = true := by rw [State.ready, may, alone]; rfl
  refine ⟨(takeRecord i s).arbitrate, ?_, ?_, if_pos may⟩
  · rw [exec_record record, State.arrive_ready ready]
  · rw [State.arbitrate_inbound, takeRecord_inbound, alone]

theorem State.intake_waits {s : State} {i : Instr} (rest : List Instr) (may : s.mayTake i = false) :
    State.intake (i :: rest) s = { s with port := { s.port with inbound := i :: rest } } :=
  if_neg (by rw [may]; decide)

/-! ### RECORD_SENT -/

theorem exec_recordSent {s : State} {x : OutRecord} (sending : s.port.link = some x) :
    exec .recordSent s = .next (State.intake s.port.inbound s.clearInbound.recordGone.arbitrate) := by
  show execRecordSent s = _
  rw [execRecordSent, sending]

theorem State.recordGone_report {s : State} {q : QueuedReport} (sending : s.port.link = some (.report q)) :
    s.recordGone =
      State.sweepOn { s with port := { s.port with reports := s.port.reports.drop 1, link := none } } := by
  rw [State.recordGone, sending]
  rfl

theorem State.recordGone_other {s : State} {x : OutRecord} (sending : s.port.link = some x)
    (other : ∀ q, x ≠ .report q) : s.recordGone = { s with port := { s.port with link := none } } := by
  rw [State.recordGone, sending]
  cases x with
  | report q => exact absurd rfl (other q)
  | start | reply | request => rfl

theorem State.clearInbound_alone {s : State} (alone : s.port.inbound = []) : s.clearInbound = s := by
  unfold State.clearInbound
  rw [← alone]
  rfl

theorem exec_recordSent_alone {s : State} {x : OutRecord} (sending : s.port.link = some x)
    (alone : s.port.inbound = []) : exec .recordSent s = .next s.recordGone.arbitrate := by
  rw [exec_recordSent sending, alone, State.clearInbound_alone alone]
  rfl

/-- A report has gone: the walk goes on and fetches of 0 ms end, before the arbiter and the records that waited. -/
theorem exec_recordSent_report_intake {s : State} {q : QueuedReport} (sending : s.port.link = some (.report q)) :
    exec .recordSent s = .next (State.intake s.port.inbound (State.walk { s with port :=
      { s.port with reports := s.port.reports.drop 1, link := none, inbound := [] } }).expireIssued.arbitrate) := by
  rw [exec_recordSent sending, State.recordGone_report (s := s.clearInbound) sending]
  rfl

theorem exec_recordSent_other_intake {s : State} {x : OutRecord} (sending : s.port.link = some x)
    (other : ∀ q, x ≠ .report q) : exec .recordSent s = .next (State.intake s.port.inbound
      (State.arbitrate { s with port := { s.port with link := none, inbound := [] } })) := by
  rw [exec_recordSent sending, State.recordGone_other (s := s.clearInbound) sending other]
  rfl

/-- When a record other than a report has gone, and neither START nor a reply waits, the first of the records that
waited is taken. -/
theorem exec_recordSent_takes {s : State} {x : OutRecord} {i : Instr} {rest : List Instr}
    (sending : s.port.link = some x) (other : ∀ q, x ≠ .report q) (start : s.port.start = none)
    (reply : s.port.reply = none) (line : s.resetLine = false) (untaken : s.port.resetTaken = false)
    (waiting : s.port.inbound = i :: rest) (record : (toRecord i).isSome = true) :
    let t : State := { s with port := { s.port with link := none, inbound := [] }.arbitrate }
    t.ready i = true ∧ ∃ u, exec i t = .next u ∧ u.port.inbound = [] ∧
      exec .recordSent s = .next (State.intake rest u) := by
  intro t
  obtain ⟨inbound, resetTaken, _, _, _, _⟩ :=
    ShelfPort.arbitrate_keeps { s.port with link := none, inbound := [] }
  obtain ⟨noStart, noReply⟩ :=
    ShelfPort.arbitrate_neither (p := { s.port with link := none, inbound := [] }) rfl start reply
  have may : t.mayTake i = true := (t.mayTake_iff i).2 ⟨line, noStart, resetTaken.trans untaken, fun _ => noReply⟩
  obtain ⟨u, taken, left, rests⟩ := State.intake_takes (s := t) rest record inbound may
  refine ⟨by rw [State.ready, may, inbound]; rfl, u, taken, left, ?_⟩
  rw [exec_recordSent_other_intake sending other, waiting]
  exact congrArg Host.Outcome.next rests

/-- A report that has gone out whole leaves the queue, and the walk goes on, before fetches of 0 ms end. -/
theorem exec_recordSent_report {s : State} {q : QueuedReport} (sending : s.port.link = some (.report q))
    (alone : s.port.inbound = []) : exec .recordSent s =
      .next (State.walk { s with port := { s.port with reports := s.port.reports.drop 1, link := none } }).finish := by
  rw [exec_recordSent_alone sending alone, State.recordGone_report sending]
  rfl

/-- Settles O13: the record that goes, the arbiter, and then the records that waited, one by one. -/
theorem recordSentMovesTheLinkOn : Obligations.RecordSentMovesTheLinkOn := by
  unfold Obligations.RecordSentMovesTheLinkOn
  refine ⟨fun x s sending alone other => ?_, fun q s sending alone => ?_,
    fun r i kind body s sending reply start _ _ line untaken waiting order record => ?_,
    fun r i rest s sending start reply line untaken waiting record => ?_, fun x s sending => ?_, fun s => rfl,
    fun i rest s record alone => ⟨?_, State.intake_takes rest record alone, State.intake_waits rest⟩⟩
  · rw [exec_recordSent_alone sending alone, State.recordGone_other sending other]
    rfl
  · intro sent
    have moved := exec_recordSent_report sending alone
    have freed : SameBut (.link :: walkParts) s sent :=
      ((s.setReports_frame (s.port.reports.drop 1) s.port.nextReport).mono (by decide)).trans
        ((State.setLink_frame _ { s.port with reports := s.port.reports.drop 1, link := none }).mono (by decide))
    obtain ⟨later, joined⟩ := (Extends.walk sent).reports
    exact ⟨fun suspended => State.walk_suspended (s := sent) suspended ▸ moved, moved, sent.walk_stops,
      ⟨later, joined.symm⟩, (sent.walk_frame .link (by decide)).1, freed.trans (sent.walk_frame.mono (by decide))⟩
  · have other : ∀ q, OutRecord.reply r ≠ .report q := fun _ => OutRecord.noConfusion
    obtain ⟨ready, u, taken, left, moved⟩ :=
      exec_recordSent_takes sending other start reply line untaken waiting (record ▸ rfl)
    obtain ⟨t, result, payload, answered, replied, _⟩ := everyOrderTakenIsAnswered i kind body _ order record ready
    cases taken.symm.trans answered
    exact ⟨u, result, payload, moved, left, replied⟩
  · have other : ∀ q, OutRecord.start r ≠ .report q := fun _ => OutRecord.noConfusion
    obtain ⟨_, u, taken, _, moved⟩ := exec_recordSent_takes sending other start reply line untaken waiting record
    exact ⟨u, taken, moved⟩
  · cases x with
    | report q => exact exec_recordSent_report_intake sending
    | start | reply | request => exact exec_recordSent_other_intake sending fun _ => OutRecord.noConfusion
  · rw [s.mayTake_iff i, ShelfPort.startStands_eq_false, ShelfPort.replyStands_eq_false, and_assoc]

end Sys2Proof.Machine
end

section
/-! Offers to the line, and the messages that leave its queue: which message a full queue loses, and what the vote of a
CALL that leaves makes of it (R66, R67, R82, R92). -/

namespace Sys2Proof.Machine

/-! ### The last that passes a test -/

theorem takeLast_eq_none {α : Type} {p : α → Bool} : ∀ {xs : List α}, (∀ x ∈ xs, p x = false) → takeLast p xs = none
  | [], _ => rfl
  | x :: xs, h => by
    obtain ⟨fails, behind⟩ := List.forall_mem_cons.1 h
    rw [takeLast, takeLast_eq_none behind, fails]
    rfl

theorem takeLast_eq_some {α : Type} {p : α → Bool} {y : α} {after : List α} (passes : p y = true)
    (last : ∀ z ∈ after, p z = false) : ∀ before : List α, takeLast p (before ++ y :: after) = some (y, before ++ after)
  | [] => by rw [List.nil_append, takeLast, takeLast_eq_none last, passes]; rfl
  | x :: before => by rw [List.cons_append, takeLast, takeLast_eq_some passes last before]; rfl

/-! ### Joining the queue (R66) -/

/-- The queue that a message has joined holds it and what it held before. -/
theorem joinInOrder_perm (m : Message) (q : List Message) : (joinInOrder m q).Perm (m :: q) := by
  unfold joinInOrder
  refine List.perm_middle.trans (List.Perm.cons m ?_)
  rw [List.takeWhile_append_dropWhile]

/-- In a queue in order of class a message joins between the messages of its own class and of higher priority and the
rest. -/
theorem joinInOrder_splits (m : Message) : ∀ {q : List Message},
    (q.map fun y => y.body.lineClass).Pairwise (· ≤ ·) →
    ∃ before after, q = before ++ after ∧ joinInOrder m q = before ++ m :: after ∧
      (∀ y ∈ before, y.body.lineClass ≤ m.body.lineClass) ∧ ∀ y ∈ after, m.body.lineClass < y.body.lineClass
  | [], _ => ⟨[], [], rfl, rfl, nofun, nofun⟩
  | x :: q, ordered => by
    obtain ⟨least, ordered⟩ := List.pairwise_cons.1 ordered
    by_cases ahead : x.body.lineClass ≤ m.body.lineClass
    · obtain ⟨before, after, rfl, joined, low, high⟩ := joinInOrder_splits m ordered
      refine ⟨x :: before, after, rfl, ?_, List.forall_mem_cons.2 ⟨ahead, low⟩, high⟩
      have first : joinInOrder m (x :: (before ++ after)) = x :: joinInOrder m (before ++ after) := by
        unfold joinInOrder
        simp [ahead]
      rw [first, joined, List.cons_append]
    · refine ⟨[], x :: q, rfl, ?_, nofun, List.forall_mem_cons.2 ⟨Nat.lt_of_not_le ahead, fun y hy => ?_⟩⟩
      · unfold joinInOrder
        simp [ahead]
      · exact Nat.lt_of_lt_of_le (Nat.lt_of_not_le ahead) (least _ (List.mem_map_of_mem hy))

/-- Behind every message of its own class or higher priority a message joins at the end. -/
theorem joinInOrder_last {m : Message} {q : List Message} (last : ∀ y ∈ q, y.body.lineClass ≤ m.body.lineClass) :
    joinInOrder m q = q ++ [m] := by
  unfold joinInOrder
  rw [List.takeWhile_eq_self_iff.2 fun y hy => decide_eq_true (last y hy),
    List.dropWhile_eq_nil_iff.2 fun y hy => decide_eq_true (last y hy)]

/-- The CALLs are the messages of class 1. -/
theorem LineBody.lineClass_eq_one {b : LineBody} : b.lineClass = 1 ↔ ∃ k listed, b = .call k listed := by
  cases b <;> simp [LineBody.lineClass]

/-- A message that is no CALL joins the queue and touches no vote. -/
theorem State.joinQueue_not_call (s : State) {m : Message} (other : m.body.lineClass ≠ 1) :
    s.joinQueue m = s.setLine { s.line with queue := joinInOrder m s.line.queue } := by
  unfold State.joinQueue
  dsimp only
  split
  · next call _ => exact absurd (LineBody.lineClass_eq_one.2 ⟨_, _, call⟩) other
  all_goals rfl

/-! ### A message leaves the queue (R82, R92) -/

/-- A message that is no CALL leaves the queue, and no vote hears of it. -/
theorem State.clearCall_not_call (s : State) {m : Message} (other : m.body.lineClass ≠ 1) :
    s.clearCall m = (s, none) := by
  unfold State.clearCall
  split
  · next call _ => exact absurd (LineBody.lineClass_eq_one.2 ⟨_, _, call⟩) other
  all_goals rfl

/-- A message that no vote offered leaves the queue, and no vote hears of it. -/
theorem State.clearCall_unowned (s : State) {m : Message} (unowned : m.owner = none) : s.clearCall m = (s, none) := by
  unfold State.clearCall
  split
  · next owned => rw [unowned] at owned; cases owned
  all_goals rfl

/-- A CALL whose vote has been removed changes nothing. -/
theorem State.clearCall_gone (s : State) {m : Message} {id : Nat} (owned : m.owner = some id)
    (gone : ∀ w ∈ s.votes, w.id ≠ id) : s.clearCall m = (s, none) := by
  have none : s.voteById? id = none := List.find?_eq_none.2 fun w hw => by simpa using gone w hw
  unfold State.clearCall
  split
  · next e =>
    cases owned.symm.trans e
    rw [none]
  all_goals rfl

section
variable {s : State} {m : Message} {k : Key} {listed : List Nat} {id : Nat} {v : Vote} (call : m.body = .call k listed)
  (owned : m.owner = some id) (vote : s.voteById? id = some v)
include call owned vote

/-- A CALL that leaves the queue clears CALL pending in its vote, which owes the SUM it may offer now. -/
theorem State.clearCall_owes {body : LineBody} (owes : s.sumToOffer? v = some body) :
    s.clearCall m = ((s.modifyVote id fun v => { v with callPending := false }).modifyVote id
      fun v => { v with sumSent := true }, some (newMessage body none)) := by
  have owes : (s.modifyVote id fun v => { v with callPending := false }).sumToOffer? v = some body := owes
  unfold State.clearCall
  rw [call, owned]
  dsimp only
  rw [vote]
  dsimp only
  rw [owes]

/-- A CALL that leaves the queue clears CALL pending in its vote, which owes nothing while it may offer no SUM. -/
theorem State.clearCall_clears (silent : s.sumToOffer? v = none) :
    s.clearCall m = (s.modifyVote id fun v => { v with callPending := false }, none) := by
  have silent : (s.modifyVote id fun v => { v with callPending := false }).sumToOffer? v = none := silent
  unfold State.clearCall
  rw [call, owned]
  dsimp only
  rw [vote]
  dsimp only
  rw [silent]

end

/-- The vote of a CALL that leaves owes no SUM while it has none to offer. -/
theorem State.clearCall_owes_none {s : State} {m : Message}
    (silent : ∀ id, m.owner = some id → ∀ w ∈ s.votes, w.id = id → s.sumToOffer? w = none) :
    (s.clearCall m).2 = none := by
  unfold State.clearCall
  split
  · next id _ owned =>
    split
    · next v vote =>
      obtain ⟨hv, e⟩ := State.voteById?_mem vote
      have none : (s.modifyVote id fun v => { v with callPending := false }).sumToOffer? v = none :=
        silent id owned v hv e
      dsimp only
      rw [none]
    · rfl
  all_goals rfl

theorem State.sumToOffer?_pending (s : State) {v : Vote} (pending : v.own = .pending) : s.sumToOffer? v = none := by
  unfold State.sumToOffer? State.ownSum?
  rw [pending]
  exact ite_self _

theorem State.ownSum?_lineClass {s : State} {v : Vote} {b : LineBody} (own : s.ownSum? v = some b) :
    b.lineClass = 0 := by
  unfold State.ownSum? at own
  split at own <;> cases own <;> rfl

/-- A message called forth is a SUM. -/
theorem State.clearCall_held_lineClass {s t : State} {m held : Message} (h : s.clearCall m = (t, some held)) :
    held.body.lineClass = 0 := by
  obtain ⟨_, _, _, own, rfl⟩ := State.clearCall_held_sum h
  exact State.ownSum?_lineClass own

/-- What follows on a message that has left the queue: the SUM that it calls forth is offered. -/
def State.answerHeld (fuel : Nat) : State × Option Message → State
  | (t, some held) => State.offerFuel fuel held t
  | (t, none) => t

theorem State.messageLeft_eq (s : State) (m : Message) :
    s.messageLeft m = State.answerHeld offerDepth (s.clearCall m) := by
  unfold State.messageLeft
  obtain ⟨t, held⟩ := s.clearCall m
  cases held <;> rfl

theorem State.answerHeld_none {x : State × Option Message} (h : x.2 = none) (fuel : Nat) :
    State.answerHeld fuel x = x.1 := by
  obtain ⟨t, held⟩ := x
  cases h
  rfl

/-- A message that no vote offered leaves without more ado. -/
theorem State.messageLeft_unowned (s : State) {m : Message} (unowned : m.owner = none) : s.messageLeft m = s := by
  rw [State.messageLeft_eq, s.clearCall_unowned unowned]
  rfl

/-! ### An offer, branch by branch (R66, R67, R75) -/

theorem State.offerFuel_mute {s : State} (mute : s.line.state = .mute) (m : Message) :
    ∀ fuel, State.offerFuel fuel m s = s
  | 0 => rfl
  | _ + 1 => if_pos mute

/-- The queue of a unit that takes messages is full. -/
structure LineUnit.Full (l : LineUnit) : Prop where
  loud : l.state ≠ .mute
  full : 32 ≤ l.queue.length

theorem LineUnit.Full.no_room {l : LineUnit} (h : l.Full) : ¬ l.queue.length < Config.maxMessages := Nat.not_lt.2 h.full

/-- A message has joined a full queue in the place of another, and the loss is counted. -/
def State.displaced (s : State) (m : Message) (rest : List Message) : State :=
  ((s.setLine { s.line with queue := rest }).joinQueue m).bump .lineDropped

section
variable {s : State} (full : s.line.Full) (fuel : Nat)
include full

/-- A full queue in which no message may be lost loses the message offered. -/
theorem State.offerFuel_keeps_all {m : Message} (out : takeLast s.line.mayDiscard s.line.queue = none) :
    State.offerFuel (fuel + 1) m s = s.bump .lineDropped := by
  unfold State.offerFuel
  rw [if_neg full.loud, if_neg full.no_room, out]

variable {m victim : Message} {rest : List Message}
  (out : takeLast s.line.mayDiscard s.line.queue = some (victim, rest))
include out

/-- A full queue loses a message offered that has no higher priority than its candidate. -/
theorem State.offerFuel_loses_itself (behind : victim.body.lineClass ≤ m.body.lineClass) :
    State.offerFuel (fuel + 1) m s = s.bump .lineDropped := by
  unfold State.offerFuel
  rw [if_neg full.loud, if_neg full.no_room, out]
  exact if_neg (Nat.not_lt.2 behind)

/-- A message of higher priority than the candidate joins a full queue in its place. -/
theorem State.offerFuel_displaces (ahead : m.body.lineClass < victim.body.lineClass) :
    State.offerFuel (fuel + 1) m s = State.answerHeld fuel ((s.displaced m rest).clearCall victim) := by
  unfold State.offerFuel
  rw [if_neg full.loud, if_neg full.no_room, out]
  dsimp only
  rw [if_pos ahead]
  cases left : (s.displaced m rest).clearCall victim with
  | mk t held =>
    unfold State.displaced at left
    rw [left]
    cases held <;> rfl

end

theorem State.displaced_queue (s : State) (m : Message) (rest : List Message) :
    (s.displaced m rest).line.queue = joinInOrder m rest :=
  State.joinQueue_queue (s.setLine { s.line with queue := rest }) m

theorem State.displaced_frame (s : State) (m : Message) (rest : List Message) :
    SameBut offerParts s (s.displaced m rest) :=
  ((s.setQueue_frame rest).mono (by decide)).trans
    (((State.joinQueue_frame _ m).mono (by decide)).trans ((State.bump_frame _ .lineDropped).mono (by decide)))

theorem State.displaced_count (s : State) (m : Message) (rest : List Message) :
    (s.displaced m rest).count .lineDropped = min 4294967295 (s.count .lineDropped + 1) := by
  have joined : ((s.setLine { s.line with queue := rest }).joinQueue m).count .lineDropped = s.count .lineDropped :=
    (State.joinQueue_frame (s.setLine { s.line with queue := rest }) m) (.counter .lineDropped) (by decide)
  exact (State.count_bump _ _ _).trans ((if_pos rfl).trans (by rw [joined]; rfl))

/-- A message that is no CALL takes its place and touches no vote. -/
theorem State.displaced_not_call (s : State) {m : Message} (other : m.body.lineClass ≠ 1) (rest : List Message) :
    s.displaced m rest = (s.setLine { s.line with queue := joinInOrder m rest }).bump .lineDropped := by
  unfold State.displaced
  rw [State.joinQueue_not_call _ other]
  rfl

/-- The votes are alike once a message has taken another's place. -/
theorem State.displaced_alike (s : State) (m : Message) (rest : List Message) : AlikeVotes s (s.displaced m rest) := by
  obtain ⟨into, back⟩ := (s.setLine { s.line with queue := rest }).joinQueue_alike m
  exact ⟨into, back⟩

/-! ### Fuel enough (R67) -/

/-- The messages of the queue that a SUM can push out: those that are no SUMs. -/
def State.behindSums (s : State) : Nat := s.line.queue.countP fun x => decide (0 < x.body.lineClass)

/-- A SUM that takes another message's place leaves one fewer that a SUM can push out. -/
theorem State.behindSums_displaced {s t : State} {m victim : Message} {held : Option Message} {rest : List Message}
    (sum : m.body.lineClass = 0) (ahead : m.body.lineClass < victim.body.lineClass)
    (out : takeLast s.line.mayDiscard s.line.queue = some (victim, rest))
    (left : (s.displaced m rest).clearCall victim = (t, held)) : t.behindSums + 1 = s.behindSums := by
  have queue : t.line.queue = joinInOrder m rest := by
    rw [show t = ((s.displaced m rest).clearCall victim).1 by rw [left], State.clearCall_queue, State.displaced_queue]
  obtain ⟨-, before, after, e, e', -⟩ := takeLast_spec out
  unfold State.behindSums
  rw [queue, (joinInOrder_perm m rest).countP_eq, e, List.perm_middle.countP_eq, e', List.countP_cons, List.countP_cons]
  have victimCounts : 0 < victim.body.lineClass := by omega
  simp [sum, victimCounts]

/-- The offer of a SUM ends within any fuel over the number of messages that a SUM can push out. -/
theorem State.offerFuel_enough : ∀ (n n' : Nat) {m : Message} {s : State}, m.body.lineClass = 0 → s.behindSums < n →
    s.behindSums < n' → State.offerFuel n m s = State.offerFuel n' m s
  | 0, _, _, _, _, few, _ => nomatch few
  | _ + 1, 0, _, _, _, _, few => nomatch few
  | n + 1, n' + 1, m, s, sum, few, few' => by
    by_cases mute : s.line.state = .mute
    · rw [State.offerFuel_mute mute, State.offerFuel_mute mute]
    by_cases room : s.line.queue.length < 32
    · unfold State.offerFuel
      rw [if_neg mute, if_neg mute, if_pos (show _ < Config.maxMessages from room),
        if_pos (show _ < Config.maxMessages from room)]
    have full : s.line.Full := ⟨mute, Nat.le_of_not_lt room⟩
    cases out : takeLast s.line.mayDiscard s.line.queue with
    | none => rw [State.offerFuel_keeps_all full n out, State.offerFuel_keeps_all full n' out]
    | some taken =>
      obtain ⟨victim, rest⟩ := taken
      by_cases ahead : m.body.lineClass < victim.body.lineClass
      · rw [State.offerFuel_displaces full n out ahead, State.offerFuel_displaces full n' out ahead]
        cases left : (s.displaced m rest).clearCall victim with
        | mk t held =>
          cases held with
          | none => rfl
          | some held =>
            have fewer := State.behindSums_displaced sum ahead out left
            exact State.offerFuel_enough n n' (State.clearCall_held_lineClass left) (by omega) (by omega)
      · rw [State.offerFuel_loses_itself full n out (Nat.le_of_not_lt ahead),
          State.offerFuel_loses_itself full n' out (Nat.le_of_not_lt ahead)]

/-- What a SUM pushes out of a queue of 32 leaves it as any message does. -/
theorem State.answerHeld_displaced {s : State} {m victim : Message} {rest : List Message}
    (sum : m.body.lineClass = 0) (ahead : m.body.lineClass < victim.body.lineClass) (full : s.line.queue.length = 32)
    (out : takeLast s.line.mayDiscard s.line.queue = some (victim, rest)) :
    State.answerHeld 33 ((s.displaced m rest).clearCall victim) = (s.displaced m rest).messageLeft victim := by
  rw [State.messageLeft_eq]
  cases left : (s.displaced m rest).clearCall victim with
  | mk t held =>
    cases held with
    | none => rfl
    | some held =>
      have fewer := State.behindSums_displaced sum ahead out left
      have within : s.behindSums ≤ 32 := full ▸ List.countP_le_length
      exact State.offerFuel_enough 33 34 (State.clearCall_held_lineClass left) (by omega) (by omega)

/-- A message that pushes another out, whose vote owes no SUM, takes its place in the queue, and the loss is counted. -/
theorem State.answerHeld_silent {s : State} {m victim : Message} {rest : List Message}
    (silent : 2 ≤ victim.body.lineClass ∨
      ∀ id, victim.owner = some id → ∀ w ∈ s.votes, w.id = id → w.own = .pending) (fuel : Nat) :
    let t := State.answerHeld fuel ((s.displaced m rest).clearCall victim)
    t.line.queue = joinInOrder m rest ∧ t.count .lineDropped = min 4294967295 (s.count .lineDropped + 1) := by
  intro t
  have owes : ((s.displaced m rest).clearCall victim).2 = none := by
    rcases silent with behind | pending
    · rw [State.clearCall_not_call _ (by omega)]
    · refine State.clearCall_owes_none fun id owned w hw e => State.sumToOffer?_pending _ ?_
      obtain ⟨v, hv, _, _, rfl, -⟩ := (s.displaced_alike m rest).back w hw
      exact pending id owned v hv e
  have ends : t = ((s.displaced m rest).clearCall victim).1 := State.answerHeld_none owes fuel
  rw [ends]
  exact ⟨(State.clearCall_queue _ victim).trans (s.displaced_queue m rest),
    ((State.clearCall_frame _ victim) (.counter .lineDropped) (by decide)).trans (s.displaced_count m rest)⟩

/-- Settles O57: a queue with room takes the message, and a full one loses its last candidate or the message itself. -/
theorem offersJoinByClassAndAge : Obligations.OffersJoinByClassAndAge := by
  unfold Obligations.OffersJoinByClassAndAge
  intro m s
  refine ⟨fun mute => State.offerFuel_mute mute m _, fun loud room => ?_, fun loud many => ⟨?_, fun kept => ?_⟩,
    s.offer_frame m, fun q ordered => ⟨joinInOrder_ordered m ordered, joinInOrder_splits m ordered⟩⟩
  · rw [State.offer_join loud room, State.joinQueue_queue]
  · intro before victim after queue may last
    have full : s.line.Full := ⟨loud, many⟩
    have out : takeLast s.line.mayDiscard s.line.queue = some (victim, before ++ after) :=
      queue ▸ takeLast_eq_some may last before
    refine ⟨State.offerFuel_loses_itself full 33 out, fun ahead silent => ?_, fun ahead call size => ?_⟩
    · have displaces : s.offer m = _ := State.offerFuel_displaces full 33 out ahead
      rw [displaces]
      exact State.answerHeld_silent silent 33
    · have sum : m.body.lineClass = 0 := by omega
      have displaces : s.offer m = _ := State.offerFuel_displaces full 33 out ahead
      rw [displaces, State.answerHeld_displaced sum ahead size out, State.displaced_not_call s (by omega)]
      rfl
  · exact State.offerFuel_keeps_all ⟨loud, many⟩ 33 (takeLast_eq_none kept)

end Sys2Proof.Machine
end

section
/-! The frames of the unit on the line: how they start, end and collide, and what the vote of a CALL hears of it
(R58 to R62, R72, R73, R82, R92). -/

namespace Sys2Proof.Machine

/-! ### What a message that leaves makes of its vote (R82, R92) -/

/-- CALL pending of a vote is clear, and SUM sent as given. -/
def State.callCleared (s : State) (id : Nat) (sent : Bool) : State :=
  { s with votes := s.votes.map fun x : Vote =>
      if x.id = id then { x with callPending := false, sumSent := sent } else x }

theorem State.sumToOffer?_silent {s : State} {v : Vote}
    (silent : v.own = .pending ∨ s.line.state = .mute ∨ v.expected = []) : s.sumToOffer? v = none := by
  rcases silent with pending | shut
  · exact s.sumToOffer?_pending pending
  · exact if_pos shut

theorem State.sumToOffer?_offers {s : State} {v : Vote} (loud : s.line.state ≠ .mute) (expects : v.expected ≠ []) :
    s.sumToOffer? v = s.ownSum? v := if_neg (not_or.2 ⟨loud, expects⟩)

section
variable {s : State} {m : Message} {k : Key} {listed : List Nat} {w : Vote} (call : m.body = .call k listed)
  (owned : m.owner = some w.id) (ids : (s.votes.map Vote.id).Nodup) (hw : w ∈ s.votes)
include call owned ids hw

/-- A CALL that leaves clears CALL pending in its vote, and no more while the vote may offer no SUM. -/
theorem State.messageLeft_clears (silent : s.sumToOffer? w = none) :
    s.messageLeft m = s.callCleared w.id w.sumSent := by
  rw [State.messageLeft_eq, State.clearCall_clears call owned (State.voteById?_of_mem ids hw) silent]
  refine congrArg s.setVotes (List.map_congr_left fun x hx => ?_)
  split
  · next e => rw [← eq_of_map_nodup ids hx hw e]
  · rfl

/-- A CALL that leaves clears CALL pending in its vote, and the SUM the vote held back is offered. -/
theorem State.messageLeft_offers {body : LineBody} (owes : s.sumToOffer? w = some body) :
    s.messageLeft m = (s.callCleared w.id true).offer (newMessage body none) := by
  rw [State.messageLeft_eq, State.clearCall_owes call owned (State.voteById?_of_mem ids hw) owes]
  have votes : (s.modifyVote w.id fun v => { v with callPending := false }).modifyVote w.id
      (fun v => { v with sumSent := true }) = s.callCleared w.id true := by
    refine congrArg s.setVotes (List.map_map.trans (List.map_congr_left fun x _ => ?_))
    by_cases e : x.id = w.id <;> simp [e]
  rw [votes]
  rfl

end

/-- A CALL whose vote is gone leaves without more ado. -/
theorem State.messageLeft_gone {s : State} {m : Message} {id : Nat} (owned : m.owner = some id)
    (gone : ∀ w ∈ s.votes, w.id ≠ id) : s.messageLeft m = s := by
  rw [State.messageLeft_eq, s.clearCall_gone owned gone]
  rfl

/-! ### What holds on while SUMs are offered -/

/-- What joining SUMs, pushing messages out for them and counting losses keep, the offer of a SUM keeps. -/
theorem State.offerFuel_keeps {P : State → Prop}
    (joins : ∀ {s : State} {m : Message}, m.body.lineClass = 0 → P s → P (s.joinQueue m))
    (displaces : ∀ {s : State} {m victim : Message} {rest : List Message}, m.body.lineClass = 0 →
      takeLast s.line.mayDiscard s.line.queue = some (victim, rest) → P s → P ((s.displaced m rest).clearCall victim).1)
    (counts : ∀ {s : State}, P s → P (s.bump .lineDropped)) :
    ∀ (n : Nat) {m : Message} {s : State}, m.body.lineClass = 0 → P s → P (State.offerFuel n m s)
  | 0, _, _, _, h => h
  | n + 1, m, s, sum, h => by
    by_cases mute : s.line.state = .mute
    · rw [State.offerFuel_mute mute]
      exact h
    by_cases room : s.line.queue.length < 32
    · unfold State.offerFuel
      rw [if_neg mute, if_pos (show _ < Config.maxMessages from room)]
      exact joins sum h
    have full : s.line.Full := ⟨mute, Nat.le_of_not_lt room⟩
    cases out : takeLast s.line.mayDiscard s.line.queue with
    | none =>
      rw [State.offerFuel_keeps_all full n out]
      exact counts h
    | some taken =>
      obtain ⟨victim, rest⟩ := taken
      by_cases ahead : m.body.lineClass < victim.body.lineClass
      · have base := displaces sum out h
        rw [State.offerFuel_displaces full n out ahead]
        cases left : (s.displaced m rest).clearCall victim with
        | mk t held =>
          rw [left] at base
          cases held with
          | none => exact base
          | some held =>
            exact State.offerFuel_keeps joins displaces counts n (State.clearCall_held_lineClass left) base
      · rw [State.offerFuel_loses_itself full n out (Nat.le_of_not_lt ahead)]
        exact counts h

/-- What holds once a message has left, and while SUMs are offered, holds when its vote has offered the SUM it held
back. -/
theorem State.messageLeft_keeps {P : State → Prop}
    (joins : ∀ {s : State} {m : Message}, m.body.lineClass = 0 → P s → P (s.joinQueue m))
    (displaces : ∀ {s : State} {m victim : Message} {rest : List Message}, m.body.lineClass = 0 →
      takeLast s.line.mayDiscard s.line.queue = some (victim, rest) → P s → P ((s.displaced m rest).clearCall victim).1)
    (counts : ∀ {s : State}, P s → P (s.bump .lineDropped)) {s : State} {m : Message} (h : P (s.clearCall m).1) :
    P (s.messageLeft m) := by
  rw [State.messageLeft_eq]
  cases left : s.clearCall m with
  | mk t held =>
    rw [left] at h
    cases held with
    | none => exact h
    | some held => exact State.offerFuel_keeps joins displaces counts _ (State.clearCall_held_lineClass left) h

/-- CALL pending is clear in every vote of a number. -/
def CallClear (id : Nat) (s : State) : Prop := ∀ w ∈ s.votes, w.id = id → w.callPending = false

theorem CallClear.clearCall {id : Nat} {s : State} (h : CallClear id s) (m : Message) :
    CallClear id (s.clearCall m).1 := by
  have first : ∀ x, CallClear id (s.modifyVote x fun v => { v with callPending := false }) := fun x w hw e => by
    rcases State.mem_modifyVote.1 hw with ⟨v, _, _, rfl⟩ | ⟨hw, _⟩
    · rfl
    · exact h w hw e
  unfold State.clearCall
  split
  · next x _ _ =>
    split
    · dsimp only
      split
      · intro w hw e
        rcases State.mem_modifyVote.1 hw with ⟨v, hv, _, rfl⟩ | ⟨hw, _⟩
        · exact first x v hv e
        · exact first x w hw e
      · exact first x
    · exact h
  all_goals exact h

/-- A CALL that leaves the queue leaves CALL pending clear in its vote. -/
theorem State.clearCall_callClear (s : State) {m : Message} {k : Key} {listed : List Nat} {id : Nat}
    (call : m.body = .call k listed) (owned : m.owner = some id) : CallClear id (s.clearCall m).1 := by
  have cleared : CallClear id (s.modifyVote id fun v => { v with callPending := false }) := fun w hw e => by
    rcases State.mem_modifyVote.1 hw with ⟨v, _, _, rfl⟩ | ⟨_, other⟩
    · rfl
    · exact absurd e other
  cases vote : s.voteById? id with
  | none =>
    have gone : ∀ w ∈ s.votes, w.id ≠ id := fun w hw => by simpa using List.find?_eq_none.1 vote w hw
    rw [s.clearCall_gone owned gone]
    exact fun w hw e => absurd e (gone w hw)
  | some v =>
    cases owes : s.sumToOffer? v with
    | none =>
      rw [State.clearCall_clears call owned vote owes]
      exact cleared
    | some body =>
      rw [State.clearCall_owes call owned vote owes]
      intro w hw e
      rcases State.mem_modifyVote.1 hw with ⟨v, hv, _, rfl⟩ | ⟨hw, _⟩
      · exact cleared v hv e
      · exact cleared w hw e

/-- CALL pending stays clear in the vote of a CALL that has left, whatever its SUM pushes out. -/
theorem State.messageLeft_callClear (s : State) {m : Message} {k : Key} {listed : List Nat} {id : Nat}
    (call : m.body = .call k listed) (owned : m.owner = some id) : CallClear id (s.messageLeft m) := by
  refine State.messageLeft_keeps (fun sum h => ?_) (fun sum _ h => ?_) (fun h => h) (s.clearCall_callClear call owned)
  · rw [State.joinQueue_not_call _ (by omega)]
    exact h
  · rw [State.displaced_not_call _ (by omega)]
    refine CallClear.clearCall ?_ _
    exact h

/-! ### Slots that pass for a count (R58, R61) -/

/-- The slots that a quiet line, or one under a jam, takes for as many quiet ones. -/
theorem LineUnit.slotsFor_free {l : LineUnit} {need : Nat} (idle : l.transmitting = false) (free : l.activity ≠ .other)
    (jam : l.activity = .jam → 0 < need) : let k := need + if l.activity = .jam then 1 else 0
    l.slotsFor need = some k ∧ l.quietSlots k = need ∧ l.activityAfter k = .quiet := by
  unfold LineUnit.slotsFor LineUnit.quietSlots LineUnit.activityAfter
  cases activity : l.activity with
  | other => exact absurd activity free
  | quiet => by_cases none : need = 0 <;> simp [idle, none]
  | jam =>
    have some' : need ≠ 0 := Nat.ne_of_gt (jam activity)
    simp [idle, some']

/-- Out of reset every slot that passes is the line's too. -/
theorem State.passSlots_awake {s : State} (awake : s.resetLine = false) (k : Nat) :
    s.passSlots k = { s with now := s.now + k * s.slotTime, line := s.line.passSlots k } := by
  unfold State.passSlots
  exact if_neg (by rw [awake]; decide)

/-- On a quiet line, or one under a jam, the slots pass that bring as many quiet ones as are needed. -/
theorem State.passSlots_free {s : State} {need : Nat} (awake : s.resetLine = false) (idle : s.line.transmitting = false)
    (free : s.line.activity ≠ .other) (jam : s.line.activity = .jam → 0 < need) :
    let k := need + if s.line.activity = .jam then 1 else 0
    s.passSlots k = { s with
      now := s.now + k * s.slotTime
      line := { s.line with
        activity := .quiet, quietCount := s.line.quietCount + need
        listenCount :=
          if s.line.state = .listen then min 290 (s.line.listenCount + need) else s.line.listenCount } } := by
  obtain ⟨_, quiets, after⟩ := LineUnit.slotsFor_free idle free jam
  intro k
  rw [State.passSlots_awake awake]
  unfold LineUnit.passSlots
  rw [quiets, after]
  rfl

/-! ### A frame starts (R58, R59, R72) -/

theorem putOnLine_eq {p : Message → Bool} {m : Message} {after : List Message} (first : p m = true) :
    ∀ {before : List Message}, (∀ y ∈ before, p y = false) →
      putOnLine p (before ++ m :: after) = before ++ { m with onLine := true } :: after
  | [], _ => if_pos first
  | y :: before, others => by
    obtain ⟨fails, others⟩ := List.forall_mem_cons.1 others
    rw [List.cons_append, putOnLine, fails, putOnLine_eq first others]
    rfl

/-- The head's frame starts once its wait has passed. -/
theorem exec_lineFrameStart_starts {s : State} {m : Message} {wait : Nat} (awake : s.resetLine = false)
    (idle : s.line.transmitting = false) (free : s.line.activity ≠ .other)
    (head : s.line.state.mayTransmit = true ∧ s.line.head? = some m) (waits : m.wait s.strap.station.val = wait)
    (jam : s.line.activity = .jam → s.line.quietCount < wait) :
    let k := wait - s.line.quietCount + if s.line.activity = .jam then 1 else 0
    let t : State := { s with
      now := s.now + k * s.slotTime
      line := { s.line with activity := .quiet, quietCount := max wait s.line.quietCount } }
    exec .lineFrameStart s = .next (t.setLine t.line.startHead) := by
  have needed : s.line.activity = .jam → 0 < wait - s.line.quietCount := fun e => Nat.sub_pos_of_lt (jam e)
  have sending : s.line.state ≠ .listen := fun e => by rw [e] at head; cases head.1
  have slots := (LineUnit.slotsFor_free idle free needed).1
  have passed := State.passSlots_free awake idle free needed
  have waited : s.line.quietCount + (wait - s.line.quietCount) = max wait s.line.quietCount := by omega
  rw [if_neg sending, waited] at passed
  intro k t
  show execLineFrameStart s = _
  unfold execLineFrameStart
  rw [awake, idle, head.1, head.2, if_neg (by decide)]
  dsimp only
  rw [waits, slots]
  dsimp only
  rw [passed]
  rfl

/-- The head's frame goes on the line, and no other message changes. -/
theorem LineUnit.startHead_eq {l : LineUnit} {before after : List Message} {m : Message}
    (queue : l.queue = before ++ m :: after)
    (head : (l.state = .joining ∧ m.isJoining = true ∧ ∀ y ∈ before, y.isJoining = false) ∨
      (l.state = .active ∧ before = [])) :
    l.startHead = { l with queue := before ++ { m with onLine := true } :: after } := by
  unfold LineUnit.startHead
  rw [queue]
  rcases head with ⟨joining, first, none⟩ | ⟨active, rfl⟩
  · rw [putOnLine_eq (by rw [if_pos joining, first]) fun y hy => by rw [if_pos joining, none y hy]]
  · rw [putOnLine_eq (by rw [active]; rfl) (List.forall_mem_nil _)]

/-- The frame on the line is that of the first message whose frame is. -/
theorem State.frameOnLine?_eq {s : State} {before after : List Message} {m : Message}
    (queue : s.line.queue = before ++ m :: after) (none : ∀ y ∈ before, y.onLine = false) (sent : m.onLine = true) :
    s.frameOnLine? = some (m.body.frameBytes s.strap.station.val) := by
  have found : s.line.queue.find? Message.onLine = some m :=
    List.find?_eq_some_iff_append.2 ⟨sent, before, after, queue, fun y hy => by rw [none y hy]; rfl⟩
  unfold State.frameOnLine?
  rw [found]
  rfl

theorem LineUnit.transmitting_eq_false {l : LineUnit} : l.transmitting = false ↔ ∀ y ∈ l.queue, y.onLine = false := by
  unfold LineUnit.transmitting
  simp

/-- LINE_FRAME_START with nothing that can start leaves the state as it is. -/
theorem exec_lineFrameStart_waits {s : State} (waits : s.line.state = .listen ∨ s.line.state = .mute ∨
    s.line.transmitting = true ∨ s.line.queue = [] ∨ s.line.activity = .other) : exec .lineFrameStart s = .next s := by
  show execLineFrameStart s = _
  unfold execLineFrameStart
  split
  · rfl
  next mayStart =>
    simp only [Bool.or_eq_true, Bool.not_eq_true', not_or, Bool.not_eq_true, Bool.not_eq_false] at mayStart
    obtain ⟨⟨awake, may⟩, idle⟩ := mayStart
    have waits : s.line.queue = [] ∨ s.line.activity = .other := by
      rcases waits with e | e | e | waits
      · rw [e] at may; cases may
      · rw [e] at may; cases may
      · rw [idle] at e; cases e
      · exact waits
    split
    · rfl
    next m head =>
      have other : s.line.activity = .other := by
        refine waits.resolve_left fun empty => ?_
        unfold LineUnit.head? at head
        rw [empty] at head
        split at head <;> cases head
      have busy : ∀ k, (s.passSlots k).line.activity = .other := fun k => by
        rw [State.passSlots_awake awake]
        show (s.line.activityAfter k) = _
        unfold LineUnit.activityAfter
        rw [other]
        rfl
      split
      · next k _ =>
        dsimp only
        rw [busy k]
        rfl
      · rfl

/-! ### A frame has been sent (R60, R72, R73) -/

/-- The state when a frame of the unit ends on the line, but for its count and its vote. -/
def State.frameEnded (s : State) (m : Message) (rest : List Message) : State :=
  { s with line := { s.line with
      queue := rest, quietCount := 0, activity := .quiet
      state := if s.line.state = .joining ∧ m.isJoining = true then .active else s.line.state
      beacon := some { start := s.now, length := max 1 (timeOfCode s.timers.silence / 2) } } }

section
variable {s : State} {before after : List Message} {m : Message} (queue : s.line.queue = before ++ m :: after)
  (sent : m.onLine = true) (last : ∀ y ∈ after, y.onLine = false)
include queue sent last

theorem exec_lineFrameSent :
    exec .lineFrameSent s = .next (((s.frameEnded m (before ++ after)).bump .lineSent).messageLeft m) := by
  show execLineFrameSent s = _
  unfold execLineFrameSent
  rw [queue, takeLast_eq_some sent last]
  rfl

end

/-- LINE_FRAME_SENT and COLLISION with no frame of the unit on the line leave the state as it is. -/
theorem exec_no_frame {s : State} (idle : s.line.transmitting = false) :
    exec .lineFrameSent s = .next s ∧ exec .collision s = .next s := by
  have none : takeLast Message.onLine s.line.queue = none := takeLast_eq_none (LineUnit.transmitting_eq_false.1 idle)
  constructor
  · show execLineFrameSent s = _
    unfold execLineFrameSent
    rw [none]
  · show execCollision s = _
    unfold execCollision
    rw [none]

/-- Settles O58: the slots of the head's wait pass and its frame starts; at its end the message leaves for its vote. -/
theorem framesStartAndAreSent : Obligations.FramesStartAndAreSent := by
  unfold Obligations.FramesStartAndAreSent
  intro s
  refine ⟨fun before m after awake idle free queue head => ?_, exec_lineFrameStart_waits, fun idle => ?_,
    fun busy => ?_, fun before m after queue sent last => ?_,
    fun m k l id call owned ids => ⟨State.messageLeft_gone owned, fun w hw e => ?_⟩,
    fun idle => (exec_no_frame idle).1, fun b => by cases b <;> rfl⟩
  · intro wait jam k t
    have mayHead : s.line.state.mayTransmit = true ∧ s.line.head? = some m :=
      LineUnit.head?_iff.2 ⟨before, after, queue, head⟩
    have others : ∀ y ∈ before, y.onLine = false := fun y hy =>
      LineUnit.transmitting_eq_false.1 idle y (queue ▸ List.mem_append_left _ hy)
    refine ⟨(exec_lineFrameStart_starts awake idle free mayHead rfl jam).trans ?_,
      State.frameOnLine?_eq (s := t) (m := { m with onLine := true }) rfl others rfl⟩
    exact congrArg (fun l => Host.Outcome.next (t.setLine l)) (LineUnit.startHead_eq queue head)
  · show execLineActivityBegins s = _
    unfold execLineActivityBegins
    rw [idle]
    rfl
  · show execLineActivityBegins s = _
    unfold execLineActivityBegins
    rw [busy]
    rfl
  · intro u
    have ends : exec .lineFrameSent s = .next ((u.bump .lineSent).messageLeft m) := exec_lineFrameSent queue sent last
    have left := (u.bump .lineSent).messageLeft_frame m
    refine ⟨ends, fun unowned => by rw [ends, State.messageLeft_unowned _ unowned], _, ends, ?_,
      ((u.bump_frame .lineSent).mono (by decide)).trans (left.mono (by decide)),
      fun _ _ _ call owned => State.messageLeft_callClear _ call owned⟩
    exact (left (.counter .lineSent) (by decide)).trans ((State.count_bump _ _ _).trans (if_pos rfl))
  · intro cleared
    subst e
    refine ⟨fun silent => State.messageLeft_clears call owned ids hw (State.sumToOffer?_silent silent),
      fun loud expects body own => ?_⟩
    have offers := State.messageLeft_offers call owned ids hw ((State.sumToOffer?_offers loud expects).trans own)
    refine ⟨offers, fun room => offers.trans ?_⟩
    rw [State.offer_join (s := s.callCleared w.id true) loud room,
      State.joinQueue_not_call _ (by rw [newMessage, State.ownSum?_lineClass own]; decide)]
    rfl

/-! ### A collision (R61, R62, R72) -/

theorem map_collided_off {q : List Message} (off : ∀ y ∈ q, y.onLine = false) : q.map Message.collided = q :=
  (List.map_congr_left fun y hy => Message.collided_off (off y hy)).trans q.map_id

/-- The line under the jam of a collision, with the queue as it then is. -/
def State.jammedWith (s : State) (q : List Message) : State :=
  { s with line := { s.line with queue := q, activity := .jam, quietCount := 0 } }

theorem State.jammedWith_frame (s : State) (q : List Message) : SameBut [.lineClock, .lineQueue] s (s.jammedWith q) :=
  ((s.setQueue_frame q).mono (by decide)).trans
    ((State.setClock_frame (s.setLine { s.line with queue := q }) (s.jammedWith q).line).mono (by decide))

section
variable {s : State} {before after : List Message} {m : Message} (queue : s.line.queue = before ++ m :: after)
  (sent : m.onLine = true) (first : ∀ y ∈ before, y.onLine = false) (last : ∀ y ∈ after, y.onLine = false)
include queue sent last

include first in
/-- A message keeps its place, with one more collision, up to the 15th. -/
theorem exec_collision_keeps (few : m.collisions + 1 < 16) : exec .collision s = .next ((s.jammedWith
    (before ++ { m with onLine := false, collisions := m.collisions + 1 } :: after)).bump .collisions) := by
  have collided : s.line.queue.map Message.collided =
      before ++ { m with onLine := false, collisions := m.collisions + 1 } :: after := by
    rw [queue, List.map_append, List.map_cons, map_collided_off first, map_collided_off last, Message.collided,
      if_pos sent]
  show execCollision s = _
  unfold execCollision
  rw [queue, takeLast_eq_some sent last]
  dsimp only
  rw [if_pos (show _ < Config.maxCollisions from few)]
  show Host.Outcome.next ((s.bump .collisions).setLine (s.line.jammed (s.line.queue.map Message.collided))) = _
  rw [collided]
  rfl

variable (many : 16 ≤ m.collisions + 1)
include many

/-- At its 16th collision a message leaves the queue and is lost; a PRESENT JOINING is then made anew. -/
theorem exec_collision_loses : let lost := ((s.jammedWith (before ++ after)).bump .collisions).bump .lineDropped
    exec .collision s = .next (if s.line.state = .joining ∧ m.isJoining = true then lost.placeJoining
      else lost.messageLeft m) := by
  intro lost
  show execCollision s = _
  unfold execCollision
  rw [queue, takeLast_eq_some sent last]
  dsimp only
  rw [if_neg (show ¬ _ < Config.maxCollisions from Nat.not_lt.2 many)]
  exact (apply_ite _ _ _ _).symm

end

/-- Settles O59: the message keeps its place up to the 15th collision, and at the 16th leaves the queue for its vote. -/
theorem collisionsAreCountedToSixteen : Obligations.CollisionsAreCountedToSixteen := by
  unfold Obligations.CollisionsAreCountedToSixteen
  refine fun s => ⟨fun before m after queue sent first last => ?_, fun idle => (exec_no_frame idle).2⟩
  intro jammed
  have keeps := exec_collision_keeps queue sent first last
  have loses := exec_collision_loses queue sent last
  have counted : ∀ q, SameBut (.lineClock :: .counter .collisions :: offerParts) s ((s.jammedWith q).bump .collisions) ∧
      ((s.jammedWith q).bump .collisions).count .collisions = min 4294967295 (s.count .collisions + 1) := fun q =>
    ⟨((s.jammedWith_frame q).mono (by decide)).trans ((State.bump_frame _ _).mono (by decide)),
      (State.count_bump _ _ _).trans (if_pos rfl)⟩
  refine ⟨keeps, fun many other => ?_, fun many joining isJoining room => ?_, ?_⟩
  · have plain : ¬ (s.line.state = .joining ∧ m.isJoining = true) := fun ⟨joining, isJoining⟩ =>
      other.elim (fun e => e joining) fun e => by rw [isJoining] at e; cases e
    intro lost
    have left : exec .collision s = .next (lost.messageLeft m) := (loses many).trans (by rw [if_neg plain]; rfl)
    exact ⟨left, fun unowned => by rw [left, State.messageLeft_unowned _ unowned]⟩
  · rw [loses many, if_pos ⟨joining, isJoining⟩]
    unfold State.placeJoining
    exact congrArg Host.Outcome.next (if_pos room)
  · by_cases few : m.collisions + 1 < 16
    · obtain ⟨frame, count⟩ := counted _
      exact ⟨_, keeps few, count, frame, fun many => absurd few (Nat.not_lt.2 many)⟩
    · obtain ⟨frame, count⟩ := counted (before ++ after)
      have lost := (State.bump_frame ((s.jammedWith (before ++ after)).bump .collisions) .lineDropped).mono
        (qs := offerParts) (by decide)
      by_cases joins : s.line.state = .joining ∧ m.isJoining = true
      · have placed := lost.trans (State.placeJoining_frame _)
        refine ⟨_, (loses (Nat.le_of_not_lt few)).trans (by rw [if_pos joins]),
          (placed (.counter .collisions) (by decide)).trans count, frame.trans (placed.mono (by decide)),
          fun _ k l _ call => ?_⟩
        obtain ⟨_, isJoining⟩ := joins
        unfold Message.isJoining at isJoining
        rw [call] at isJoining
        cases isJoining
      · have left := lost.trans (State.messageLeft_frame _ m)
        exact ⟨_, (loses (Nat.le_of_not_lt few)).trans (by rw [if_neg joins]),
          (left (.counter .collisions) (by decide)).trans count, frame.trans (left.mono (by decide)),
          fun _ _ _ _ call owned => State.messageLeft_callClear _ call owned⟩

end Sys2Proof.Machine
end

section
/-! A vote in GATHERING through what happens to other votes: the answers it has and those it lacks stay the same until
its own closure test (R99). -/

namespace Sys2Proof.Machine

/-- A vote gathers its answers: the stations it expects, and the answers recorded so far. -/
structure Vote.Gathers (expected : List Nat) (answers : List Answer) (w : Vote) : Prop where
  state : w.state = .gathering
  expected : w.expected = expected
  answers : w.answers = answers

theorem Vote.Gathers.alike {expected : List Nat} {answers : List Answer} {v w : Vote} (h : v.Gathers expected answers)
    (k : v.Alike w) : w.Gathers expected answers := by
  obtain ⟨_, _, rfl, -⟩ := k
  exact ⟨h.state, h.expected, h.answers⟩

/-- What leaves the votes and their numbers alone leaves what is true of one. -/
theorem VoteIs.frame {id : Nat} {P : Vote → Prop} {s t : State} {ps : List Part} (p : VoteIs id P s)
    (h : SameBut ps s t) (hp : ∀ part ∈ [Part.votes, .nextVote], part ∉ ps) : VoteIs id P t := by
  have votes : t.votes = s.votes := h .votes (hp _ (by decide))
  have next : t.nextVote = s.nextVote := h .nextVote (hp _ (by decide))
  exact ⟨next ▸ p.given, fun w hw => p.holds w (votes ▸ hw)⟩

/-- A change to the vote of another number. -/
theorem VoteIs.modifyOther {id : Nat} {P : Vote → Prop} {s : State} (p : VoteIs id P s) {x : Nat} (other : x ≠ id)
    {f : Vote → Vote} (hf : ∀ v ∈ s.votes, v.id = x → (f v).id = x) : VoteIs id P (s.modifyVote x f) := by
  refine ⟨p.given, fun w hw e => ?_⟩
  rcases State.mem_modifyVote.1 hw with ⟨v, hv, at', rfl⟩ | ⟨hw, _⟩
  · exact absurd ((hf v hv at').symm.trans e) other
  · exact p.holds w hw e

section
variable {id : Nat} {expected : List Nat} {answers : List Answer} {s : State}

theorem VoteIs.alike {t : State} (p : VoteIs id (Vote.Gathers expected answers) s) (h : AlikeVotes s t)
    (next : t.nextVote = s.nextVote) : VoteIs id (Vote.Gathers expected answers) t := by
  refine ⟨next ▸ p.given, fun w hw e => ?_⟩
  obtain ⟨v, hv, alike⟩ := h.back w hw
  exact (p.holds v hv (alike.id_key.1.symm.trans e)).alike alike

theorem VoteIs.offer (p : VoteIs id (Vote.Gathers expected answers) s) (m : Message) :
    VoteIs id (Vote.Gathers expected answers) (s.offer m) :=
  p.alike (s.offer_alike m) (s.offer_frame m .nextVote (by decide))

/-- The arbiter issues for votes that wait for their read, and a vote in GATHERING does not. -/
theorem VoteIs.issueFuel : ∀ (n : Nat) {s : State}, VoteIs id (Vote.Gathers expected answers) s →
    VoteIs id (Vote.Gathers expected answers) (State.issueFuel n s)
  | 0, _, p => p
  | n + 1, s, p => by
    unfold State.issueFuel
    split
    · split
      · next v chosen =>
        obtain ⟨hv, waits⟩ := State.chosen?_mem chosen
        have other : v.id ≠ id := fun e => by
          have gathers := (p.holds v hv e).state
          rw [waits] at gathers
          cases gathers
        obtain ⟨given, holds⟩ :=
          p.modifyOther other (f := fun w => { w with state := .reading, checks := [] }) fun _ _ e => e
        exact VoteIs.issueFuel n ⟨given, holds⟩
      · exact p
    · exact p

/-- A vote is opened under a number of its own. -/
theorem VoteIs.openCalling (p : VoteIs id (Vote.Gathers expected answers) s) (k : Key) (o : Origin) :
    VoteIs id (Vote.Gathers expected answers) (s.openCalling k o) := by
  have added : VoteIs id (Vote.Gathers expected answers) (s.addVote (s.newVote k o none)) := by
    refine ⟨Nat.lt_succ_of_lt p.given, fun w hw e => ?_⟩
    rcases List.mem_append.1 hw with old | new
    · exact p.holds w old e
    · rw [List.mem_singleton.1 new] at e
      exact absurd e (Nat.ne_of_gt p.given)
  have called : VoteIs id (Vote.Gathers expected answers)
      ((s.addVote (s.newVote k o none)).offerCall (s.newVote k o none)) := by
    unfold State.offerCall
    dsimp only
    split
    · exact added
    · exact added.offer _
  exact called.issueFuel _

theorem VoteIs.walkStep (p : VoteIs id (Vote.Gathers expected answers) s) :
    VoteIs id (Vote.Gathers expected answers) s.walkStep := by
  unfold State.walkStep
  split
  · exact p.frame s.completeRound_frame (by decide)
  split
  · exact p.frame (s.moveCursor_frame _ _) (by decide)
  split
  · exact p.frame (s.moveCursor_frame _ _) (by decide)
  next x _ _ _ =>
    dsimp only
    split
    · exact p.frame ((s.setRun_frame _).comp (State.cursorOn_frame _ x) (by decide) fun _ h => h) (by decide)
    · rw [s.callFrame_eq]
      obtain ⟨given, holds⟩ := p.openCalling { reel := x.reel, frame := s.sweep.cursorFrame } .sweep
      have opened : VoteIs id (Vote.Gathers expected answers)
          (s.openSwept { reel := x.reel, frame := s.sweep.cursorFrame }) := ⟨given, holds⟩
      exact (opened.frame (State.cursorOn_frame _ x) (by decide)).frame (State.spendBurst_frame _) (by decide)

theorem VoteIs.walkFuel : ∀ (n : Nat) {s : State}, VoteIs id (Vote.Gathers expected answers) s →
    VoteIs id (Vote.Gathers expected answers) (State.walkFuel n s)
  | 0, _, p => p
  | n + 1, s, p => by
    unfold State.walkFuel
    split
    · exact VoteIs.walkFuel n p.walkStep
    · exact p

/-- Another vote is delivered. -/
theorem VoteIs.deliver (p : VoteIs id (Vote.Gathers expected answers) s) (v : Vote) (d : Decision)
    (l : Option Located) : VoteIs id (Vote.Gathers expected answers) (s.deliver v d l) := by
  obtain ⟨given, holds⟩ := p.frame (s.deliverMarks_frame v d l) (by cases d.verdict <;> decide)
  have removed : VoteIs id (Vote.Gathers expected answers) ((s.deliverMarks v d l).removeVote v.id) :=
    ⟨given, fun w hw => holds w (State.mem_removeVote.1 hw).1⟩
  have left : VoteIs id (Vote.Gathers expected answers)
      (((s.deliverMarks v d l).removeVote v.id).offerHeldSum v) := by
    unfold State.offerHeldSum
    split
    · split
      · exact removed.offer _
      · exact removed
    · exact removed
  exact VoteIs.walkFuel _ left

theorem VoteIs.offerTiles (p : VoteIs id (Vote.Gathers expected answers) s) (v : Vote) (d : Decision) :
    VoteIs id (Vote.Gathers expected answers) (s.offerTiles v d) := by
  unfold State.offerTiles
  split
  · split
    · exact foldl_kept (fun _ _ q => q.offer _) _ p
    · exact p
  all_goals exact p

theorem VoteIs.replaceOther (p : VoteIs id (Vote.Gathers expected answers) s) {v : Vote} (other : v.id ≠ id) :
    VoteIs id (Vote.Gathers expected answers) (s.modifyVote v.id fun _ => v) :=
  p.modifyOther other fun _ _ _ => rfl

/-- The localisation of another vote ends. -/
theorem VoteIs.endUnlocatedOther (p : VoteIs id (Vote.Gathers expected answers) s) {v : Vote} (other : v.id ≠ id)
    (f : VoteFlags → VoteFlags) : VoteIs id (Vote.Gathers expected answers) (s.endUnlocated v f) := by
  unfold State.endUnlocated
  split
  · next d _ => exact (p.replaceOther (v := { v with flags := f v.flags, localisation := none }) other).deliver _ d none
  · exact p

/-- Another vote goes into LOCALISING. -/
theorem VoteIs.localiseOther (p : VoteIs id (Vote.Gathers expected answers) s) {v : Vote} (other : v.id ≠ id) :
    VoteIs id (Vote.Gathers expected answers) (s.localise v) := by
  unfold State.localise
  dsimp only
  split
  · exact (p.replaceOther other).endUnlocatedOther other _
  · exact p.replaceOther other

/-- Another vote closes. -/
theorem VoteIs.closeOther (p : VoteIs id (Vote.Gathers expected answers) s) {v : Vote} (other : v.id ≠ id) :
    VoteIs id (Vote.Gathers expected answers) (s.close v) := by
  have delivered : ∀ (r : Bool) (d : Decision), VoteIs id (Vote.Gathers expected answers)
      (((s.modifyVote v.id fun _ => v.closed r).offerTiles (v.closed r) d).deliver (v.closed r) d none) := fun r d =>
    ((p.replaceOther (v := v.closed r) other).offerTiles (v.closed r) d).deliver (v.closed r) d none
  unfold State.close
  dsimp only
  split
  · exact p.localiseOther other
  · exact p.localiseOther other
  all_goals exact delivered _ _

/-- The closure test of another vote. -/
theorem VoteIs.closureTestOther (p : VoteIs id (Vote.Gathers expected answers) s) {x : Nat} (other : x ≠ id) :
    VoteIs id (Vote.Gathers expected answers) (s.closureTest x) := by
  unfold State.closureTest
  split
  · next v vote =>
    split
    · exact p.closeOther ((State.voteById?_mem vote).2 ▸ other)
    · exact p
  · exact p

/-- The closure test of a vote that lacks no station's answer leaves it in LOCALISING, or takes it out of the table. -/
theorem State.closureTest_complete (n : Numbered s) (p : VoteIs id (Vote.Gathers expected answers) s)
    (complete : ∀ x ∈ expected, (answers.any fun a => decide (a.station = x)) = true ∨ s.line.isSilent x = true) :
    VoteIs id (fun w => w.state = .localising) (s.closureTest id) := by
  have given : id < (s.closureTest id).nextVote := Nat.lt_of_lt_of_le p.given (Grows.closureTest s id).evolves.next
  refine ⟨given, fun w hw e => ?_⟩
  unfold State.closureTest at hw
  cases vote : s.voteById? id with
  | none =>
    rw [vote] at hw
    exact absurd e (by simpa using List.find?_eq_none.1 vote w hw)
  | some v =>
    obtain ⟨hv, at'⟩ := State.voteById?_mem vote
    obtain ⟨gathering, rfl, rfl⟩ := p.holds v hv at'
    have full : s.isComplete v = true := List.all_eq_true.2 fun x hx => Bool.or_eq_true_iff.2 (complete x hx)
    rw [vote] at hw
    dsimp only at hw
    rw [if_pos ⟨gathering, full⟩] at hw
    exact (Grows.close hv).2 n w hw (e.trans at'.symm)

end

end Sys2Proof.Machine
end

section
/-! Listening, the beacon and silence: what ENTER_JOINING, BEACON_TIMER_EXPIRY and SILENCE_EXPIRY leave (R69 to R74,
R82, R92, R99). -/

namespace Sys2Proof.Machine

/-! ### The PRESENT JOINING (R71, R72) -/

/-- The PRESENT JOINING as it is made. -/
def State.joiningMessage (s : State) : Message := newMessage (s.presentBody .joining) none

theorem State.placeJoining_joins {s : State} (room : s.line.queue.length < 32) :
    s.placeJoining = s.setLine { s.line with queue := joinInOrder s.joiningMessage s.line.queue } :=
  if_pos (show _ < Config.maxMessages from room)

/-- Of a full queue with no frame on the line the last message makes way for the PRESENT JOINING. -/
theorem State.placeJoining_displaces {s : State} {kept : List Message} {last : Message}
    (queue : s.line.queue = kept ++ [last]) (full : 32 ≤ s.line.queue.length) (off : last.onLine = false) :
    s.placeJoining = (s.displaced s.joiningMessage kept).messageLeft last := by
  have out : takeLast (fun x : Message => !x.onLine) s.line.queue = some (last, kept) := by
    rw [queue, takeLast_eq_some (by rw [off]; rfl) nofun, List.append_nil]
  unfold State.placeJoining
  dsimp only
  rw [if_neg (show ¬ _ < Config.maxMessages from Nat.not_lt.2 full), out]
  rfl

/-- The unit is JOINING, and a PRESENT JOINING is queued. -/
def State.JoiningQueued (s : State) : Prop := s.line.state = .joining ∧ ∃ m ∈ s.line.queue, m.isJoining = true

/-- In JOINING no message that is pushed out is the PRESENT JOINING. -/
theorem State.JoiningQueued.displaced {s : State} (h : s.JoiningQueued) {m victim : Message} {rest : List Message}
    (out : takeLast s.line.mayDiscard s.line.queue = some (victim, rest)) :
    ((s.displaced m rest).clearCall victim).1.JoiningQueued := by
  obtain ⟨joining, x, hx, isJoining⟩ := h
  obtain ⟨may, before, after, e, rfl, -⟩ := takeLast_spec out
  have stays : x ≠ victim := by
    rintro rfl
    unfold LineUnit.mayDiscard at may
    rw [joining, isJoining] at may
    simp at may
  have still : x ∈ before ++ after := by
    rw [e, List.mem_append, List.mem_cons] at hx
    exact List.mem_append.2 (hx.imp_right fun h => h.resolve_left stays)
  have state := (State.clearCall_frame (s.displaced m (before ++ after)) victim) .lineState (by decide)
  refine ⟨(state.trans (s.displaced_frame m (before ++ after) .lineState (by decide))).trans joining, x, ?_, isJoining⟩
  rw [State.clearCall_queue, State.displaced_queue]
  exact mem_joinInOrder_iff.2 (Or.inr still)

theorem State.JoiningQueued.messageLeft {s : State} (h : s.JoiningQueued) (m : Message) :
    (s.messageLeft m).JoiningQueued := by
  refine State.messageLeft_keeps (fun {t x} sum k => ?_) (fun _ out k => k.displaced out) (fun k => k) ?_
  · obtain ⟨joining, y, hy, isJoining⟩ := k
    rw [State.joinQueue_not_call _ (by omega)]
    exact ⟨joining, y, mem_joinInOrder_iff.2 (Or.inr hy), isJoining⟩
  · obtain ⟨joining, y, hy, isJoining⟩ := h
    refine ⟨((s.clearCall_frame m) .lineState (by decide)).trans joining, y, ?_, isJoining⟩
    rw [State.clearCall_queue]
    exact hy

/-- In JOINING the PRESENT JOINING finds a place, and keeps it whatever makes way for it calls forth. -/
theorem State.placeJoining_queued {s : State} (joining : s.line.state = .joining) (idle : s.line.transmitting = false) :
    s.placeJoining.JoiningQueued := by
  by_cases room : s.line.queue.length < 32
  · rw [State.placeJoining_joins room]
    exact ⟨joining, _, mem_joinInOrder_iff.2 (Or.inl rfl), rfl⟩
  · have full : 32 ≤ s.line.queue.length := Nat.le_of_not_lt room
    obtain ⟨kept, last, queue⟩ := (List.eq_nil_or_concat s.line.queue).resolve_left fun e => by
      rw [e] at full
      cases full
    rw [List.concat_eq_append] at queue
    have off : last.onLine = false := LineUnit.transmitting_eq_false.1 idle last (by rw [queue]; simp)
    rw [State.placeJoining_displaces queue full off]
    refine State.JoiningQueued.messageLeft ⟨?_, s.joiningMessage, ?_, rfl⟩ last
    · exact (s.displaced_frame _ _ .lineState (by decide)).trans joining
    · rw [State.displaced_queue]
      exact mem_joinInOrder_iff.2 (Or.inl rfl)

/-- The unit has listened long enough: the slots that its listen count lacked have passed, and it is JOINING. -/
def State.listened (s : State) : State :=
  { s with
    now := s.now + (290 - s.line.listenCount + if s.line.activity = .jam then 1 else 0) * s.slotTime
    line := { s.line with
      state := .joining, listenCount := 290, activity := .quiet
      quietCount := s.line.quietCount + (290 - s.line.listenCount) } }

theorem State.listened_frame (s : State) : SameBut [.now, .lineClock, .lineState] s s.listened := by
  intro p hp
  cases p with
  | now | lineClock | lineState => simp at hp
  | _ => simp only [Part.same]; and_intros <;> rfl

theorem exec_enterJoining {s : State} (awake : s.resetLine = false) (listens : s.line.state = .listen)
    (idle : s.line.transmitting = false) (free : s.line.activity ≠ .other) (low : s.line.listenCount ≤ 290)
    (jam : s.line.activity = .jam → s.line.listenCount < 290) :
    exec .enterJoining s = .next s.listened.placeJoining := by
  have needed : s.line.activity = .jam → 0 < 290 - s.line.listenCount := fun e => Nat.sub_pos_of_lt (jam e)
  have slots := (LineUnit.slotsFor_free idle free needed).1
  have passed := State.passSlots_free awake idle free needed
  rw [if_pos listens, show min 290 (s.line.listenCount + (290 - s.line.listenCount)) = 290 by omega] at passed
  show execEnterJoining s = _
  unfold execEnterJoining Config.listenSlots
  rw [awake, listens, if_neg (by decide), slots]
  dsimp only
  rw [passed]
  rfl

theorem exec_enterJoining_stays {s : State} (other : s.line.state ≠ .listen) : exec .enterJoining s = .next s := by
  show execEnterJoining s = _
  unfold execEnterJoining
  exact if_pos (by rw [decide_eq_true other, Bool.or_true])

/-! ### The PRESENT BEACON (R73, R74) -/

theorem State.offerBeacon_queued {s : State} (queued : ∃ m ∈ s.line.queue, m.isBeacon = true) : s.offerBeacon = s :=
  if_pos (List.any_eq_true.2 queued)

/-- A PRESENT BEACON joins a queue with room that holds none. -/
theorem State.offerBeacon_joins {s : State} (unqueued : ∀ m ∈ s.line.queue, m.isBeacon = false)
    (loud : s.line.state ≠ .mute) (room : s.line.queue.length < 32) : s.offerBeacon = s.setLine { s.line with
      queue := joinInOrder (newMessage (s.presentBody .beacon) none) s.line.queue } := by
  have none : s.line.queue.any Message.isBeacon = false := List.any_eq_false.2 fun m hm => by
    rw [unqueued m hm]
    decide
  unfold State.offerBeacon
  rw [none]
  exact (State.offer_join loud room _).trans (s.joinQueue_not_call (m := newMessage (s.presentBody .beacon) _) nofun)

theorem exec_beaconTimerExpiry {s : State} {b : Timer} (runs : s.line.beacon = some b) :
    exec .beaconTimerExpiry s = .next (s.passUntil (dueMs b.start b.length)).offerBeacon.startBeacon := by
  show execBeaconTimerExpiry s = _
  unfold execBeaconTimerExpiry
  rw [runs]

/-! ### Silence (R69, R70, R99) -/

/-- The PRESENT stations ahead of one and behind it, in order of station number. -/
theorem LineUnit.heardStations_splits {l : LineUnit} {station last : Nat} (h : l.heardOf station = .present last) :
    ∃ before after, l.heardStations = before ++ (station, last) :: after ∧
      (∀ x ∈ before, x.1 < station ∧ l.heardOf x.1 = .present x.2) ∧
      ∀ x ∈ after, station < x.1 ∧ l.heardOf x.1 = .present x.2 := by
  obtain ⟨low, high, split⟩ := List.append_of_mem (List.mem_range.2 (LineUnit.station_lt h))
  have rises := List.pairwise_lt_range (n := 32)
  rw [split, List.pairwise_append, List.pairwise_cons] at rises
  obtain ⟨-, ⟨above, -⟩, across⟩ := rises
  unfold LineUnit.heardStations
  rw [split, List.filterMap_append, List.filterMap_cons_some (b := (station, last)) (by rw [h])]
  refine ⟨_, _, rfl, fun x hx => ?_, fun x hx => ?_⟩
  · obtain ⟨t, ht, e⟩ := List.mem_filterMap.1 hx
    split at e <;> cases e
    next heard => exact ⟨across t ht station List.mem_cons_self, heard⟩
  · obtain ⟨t, ht, e⟩ := List.mem_filterMap.1 hx
    split at e <;> cases e
    next heard => exact ⟨above t ht, heard⟩

/-- SILENCE_EXPIRY falls on the station whose limit is due first, of several the lowest. -/
theorem exec_silenceExpiry {s : State} {station last : Nat} (h : s.line.heardOf station = .present last)
    (below : ∀ x y, x < station → s.line.heardOf x = .present y → last < y)
    (above : ∀ x y, station < x → s.line.heardOf x = .present y → last ≤ y) :
    exec .silenceExpiry s = .next ((s.passUntil (dueMs last s.silenceLimit)).expireSilence station).finish := by
  obtain ⟨before, after, split, low, high⟩ := LineUnit.heardStations_splits h
  have first : earliest Prod.snd s.line.heardStations = some (station, last) := by
    rw [split]
    exact earliest_of_first (fun x hx => above x.1 x.2 (high x hx).1 (high x hx).2)
      fun x hx => below x.1 x.2 (low x hx).1 (low x hx).2
  show execSilenceExpiry s = _
  unfold execSilenceExpiry
  rw [first]

/-- A station is SILENT and reported, before the closure tests. -/
def State.fallenSilent (s : State) (station last : Nat) : State :=
  (s.setLine (s.line.modifyRoster station fun e => { e with heard := .silent last })).pushReport
    (.station station .silent)

theorem State.fallenSilent_frame (s : State) (station last : Nat) :
    SameBut [.roster, .reports, .counter .reportsLost] s (s.fallenSilent station last) :=
  ((s.modifyRoster_frame station _).mono (by decide)).trans ((State.pushReport_frame _ _).mono (by decide))

theorem State.fallenSilent_reports {s : State} (room : s.port.reports.length < 64) (station last : Nat) :
    (s.fallenSilent station last).port.reports =
      s.port.reports ++ [{ number := s.port.nextReport, report := .station station .silent }] :=
  State.pushReport_reports (s := s.setLine (s.line.modifyRoster station fun e => { e with heard := .silent last }))
    room _

theorem State.expireSilence_eq {s : State} {station last : Nat} (h : s.line.heardOf station = .present last) :
    s.expireSilence station =
      (s.gatheringWith station).foldl State.closureTest (s.fallenSilent station last) := by
  have votes : (s.fallenSilent station last).gatheringWith station = s.gatheringWith station := by
    unfold State.gatheringWith
    rw [show (s.fallenSilent station last).votes = s.votes from s.fallenSilent_frame station last .votes (by decide)]
  unfold State.expireSilence
  rw [h]
  exact congrArg (fun ids => List.foldl State.closureTest (s.fallenSilent station last) ids) votes

/-- The station is SILENT, and every other is heard of as before. -/
theorem State.expireSilence_silent {s : State} {station last : Nat} (h : s.line.heardOf station = .present last) :
    (s.expireSilence station).line.heardOf station = .silent last ∧
      ∀ x, x ≠ station → (s.expireSilence station).line.heardOf x = s.line.heardOf x :=
  ⟨(State.expireSilence_roster h station).trans (LineUnit.heardOf_silent h),
    fun _ other => State.expireSilence_other (Ne.symm other)⟩

theorem State.mem_gatheringWith {s : State} {v : Vote} (hv : v ∈ s.votes) (gathering : v.state = .gathering)
    {station : Nat} (expects : station ∈ v.expected) : v.id ∈ s.gatheringWith station :=
  List.mem_map_of_mem (List.mem_filter.2 ⟨hv, by rw [gathering, List.contains_iff_mem.2 expects]; rfl⟩)

theorem State.gatheringWith_none {s : State} {station : Nat}
    (none : ∀ v ∈ s.votes, v.state = .gathering → station ∉ v.expected) : s.gatheringWith station = [] := by
  unfold State.gatheringWith
  refine List.map_eq_nil_iff.2 (List.filter_eq_nil_iff.2 fun v hv => ?_)
  rw [Bool.and_eq_true, decide_eq_true_eq, List.contains_iff_mem]
  exact fun ⟨gathering, expects⟩ => none v hv gathering expects

/-- A vote in GATHERING that lacked the answer of the silent station alone has closed. -/
theorem State.expireSilence_closes {s : State} (c : Consistent s) {station last : Nat}
    (h : s.line.heardOf station = .present last) {v : Vote} (hv : v ∈ s.votes) (gathering : v.state = .gathering)
    (expects : station ∈ v.expected)
    (complete : ∀ x ∈ v.expected, v.answered x = true ∨ (s.expireSilence station).line.isSilent x = true) :
    ∀ w ∈ (s.expireSilence station).votes, w.id = v.id → w.state = .localising := by
  have tests : ∀ ids : List Nat, SameBut deliverParts (s.fallenSilent station last)
      (ids.foldl State.closureTest (s.fallenSilent station last)) := fun ids =>
    SameBut.foldl State.closureTest_frame ids _
  have carried : Carries s (s.fallenSilent station last) := fun c => by
    have grows : Grows s (s.fallenSilent station last) :=
      ((s.modifyRoster_frame station _).grows (by decide)).trans (Grows.pushReport _ _)
    refine ⟨?_, grows.evolves⟩
    by_cases own : s.resetLine = false ∧ station = s.strap.station.val
    · rw [own.2, c.selfEntry own.1] at h
      cases h
    · have marked : SameTables s
          (s.setLine (s.line.modifyRoster station fun e => { e with heard := .silent last })) := by
        refine ⟨rfl, rfl, rfl, rfl, rfl, fun self awake => ?_⟩
        exact (LineUnit.heardOf_modify fun e => own ⟨awake, e.symm⟩).trans (self awake)
      exact (c.of_tables marked).of_tables (State.pushReport_tables _ _)
  obtain ⟨c', -⟩ := carried c
  have votes : (s.fallenSilent station last).votes = s.votes := s.fallenSilent_frame station last .votes (by decide)
  have start : VoteIs v.id (Vote.Gathers v.expected v.answers) (s.fallenSilent station last) :=
    VoteIs.of_mem c'.numbered (votes.symm ▸ hv) ⟨gathering, rfl, rfl⟩
  rw [State.expireSilence_eq h] at complete ⊢
  have silent : ∀ x, (State.line (List.foldl State.closureTest (s.fallenSilent station last)
      (s.gatheringWith station))).isSilent x = (s.fallenSilent station last).line.isSilent x :=
    (tests _).isSilent_eq (by decide)
  have closes := foldl_reaches (a := v.id)
    (P := fun t => (Consistent t ∧ VoteIs v.id (Vote.Gathers v.expected v.answers) t) ∧
      ∀ x, t.line.isSilent x = (s.fallenSilent station last).line.isSilent x)
    (Q := fun t => Consistent t ∧ VoteIs v.id (fun w => w.state = .localising) t) (f := State.closureTest)
    (fun t x other ⟨⟨c, p⟩, roster⟩ => ⟨⟨State.closureTest_consistent x c, p.closureTestOther other⟩,
      fun y => ((t.closureTest_frame x).isSilent_eq (by decide) y).trans (roster y)⟩)
    (fun t ⟨⟨c, p⟩, roster⟩ => ⟨State.closureTest_consistent v.id c, State.closureTest_complete c.numbered p fun x hx =>
      (complete x hx).imp_right fun e => by rw [roster, ← silent]; exact e⟩)
    (fun t x ⟨c, p⟩ => ⟨State.closureTest_consistent x c,
      p.carry lasting_localising (Grows.closureTest t x).evolves c.numbered⟩)
    (State.mem_gatheringWith hv gathering expects) ⟨⟨c', start⟩, fun _ => rfl⟩
  exact closes.2.holds

/-- Settles O60: listening ends in JOINING, the beacon is offered anew, and the station due first falls silent. -/
theorem listenBeaconAndSilenceTimersExpire : Obligations.ListenBeaconAndSilenceTimersExpire := by
  unfold Obligations.ListenBeaconAndSilenceTimersExpire
  refine fun s => ⟨fun awake listens idle free low jam => ?_, exec_enterJoining_stays, fun b runs => ?_,
    fun station last h below above => ?_⟩
  · intro quiet k joined
    have joins : exec .enterJoining s = .next s.listened.placeJoining :=
      exec_enterJoining awake listens idle free low jam
    refine ⟨fun room => ?_, fun kept last queue full => ?_, s.listened.placeJoining, joins,
      (State.placeJoining_queued (s := s.listened) rfl idle).1,
      (State.placeJoining_queued (s := s.listened) rfl idle).2,
      (s.listened_frame.mono (by decide)).trans ((State.placeJoining_frame _).mono (by decide))⟩
    · rw [joins, State.placeJoining_joins (s := s.listened) room]
      rfl
    · have off : last.onLine = false := LineUnit.transmitting_eq_false.1 idle last (by rw [queue]; simp)
      have displaces : exec .enterJoining s = .next (((joined kept).bump .lineDropped).messageLeft last) := by
        rw [joins, State.placeJoining_displaces (s := s.listened) queue full off]
        rfl
      refine ⟨displaces, fun unowned => by rw [displaces, State.messageLeft_unowned _ unowned], fun range m hm => ?_⟩
      have ordered := range.ordered
      rw [queue, List.map_append, List.pairwise_append] at ordered
      exact ordered.2.2 _ (List.mem_map_of_mem hm) _ (by simp)
  · intro due u
    have passed := s.passUntil_frame due
    have offered := u.offerBeacon_frame
    have queue : u.line.queue = s.line.queue := passed .lineQueue (by decide)
    refine ⟨s.passUntil_spec due, u.offerBeacon.startBeacon, exec_beaconTimerExpiry runs, ?_,
      (offered.mono (by decide)).trans ((State.startBeacon_frame _).mono (by decide)), fun queued => ?_,
      fun none loud room => ?_⟩
    · have timers : u.offerBeacon.timers = s.timers := (offered .timers (by decide)).trans (passed .timers (by decide))
      have now : u.offerBeacon.now = u.now := offered .now (by decide)
      show some (Timer.mk u.offerBeacon.now (max 1 (timeOfCode u.offerBeacon.timers.silence / 2))) = _
      rw [timers, now]
    · show u.offerBeacon.line.queue = _
      rw [State.offerBeacon_queued (queue ▸ queued), queue]
    · have holdings : u.holdings = s.holdings := passed.holdings_eq (by decide) (by decide)
      have state : u.line.state = s.line.state := passed .lineState (by decide)
      show u.offerBeacon.line.queue = _
      rw [State.offerBeacon_joins (queue ▸ none) (state ▸ loud) (queue ▸ room)]
      show joinInOrder (newMessage (.present .beacon u.holdings.length) _) u.line.queue = _
      rw [queue, holdings]
      rfl
  · intro due u silent
    have passed := s.passUntil_frame due
    have heard : ∀ x, u.line.heardOf x = s.line.heardOf x := passed.heardOf_eq (by decide)
    have votes : u.votes = s.votes := passed .votes (by decide)
    have expires : exec .silenceExpiry s = .next (u.expireSilence station).finish := exec_silenceExpiry h below above
    have falls : silent (u.expireSilence station) := by
      obtain ⟨at', others⟩ := State.expireSilence_silent ((heard station).trans h)
      exact ⟨at', fun x other => (others x other).trans (heard x)⟩
    refine ⟨s.passUntil_spec due, fun none => ⟨_, expires, falls, ?_⟩, _, expires, falls, u.expireSilence_frame station,
      fun c v hv gathering expects complete => State.expireSilence_closes (c.of_tables (passed.tables (by decide)))
        ((heard station).trans h) (votes.symm ▸ hv) gathering expects complete⟩
    rw [State.expireSilence_eq ((heard station).trans h), State.gatheringWith_none (votes.symm ▸ none)]
    refine ⟨u.fallenSilent_frame station last, fun room => ?_⟩
    have port : u.port = s.port :=
      passed.port_eq (by decide) (by decide) (by decide) (by decide) (by decide)
    exact (State.fallenSilent_reports (port ▸ room) station last).trans (by rw [port])

end Sys2Proof.Machine
end

section
/-! The CALL of a vote that is opened: CALL pending is set as it joins the queue, and stays clear when it does not
(R66, R67, R79, R81, R82, R84). -/

namespace Sys2Proof.Machine

/-- A vote of a number and key is in the table, with CALL pending as given. -/
def State.HasCall (s : State) (id : Nat) (k : Key) (pending : Bool) : Prop :=
  ∃ w ∈ s.votes, w.id = id ∧ w.key = k ∧ w.callPending = pending

section
variable {id : Nat} {k : Key} {pending : Bool}

/-- Giving a vote a slot leaves CALL pending as it is. -/
theorem State.HasCall.issueFuel : ∀ (n : Nat) {s : State}, s.HasCall id k pending →
    (State.issueFuel n s).HasCall id k pending
  | 0, _, h => h
  | n + 1, s, h => by
    unfold State.issueFuel
    split
    · split
      · next v _ =>
        obtain ⟨w, hw, at', key, call⟩ := h
        refine State.HasCall.issueFuel n ?_
        by_cases e : w.id = v.id
        · exact ⟨_, State.mem_modifyVote.2 (Or.inl ⟨w, hw, e, rfl⟩), at', key, call⟩
        · exact ⟨w, State.mem_modifyVote.2 (Or.inr ⟨hw, e⟩), at', key, call⟩
      · exact h
    · exact h

/-- A CALL that joins the queue sets CALL pending in its vote. -/
theorem State.HasCall.joinQueue {s : State} (h : s.HasCall id k pending) (called : Key) (listed : List Nat) :
    (s.joinQueue (newMessage (.call called listed) (some id))).HasCall id k true := by
  obtain ⟨w, hw, at', key, -⟩ := h
  exact ⟨{ w with callPending := true }, State.mem_modifyVote.2 (Or.inl ⟨w, hw, at', rfl⟩), at', key, rfl⟩

end

/-! ### The offer of a CALL (R66, R67, R81) -/

/-- A vote whose holding has no peers offers no CALL, and a unit in MUTE takes none. -/
theorem State.offerCall_none {s : State} {v : Vote}
    (none : (s.holdingOf v.key.reel).peers = [] ∨ s.line.state = .mute) : s.offerCall v = s := by
  unfold State.offerCall
  dsimp only
  split
  · rfl
  · next peers => exact State.offerFuel_mute (none.resolve_left peers) _ _

/-- The CALL of a vote. -/
def State.callOf (s : State) (v : Vote) : Message :=
  newMessage (.call v.key (stationSet (s.holdingOf v.key.reel).peers)) (some v.id)

section
variable {s : State} {v : Vote} {k : Key} (peers : (s.holdingOf v.key.reel).peers ≠ []) (loud : s.line.state ≠ .mute)
  (new : s.HasCall v.id k false)
include peers

theorem State.offerCall_offers : s.offerCall v = s.offer (s.callOf v) := if_neg peers

include loud in
/-- The CALL joins a queue with room. -/
theorem State.offerCall_joins (room : s.line.queue.length < 32) : s.offerCall v = s.joinQueue (s.callOf v) :=
  (State.offerCall_offers peers).trans (State.offer_join loud room _)

include loud new

theorem State.offerCall_pending (room : s.line.queue.length < 32) : (s.offerCall v).HasCall v.id k true :=
  State.offerCall_joins peers loud room ▸ new.joinQueue _ _

/-- In a full queue the CALL pushes out a candidate of a class behind its own, and no other. -/
theorem State.offerCall_full {before after : List Message} {victim : Message} (full : 32 ≤ s.line.queue.length)
    (queue : s.line.queue = before ++ victim :: after) (may : s.line.mayDiscard victim = true)
    (last : ∀ y ∈ after, s.line.mayDiscard y = false) :
    (2 ≤ victim.body.lineClass → (s.offerCall v).HasCall v.id k true) ∧
      (victim.body.lineClass ≤ 1 → (s.offerCall v).HasCall v.id k false) := by
  have out : takeLast s.line.mayDiscard s.line.queue = some (victim, before ++ after) :=
    queue ▸ takeLast_eq_some may last before
  rw [State.offerCall_offers peers]
  refine ⟨fun behind => ?_, fun ahead => ?_⟩
  · have displaces : s.offer (s.callOf v) = _ := State.offerFuel_displaces ⟨loud, full⟩ 33 out behind
    rw [displaces, State.clearCall_not_call _ (by omega)]
    exact State.HasCall.joinQueue (s := s.setLine { s.line with queue := before ++ after }) new _ _
  · have loses : s.offer (s.callOf v) = _ := State.offerFuel_loses_itself ⟨loud, full⟩ 33 out ahead
    rw [loses]
    exact new

/-- A full queue in which no message may be lost loses the CALL itself. -/
theorem State.offerCall_lost (full : 32 ≤ s.line.queue.length)
    (kept : ∀ y ∈ s.line.queue, s.line.mayDiscard y = false) :
    (s.offerCall v).HasCall v.id k false := by
  have loses : s.offer (s.callOf v) = _ :=
    State.offerFuel_keeps_all (m := s.callOf v) ⟨loud, full⟩ 33 (takeLast_eq_none kept)
  rw [State.offerCall_offers peers, loses]
  exact new

end

/-! ### A vote is opened (R79, R81, R84) -/

/-- A vote as it is opened waits with CALL pending clear. -/
theorem State.addVote_hasCall (s : State) (k : Key) (o : Origin) (caller : Option Nat) :
    (s.addVote (s.newVote k o caller)).HasCall s.nextVote k false :=
  ⟨s.newVote k o caller, List.mem_append_right _ (List.mem_singleton_self _), rfl, rfl, rfl⟩

/-- The arbiter leaves the line as it is. -/
theorem State.issue_line (s : State) : s.issue.line = s.line :=
  s.issue_frame.line_eq (by decide) (by decide) (by decide) (by decide) (by decide)

/-- A vote that a CALL opens has the caller in E and in the callers list. -/
theorem State.openPeer_opens (s : State) (k : Key) (caller : Nat) : Opens s (s.openPeer k caller) k .peer
    (stationSet ((s.holdingOf k.reel).peers ++ [caller])) [caller] := by
  have new : (s.newVote k .peer (some caller)).IsNew s.nextVote k .peer
      (stationSet ((s.holdingOf k.reel).peers ++ [caller])) [caller] s.now :=
    ⟨rfl, rfl, rfl, rfl, rfl, rfl, Or.inl rfl, rfl, rfl, rfl, rfl, rfl, rfl, rfl, rfl, rfl⟩
  have added : Opens s (s.addVote (s.newVote k .peer (some caller))) k .peer
      (stationSet ((s.holdingOf k.reel).peers ++ [caller])) [caller] :=
    ⟨List.map_append, rfl, (State.count_bump _ _ _).trans (if_pos rfl), _,
      List.mem_append_right _ (List.mem_singleton_self _), new⟩
  obtain ⟨keys, next, count, has⟩ := added
  have issued := (s.addVote (s.newVote k .peer (some caller))).issue_frame
  exact ⟨(State.issueFuel_keys _ _).trans keys, (issued .nextVote (by decide)).trans next,
    (issued (.counter .votesOpened) (by decide)).trans count, State.HasNew.issueFuel _ has⟩

/-- Settles O26: the vote joins the table with CALL pending clear, and only a CALL that joins the queue sets it. -/
theorem votesOpenWithTheirCall : Obligations.VotesOpenWithTheirCall := by
  unfold Obligations.VotesOpenWithTheirCall
  intro k s peers pending
  refine ⟨fun o => ?_, fun c => ?_⟩
  · let v := s.newVote k o none
    let u := s.addVote v
    have new : u.HasCall v.id k false := s.addVote_hasCall k o none
    refine ⟨s.openCalling_opens k o, s.openCalling_frame k o, fun silent => ?_, fun some' loud => ⟨fun room => ?_,
      fun full => ⟨fun before victim after queue may last => ?_, fun kept => ?_⟩⟩⟩
    · have none : u.offerCall v = u := State.offerCall_none silent
      show (u.offerCall v).issue.line = _ ∧ (u.offerCall v).issue.HasCall s.nextVote k false
      rw [none]
      exact ⟨State.issue_line u, new.issueFuel _⟩
    · refine ⟨(State.offerCall_pending (s := u) (v := v) some' loud new room).issueFuel _, ?_⟩
      show (u.offerCall v).issue.line.queue = _
      rw [State.issue_line, State.offerCall_joins (s := u) (v := v) some' loud room, State.joinQueue_queue]
      rfl
    · obtain ⟨sets, loses⟩ := State.offerCall_full (s := u) (v := v) some' loud new full queue may last
      exact ⟨fun behind => (sets behind).issueFuel _, fun ahead => (loses ahead).issueFuel _⟩
    · exact (State.offerCall_lost (s := u) (v := v) some' loud new full kept).issueFuel _
  · exact ⟨s.openPeer_opens k c, (s.openPeer_frame k c).mono (by decide), State.issue_line _,
      (s.addVote_hasCall k .peer (some c)).issueFuel _⟩

end Sys2Proof.Machine
end

section
/-! Frames of other stations: what a valid frame leaves of the roster, what a PRESENT adds, and how a duplicate mutes
the unit (R58, R65, R68 to R70, R73 to R75, R82, R156). -/

namespace Sys2Proof.Machine

/-! ### Roster entries (R68, R74) -/

theorem LineUnit.heardOf_entry {l : LineUnit} {t : Nat} {e : RosterEntry} (h : l.roster[t]? = some e) :
    l.heardOf t = e.heard := by
  unfold LineUnit.heardOf
  rw [h]

theorem LineUnit.heardOf_congr {l l' : LineUnit} (h : l.roster = l'.roster) (x : Nat) : l.heardOf x = l'.heardOf x := by
  unfold LineUnit.heardOf
  rw [h]

theorem LineUnit.modifyRoster_entry {l : LineUnit} {t : Nat} {e : RosterEntry} (h : l.roster[t]? = some e)
    (f : RosterEntry → RosterEntry) : (l.modifyRoster t f).roster[t]? = some (f e) := by
  have inside : t < 32 := (Vector.getElem?_eq_some_iff.1 h).1
  unfold LineUnit.modifyRoster
  rw [h]
  exact Vector.getElem?_setIfInBounds_self_of_lt inside

theorem LineUnit.modifyRoster_others {l : LineUnit} {t x : Nat} (other : x ≠ t) (f : RosterEntry → RosterEntry) :
    (l.modifyRoster t f).roster[x]? = l.roster[x]? := by
  unfold LineUnit.modifyRoster
  split
  · exact Vector.getElem?_setIfInBounds_ne (Ne.symm other)
  · rfl

/-- A change that leaves what is heard of a station leaves what is heard of each. -/
theorem LineUnit.heardOf_modify_kept {l : LineUnit} {t : Nat} {f : RosterEntry → RosterEntry}
    (kept : ∀ e, (f e).heard = e.heard) (x : Nat) : (l.modifyRoster t f).heardOf x = l.heardOf x := by
  by_cases here : x = t
  · subst here
    cases entry : l.roster[x]? with
    | none =>
      unfold LineUnit.modifyRoster
      rw [entry]
    | some e =>
      rw [LineUnit.heardOf_entry (LineUnit.modifyRoster_entry entry f), LineUnit.heardOf_entry entry, kept]
  · exact LineUnit.heardOf_modify here

/-! ### A station is heard (R58, R65, R68, R70) -/

theorem State.pushReport_line (s : State) (r : Report) : (s.pushReport r).line = s.line :=
  (s.pushReport_frame r).line_eq (by decide) (by decide) (by decide) (by decide) (by decide)

/-- The entry of a station just heard. -/
def State.markHeard (s : State) (station : Nat) : State :=
  s.setLine (s.line.modifyRoster station fun e => { e with heard := .present s.now })

theorem State.hear_known {s : State} {station : Nat} (known : s.line.isSilent station = false) :
    s.hear station = s.markHeard station := by
  unfold State.hear
  exact if_neg (by rw [known]; decide)

/-- A station heard again after its silence is reported. -/
theorem State.hear_silent {s : State} {station : Nat} (silent : s.line.isSilent station = true) :
    s.hear station = (s.markHeard station).pushReport (.station station .present) := by
  unfold State.hear
  exact if_pos silent

theorem State.hear_line (s : State) (station : Nat) :
    (s.hear station).line = s.line.modifyRoster station fun e => { e with heard := .present s.now } := by
  cases silent : s.line.isSilent station with
  | false => rw [State.hear_known silent]; rfl
  | true => rw [State.hear_silent silent, State.pushReport_line]; rfl

theorem State.hear_frame (s : State) (station : Nat) :
    SameBut [.roster, .reports, .counter .reportsLost] s (s.hear station) := by
  have marked := s.modifyRoster_frame station fun e => { e with heard := .present s.now }
  cases silent : s.line.isSilent station with
  | false => exact State.hear_known silent ▸ marked.mono (by decide)
  | true => exact State.hear_silent silent ▸ marked.comp (State.pushReport_frame _ _) (by decide) (by decide)

/-- The line once a frame has ended, with the frame counted. -/
def State.frameCounted (s : State) : State := s.endActivity.bump .lineReceived

theorem State.frameCounted_frame (s : State) : SameBut [.lineClock, .counter .lineReceived] s s.frameCounted :=
  (s.setClock_frame _).comp (State.bump_frame _ _) (by decide) (by decide)

theorem State.frameCounted_count (s : State) :
    s.frameCounted.count .lineReceived = min 4294967295 (s.count .lineReceived + 1) :=
  (State.count_bump _ _ _).trans (if_pos rfl)

theorem State.afterFrame_frame (s : State) (station : Nat) :
    SameBut [.roster, .lineClock, .counter .lineReceived, .reports, .counter .reportsLost] s (s.afterFrame station) :=
  s.frameCounted_frame.comp (State.hear_frame _ _) (by decide) (by decide)

theorem State.afterFrame_line (s : State) (station : Nat) : (s.afterFrame station).line =
    s.endActivity.line.modifyRoster station fun e => { e with heard := .present s.now } :=
  s.frameCounted.hear_line station

/-- The entry of the station whose frame has ended. -/
theorem State.afterFrame_entry (s : State) {station : Nat} (inside : station < 32) :
    ∃ holdings, (s.afterFrame station).line.roster[station]? =
      some { heard := .present s.now, holdings := holdings } := by
  have entry : s.endActivity.line.roster[station]? = some s.endActivity.line.roster[station] :=
    Vector.getElem?_eq_getElem inside
  exact ⟨_, s.afterFrame_line station ▸ LineUnit.modifyRoster_entry entry _⟩

theorem State.afterFrame_heard (s : State) {station : Nat} (inside : station < 32) :
    (s.afterFrame station).line.heardOf station = .present s.now := by
  obtain ⟨_, entry⟩ := s.afterFrame_entry inside
  exact LineUnit.heardOf_entry entry

theorem State.afterFrame_others (s : State) {station x : Nat} (other : x ≠ station) :
    (s.afterFrame station).line.roster[x]? = s.line.roster[x]? := by
  rw [State.afterFrame_line, LineUnit.modifyRoster_others other]
  rfl

theorem State.afterFrame_known {s : State} {station : Nat} (known : s.line.isSilent station = false) :
    SameBut [.roster, .lineClock, .counter .lineReceived] s (s.afterFrame station) := by
  have hear : s.afterFrame station = s.frameCounted.markHeard station := State.hear_known (s := s.frameCounted) known
  rw [hear]
  exact s.frameCounted_frame.comp (State.modifyRoster_frame _ _ _) (by decide) (by decide)

theorem State.afterFrame_reports {s : State} {station : Nat} (silent : s.line.isSilent station = true)
    (room : s.port.reports.length < 64) : (s.afterFrame station).port.reports =
      s.port.reports ++ [{ number := s.port.nextReport, report := .station station .present }] := by
  have hear : s.afterFrame station = (s.frameCounted.markHeard station).pushReport (.station station .present) :=
    State.hear_silent (s := s.frameCounted) silent
  rw [hear]
  exact State.pushReport_reports (s := s.frameCounted.markHeard station) room _

/-! ### A frame is read (R64) -/

/-- The command that brings a frame of a body's kind. -/
def LineBody.command (b : LineBody) (source : Byte) (body : List Byte) : Instr :=
  match b with
  | .sum _ _ _ _ _ => .sum source body
  | .call _ _ => .call source body
  | .tiles _ _ _ _ _ => .tiles source body
  | .present _ _ => .present source body

theorem exec_command (b : LineBody) (source : Byte) (body : List Byte) (s : State) :
    exec (b.command source body) s =
      .next (s.heard fun s => s.takeChecked (BitVec.ofNat 8 b.kind) source body) := by
  cases b <;> rfl

theorem readSum_kind {body : List Byte} {b : LineBody} (read : readSum body = some b) : b.kind = 1 := by
  unfold readSum at read
  split at read
  · split at read <;> cases read
    rfl
  · cases read

theorem readCall_kind {body : List Byte} {b : LineBody} (read : readCall body = some b) : b.kind = 2 := by
  unfold readCall at read
  split at read <;> cases read
  rfl

theorem readTiles_kind {body : List Byte} {b : LineBody} (read : readTiles body = some b) : b.kind = 3 := by
  unfold readTiles at read
  split at read <;> cases read
  rfl

theorem readPresent_kind {body : List Byte} {b : LineBody} (read : readPresent body = some b) : b.kind = 4 := by
  unfold readPresent at read
  split at read
  · obtain ⟨mode, -, rfl⟩ := Option.map_eq_some_iff.1 read
    rfl
  · cases read

/-- A frame that is read has a station number as its source, and the kind of the body it is read as. -/
theorem readFrame_some {kind source : Byte} {body : List Byte} {b : LineBody}
    (read : readFrame kind source body = some b) :
    source.toNat < 32 ∧ kind = BitVec.ofNat 8 b.kind := by
  have of : ∀ {n : Nat}, kind.toNat = n → b.kind = n → kind = BitVec.ofNat 8 b.kind := fun e k => by
    rw [k, ← e, BitVec.ofNat_toNat, BitVec.setWidth_eq]
  unfold readFrame at read
  split at read
  · next low =>
    refine ⟨Nat.lt_succ_of_le low, ?_⟩
    split at read
    · next e => exact of e (readSum_kind read)
    · next e => exact of e (readCall_kind read)
    · next e => exact of e (readTiles_kind read)
    · next e => exact of e (readPresent_kind read)
    · cases read
  · cases read

/-! ### A valid frame (R65, R75) -/

theorem State.heard_hears {s : State} (hears : s.hears = true) (act : State → State) :
    s.heard act = (act s.endActivity).finish := by
  unfold State.hears at hears
  rw [Bool.and_eq_true, Bool.not_eq_true', Bool.not_eq_true'] at hears
  obtain ⟨awake, idle⟩ := hears
  unfold State.heard
  rw [awake, idle]
  rfl

theorem State.takeChecked_read {s : State} {kind source : Byte} {body : List Byte} {b : LineBody}
    (read : readFrame kind source body = some b) : s.takeChecked kind source body = s.takeFrame source.toNat b := by
  unfold State.takeChecked
  rw [read]

section
variable {kind source : Byte} {body : List Byte} {b : LineBody} {s : State}
  (read : readFrame kind source body = some b) (hears : s.hears = true)
include read hears

/-- A valid frame of another station is delivered once its station has been heard. -/
theorem exec_command_other (other : source.toNat ≠ s.strap.station.val) : exec (b.command source body) s =
    .next (((s.afterFrame source.toNat).deliverBody source.toNat b).frameDone source.toNat) := by
  obtain ⟨-, e⟩ := readFrame_some read
  rw [exec_command, State.heard_hears hears, ← e, State.takeChecked_read read]
  exact congrArg (fun t : State => Host.Outcome.next t.finish) (if_neg other)

/-- A valid frame with the own number mutes the unit. -/
theorem exec_command_own (own : source.toNat = s.strap.station.val) :
    exec (b.command source body) s = .next s.frameCounted.enterMute.finish := by
  obtain ⟨-, e⟩ := readFrame_some read
  rw [exec_command, State.heard_hears hears, ← e, State.takeChecked_read read]
  exact congrArg (fun t : State => Host.Outcome.next t.finish) (if_pos own)

end

/-! ### What a delivery touches (R74, R83 to R87, R93 to R97, R113) -/

/-- What the delivery of a frame can touch besides the roster. -/
def frameParts : List Part := .counter .stray :: .counter .answersOverflow :: .counter .deferredSent :: deliverParts

theorem State.takeSum_frame (s : State) (k : Key) (a : Answer) : SameBut frameParts s (s.takeSum k a) := by
  unfold State.takeSum
  split
  · exact (s.bump_frame _).mono (by decide)
  split
  · exact (s.bump_frame _).mono (by decide)
  split
  · exact (s.bump_frame _).mono (by decide)
  · exact (s.modifyVote_frame _ _).comp (State.closureTest_frame _ _) (by decide) (by decide)

theorem State.takeCall_frame (s : State) (caller : Nat) (k : Key) (listed : List Nat) :
    SameBut frameParts s (s.takeCall caller k listed) := by
  unfold State.takeCall
  split
  · refine SameBut.trans ?_ ((State.offerOwnSum_frame _ _).mono (by decide))
    exact (s.modifyVote_frame _ _).comp (State.issueIfWaiting_frame _ _) (by decide) (by decide)
  split
  · split
    · exact (s.openPeer_frame k caller).mono (by decide)
    · exact (s.bump_frame _).comp (State.offer_frame _ _) (by decide) (by decide)
  split
  · exact (s.offer_frame _).mono (by decide)
  · exact SameBut.refl _ s

theorem State.takeTiles_frame (s : State) (station : Nat) (k : Key) (x : Word) (n first : Nat) (checks : List Word) :
    SameBut frameParts s (s.takeTiles station k x n first checks) := by
  unfold State.takeTiles
  split
  · split
    · exact (s.takeChunk_frame _ _ _ _ _ _).mono (by decide)
    · exact (s.bump_frame _).mono (by decide)
  · exact (s.bump_frame _).mono (by decide)

theorem State.takePresent_frame (s : State) (station : Nat) (mode : PresenceMode) (count : Nat) :
    SameBut (.roster :: offerParts) s (s.takePresent station mode count) := by
  have recorded := s.modifyRoster_frame station fun e => { e with holdings := some count }
  unfold State.takePresent
  dsimp only
  split
  · exact recorded.comp (State.offerBeacon_frame _) (by decide) (by decide)
  · exact recorded.mono (by decide)

/-- A PRESENT changes the roster by its holding count alone. -/
theorem State.takePresent_roster (s : State) (station : Nat) (mode : PresenceMode) (count : Nat) :
    (s.takePresent station mode count).line.roster =
      (s.line.modifyRoster station fun e => { e with holdings := some count }).roster := by
  unfold State.takePresent
  dsimp only
  split
  · exact (State.offerBeacon_frame _) .roster (by decide)
  · rfl

theorem State.deliverBody_frame (s : State) (station : Nat) (b : LineBody) :
    SameBut (.roster :: frameParts) s (s.deliverBody station b) := by
  cases b with
  | sum k status x n ref => exact (s.takeSum_frame _ _).mono (by decide)
  | call k listed => exact (s.takeCall_frame _ _ _).mono (by decide)
  | tiles k x n first checks => exact (s.takeTiles_frame _ _ _ _ _ _).mono (by decide)
  | present mode count => exact (s.takePresent_frame _ _ _).mono (by decide)

/-- No delivery changes what is heard of a station. -/
theorem State.deliverBody_heardOf (s : State) (station : Nat) (b : LineBody) (x : Nat) :
    (s.deliverBody station b).line.heardOf x = s.line.heardOf x := by
  cases b with
  | sum k status y n ref => exact (s.takeSum_frame _ _).heardOf_eq (by decide) x
  | call k listed => exact (s.takeCall_frame _ _ _).heardOf_eq (by decide) x
  | tiles k y n first checks => exact (s.takeTiles_frame _ _ _ _ _ _).heardOf_eq (by decide) x
  | present mode count =>
    have kept := LineUnit.heardOf_modify_kept (l := s.line) (t := station)
      (f := fun e => { e with holdings := some count }) (fun _ => rfl) x
    exact (LineUnit.heardOf_congr (s.takePresent_roster station mode count) x).trans kept

theorem LineBody.lineClass_le_three (b : LineBody) : b.lineClass ≤ 3 := by
  cases b <;> simp [LineBody.lineClass]

/-- Settles O56: the count joins the entry just made PRESENT, and the beacon joins behind every other message. -/
theorem presentRecordsTheHoldingCount : Obligations.PresentRecordsTheHoldingCount := by
  unfold Obligations.PresentRecordsTheHoldingCount
  intro source body mode count s read hears other u
  have inside : source.toNat < 32 := (readFrame_some read).1
  have before := s.afterFrame_frame source.toNat
  have queue : u.line.queue = s.line.queue := before .lineQueue (by decide)
  have state : u.line.state = s.line.state := before .lineState (by decide)
  have holdings : u.holdings = s.holdings := before.holdings_eq (by decide) (by decide)
  obtain ⟨_, entry⟩ := s.afterFrame_entry inside
  let recorded : State := u.setLine (u.line.modifyRoster source.toNat fun e => { e with holdings := some count })
  have marked : SameBut [.roster] u recorded := u.modifyRoster_frame _ _
  have queue' : recorded.line.queue = s.line.queue := (marked .lineQueue (by decide)).trans queue
  have state' : recorded.line.state = s.line.state := (marked .lineState (by decide)).trans state
  refine ⟨u.takePresent source.toNat mode count, exec_command_other read hears other, u.takePresent_frame _ _ _, ?_,
    fun x ne => ?_, fun quiet => ?_, fun joining active unqueued room => ?_⟩
  · rw [State.takePresent_roster, LineUnit.modifyRoster_entry entry]
  · rw [State.takePresent_roster, LineUnit.modifyRoster_others ne, State.afterFrame_others s ne]
  · by_cases calls : mode = .joining ∧ recorded.line.state = .active
    · have queued : ∃ m ∈ s.line.queue, m.isBeacon = true := by
        rcases quiet with beacon | passive | queued
        · exact absurd (calls.1.symm.trans beacon) nofun
        · exact absurd (state'.symm.trans calls.2) passive
        · exact queued
      have takes : u.takePresent source.toNat mode count = recorded.offerBeacon := if_pos calls
      rw [takes, State.offerBeacon_queued (queue' ▸ queued), queue']
    · have takes : u.takePresent source.toNat mode count = recorded := if_neg calls
      rw [takes, queue']
  · have takes : u.takePresent source.toNat mode count = recorded.offerBeacon := if_pos ⟨joining, state'.trans active⟩
    have loud : recorded.line.state ≠ .mute := by rw [state', active]; decide
    rw [takes, State.offerBeacon_joins (queue' ▸ unqueued) loud (queue' ▸ room)]
    show joinInOrder (newMessage (.present .beacon u.holdings.length) none) recorded.line.queue = _
    rw [queue', holdings, joinInOrder_last (m := newMessage (.present .beacon s.holdings.length) none) fun y _ =>
      LineBody.lineClass_le_three y.body]
    rfl

/-! ### The unit is muted (R75, R82) -/

/-- CALL pending clears in the votes whose CALL is among the messages of a queue. -/
def clearCalls (q : List Message) (w : Vote) : Vote :=
  if q.any (fun m => decide (m.body.lineClass = 1 ∧ m.owner = some w.id)) = true then { w with callPending := false }
  else w

/-- In MUTE a message that leaves the queue makes no vote offer anything. -/
theorem State.clearCall_mute {s : State} (mute : s.line.state = .mute) (m : Message) :
    (s.clearCall m).1 = s.setVotes (s.votes.map (clearCalls [m])) := by
  have untouched : (∀ w ∈ s.votes, ¬ (m.body.lineClass = 1 ∧ m.owner = some w.id)) →
      s = s.setVotes (s.votes.map (clearCalls [m])) := fun none => by
    have same : s.votes.map (clearCalls [m]) = s.votes :=
      (List.map_congr_left fun w hw => by simp [clearCalls, none w hw]).trans s.votes.map_id
    rw [same]
    rfl
  by_cases call : m.body.lineClass = 1
  · cases owned : m.owner with
    | none =>
      rw [s.clearCall_unowned owned]
      exact untouched fun w _ ⟨_, e⟩ => by rw [owned] at e; cases e
    | some id =>
      cases vote : s.voteById? id with
      | none =>
        have gone : ∀ w ∈ s.votes, w.id ≠ id := fun w hw => by simpa using List.find?_eq_none.1 vote w hw
        rw [s.clearCall_gone owned gone]
        exact untouched fun w hw ⟨_, e⟩ => gone w hw (Option.some.inj (owned.symm.trans e)).symm
      | some v =>
        obtain ⟨k, listed, body⟩ := LineBody.lineClass_eq_one.1 call
        rw [State.clearCall_clears body owned vote (State.sumToOffer?_silent (Or.inr (Or.inl mute)))]
        refine congrArg s.setVotes (List.map_congr_left fun w _ => ?_)
        simp [clearCalls, call, owned, eq_comm]
  · rw [s.clearCall_not_call call]
    exact untouched fun w _ h => call h.1

/-- In MUTE a whole queue leaves. -/
theorem State.clearQueue_mute : ∀ (q : List Message) {s : State}, s.line.state = .mute →
    q.foldl (fun s m => (s.clearCall m).1) s = s.setVotes (s.votes.map (clearCalls q))
  | [], s, _ => by
    have same : s.votes.map (clearCalls []) = s.votes := s.votes.map_id
    rw [same]
    rfl
  | m :: q, s, mute => by
    rw [List.foldl_cons, State.clearCall_mute mute, State.clearQueue_mute q (by exact mute)]
    refine congrArg s.setVotes (List.map_map.trans (List.map_congr_left fun w _ => ?_))
    by_cases first : m.body.lineClass = 1 ∧ m.owner = some w.id <;> simp [clearCalls, first]

/-- The line unit in MUTE, its queue and beacon gone. -/
def State.muted (s : State) : State := s.setLine { s.line with state := .mute, queue := [], beacon := none }

theorem State.muted_frame (s : State) : SameBut [.lineState, .lineQueue, .beacon] s s.muted := by
  intro p hp
  cases p with
  | lineState | lineQueue | beacon => exact absurd (by decide) hp
  | _ =>
    simp only [Part.same]
    and_intros <;> rfl

/-- The unit in MUTE before it reports: CALL pending is clear in the votes whose CALL is lost, and the queue is
counted. -/
def State.silenced (s : State) : State :=
  (s.muted.setVotes (s.votes.map (clearCalls s.line.queue))).bumpBy .lineDropped s.line.queue.length

theorem State.enterMute_mute {s : State} (mute : s.line.state = .mute) : s.enterMute = s := if_pos mute

theorem State.enterMute_eq {s : State} (loud : s.line.state ≠ .mute) :
    s.enterMute = s.silenced.pushReport (.station s.strap.station.val .duplicate) := by
  have cleared : s.line.queue.foldl (fun s m => (s.clearCall m).1) s.muted =
    s.muted.setVotes (s.votes.map (clearCalls s.line.queue)) := State.clearQueue_mute s.line.queue rfl
  unfold State.silenced
  rw [← cleared]
  exact if_neg loud

theorem State.silenced_frame (s : State) :
    SameBut [.lineState, .lineQueue, .beacon, .votes, .counter .lineDropped] s s.silenced :=
  (s.muted_frame.comp (State.setVotes_frame _ _) (rs := [.lineState, .lineQueue, .beacon, .votes]) (by decide)
    (by decide)).comp (State.bumpBy_frame _ _ _) (by decide) (by decide)

theorem State.silenced_dropped (s : State) :
    s.silenced.count .lineDropped = min 4294967295 (s.count .lineDropped + s.line.queue.length) :=
  (State.count_bumpBy _ _ _ _).trans (if_pos rfl)

/-- What the unit is in once a frame with its own number has muted it. -/
theorem State.enterMute_silences {s : State} (loud : s.line.state ≠ .mute) :
    s.enterMute.line = s.muted.line ∧ s.enterMute.votes = s.votes.map (clearCalls s.line.queue) ∧
      s.enterMute.count .lineDropped = min 4294967295 (s.count .lineDropped + s.line.queue.length) ∧
      s.enterMute.count .lineReceived = s.count .lineReceived ∧
      (s.port.reports.length < 64 → s.enterMute.port.reports = s.port.reports ++
        [{ number := s.port.nextReport, report := .station s.strap.station.val .duplicate }]) ∧
      SameBut [.lineState, .lineQueue, .beacon, .votes, .counter .lineDropped, .reports, .counter .reportsLost] s
        s.enterMute := by
  rw [State.enterMute_eq loud]
  have pushed := s.silenced.pushReport_frame (.station s.strap.station.val .duplicate)
  refine ⟨State.pushReport_line _ _, pushed .votes (by decide),
    (pushed (.counter .lineDropped) (by decide)).trans s.silenced_dropped,
    (pushed (.counter .lineReceived) (by decide)).trans (s.silenced_frame (.counter .lineReceived) (by decide)),
    fun room => State.pushReport_reports (s := s.silenced) room _,
    s.silenced_frame.comp pushed (by decide) (by decide)⟩

/-! ### A frame of another station (R68, R70, R156) -/

/-- What is heard once a frame of a station has ended, whatever that station was before. -/
theorem State.afterFrame_hears (s : State) {station : Nat} (inside : station < 32) :
    (s.afterFrame station).line.heardOf station = .present s.now ∧
      (∀ x, x ≠ station → (s.afterFrame station).line.heardOf x = s.line.heardOf x) ∧
      (s.afterFrame station).count .lineReceived = min 4294967295 (s.count .lineReceived + 1) ∧
      (s.afterFrame station).line.quietCount = 0 ∧ (s.afterFrame station).line.activity = .quiet := by
  have heard := s.frameCounted.hear_frame station
  obtain ⟨-, quiet, activity⟩ := heard .lineClock (by decide)
  refine ⟨s.afterFrame_heard inside, fun x other => ?_,
    (heard (.counter .lineReceived) (by decide)).trans s.frameCounted_count, quiet, activity⟩
  unfold LineUnit.heardOf
  rw [s.afterFrame_others other]

/-- A station heard under a silence limit of 0 ms is SILENT once its frame has been delivered. -/
theorem State.frameDone_silent {s : State} {station last : Nat} (none : timeOfCode s.timers.silence = 0)
    (heard : s.line.heardOf station = .present last) :
    s.frameDone station = (s.expireSilence station).finish ∧
      (s.expireSilence station).line.heardOf station = .silent last :=
  ⟨congrArg State.finish (if_pos none), (State.expireSilence_silent heard).1⟩

theorem State.frameDone_heard {s : State} (limit : timeOfCode s.timers.silence ≠ 0) (station : Nat) :
    s.frameDone station = s.finish := congrArg State.finish (if_neg limit)

/-- The timers stand through a frame, and its station is PRESENT when it has been delivered. -/
theorem State.delivered (s : State) {station : Nat} (inside : station < 32) (b : LineBody) :
    ((s.afterFrame station).deliverBody station b).timers = s.timers ∧
      ((s.afterFrame station).deliverBody station b).line.heardOf station = .present s.now :=
  ⟨((s.afterFrame station).deliverBody_frame station b .timers (by decide)).trans
      (s.afterFrame_frame station .timers (by decide)),
    (State.deliverBody_heardOf _ _ _ _).trans (s.afterFrame_heard inside)⟩

/-- Settles O52: `afterFrame` and `frameDone` for another station, `enterMute` for the own number. -/
theorem stationsAreHeardAndDuplicatesMute : Obligations.StationsAreHeardAndDuplicatesMute := by
  unfold Obligations.StationsAreHeardAndDuplicatesMute
  intro kind source body b s read hears u i
  have command : i = b.command source body := by cases b <;> rfl
  have inside : source.toNat < 32 := (readFrame_some read).1
  rw [command]
  refine ⟨fun other => ?_, fun own => ⟨fun mute => ?_, fun loud => ?_⟩⟩
  · obtain ⟨timers, present⟩ := s.delivered inside b
    obtain ⟨heard, others, counted, quiet, activity⟩ := s.afterFrame_hears inside
    refine ⟨exec_command_other read hears other, fun limit => ?_, fun none => ?_, heard, others, counted, quiet,
      activity, State.afterFrame_known, fun silent => ⟨s.afterFrame_frame _, State.afterFrame_reports silent⟩⟩
    · exact State.frameDone_heard (timers ▸ limit) _
    · exact State.frameDone_silent (timers ▸ none) present
  · rw [exec_command_own read hears own, State.enterMute_mute (s := s.frameCounted) mute]
    rfl
  · obtain ⟨line, votes, dropped, received, reports, frame⟩ := State.enterMute_silences (s := s.frameCounted) loud
    have lost : s.frameCounted.count .lineDropped = s.count .lineDropped :=
      s.frameCounted_frame (.counter .lineDropped) (by decide)
    rw [lost] at dropped
    refine ⟨s.frameCounted.enterMute, exec_command_own read hears own, ?_, ?_, ?_, ?_, dropped,
      received.trans s.frameCounted_count, reports, votes, s.frameCounted_frame.comp frame (by decide) (by decide)⟩
    all_goals
      rw [line]
      rfl

end Sys2Proof.Machine
end

section
/-! The form of a line frame: its line check, the tests of its body, and how one that the station builds reads back
(R56, R57, R63, R64, R178). -/

namespace Sys2Proof.Machine

/-! ### Fields of bytes -/

/-- Two runs of bytes of one length that spell one number are the same. -/
theorem natOf_inj : ∀ {bs cs : List Byte}, bs.length = cs.length → natOf bs = natOf cs → bs = cs
  | [], [], _, _ => rfl
  | b :: bs, c :: cs, length, spelled => by
    have tails : bs.length = cs.length := Nat.succ.inj length
    have low := natOf_lt bs
    have low' := natOf_lt cs
    rw [natOf_cons, natOf_cons, ← tails] at spelled
    rw [← tails] at low'
    have heads : b.toNat = c.toNat := by
      have quotients := congrArg (· / 256 ^ bs.length) spelled
      simpa [Nat.mul_comm _ (256 ^ bs.length), Nat.mul_add_div, Nat.div_eq_of_lt low, Nat.div_eq_of_lt low']
        using quotients
    rw [heads] at spelled
    rw [BitVec.eq_of_toNat_eq heads, natOf_inj tails (Nat.add_left_cancel spelled)]

/-- A field behind some bytes is a field of what follows them. -/
theorem field_append {xs : List Byte} {offset : Nat} (behind : xs.length ≤ offset) (rest : List Byte) (size : Nat) :
    field (xs ++ rest) offset size = field rest (offset - xs.length) size := by
  unfold field
  rw [List.drop_append, List.drop_eq_nil_of_le behind, List.nil_append]

theorem field_behind {k offset : Nat} (behind : k ≤ offset) (n : Nat) (rest : List Byte) (size : Nat) :
    field (bytesOf k n ++ rest) offset size = field rest (offset - k) size := by
  rw [field_append (by rwa [length_bytesOf]), length_bytesOf]

/-- Bytes that are a whole field. -/
theorem field_whole {bs : List Byte} {size : Nat} (length : bs.length = size) : field bs 0 size = natOf bs := by
  unfold field
  rw [List.drop_zero, ← length, List.take_length]

theorem field_bytesOf_whole {k n : Nat} (fits : n < 256 ^ k) : field (bytesOf k n) 0 k = n := by
  rw [field_whole (length_bytesOf k n), natOf_bytesOf fits]

/-- A check value reads back from its four bytes. -/
theorem wordAt_wordBytes (x : Word) (rest : List Byte) : wordAt (wordBytes x ++ rest) 0 = x := by
  rw [wordAt, wordBytes_eq, field_bytesOf x.isLt, BitVec.ofNat_toNat, BitVec.setWidth_eq]

theorem wordAt_append {xs : List Byte} {offset : Nat} (behind : xs.length ≤ offset) (rest : List Byte) :
    wordAt (xs ++ rest) offset = wordAt rest (offset - xs.length) := by
  rw [wordAt, field_append behind, wordAt]

/-- A key in range reads back from its eight bytes. -/
theorem keyAt_bytes {k : Key} (reel : k.reel < 4294967296) (frame : k.frame ≤ 262142) (rest : List Byte) :
    keyAt (k.bytes ++ rest) 0 = k := by
  have low : k.frame < 256 ^ 4 := Nat.lt_of_le_of_lt frame (by decide)
  unfold keyAt
  rw [Key.bytes_eq, List.append_assoc, field_bytesOf reel, field_behind (by decide), field_bytesOf low]

theorem field_behind_key {k : Key} {offset : Nat} (behind : 8 ≤ offset) (rest : List Byte) (size : Nat) :
    field (k.bytes ++ rest) offset size = field rest (offset - 8) size := field_append behind rest size

theorem field_behind_word {x : Word} {offset : Nat} (behind : 4 ≤ offset) (rest : List Byte) (size : Nat) :
    field (wordBytes x ++ rest) offset size = field rest (offset - 4) size := field_append behind rest size

theorem wordAt_behind_key {k : Key} {offset : Nat} (behind : 8 ≤ offset) (rest : List Byte) :
    wordAt (k.bytes ++ rest) offset = wordAt rest (offset - 8) := wordAt_append behind rest

theorem wordAt_behind {j offset : Nat} (behind : j ≤ offset) (n : Nat) (rest : List Byte) :
    wordAt (bytesOf j n ++ rest) offset = wordAt rest (offset - j) := by
  rw [wordAt, field_behind behind, wordAt]

theorem keyInRange_of {k : Key} (reel : 1 ≤ k.reel) (frame : k.frame ≤ 262142) : keyInRange k = true := by
  unfold keyInRange
  rw [decide_eq_true reel, decide_eq_true frame]
  rfl

theorem keyInRange_eq_false {body : List Byte} :
    keyInRange (keyAt body 0) = false ↔ field body 0 4 = 0 ∨ 262142 < field body 4 4 := by
  unfold keyInRange keyAt
  rw [Bool.and_eq_false_iff, decide_eq_false_iff_not, decide_eq_false_iff_not, Nat.not_le, Nat.not_le, Nat.lt_one_iff]

/-! ### The codes (R178) -/

theorem sumStatusOfCode_eq_none : ∀ {c : Nat}, sumStatusOfCode c = none ↔ c = 0 ∨ 4 < c
  | 0 | 1 | 2 | 3 | 4 | c + 5 => by simp [sumStatusOfCode]

theorem refStateOfCode_eq_none : ∀ {c : Nat}, refStateOfCode c = none ↔ 2 < c
  | 0 | 1 | 2 | c + 3 => by simp [refStateOfCode]

theorem presenceOfCode_eq_none : ∀ {c : Nat}, presenceOfCode c = none ↔ c ≠ 1 ∧ c ≠ 2
  | 0 | 1 | 2 | c + 3 => by simp [presenceOfCode]

theorem sumStatusOfCode_code (status : SumStatus) : sumStatusOfCode status.code = some status := by
  cases status <;> rfl

theorem refStateOfCode_code (ref : RefState) : refStateOfCode ref.code = some ref := by
  cases ref <;> rfl

theorem presenceOfCode_code (mode : PresenceMode) : presenceOfCode mode.code = some mode := by
  cases mode <;> rfl

theorem SumStatus.code_lt (status : SumStatus) : status.code < 256 ^ 1 := by
  cases status <;> decide

theorem RefState.code_lt (ref : RefState) : ref.code < 256 ^ 1 := by
  cases ref <;> decide

theorem PresenceMode.code_lt (mode : PresenceMode) : mode.code < 256 ^ 1 := by
  cases mode <;> decide

/-! ### What is malformed (R64) -/

/-- A body is malformed just when it fails the test of its kind. -/
theorem read_eq_none {test : Bool} {b : LineBody} : (if test = true then some b else none) = none ↔ test = false := by
  simp

theorem readSum_eq_none {body : List Byte} : readSum body = none ↔
    body.length ≠ 15 ∨ (field body 0 4 = 0 ∨ 262142 < field body 4 4) ∨ field body 8 1 = 0 ∨ 4 < field body 8 1 ∨
      2 < field body 14 1 := by
  rw [← keyInRange_eq_false, ← refStateOfCode_eq_none, ← or_assoc (c := refStateOfCode _ = none),
    ← sumStatusOfCode_eq_none]
  unfold readSum
  by_cases length : body.length = 15
  · cases keyInRange (keyAt body 0) with
    | false => simp [length]
    | true =>
      cases sumStatusOfCode (field body 8 1) <;> cases refStateOfCode (field body 14 1) <;> simp [length]
  · simp [length]

theorem callListed_all {body : List Byte} : ((callListed body).all fun t => decide (t ≤ 31)) = false ↔
    ∃ x ∈ (body.drop 9).take (field body 8 1), 31 < x.toNat := by
  unfold callListed
  rw [List.all_eq_false]
  simp [-List.map_drop, -List.map_take]

theorem readCall_eq_none {body : List Byte} : readCall body = none ↔
    body.length ≠ 13 ∨ (field body 0 4 = 0 ∨ 262142 < field body 4 4) ∨ field body 8 1 = 0 ∨ 4 < field body 8 1 ∨
      ∃ x ∈ (body.drop 9).take (field body 8 1), 31 < x.toNat := by
  rw [← keyInRange_eq_false, ← callListed_all]
  unfold readCall
  rw [read_eq_none]
  simp only [Bool.and_eq_false_iff, decide_eq_false_iff_not, or_assoc, Nat.not_le, Nat.lt_one_iff]

theorem readTiles_eq_none {body : List Byte} : readTiles body = none ↔
    body.length ≠ 15 + 4 * field body 14 1 ∨ (field body 0 4 = 0 ∨ 262142 < field body 4 4) ∨ field body 12 1 = 0 ∨
      field body 14 1 = 0 ∨ 32 < field body 14 1 := by
  rw [← keyInRange_eq_false]
  unfold readTiles
  rw [read_eq_none]
  simp only [Bool.and_eq_false_iff, decide_eq_false_iff_not]
  cases keyInRange (keyAt body 0)
  · simp
  · simp only [Bool.true_eq_false, false_or]
    omega

theorem readPresent_eq_none {body : List Byte} : readPresent body = none ↔
    body.length ≠ 3 ∨ (field body 0 1 ≠ 1 ∧ field body 0 1 ≠ 2) ∨ 512 < field body 1 2 := by
  rw [← presenceOfCode_eq_none]
  unfold readPresent
  by_cases length : body.length = 3
  · by_cases count : field body 1 2 ≤ 512
    · simp [length, count]
    · simp [length, count, Nat.not_le.1 count]
  · simp [length]

/-- A malformed frame has an unlisted kind, no station as its source, or a body that its kind does not allow. -/
theorem readFrame_eq_none {kind source : Byte} {body : List Byte} : readFrame kind source body = none ↔
    kind.toNat = 0 ∨ 4 < kind.toNat ∨ 31 < source.toNat ∨ (kind.toNat = 1 ∧ readSum body = none) ∨
      (kind.toNat = 2 ∧ readCall body = none) ∨ (kind.toNat = 3 ∧ readTiles body = none) ∨
      (kind.toNat = 4 ∧ readPresent body = none) := by
  unfold readFrame
  by_cases low : source.toNat ≤ 31
  · rw [if_pos low]
    generalize kind.toNat = code
    match code with
    | 0 | 1 | 2 | 3 | 4 | code + 5 => simp [Nat.not_lt.2 low]
  · rw [if_neg low]
    simp [Nat.not_le.1 low]

/-! ### The line check (R57, R63) -/

/-- What the line check of a frame covers: its header and body. -/
def coveredBytes (kind source : Byte) (body : List Byte) : List Byte := [kind, source] ++ bytesOf 2 body.length ++ body

/-- A frame with its delimiter and its own line check. -/
def sealedFrame (kind source : Byte) (body : List Byte) : List Byte :=
  [0xA5] ++ coveredBytes kind source body ++ bytesOf 2 (lineCheck (coveredBytes kind source body)).toNat

theorem LineBody.covered_eq (station : Nat) (b : LineBody) :
    b.covered station = coveredBytes (BitVec.ofNat 8 b.kind) (BitVec.ofNat 8 station) b.bytes := by
  unfold LineBody.covered coveredBytes
  rw [byte1_code, byte1_code]
  rfl

theorem LineBody.frameBytes_eq (station : Nat) (b : LineBody) :
    b.frameBytes station = sealedFrame (BitVec.ofNat 8 b.kind) (BitVec.ofNat 8 station) b.bytes := by
  unfold LineBody.frameBytes sealedFrame
  rw [LineBody.covered_eq]
  rfl

/-- The two bytes of a line check. -/
theorem ofNat_eq_lineCheck {n : Nat} (fits : n < 65536) (check : BitVec 16) :
    BitVec.ofNat 16 n = check ↔ n = check.toNat := by
  rw [BitVec.toNat_eq, BitVec.toNat_ofNat, Nat.mod_eq_of_lt fits]

/-- The check of R63 behind a kind and a source. -/
theorem checkCandidate_cons (delimiter kind source : Byte) (rest : List Byte) :
    checkCandidate (delimiter :: kind :: source :: rest) =
      if delimiter = 0xA5 ∧ rest.length = 2 + field rest 0 2 + 2 ∧
          field rest (2 + field rest 0 2) 2 = (lineCheck (kind :: source :: rest.take (2 + field rest 0 2))).toNat then
        some { kind := kind, source := source, body := (rest.drop 2).take (field rest 0 2) }
      else none := by
  simp only [checkCandidate, Bool.and_eq_true, decide_eq_true_eq, ofNat_eq_lineCheck (field_lt rest _ 2), and_assoc]

/-- Behind a delimiter and a header and body passes just a line check that is theirs. -/
theorem checkCandidate_covered (kind source : Byte) {body : List Byte} (fits : body.length ≤ 65535) (tail : List Byte) :
    checkCandidate ([0xA5] ++ coveredBytes kind source body ++ tail) =
      if tail.length = 2 ∧ natOf tail = (lineCheck (coveredBytes kind source body)).toNat then
        some { kind := kind, source := source, body := body }
      else none := by
  have size : field (bytesOf 2 body.length ++ (body ++ tail)) 0 2 = body.length :=
    field_bytesOf (Nat.lt_succ_of_le fits) _
  have covered : (bytesOf 2 body.length ++ (body ++ tail)).take (2 + body.length) = bytesOf 2 body.length ++ body := by
    rw [← List.append_assoc]
    exact List.take_left' (by simp)
  have behind : (bytesOf 2 body.length ++ (body ++ tail)).drop 2 = body ++ tail := List.drop_left' (by simp)
  have length : (bytesOf 2 body.length ++ (body ++ tail)).length = 2 + body.length + 2 ↔ tail.length = 2 := by
    rw [List.length_append, List.length_append, length_bytesOf]
    omega
  have check : field (bytesOf 2 body.length ++ (body ++ tail)) (2 + body.length) 2 = field tail 0 2 := by
    rw [field_behind (Nat.le_add_right 2 _), Nat.add_sub_cancel_left, field_append (Nat.le_refl _), Nat.sub_self]
  simp only [coveredBytes, List.cons_append, List.nil_append, List.append_assoc, checkCandidate_cons, size, covered,
    behind, length, check, List.take_left, true_and]
  exact if_congr (and_congr_right fun two => by rw [field_whole two]) rfl rfl

theorem checkCandidate_sealed (kind source : Byte) {body : List Byte} (fits : body.length ≤ 65535) :
    checkCandidate (sealedFrame kind source body) = some { kind := kind, source := source, body := body } :=
  (checkCandidate_covered kind source fits _).trans (if_pos ⟨length_bytesOf 2 _, natOf_bytesOf (BitVec.isLt _)⟩)

/-- No other bytes with the delimiter, the header and the body of a frame pass. -/
theorem checkCandidate_other {kind source : Byte} {body other : List Byte} (fits : body.length ≤ 65535)
    (differs : other ≠ sealedFrame kind source body)
    (starts : other.take (4 + 1 + body.length) = [0xA5] ++ coveredBytes kind source body) :
    checkCandidate other = none := by
  rw [← List.take_append_drop (4 + 1 + body.length) other, starts, checkCandidate_covered kind source fits]
  refine if_neg fun ⟨length, check⟩ => differs ?_
  have tail : other.drop (4 + 1 + body.length) = bytesOf 2 (lineCheck (coveredBytes kind source body)).toNat :=
    natOf_inj (length.trans (length_bytesOf 2 _).symm) (check.trans (natOf_bytesOf (BitVec.isLt _)).symm)
  rw [← List.take_append_drop (4 + 1 + body.length) other, starts, tail]
  rfl

/-- An activity fails just when its delimiter, its length or its line check is wrong. -/
theorem checkCandidate_eq_none {bytes : List Byte} : checkCandidate bytes = none ↔
    bytes.head? ≠ some 0xA5 ∨ bytes.length ≠ 7 + field bytes 3 2 ∨
      field bytes (5 + field bytes 3 2) 2 ≠ (lineCheck ((bytes.drop 1).take (4 + field bytes 3 2))).toNat := by
  match bytes with
  | [] => simp [checkCandidate]
  | [_] | [_, _] => exact iff_of_true rfl (Or.inr (Or.inl (Nat.ne_of_lt (Nat.lt_add_right _ (by simp)))))
  | delimiter :: kind :: source :: rest =>
    have size : field (delimiter :: kind :: source :: rest) 3 2 = field rest 0 2 := rfl
    have check : field (delimiter :: kind :: source :: rest) (5 + field rest 0 2) 2 =
        field rest (2 + field rest 0 2) 2 := by
      rw [show 5 + field rest 0 2 = 2 + field rest 0 2 + 3 by omega]
      rfl
    have covered : ((delimiter :: kind :: source :: rest).drop 1).take (4 + field rest 0 2) =
        kind :: source :: rest.take (2 + field rest 0 2) := by
      rw [show 4 + field rest 0 2 = 2 + field rest 0 2 + 2 by omega]
      rfl
    rw [size, check, covered, checkCandidate_cons, ite_eq_right_iff, List.head?_cons, List.length_cons,
      List.length_cons, List.length_cons]
    have length : rest.length + 1 + 1 + 1 = 7 + field rest 0 2 ↔ rest.length = 2 + field rest 0 2 + 2 := by omega
    simp only [reduceCtorEq, imp_false, not_and_or, ne_eq, Option.some.injEq, length]

/-! ### Activity that ends (R58, R63) -/

/-- The five commands that end an activity of another station. -/
def activityEnds (jam : Bool) (bytes body : List Byte) (source : Byte) : List Instr :=
  [.candidateFrame jam bytes, .sum source body, .call source body, .tiles source body, .present source body]

theorem exec_activityEnds {jam : Bool} {bytes body : List Byte} {source : Byte} {i : Instr}
    (ends : i ∈ activityEnds jam bytes body source) (s : State) : ∃ act, exec i s = .next (s.heard act) := by
  simp only [activityEnds, List.mem_cons, List.not_mem_nil, or_false] at ends
  rcases ends with rfl | rfl | rfl | rfl | rfl <;> exact ⟨_, rfl⟩

theorem State.heard_reset {s : State} (reset : s.resetLine = true) (act : State → State) :
    s.heard act = s.endActivity := if_pos reset

theorem State.heard_transmitting {s : State} (awake : s.resetLine = false) (sending : s.line.transmitting = true)
    (act : State → State) : s.heard act = s :=
  (if_neg (by rw [awake]; decide)).trans (if_pos sending)

theorem exec_candidateFrame (jam : Bool) (bytes : List Byte) (s : State) :
    exec (.candidateFrame jam bytes) s = .next (s.heard fun s => s.takeCandidate jam bytes) := rfl

/-- A fragment of a collision is no frame. -/
theorem exec_fragment {s : State} (hears : s.hears = true) (bytes : List Byte) :
    exec (.candidateFrame true bytes) s = .next s.endActivity.finish :=
  congrArg Host.Outcome.next (State.heard_hears hears _)

theorem exec_badCheck {s : State} (hears : s.hears = true) {bytes : List Byte} (bad : checkCandidate bytes = none) :
    exec (.candidateFrame false bytes) s = .next (s.endActivity.bump .lineBadCheck).finish := by
  have counted : s.endActivity.takeCandidate false bytes = s.endActivity.bump .lineBadCheck := by
    unfold State.takeCandidate
    rw [bad]
    rfl
  rw [exec_candidateFrame, State.heard_hears hears, counted]

/-- A frame whose check passes is put to the tests of form. -/
theorem exec_sealedFrame (kind source : Byte) {body : List Byte} (fits : body.length ≤ 65535) (s : State) :
    exec (.candidateFrame false (sealedFrame kind source body)) s =
      .next (s.heard fun s => s.takeChecked kind source body) := by
  have taken : (fun s : State => s.takeCandidate false (sealedFrame kind source body)) =
      fun s => s.takeChecked kind source body := by
    funext t
    unfold State.takeCandidate
    rw [checkCandidate_sealed kind source fits]
    rfl
  rw [exec_candidateFrame, taken]

theorem State.heard_malformed {s : State} (hears : s.hears = true) {kind source : Byte} {body : List Byte}
    (malformed : readFrame kind source body = none) : (s.heard fun s => s.takeChecked kind source body) =
      (s.endActivity.bump .lineMalformed).finish := by
  have counted : s.endActivity.takeChecked kind source body = s.endActivity.bump .lineMalformed := by
    unfold State.takeChecked
    rw [malformed]
  rw [State.heard_hears hears, counted]

/-- Settles O50: the line check by `checkCandidate_covered`, the tests of form kind by kind. -/
theorem framesAreCheckedAndTestedForForm : Obligations.FramesAreCheckedAndTestedForForm := by
  unfold Obligations.FramesAreCheckedAndTestedForForm
  refine ⟨fun s => ⟨fun jam bytes source body i ends => ?_, fun hears => ⟨exec_fragment hears,
    fun bytes => exec_badCheck hears, fun kind source body fits => ?_⟩⟩, fun bytes => checkCandidate_eq_none,
    fun kind source body => ?_⟩
  · obtain ⟨act, ended⟩ := exec_activityEnds ends s
    rw [ended]
    exact ⟨fun reset => congrArg Host.Outcome.next (State.heard_reset reset act),
      fun awake sending => congrArg Host.Outcome.next (State.heard_transmitting awake sending act)⟩
  · have passes := exec_sealedFrame kind source fits s
    refine ⟨fun other => checkCandidate_other fits, fun malformed => passes.trans ?_, ?_, ?_, ?_, ?_, ?_, ?_, ?_, ?_⟩
    · exact congrArg Host.Outcome.next (State.heard_malformed hears malformed)
    iterate 4
      rintro rfl
      exact passes
    all_goals exact fun malformed => congrArg Host.Outcome.next (State.heard_malformed hears malformed)
  · rw [readFrame_eq_none, readSum_eq_none, readCall_eq_none, readTiles_eq_none, readPresent_eq_none]

/-! ### Bodies read back (R56, R178) -/

theorem readSum_bytes {k : Key} (reel : 1 ≤ k.reel) (word : k.reel < 4294967296) (frame : k.frame ≤ 262142)
    {n : Nat} (tiles : n < 256 ^ 1) (status : SumStatus) (x : Word) (ref : RefState) :
    readSum (LineBody.sum k status x n ref).bytes = some (.sum k status x n ref) := by
  have body : (LineBody.sum k status x n ref).bytes =
      k.bytes ++ (bytesOf 1 status.code ++ (wordBytes x ++ (bytesOf 1 n ++ bytesOf 1 ref.code))) := by
    simp only [LineBody.bytes, byte1_eq, List.append_assoc]
  rw [body]
  unfold readSum
  simp only [keyAt_bytes word frame, keyInRange_of reel frame, field_behind_key, field_behind_word, field_behind,
    wordAt_behind_key, wordAt_behind, Nat.le_refl, Nat.reduceLeDiff, Nat.reduceSub, field_bytesOf status.code_lt,
    field_bytesOf tiles, field_bytesOf_whole ref.code_lt, wordAt_wordBytes, sumStatusOfCode_code, refStateOfCode_code]
  simp [Key.bytes_eq, wordBytes_eq]

/-- The stations listed in a CALL, a byte each. -/
theorem flatMap_byte1 (listed : List Nat) : listed.flatMap byte1 = listed.map (BitVec.ofNat 8) := by
  rw [funext byte1_code, List.map_eq_flatMap]

theorem map_toNat_flatMap_byte1 {listed : List Nat} (stations : ∀ x ∈ listed, x ≤ 31) :
    (listed.flatMap byte1).map BitVec.toNat = listed := by
  rw [flatMap_byte1, List.map_map]
  have fits : ∀ x ∈ listed, (BitVec.toNat ∘ BitVec.ofNat 8) x = id x := fun x listed => by
    have low := stations x listed
    simp only [Function.comp_apply, BitVec.toNat_ofNat, id_eq]
    omega
  exact (List.map_congr_left fits).trans listed.map_id

theorem length_flatMap_byte1 (listed : List Nat) : (listed.flatMap byte1).length = listed.length := by
  rw [flatMap_byte1, List.length_map]

theorem readCall_bytes {k : Key} (reel : 1 ≤ k.reel) (word : k.reel < 4294967296) (frame : k.frame ≤ 262142)
    {listed : List Nat} (filled : 1 ≤ listed.length) (few : listed.length ≤ 4) (stations : ∀ x ∈ listed, x ≤ 31) :
    readCall (LineBody.call k listed).bytes = some (.call k listed) := by
  have body : (LineBody.call k listed).bytes = k.bytes ++ (bytesOf 1 listed.length ++ (listed.flatMap byte1 ++
      List.replicate (4 - listed.length) 0xFF)) := by
    simp only [LineBody.bytes, byte1_eq, List.append_assoc]
  have length : (LineBody.call k listed).bytes.length = 13 := by
    simp only [body, Key.bytes_eq, List.length_append, length_bytesOf, length_flatMap_byte1, List.length_replicate]
    omega
  have count : field (LineBody.call k listed).bytes 8 1 = listed.length := by
    rw [body, field_behind_key (by decide)]
    exact field_bytesOf (Nat.lt_of_le_of_lt few (by decide)) _
  have stationBytes : ((LineBody.call k listed).bytes.drop 9).take listed.length = listed.flatMap byte1 := by
    rw [body, ← List.append_assoc, List.drop_left' (by simp [Key.bytes_eq])]
    exact List.take_left' (length_flatMap_byte1 listed)
  have listed' : callListed (LineBody.call k listed).bytes = listed := by
    rw [callListed, count, stationBytes, map_toNat_flatMap_byte1 stations]
  have key : keyAt (LineBody.call k listed).bytes 0 = k := by rw [body, keyAt_bytes word frame]
  unfold readCall
  rw [length, key, count, listed', keyInRange_of reel frame]
  simpa [filled, few] using stations

theorem length_flatMap_wordBytes (checks : List Word) : (checks.flatMap wordBytes).length = 4 * checks.length := by
  simp [wordBytes_eq, List.length_flatMap, Nat.mul_comm]

theorem checksAt_flatMap : ∀ (checks : List Word) (before : List Byte),
    checksAt (before ++ checks.flatMap wordBytes) before.length checks.length = checks
  | [], _ => rfl
  | x :: checks, before => by
    have first : wordAt (before ++ (x :: checks).flatMap wordBytes) before.length = x := by
      rw [wordAt_append (Nat.le_refl _), Nat.sub_self, List.flatMap_cons, wordAt_wordBytes]
    have rest := checksAt_flatMap checks (before ++ wordBytes x)
    rw [List.append_assoc, List.length_append] at rest
    show wordAt _ _ :: checksAt _ (before.length + 4) _ = _
    rw [first]
    exact congrArg (x :: ·) rest

theorem readTiles_bytes {k : Key} (reel : 1 ≤ k.reel) (word : k.reel < 4294967296) (frame : k.frame ≤ 262142)
    {n first : Nat} (one : 1 ≤ n) (tiles : n < 256 ^ 1) (index : first < 256 ^ 1) {checks : List Word}
    (filled : 1 ≤ checks.length) (few : checks.length ≤ 32) (x : Word) :
    readTiles (LineBody.tiles k x n first checks).bytes = some (.tiles k x n first checks) := by
  have body : (LineBody.tiles k x n first checks).bytes = k.bytes ++ (wordBytes x ++ (bytesOf 1 n ++ (bytesOf 1 first ++
      (bytesOf 1 checks.length ++ checks.flatMap wordBytes)))) := by
    simp only [LineBody.bytes, byte1_eq, List.append_assoc]
  have listed : checksAt (LineBody.tiles k x n first checks).bytes 15 checks.length = checks := by
    have behind := checksAt_flatMap checks (k.bytes ++ wordBytes x ++ byte1 n ++ byte1 first ++ byte1 checks.length)
    rwa [show (k.bytes ++ wordBytes x ++ byte1 n ++ byte1 first ++ byte1 checks.length).length = 15 by
      simp [Key.bytes_eq, wordBytes_eq, byte1_eq]] at behind
  have length : (LineBody.tiles k x n first checks).bytes.length = 15 + 4 * checks.length := by
    simp only [body, Key.bytes_eq, wordBytes_eq, List.length_append, length_bytesOf, length_flatMap_wordBytes]
    omega
  rw [body] at listed length
  rw [body]
  unfold readTiles
  simp only [keyAt_bytes word frame, keyInRange_of reel frame, field_behind_key, field_behind_word, field_behind,
    wordAt_behind_key, Nat.le_refl, Nat.reduceLeDiff, Nat.reduceSub, field_bytesOf tiles, field_bytesOf index,
    field_bytesOf (Nat.lt_of_le_of_lt few (by decide) : checks.length < 256 ^ 1), wordAt_wordBytes, listed, length]
  simp [filled, few, one]

theorem readPresent_bytes {count : Nat} (low : count ≤ 512) (mode : PresenceMode) :
    readPresent (LineBody.present mode count).bytes = some (.present mode count) := by
  have body : (LineBody.present mode count).bytes = bytesOf 1 mode.code ++ bytesOf 2 count := rfl
  have shown : field (LineBody.present mode count).bytes 1 2 = count := by
    rw [body, field_behind (by decide)]
    exact field_bytesOf_whole (Nat.lt_of_le_of_lt low (by decide))
  have code : field (LineBody.present mode count).bytes 0 1 = mode.code := field_bytesOf mode.code_lt _
  unfold readPresent
  rw [shown, code, presenceOfCode_code, body]
  simp [low]

/-! ### Frames read back (R56, R63, R64) -/

/-- The fields of a frame body are in range. -/
def LineBody.InRange : LineBody → Prop
  | .sum k _ _ n _ => 1 ≤ k.reel ∧ k.reel < 4294967296 ∧ k.frame ≤ 262142 ∧ n ≤ 255
  | .call k listed => 1 ≤ k.reel ∧ k.reel < 4294967296 ∧ k.frame ≤ 262142 ∧ 1 ≤ listed.length ∧ listed.length ≤ 4 ∧
    ∀ x ∈ listed, x ≤ 31
  | .tiles k _ n first checks => 1 ≤ k.reel ∧ k.reel < 4294967296 ∧ k.frame ≤ 262142 ∧ 1 ≤ n ∧ n ≤ 255 ∧
    first ≤ 255 ∧ 1 ≤ checks.length ∧ checks.length ≤ 32
  | .present _ holdings => holdings ≤ 512

theorem LineBody.bytes_length_le {b : LineBody} (range : b.InRange) : b.bytes.length ≤ 65535 := by
  cases b with
  | sum k status x n ref => simp [LineBody.bytes, Key.bytes_eq, wordBytes_eq, byte1_eq]
  | call k listed =>
    obtain ⟨-, -, -, -, few, -⟩ := range
    simp only [LineBody.bytes, Key.bytes_eq, byte1_code, List.length_append, length_bytesOf, length_flatMap_byte1,
      List.length_replicate, List.length_singleton]
    omega
  | tiles k x n first checks =>
    obtain ⟨-, -, -, -, -, -, -, few⟩ := range
    simp only [LineBody.bytes, Key.bytes_eq, wordBytes_eq, byte1_code, List.length_append, length_bytesOf,
      length_flatMap_wordBytes, List.length_singleton]
    omega
  | present mode count => simp [LineBody.bytes, byte1_eq, byte2_eq]

/-- The tests of form are those of the body's kind. -/
theorem readFrame_bytes {b : LineBody} (range : b.InRange) {source : Byte} (low : source.toNat ≤ 31) :
    readFrame (BitVec.ofNat 8 b.kind) source b.bytes = some b := by
  unfold readFrame
  rw [if_pos low]
  cases b with
  | sum k status x n ref =>
    obtain ⟨reel, word, frame, tiles⟩ := range
    exact readSum_bytes reel word frame (Nat.lt_succ_of_le tiles) status x ref
  | call k listed =>
    obtain ⟨reel, word, frame, one, few, stations⟩ := range
    exact readCall_bytes reel word frame one few stations
  | tiles k x n first checks =>
    obtain ⟨reel, word, frame, one, tiles, index, filled, few⟩ := range
    exact readTiles_bytes reel word frame one (Nat.lt_succ_of_le tiles) (Nat.lt_succ_of_le index) filled few x
  | present mode count => exact readPresent_bytes range mode

theorem LineBody.kind_toNat (b : LineBody) : (BitVec.ofNat 8 b.kind).toNat = b.kind := by
  cases b <;> rfl

/-- Settles O51: `checkCandidate_sealed`, then the reading of each kind of body. -/
theorem lineFramesReadAsBuilt : Obligations.LineFramesReadAsBuilt := by
  unfold Obligations.LineFramesReadAsBuilt
  intro station b low fields
  have range : b.InRange := by cases b <;> exact fields
  have source : (BitVec.ofNat 8 station).toNat = station := by
    rw [BitVec.toNat_ofNat]
    omega
  refine ⟨{ kind := BitVec.ofNat 8 b.kind, source := BitVec.ofNat 8 station, body := b.bytes }, ?_,
    b.kind_toNat, source, readFrame_bytes range (source.symm ▸ low)⟩
  rw [LineBody.frameBytes_eq, checkCandidate_sealed _ _ (LineBody.bytes_length_le range)]

end Sys2Proof.Machine
end

section
/-! The SUM of another station: an answer in the vote for its key, or a stray (R93 to R97, R99). -/

namespace Sys2Proof.Machine

theorem State.vote?_eq_none {s : State} {k : Key} (none : ∀ v ∈ s.votes, v.key ≠ k) : s.vote? k = .none :=
  List.find?_eq_none.2 fun v hv => by simpa using none v hv

/-- A vote is replaced in the votes of a state that are given by another name. -/
theorem State.replaceVote_eq {s : State} {votes : List Vote} (same : s.votes = votes) (id : Nat) (v : Vote) :
    ({ s with votes := votes.map fun w => if w.id = id then v else w } : State) = s.modifyVote id fun _ => v := by
  subst same
  rfl

/-- The stations with an answer, once one more has been recorded. -/
theorem Vote.record_answered (v : Vote) (a : Answer) (y : Nat) :
    (v.record a).answered y = true ↔ y = a.station ∨ v.answered y = true := by
  unfold Vote.record Vote.answered
  split
  · next again =>
    obtain ⟨b, hb, at'⟩ := List.any_eq_true.1 again
    simp only [List.any_eq_true, decide_eq_true_eq, List.mem_map] at at' ⊢
    constructor
    · rintro ⟨_, ⟨c, hc, rfl⟩, e⟩
      split at e
      · exact Or.inl e.symm
      · exact Or.inr ⟨c, hc, e⟩
    · rintro (rfl | ⟨c, hc, e⟩)
      · exact ⟨a, ⟨b, hb, if_pos at'⟩, rfl⟩
      · by_cases same : c.station = a.station
        · exact ⟨a, ⟨c, hc, if_pos same⟩, same.symm.trans e⟩
        · exact ⟨c, ⟨c, hc, if_neg same⟩, e⟩
  · rw [List.any_append, Bool.or_eq_true, or_comm]
    exact or_congr_left (by simpa using eq_comm)

section
variable {s : State} {k : Key} {v : Vote} {a : Answer}

/-- A SUM finds no vote that takes answers. -/
theorem State.takeSum_stray (stray : ∀ v, s.vote? k = some v → v.state = .localising) :
    s.takeSum k a = s.bump .stray := by
  unfold State.takeSum
  split
  · rfl
  · next v found => exact if_pos (stray v found)

variable (found : s.vote? k = some v) (open' : v.state ≠ .localising)
include found open'

theorem State.takeSum_overflows (new : v.answered a.station = false) (full : 8 ≤ v.answers.length) :
    s.takeSum k a = s.bump .answersOverflow := by
  unfold State.takeSum
  rw [found]
  exact (if_neg open').trans (if_pos ⟨new, full⟩)

theorem State.takeSum_records (room : v.answered a.station = true ∨ v.answers.length < 8) :
    s.takeSum k a = (s.modifyVote v.id fun _ => v.record a).closureTest v.id := by
  have fits : ¬ (v.answered a.station = false ∧ Config.maxAnswers ≤ v.answers.length) := fun ⟨new, full⟩ =>
    room.elim (fun again => by rw [again] at new; cases new) (Nat.not_lt.2 full)
  unfold State.takeSum
  rw [found]
  exact (if_neg open').trans (if_neg fits)

end

/-- The closure test leaves a vote alone that does not gather, or lacks an answer. -/
theorem State.closureTest_stays {s : State} {w : Vote} (ids : (s.votes.map Vote.id).Nodup) (hw : w ∈ s.votes)
    (h : w.state ≠ .gathering ∨ ¬ s.isComplete w = true) : s.closureTest w.id = s := by
  unfold State.closureTest
  rw [State.voteById?_of_mem ids hw]
  exact if_neg fun ⟨gathers, complete⟩ => h.elim (· gathers) (· complete)

/-- Settles O53: a SUM is stray, overflows, or is recorded before the closure test. -/
theorem sumsAreRecordedOrStray : Obligations.SumsAreRecordedOrStray := by
  unfold Obligations.SumsAreRecordedOrStray
  intro source body k status x n ref s read hears other station u a
  have votes : u.votes = s.votes := s.afterFrame_frame station .votes (by decide)
  have heard : exec (.sum source body) s = .next ((u.takeSum k a).frameDone station) :=
    exec_command_other read hears other
  refine ⟨fun none => ?_, fun v c hv key => ?_⟩
  · have absent : u.vote? k = .none := State.vote?_eq_none (votes ▸ none)
    rw [heard, State.takeSum_stray fun v found => nomatch absent.symm.trans found]
  intro answers recorded stored complete
  have found : u.vote? k = some v := key ▸ State.vote?_of_mem (votes.symm ▸ c.keys) (votes.symm ▸ hv)
  refine ⟨fun localises => ?_, fun open' new full => ?_, fun open' room => ?_⟩
  · rw [heard, State.takeSum_stray fun w e => Option.some.inj (found.symm.trans e) ▸ localises]
  · rw [heard, State.takeSum_overflows found open' new full]
  have replaced : stored = u.modifyVote v.id fun _ => v.record a :=
    State.replaceVote_eq votes v.id recorded
  have records : exec (.sum source body) s = .next ((stored.closureTest v.id).frameDone station) := by
    rw [heard, State.takeSum_records found open' room, replaced]
  have uids : (u.votes.map Vote.id).Nodup := votes.symm ▸ c.ids
  have ids : (stored.votes.map Vote.id).Nodup := by
    rw [replaced, ← State.modifyVote_const uids (votes.symm ▸ hv) fun w => w.record a,
      u.modifyVote_ids v.id (f := fun w => w.record a) fun _ => rfl]
    exact uids
  have mem : recorded ∈ stored.votes := replaced ▸ State.mem_replaceVote (votes.symm ▸ hv)
  have test : stored.isComplete recorded = true ↔ complete := by
    have station' : ∀ y, recorded.answered y = true ↔ y = station ∨ v.answered y = true := v.record_answered a
    simp only [State.isComplete, List.all_eq_true, Bool.or_eq_true, station', or_assoc]
    exact Iff.rfl
  refine ⟨fun waits => ?_, fun gathers all => ?_⟩
  · have stays : stored.closureTest v.id = stored :=
      State.closureTest_stays (w := recorded) ids mem (waits.imp_right (mt test.1))
    rw [records, stays]
  · have closes : stored.closureTest v.id = stored.close recorded :=
      State.closureTest_closes (w := recorded) ids mem gathers ((stored.isComplete_iff recorded).1 (test.2 all))
    rw [records, closes]

end Sys2Proof.Machine
end

section
/-! A TILES chunk at a vote in LOCALISING: where its checks are placed, and the list verified (R97, R113 to R115). -/

namespace Sys2Proof.Machine

/-! ### Places (R114) -/

theorem placeChecks_outside : ∀ (first : Nat) (checks : List Word) (places : List (Option Word)) {i : Nat},
    i < first ∨ first + checks.length ≤ i → (placeChecks first checks places)[i]? = places[i]?
  | _, [], _, _, _ => rfl
  | first, c :: cs, places, i, outside => by
    rw [List.length_cons] at outside
    rw [placeChecks, placeChecks_outside (first + 1) cs _ (by omega), List.getElem?_set_ne (by omega)]

theorem placeChecks_inside : ∀ (first : Nat) (checks : List Word) (places : List (Option Word)) {j : Nat} {c : Word},
    checks[j]? = some c → first + j < places.length → (placeChecks first checks places)[first + j]? = some (some c)
  | first, x :: cs, places, 0, c, at', inside => by
    have first' : x = c := Option.some.inj at'
    rw [Nat.add_zero] at inside ⊢
    rw [placeChecks, placeChecks_outside (first + 1) cs _ (by omega), first', List.getElem?_set_self inside]
  | first, x :: cs, places, j + 1, c, at', inside => by
    rw [placeChecks, ← Nat.add_assoc, Nat.add_right_comm]
    exact placeChecks_inside (first + 1) cs _ (by simpa using at') (by rw [List.length_set]; omega)

theorem allMarked_lacking {places : List (Option Word)} (lacks : none ∈ places) : allMarked places = none :=
  if_neg fun all => Bool.false_ne_true (List.all_eq_true.1 all none lacks)

theorem allMarked_full (full : List Word) : allMarked (full.map some) = some full := by
  unfold allMarked
  rw [if_pos (by simp), List.filterMap_map]
  exact congrArg some List.filterMap_some

/-- The tiles in which two check lists of one length differ. -/
theorem differingFrom_eq : ∀ (first : Nat) (xs ys : List Word), xs.length = ys.length →
    differingFrom first xs ys = ((List.range ys.length).filter fun i => xs[i]? ≠ ys[i]?).map (first + ·)
  | _, [], [], _ => rfl
  | first, x :: xs, y :: ys, length => by
    have shifted : ((List.range ys.length).filter fun i => xs[i]? ≠ ys[i]?).map (first + 1 + ·) =
        (((List.range ys.length).map (· + 1)).filter fun i => (x :: xs)[i]? ≠ (y :: ys)[i]?).map (first + ·) := by
      rw [List.filter_map, List.map_map]
      refine congrArg₂ List.map (funext fun i => ?_) (List.filter_congr fun i _ => ?_)
      · show first + 1 + i = first + (i + 1)
        omega
      · simp
    rw [List.length_cons, List.range_succ_eq_map, List.filter_cons, differingFrom,
      differingFrom_eq (first + 1) xs ys (Nat.succ.inj length), shifted]
    by_cases e : x = y
    · simp [e]
    · simp [e]

/-! ### The chunk (R97, R113, R115) -/

theorem State.takeTiles_stray {s : State} {k : Key} (stray : ∀ v, s.vote? k = some v → v.state ≠ .localising)
    (station : Nat) (x : Word) (n first : Nat) (checks : List Word) :
    s.takeTiles station k x n first checks = s.bump .stray := by
  unfold State.takeTiles
  split
  · next v found => exact if_neg (stray v found)
  · rfl

/-- The station may send the vote its checks: it is the source, or the first candidate, for the agreed summary (R113). -/
def Vote.Candidate (v : Vote) (l : Localisation) (d : Decision) (station : Nat) (x : Word) : Prop :=
  d.agreed = some x ∧ (l.source = some station ∨ (l.source = none ∧
    ∃ a ∈ v.answers, a.station = station ∧ a.status = .readOk ∧ a.summary = some x))

theorem Vote.mem_answerersWith {v : Vote} {x : Word} {station : Nat} : station ∈ v.answerersWith x ↔
    ∃ a ∈ v.answers, a.station = station ∧ a.status = .readOk ∧ a.summary = some x := by
  simp only [Vote.answerersWith, List.mem_map, List.mem_filter, Bool.and_eq_true, decide_eq_true_eq]
  constructor
  · rintro ⟨a, ⟨ha, ok, sum⟩, at'⟩
    exact ⟨a, ha, at', ok, sum⟩
  · rintro ⟨a, ha, at', ok, sum⟩
    exact ⟨a, ⟨ha, ok, sum⟩, at'⟩

section
variable {s : State} {v : Vote} {l : Localisation} {d : Decision} {station : Nat} {x : Word}
  (localisation : v.localisation = some l) (decision : v.decision = some d)
include localisation decision

theorem State.takeChunk_ignores (no : ¬ v.Candidate l d station x) (n first : Nat) (checks : List Word) :
    s.takeChunk v station x n first checks = s := by
  unfold State.takeChunk
  rw [localisation, decision]
  refine if_neg fun accepted => no ?_
  cases source : l.source with
  | none =>
    rw [source] at accepted
    obtain ⟨agreed, listed⟩ := Bool.and_eq_true_iff.1 accepted
    exact ⟨of_decide_eq_true agreed, Or.inr ⟨source, Vote.mem_answerersWith.1 (List.contains_iff_mem.1 listed)⟩⟩
  | some t =>
    rw [source] at accepted
    obtain ⟨at', agreed⟩ := Bool.and_eq_true_iff.1 accepted
    exact ⟨of_decide_eq_true agreed, Or.inl (source.trans (congrArg some (of_decide_eq_true at')))⟩

theorem State.takeChunk_accepts (yes : v.Candidate l d station x) (n first : Nat) (checks : List Word) :
    s.takeChunk v station x n first checks = if n = v.checks.length then s.storeChunk v l d station first checks
      else s.endUnlocated v fun f => { f with geometryDiffers := true } := by
  obtain ⟨agreed, source | ⟨source, listed⟩⟩ := yes
  · unfold State.takeChunk
    rw [localisation, decision]
    dsimp only
    rw [source]
    exact if_pos (Bool.and_eq_true_iff.2 ⟨decide_eq_true rfl, decide_eq_true agreed⟩)
  · unfold State.takeChunk
    rw [localisation, decision]
    dsimp only
    rw [source]
    exact if_pos (Bool.and_eq_true_iff.2
      ⟨decide_eq_true agreed, List.contains_iff_mem.2 (Vote.mem_answerersWith.2 listed)⟩)

end

section
variable {s : State} {v : Vote} {l : Localisation} {d : Decision} {station first : Nat} {checks : List Word}

/-- A chunk that leaves a place unmarked. -/
theorem State.storeChunk_marks (fits : first + checks.length ≤ v.checks.length)
    (lacks : none ∈ placeChecks first checks l.received) : s.storeChunk v l d station first checks =
      s.modifyVote v.id fun _ => { v with
        localisation := some { l with source := some station, received := placeChecks first checks l.received } } := by
  unfold State.storeChunk
  rw [if_neg (Nat.not_lt.2 fits)]
  dsimp only
  rw [allMarked_lacking lacks]

/-- A chunk that marks the last places has the list verified. -/
theorem State.storeChunk_verifies (fits : first + checks.length ≤ v.checks.length) {full : List Word}
    (marked : placeChecks first checks l.received = full.map some) : s.storeChunk v l d station first checks =
      s.verifyReceived v { l with source := some station, received := full.map some } d full := by
  unfold State.storeChunk
  rw [if_neg (Nat.not_lt.2 fits)]
  dsimp only
  rw [marked, allMarked_full]

end

/-- A localisation that ends without a bad-tile list leaves the verdict as it was decided. -/
theorem State.endUnlocated_decided {s : State} {v : Vote} {d : Decision} (decision : v.decision = some d)
    (f : VoteFlags → VoteFlags) : s.endUnlocated v f =
      (s.modifyVote v.id fun _ => { v with flags := f v.flags, localisation := none }).deliver
        { v with flags := f v.flags, localisation := none } d none := by
  unfold State.endUnlocated
  split
  · next e =>
    cases decision.symm.trans e
    rfl
  · next e => exact nomatch decision.symm.trans e

/-- Settles O55: a chunk is stray, ignored, ends the localisation, or is placed and the full list verified. -/
theorem tileChunksLocaliseTheBadTiles : Obligations.TileChunksLocaliseTheBadTiles := by
  unfold Obligations.TileChunksLocaliseTheBadTiles
  intro source body k x n first checks s read hears other station u
  have votes : u.votes = s.votes := s.afterFrame_frame station .votes (by decide)
  have heard : exec (.tiles source body) s = .next ((u.takeTiles station k x n first checks).frameDone station) :=
    exec_command_other read hears other
  refine ⟨fun stray => ?_, fun v l d c hv key localisation decision => ?_⟩
  · rw [heard, State.takeTiles_stray fun v found => stray v (votes ▸ (State.vote?_mem found).1) (State.vote?_mem found).2]
  intro candidate put ended places marked
  have fits := c.fits v hv
  have localises : v.state = .localising := fits.localisation.1 (localisation ▸ rfl)
  have found : u.vote? k = some v := key ▸ State.vote?_of_mem (votes.symm ▸ c.keys) (votes.symm ▸ hv)
  have chunk : exec (.tiles source body) s = .next ((u.takeChunk v station x n first checks).frameDone station) := by
    rw [heard, State.takeTiles, found]
    exact congrArg (fun t : State => Host.Outcome.next (t.frameDone station)) (if_pos localises)
  have put_eq : ∀ w, put w = u.modifyVote v.id fun _ => w := State.replaceVote_eq votes v.id
  refine ⟨length_placeChecks _ _ _, fun j y at' inside => placeChecks_inside first checks _ at' inside,
    fun i outside => placeChecks_outside first checks _ outside, fun no => ?_, fun yes differs => ?_,
    fun yes same past => ?_, fun yes same inside => ⟨fun lacks => ?_, fun full e => ?_⟩⟩
  · rw [chunk, State.takeChunk_ignores localisation decision no]
  all_goals rw [chunk, State.takeChunk_accepts localisation decision yes]
  · rw [if_neg differs, State.endUnlocated_decided decision, put_eq]
  · rw [if_pos same, State.storeChunk, if_pos (same ▸ past)]
  · rw [if_pos same, State.storeChunk_marks (same ▸ inside) lacks, put_eq]
  · have agreed : d.agreed = some x := yes.1
    have length : v.checks.length = full.length := by
      rw [← fits.received l localisation, ← length_placeChecks first checks l.received, show placeChecks _ _ _ = _ from e,
        List.length_map]
    rw [if_pos same, State.storeChunk_verifies (same ▸ inside) e, State.verifyReceived, agreed]
    refine ⟨fun wrong => ?_, fun right => ?_⟩
    · rw [if_neg fun h => wrong (Option.some.inj h).symm, put_eq, same]
    · have tiles : differingFrom 0 v.checks full = (List.range full.length).filter fun i => v.checks[i]? ≠ full[i]? := by
        rw [differingFrom_eq 0 _ _ length]
        simp
      rw [if_pos (congrArg some right.symm), tiles, put_eq]
      dsimp only [marked]
      rw [show places = full.map some from e]

end Sys2Proof.Machine
end

section
/-! What merges into an open vote: a CALL, a VERIFY or a REWRITTEN changes its record, and the arbiter may then give it a
slot (R6, R86 to R89). -/

namespace Sys2Proof.Machine

/-! ### A vote but for its read (R8) -/

/-- What the issue arbiter leaves of a vote: everything but its state and its check list. -/
def Vote.besidesRead (v : Vote) : Vote := { v with state := .awaitingRead, checks := [] }

theorem State.issueFuel_besidesRead : ∀ (n : Nat) (s : State),
    (State.issueFuel n s).votes.map Vote.besidesRead = s.votes.map Vote.besidesRead
  | 0, _ => rfl
  | n + 1, s => by
    unfold State.issueFuel
    split
    · split
      · next v _ =>
        rw [State.issueFuel_besidesRead n]
        exact s.modifyVote_map v.id (fun w => { w with state := .reading, checks := [] }) Vote.besidesRead fun _ _ _ => rfl
      · rfl
    · rfl

theorem State.issueIfWaiting_besidesRead (s : State) (id : Nat) :
    (s.issueIfWaiting id).votes.map Vote.besidesRead = s.votes.map Vote.besidesRead := by
  unfold State.issueIfWaiting
  split
  · split
    · exact State.issueFuel_besidesRead _ s
    · rfl
  · rfl

theorem map_of_besidesRead {β : Type} {xs ys : List Vote} (h : xs.map Vote.besidesRead = ys.map Vote.besidesRead)
    (g : Vote → β) (hg : ∀ v : Vote, g v.besidesRead = g v) : xs.map g = ys.map g := by
  have through : ∀ zs : List Vote, (zs.map Vote.besidesRead).map g = zs.map g := fun zs => by
    rw [List.map_map]
    exact List.map_congr_left fun v _ => hg v
  rw [← through xs, h, through ys]

/-! ### The merge -/

/-- A vote's record changes, and the arbiter acts if the vote waits for its read. -/
def State.merged (s : State) (id : Nat) (f : Vote → Vote) : State := (s.modifyVote id f).issueIfWaiting id

theorem State.merged_frame (s : State) (id : Nat) (f : Vote → Vote) : SameBut issueParts s (s.merged id f) :=
  (s.modifyVote_frame id f).comp (State.issueIfWaiting_frame _ id) (by decide) fun _ h => h

theorem State.merged_map {β : Type} (s : State) (id : Nat) {f : Vote → Vote} (g : Vote → β)
    (hg : ∀ v : Vote, g v.besidesRead = g v) (hf : ∀ v, g (f v) = g v) :
    (s.merged id f).votes.map g = s.votes.map g :=
  (map_of_besidesRead (State.issueIfWaiting_besidesRead _ id) g hg).trans (s.modifyVote_map id f g fun v _ _ => hf v)

theorem State.mem_merged {s : State} {v : Vote} (hv : v ∈ s.votes) (f : Vote → Vote) :
    ∃ w ∈ (s.merged v.id f).votes, w.besidesRead = (f v).besidesRead :=
  mem_of_map_eq (State.issueIfWaiting_besidesRead (s.modifyVote v.id f) v.id).symm
    (State.mem_modifyVote.2 (Or.inl ⟨v, hv, rfl, rfl⟩))

/-- A vote that does not wait for its read gets no slot. -/
theorem State.merged_of_read {s : State} (ids : (s.votes.map Vote.id).Nodup) {v : Vote} (hv : v ∈ s.votes)
    {f : Vote → Vote} (hf : ∀ w, (f w).id = w.id) (read : (f v).state ≠ .awaitingRead) :
    s.merged v.id f = s.modifyVote v.id f := by
  have mem : f v ∈ (s.modifyVote v.id f).votes := State.mem_modifyVote.2 (Or.inl ⟨v, hv, rfl, rfl⟩)
  have found := State.voteById?_of_mem (by rw [s.modifyVote_ids _ hf]; exact ids) mem
  rw [hf v] at found
  unfold State.merged State.issueIfWaiting
  rw [found]
  exact if_neg read

/-! ### Votes opened from an earlier state -/

/-- What comes before a vote is opened and leaves the votes, their count and the time alone. -/
theorem Opens.earlier {s t u : State} {k : Key} {o : Origin} {expected callers : List Nat}
    (h : Opens t u k o expected callers) {ps : List Part} (frame : SameBut ps s t) (votes : Part.votes ∉ ps)
    (next : Part.nextVote ∉ ps) (count : Part.counter .votesOpened ∉ ps) (now : Part.now ∉ ps) :
    Opens s u k o expected callers := by
  obtain ⟨keys, next', count', v, hv, new⟩ := h
  have same : t.nextVote = s.nextVote := frame .nextVote next
  have same' : t.now = s.now := frame .now now
  refine ⟨?_, same ▸ next', (frame (.counter .votesOpened) count) ▸ count', v, hv, same ▸ same' ▸ new⟩
  rw [keys, show t.votes = s.votes from frame .votes votes]

end Sys2Proof.Machine
end

section
/-! The CALL of another station: merged, answered, or the opening of a PEER vote (R83 to R87). -/

namespace Sys2Proof.Machine

/-! ### The rows of a CALL (R83) -/

theorem State.takeCall_merges {s : State} {k : Key} {v : Vote} (found : s.vote? k = some v) (caller : Nat)
    (listed : List Nat) : s.takeCall caller k listed =
      (s.merged v.id fun w => w.mergeCall caller).offerOwnSum v.id := by
  unfold State.takeCall
  rw [found]
  rfl

section
variable {s : State} {k : Key} (none : s.vote? k = .none) (caller : Nat) (listed : List Nat)
include none

theorem State.takeCall_opens (held : k.frame < (s.holdingOf k.reel).frames) (room : s.votes.length < 24) :
    s.takeCall caller k listed = s.openPeer k caller := by
  unfold State.takeCall
  rw [none]
  exact (if_pos held).trans (if_pos room)

theorem State.takeCall_defers (held : k.frame < (s.holdingOf k.reel).frames) (full : 24 ≤ s.votes.length) :
    s.takeCall caller k listed = (s.bump .deferredSent).offer (newMessage (bareSum k .deferred) .none) := by
  unfold State.takeCall
  rw [none]
  exact (if_pos held).trans (if_neg (Nat.not_lt.2 full))

theorem State.takeCall_lacks (unheld : ¬ k.frame < (s.holdingOf k.reel).frames) : s.takeCall caller k listed =
    if listed.contains s.strap.station.val then s.offer (newMessage (bareSum k .notHeld) .none) else s := by
  unfold State.takeCall
  rw [none]
  exact if_neg unheld

end

/-! ### The SUM that is offered again (R87, R91) -/

theorem State.offerOwnSum_pending {s : State} {v : Vote} (ids : (s.votes.map Vote.id).Nodup) (hv : v ∈ s.votes)
    (pending : v.own = .pending) : s.offerOwnSum v.id = s := by
  unfold State.offerOwnSum
  rw [State.voteById?_of_mem ids hv]
  dsimp only
  rw [s.sumToOffer?_pending pending]
  split <;> rfl

theorem State.ownSum?_known {v : Vote} (known : v.own ≠ .pending) (s : State) : ∃ body, s.ownSum? v = some body := by
  unfold State.ownSum?
  split
  · next e => exact absurd e known
  · exact ⟨_, rfl⟩
  · exact ⟨_, rfl⟩

/-- What a CALL, and the arbiter behind it, change of a vote's record. -/
structure Vote.CallMerged (v w : Vote) (caller : Nat) : Prop where
  id : w.id = v.id
  key : w.key = v.key
  answers : w.answers = v.answers
  own : w.own = v.own
  reference : w.reference = v.reference
  callPending : w.callPending = v.callPending
  callers : w.callers = insertStation caller v.callers
  late : v.state = .localising → w.expected = v.expected ∧ w.origins = v.origins
  early : v.state ≠ .localising → w.expected = insertStation caller v.expected ∧
    w.origins = { v.origins with peer := true }

theorem Vote.mergeCall_callMerged (v : Vote) (caller : Nat) : v.CallMerged (v.mergeCall caller) caller := by
  unfold Vote.mergeCall
  split
  · next localises => exact ⟨rfl, rfl, rfl, rfl, rfl, rfl, rfl, fun _ => ⟨rfl, rfl⟩, fun no => absurd localises no⟩
  · next open' => exact ⟨rfl, rfl, rfl, rfl, rfl, rfl, rfl, fun no => absurd no open', fun _ => ⟨rfl, rfl⟩⟩

theorem Vote.CallMerged.besidesRead {v w x : Vote} {caller : Nat} (h : v.CallMerged w caller)
    (same : x.besidesRead = w.besidesRead) : v.CallMerged x caller where
  id := (congrArg Vote.id same).trans h.id
  key := (congrArg Vote.key same).trans h.key
  answers := (congrArg Vote.answers same).trans h.answers
  own := (congrArg Vote.own same).trans h.own
  reference := (congrArg Vote.reference same).trans h.reference
  callPending := (congrArg Vote.callPending same).trans h.callPending
  callers := (congrArg Vote.callers same).trans h.callers
  late localises := (h.late localises).imp (congrArg Vote.expected same).trans (congrArg Vote.origins same).trans
  early open' := (h.early open').imp (congrArg Vote.expected same).trans (congrArg Vote.origins same).trans

theorem State.mem_mergedCall {s : State} {v : Vote} (hv : v ∈ s.votes) (caller : Nat) :
    ∃ x ∈ (s.merged v.id fun w => w.mergeCall caller).votes, v.CallMerged x caller := by
  obtain ⟨x, hx, same⟩ := State.mem_merged hv fun w => w.mergeCall caller
  exact ⟨x, hx, (v.mergeCall_callMerged caller).besidesRead same⟩

/-- A vote's SUM is made of its key, its own status, its reference, and its holding's tile count. -/
theorem State.ownSum?_congr {s t : State} {v w : Vote} (key : w.key = v.key) (own : w.own = v.own)
    (reference : w.reference = v.reference) (holding : t.holdingOf v.key.reel = s.holdingOf v.key.reel) :
    t.ownSum? w = s.ownSum? v := by
  unfold State.ownSum?
  rw [key, own, reference, holding]

/-- Settles O54: the rows of R83, and the vote of the key as the CALL and the arbiter leave it. -/
theorem callsMergeOpenOrAreAnswered : Obligations.CallsMergeOpenOrAreAnswered := by
  unfold Obligations.CallsMergeOpenOrAreAnswered
  intro source body k listed s read hears other c u held answer
  have before := s.afterFrame_frame c
  have votes : u.votes = s.votes := before .votes (by decide)
  have strap : u.strap = s.strap := before .strap (by decide)
  have holding : u.holdingOf k.reel = s.holdingOf k.reel := before.holdingOf_eq (by decide) (by decide) _
  have heard : exec (.call source body) s = .next ((u.takeCall c k listed).frameDone c) :=
    exec_command_other read hears other
  refine ⟨fun none => ?_, fun v cons hv key => ?_⟩
  · have absent : u.vote? k = .none := State.vote?_eq_none (votes ▸ none)
    rw [heard]
    refine ⟨fun held room => ?_, fun held full => ?_, fun unheld names => ?_, fun unheld others => ?_⟩
    · rw [State.takeCall_opens absent c listed (holding ▸ held) (votes ▸ room)]
      exact ⟨_, rfl, holding ▸ (u.openPeer_opens k c).earlier before (by decide) (by decide) (by decide) (by decide),
        State.issue_line _, (u.openPeer_frame k c).mono (by decide)⟩
    · rw [State.takeCall_defers absent c listed (holding ▸ held) (votes ▸ full)]
      rfl
    · rw [State.takeCall_lacks absent c listed (holding ▸ unheld), strap, if_pos (List.contains_iff_mem.2 names)]
      rfl
    · rw [State.takeCall_lacks absent c listed (holding ▸ unheld), strap,
        if_neg (mt List.contains_iff_mem.1 others)]
  · have hv' : v ∈ u.votes := votes.symm ▸ hv
    have found : u.vote? k = some v := key ▸ State.vote?_of_mem (votes.symm ▸ cons.keys) hv'
    let i := u.merged v.id fun w => w.mergeCall c
    have merge : SameBut issueParts u i := u.merged_frame _ _
    have line : i.line = u.line := merge.line_eq (by decide) (by decide) (by decide) (by decide) (by decide)
    have ids : (i.votes.map Vote.id).Nodup := by
      rw [u.merged_map v.id Vote.id (fun _ => rfl) fun w => (w.mergeCall_callMerged c).id, votes]
      exact cons.ids
    obtain ⟨x, hx, now⟩ := State.mem_mergedCall hv' c
    have takes : u.takeCall c k listed = i.offerOwnSum x.id := by rw [State.takeCall_merges found, now.id]
    refine ⟨i.offerOwnSum x.id, by rw [heard, takes],
      merge.comp (State.offerOwnSum_frame _ _) (by decide) (by decide), ?_⟩
    by_cases known : v.own = .pending
    · rw [State.offerOwnSum_pending ids hx (now.own.trans known)]
      exact ⟨x, hx, now.id, now.key.trans key, now.answers, now.own, now.callers, now.late, now.early,
        fun _ => line, fun no => absurd known no⟩
    · have sum : i.ownSum? x = s.ownSum? v :=
        State.ownSum?_congr now.key now.own now.reference ((merge.holdingOf_eq (by decide) (by decide) _).trans
          (before.holdingOf_eq (by decide) (by decide) _))
      obtain ⟨sum', offers⟩ := State.ownSum?_known known s
      obtain ⟨sent, hw, hsent⟩ := State.mem_offerOwnSum ids hx (sum.trans offers)
      refine ⟨{ x with sumSent := sent }, hw, now.id, now.key.trans key, now.answers, now.own, now.callers, now.late,
        now.early, fun no => absurd no known, fun _ loud unheld expects room => ?_⟩
      have loud' : i.line.state ≠ .mute := by rw [line]; exact fun e => loud ((before .lineState (by decide)).symm.trans e)
      have room' : i.line.queue.length < 32 := by
        rw [line, show u.line.queue = s.line.queue from before .lineQueue (by decide)]
        exact room
      refine ⟨hsent.2 (Or.inr ⟨now.callPending.trans unheld, loud', expects⟩), newMessage sum' none, ?_, offers⟩
      rw [State.offerOwnSum_offers ids hx (now.callPending.trans unheld) loud' expects (sum.trans offers),
        State.offer_join (s := i.modifyVote x.id fun y => { y with sumSent := true }) loud' room', State.joinQueue_queue]
      exact mem_joinInOrder_iff.2 (Or.inl rfl)

end Sys2Proof.Machine
end

section
/-! VERIFY and REWRITTEN: refused, merged into the key's vote, or the opening of one (R88, R89, R128, R129). -/

namespace Sys2Proof.Machine

/-- The reply to an order that leaves the link alone stands, also behind the fetches of 0 ms that end. -/
theorem State.done_stands {s t : State} {i : Instr} (order : isOrder i = true) (ready : s.ready i = true)
    (link : Part.link.same s t) (kind : Byte) : (t.expireIssued.answered kind .done []).replied kind .done [] :=
  State.answered_stands order ready (Part.same_trans link (State.expireIssued_frame t .link (by decide)))

/-! ### The rows of VERIFY (R88) -/

theorem exec_verify {body : List Byte} {s : State} (ready : s.ready (.verify body) = true) (length : body.length = 8)
    {a : Answered} (answer : s.verifyKey (keyAt body 0) = a) :
    exec (.verify body) s = .next (a.state.answered 0x07 a.result a.payload) := by
  rw [← answer]
  exact congrArg Host.Outcome.next (State.arrive_fits ready 0x07 (decide_eq_true length) _)

section
variable {s : State} {k : Key}

theorem State.verifyKey_notHeld (unheld : ∀ h ∈ s.holdings, h.reel ≠ k.reel) : s.verifyKey k = s.refuse .notHeld := by
  unfold State.verifyKey
  rw [State.holding?_none fun ⟨h, hh, e⟩ => unheld h hh e]

variable {h : Holding} (held : s.holding? k.reel = some h)
include held

theorem State.verifyKey_range (out : h.frames ≤ k.frame) : s.verifyKey k = s.refuse .range := by
  unfold State.verifyKey
  rw [held]
  exact if_pos out

variable (inside : k.frame < h.frames)
include inside

theorem State.verifyKey_inside : s.verifyKey k =
    match s.vote? k with
    | some v => (s.merged v.id Vote.mergeOrder).expireIssued.done
    | none => if 24 ≤ s.votes.length then s.refuse .full else (s.openCalling k .order).expireIssued.done := by
  unfold State.verifyKey
  rw [held]
  exact if_neg (Nat.not_le.2 inside)

theorem State.verifyKey_merges {v : Vote} (found : s.vote? k = some v) :
    s.verifyKey k = (s.merged v.id Vote.mergeOrder).expireIssued.done := by
  rw [State.verifyKey_inside held inside, found]

variable (absent : ∀ v ∈ s.votes, v.key ≠ k)
include absent

theorem State.verifyKey_full (full : 24 ≤ s.votes.length) : s.verifyKey k = s.refuse .full := by
  rw [State.verifyKey_inside held inside, State.vote?_eq_none absent]
  exact if_pos full

theorem State.verifyKey_opens (room : s.votes.length < 24) :
    s.verifyKey k = (s.openCalling k .order).expireIssued.done := by
  rw [State.verifyKey_inside held inside, State.vote?_eq_none absent]
  exact if_neg (Nat.not_le.2 room)

end

/-- Settles O27: the rows of R88, and the vote the merge leaves. -/
theorem verifyMergesOrOpens : Obligations.VerifyMergesOrOpens := by
  unfold Obligations.VerifyMergesOrOpens
  intro body s ready length k done
  refine ⟨fun unheld => exec_verify ready length (State.verifyKey_notHeld unheld), fun h held => ⟨fun out =>
    exec_verify ready length (State.verifyKey_range held out), fun inside => ⟨fun v found => ?_, fun absent full =>
      exec_verify ready length (State.verifyKey_full held inside absent full), fun absent room => ?_⟩⟩⟩
  · have hv : v ∈ s.votes := (State.vote?_mem found).1
    have merges : exec (.verify body) s = .next (done (s.merged v.id Vote.mergeOrder)) :=
      exec_verify ready length (State.verifyKey_merges held inside found)
    have frame := s.merged_frame v.id Vote.mergeOrder
    obtain ⟨w, hw, same⟩ := State.mem_merged hv Vote.mergeOrder
    refine ⟨fun ids read => merges.trans ?_, _, merges, State.done_stands rfl ready (frame .link (by decide)) 0x07,
      frame.mono (by decide), s.merged_map v.id Vote.key (fun _ => rfl) fun _ => rfl, w, hw, ?_⟩
    · rw [State.merged_of_read (f := Vote.mergeOrder) ids hv (fun _ => rfl) read]
      rfl
    · have merged := congrArg (fun x : Vote => (x.id, x.origins, x.flags)) same
      simp only [Prod.mk.injEq] at merged
      exact merged
  · have opens := s.openCalling_opens k .order
    have frame := s.openCalling_frame k .order
    rw [show s.holdingOf k.reel = h by unfold State.holdingOf; rw [held]; rfl] at opens
    exact ⟨_, exec_verify ready length (State.verifyKey_opens held inside absent room),
      State.done_stands rfl ready (frame .link (by decide)) 0x07, opens, frame⟩

/-! ### The rows of REWRITTEN (R89, R128, R129) -/

theorem exec_rewritten {body : List Byte} {s : State} (ready : s.ready (.rewritten body) = true)
    (length : body.length = 8) {a : Answered} (answer : s.rewritten (keyAt body 0) = a) :
    exec (.rewritten body) s = .next (a.state.answered 0x08 a.result a.payload) := by
  rw [← answer]
  exact congrArg Host.Outcome.next (State.arrive_fits ready 0x08 (decide_eq_true length) _)

section
variable {s : State} {k : Key}

theorem State.rewritten_notPending (none : ∀ e, s.mend? k = some e → e.state = .rechecking) :
    s.rewritten k = s.refuse .notPending := by
  unfold State.rewritten
  cases found : s.mend? k with
  | none => rfl
  | some e =>
    rw [Option.map_some, none e found]

variable {e : MendEntry} {start : Nat} (entry : s.mend? k = some e) (waits : e.state = .awaitingRewrite start)
include entry waits

theorem State.rewritten_waiting : s.rewritten k =
    match s.vote? k with
    | some v => ((s.recheck k).merged v.id Vote.mergeMend).expireIssued.done
    | none => if 24 ≤ s.votes.length then s.refuse .full
      else ((s.recheck k).openCalling k .mend).expireIssued.done := by
  unfold State.rewritten
  rw [entry, Option.map_some, waits]
  rfl

theorem State.rewritten_merges {v : Vote} (found : s.vote? k = some v) :
    s.rewritten k = ((s.recheck k).merged v.id Vote.mergeMend).expireIssued.done := by
  rw [State.rewritten_waiting entry waits, found]

variable (absent : ∀ v ∈ s.votes, v.key ≠ k)
include absent

theorem State.rewritten_full (full : 24 ≤ s.votes.length) : s.rewritten k = s.refuse .full := by
  rw [State.rewritten_waiting entry waits, State.vote?_eq_none absent]
  exact if_pos full

theorem State.rewritten_opens (room : s.votes.length < 24) :
    s.rewritten k = ((s.recheck k).openCalling k .mend).expireIssued.done := by
  rw [State.rewritten_waiting entry waits, State.vote?_eq_none absent]
  exact if_neg (Nat.not_le.2 room)

end

theorem State.recheck_frame (s : State) (k : Key) : SameBut [.mends] s (s.recheck k) := s.setMends_frame _

/-- Settles O28: the rows of R128, the entry that is rechecked, and the vote that gains the MEND origin. -/
theorem rewrittenStartsTheRecheck : Obligations.RewrittenStartsTheRecheck := by
  unfold Obligations.RewrittenStartsTheRecheck
  intro body s ready length k rechecked done
  have recheck := s.recheck_frame k
  refine ⟨fun none => exec_rewritten ready length (State.rewritten_notPending none), fun e start entry waits =>
    ⟨fun v found => ?_, fun absent full =>
      exec_rewritten ready length (State.rewritten_full entry waits absent full), fun absent room => ?_⟩⟩
  · have hv : v ∈ (s.recheck k).votes := (State.vote?_mem found).1
    have merges : exec (.rewritten body) s = .next (done ((s.recheck k).merged v.id Vote.mergeMend)) :=
      exec_rewritten ready length (State.rewritten_merges entry waits found)
    have frame := (s.recheck k).merged_frame v.id Vote.mergeMend
    have both : SameBut [.mends, .votes, .read, .requests] s ((s.recheck k).merged v.id Vote.mergeMend) :=
      recheck.comp frame (by decide) (by decide)
    obtain ⟨w, hw, same⟩ := State.mem_merged hv Vote.mergeMend
    refine ⟨fun ids read => merges.trans ?_, _, merges, State.done_stands rfl ready (both .link (by decide)) 0x08,
      frame .mends (by decide), both, (s.recheck k).merged_map v.id Vote.key (fun _ => rfl) fun _ => rfl, w, hw, ?_⟩
    · rw [State.merged_of_read (s := s.recheck k) (f := Vote.mergeMend) ids hv (fun _ => rfl) read]
      rfl
    · have merged := congrArg (fun x : Vote => (x.id, x.origins, x.flags)) same
      simp only [Prod.mk.injEq] at merged
      exact merged
  · have opens := (s.recheck k).openCalling_opens k .mend
    have frame := (s.recheck k).openCalling_frame k .mend
    have both : SameBut (.mends :: openParts) s ((s.recheck k).openCalling k .mend) :=
      recheck.comp frame (by decide) (by decide)
    exact ⟨_, exec_rewritten ready length (State.rewritten_opens entry waits absent room),
      State.done_stands rfl ready (both .link (by decide)) 0x08, frame .mends (by decide),
      opens.earlier recheck (by decide) (by decide) (by decide) (by decide), both⟩

end Sys2Proof.Machine
end

section
/-! The timers of votes and mend entries: the one that is due first of its kind expires (R98, R116, R132). -/

namespace Sys2Proof.Machine

/-- Of the timers that run in a list, the earliest is chosen, and the first of several of its start. -/
theorem earliest_filterMap {α β : Type} {f : α → Option (β × Nat)} {before after : List α} {x : α} {y : β} {start : Nat}
    (hx : f x = some (y, start)) (hb : ∀ w ∈ before, ∀ z, f w = some z → start < z.2)
    (ha : ∀ w ∈ after, ∀ z, f w = some z → start ≤ z.2) :
    earliest Prod.snd ((before ++ x :: after).filterMap f) = some (y, start) := by
  rw [List.filterMap_append, List.filterMap_cons_some hx]
  refine earliest_of_first (fun z hz => ?_) fun z hz => ?_
  · obtain ⟨w, hw, e⟩ := List.mem_filterMap.1 hz
    exact ha w hw z e
  · obtain ⟨w, hw, e⟩ := List.mem_filterMap.1 hz
    exact hb w hw z e

/-- What the passing of time leaves of the tables. -/
theorem State.passUntil_consistent {s : State} (c : Consistent s) (due : Nat) : Consistent (s.passUntil due) :=
  c.of_tables ((s.passUntil_frame due).tables (by decide))

/-! ### A vote times out (R98) -/

theorem exec_voteTimerExpiry {s : State} (c : Consistent s) {before after : List Vote} {v : Vote} {start : Nat}
    (split : s.votes = before ++ v :: after) (timer : v.timer = some start)
    (first : ∀ w ∈ before, ∀ x, w.timer = some x → start < x)
    (later : ∀ w ∈ after, ∀ x, w.timer = some x → start ≤ x) :
    exec .voteTimerExpiry s = .next ((s.passUntil (dueMs start s.voteLimit)).close v).finish := by
  have hv : v ∈ s.votes := split ▸ List.mem_append_right _ List.mem_cons_self
  have chosen : earliest Prod.snd s.voteTimers = some (v.id, start) := by
    unfold State.voteTimers
    rw [split]
    refine earliest_filterMap (congrArg (Option.map _) timer) (fun w hw z e => ?_) fun w hw z e => ?_
    all_goals obtain ⟨x, hx, rfl⟩ := Option.map_eq_some_iff.1 e
    · exact first w hw x hx
    · exact later w hw x hx
  have votes : (s.passUntil (dueMs start s.voteLimit)).votes = s.votes := s.passUntil_frame _ .votes (by decide)
  have gathering : v.state = .gathering := (c.fits v hv).timer.1 (timer ▸ rfl)
  show execVoteTimerExpiry s = _
  unfold execVoteTimerExpiry
  rw [chosen]
  exact congrArg (fun t : State => Host.Outcome.next t.finish)
    (State.expireVote_closes (votes.symm ▸ c.ids) (votes.symm ▸ hv) gathering)

/-! ### A localisation times out (R116) -/

theorem State.expireLocalisation_ends {s : State} (ids : (s.votes.map Vote.id).Nodup) {v : Vote} (hv : v ∈ s.votes)
    (localises : v.state = .localising) : s.expireLocalisation v.id = s.endUnlocated v VoteFlags.failLocate := by
  unfold State.expireLocalisation
  rw [State.voteById?_of_mem ids hv]
  exact if_pos localises

theorem exec_localisationTimeout {s : State} (c : Consistent s) {before after : List Vote} {v : Vote} {l : Localisation}
    (split : s.votes = before ++ v :: after) (localisation : v.localisation = some l)
    (first : ∀ w ∈ before, ∀ x, w.localisation = some x → l.start < x.start)
    (later : ∀ w ∈ after, ∀ x, w.localisation = some x → l.start ≤ x.start) :
    exec .localisationTimeout s =
      .next ((s.passUntil (dueMs l.start s.localisationLimit)).endUnlocated v VoteFlags.failLocate).finish := by
  have hv : v ∈ s.votes := split ▸ List.mem_append_right _ List.mem_cons_self
  have localises : v.state = .localising := (c.fits v hv).localisation.1 (localisation ▸ rfl)
  have timerOf : ∀ {w : Vote} {z : Nat × Nat}, (if w.state = .localising then
      w.localisation.map fun x => (w.id, x.start) else none) = some z → ∃ x, w.localisation = some x ∧ z.2 = x.start := by
    intro w z e
    split at e
    · obtain ⟨x, hx, rfl⟩ := Option.map_eq_some_iff.1 e
      exact ⟨x, hx, rfl⟩
    · exact nomatch e
  have chosen : earliest Prod.snd s.localisationTimers = some (v.id, l.start) := by
    unfold State.localisationTimers
    rw [split]
    refine earliest_filterMap ((if_pos localises).trans (congrArg (Option.map _) localisation)) (fun w hw z e => ?_)
      fun w hw z e => ?_
    all_goals obtain ⟨x, hx, same⟩ := timerOf e
    · exact same ▸ first w hw x hx
    · exact same ▸ later w hw x hx
  have votes : (s.passUntil (dueMs l.start s.localisationLimit)).votes = s.votes :=
    s.passUntil_frame _ .votes (by decide)
  show execLocalisationTimeout s = _
  unfold execLocalisationTimeout
  rw [chosen]
  exact congrArg (fun t : State => Host.Outcome.next t.finish)
    (State.expireLocalisation_ends (votes.symm ▸ c.ids) (votes.symm ▸ hv) localises)

/-! ### A mend entry lapses (R132) -/

theorem filter_ne_of_map_nodup {α β : Type} [DecidableEq β] {f : α → β} {before after : List α} {x : α}
    (nodup : ((before ++ x :: after).map f).Nodup) :
    ((before ++ x :: after).filter fun y => decide (f y ≠ f x)) = before ++ after := by
  rw [List.map_append, List.map_cons, List.nodup_middle, List.nodup_cons, ← List.map_append] at nodup
  have others : ∀ y ∈ before ++ after, f y ≠ f x := fun y hy e => nodup.1 (e ▸ List.mem_map_of_mem hy)
  rw [List.filter_append, List.filter_cons_of_neg (by simp), ← List.filter_append]
  exact List.filter_eq_self.2 fun y hy => decide_eq_true (others y hy)

theorem State.lapse_waiting {s : State} {before after : List MendEntry} {e : MendEntry} {start : Nat}
    (nodup : (s.mends.map MendEntry.key).Nodup) (split : s.mends = before ++ e :: after)
    (waits : e.state = .awaitingRewrite start) : s.lapse e.key =
      ({ s with mends := before ++ after } : State).pushReport (e.report .lapsed none none) := by
  have he : e ∈ s.mends := split ▸ List.mem_append_right _ List.mem_cons_self
  have entry : s.mend? e.key = some e := find_of_map_nodup nodup he
  have removed : s.removeMend e.key = { s with mends := before ++ after } := by
    unfold State.removeMend
    rw [split, filter_ne_of_map_nodup (split ▸ nodup)]
    rfl
  unfold State.lapse
  rw [entry]
  dsimp only
  rw [waits, removed]

theorem exec_mendPatienceExpiry {s : State} (c : Consistent s) {before after : List MendEntry} {e : MendEntry}
    {start : Nat} (split : s.mends = before ++ e :: after) (waits : e.state = .awaitingRewrite start)
    (first : ∀ x ∈ before, ∀ y, x.state = .awaitingRewrite y → start < y)
    (later : ∀ x ∈ after, ∀ y, x.state = .awaitingRewrite y → start ≤ y) :
    exec .mendPatienceExpiry s = .next
      ((({ s.passUntil (duePatience start s.timers.patience) with mends := before ++ after } : State).pushReport
        (e.report .lapsed none none)).arbitrate) := by
  have timerOf : ∀ {x : MendEntry} {z : Key × Nat}, (match x.state with
      | .awaitingRewrite y => some (x.key, y)
      | .rechecking => none) = some z → x.state = .awaitingRewrite z.2 := by
    intro x z h
    split at h
    · next e => cases h; exact e
    · exact nomatch h
  have chosen : earliest Prod.snd s.patienceTimers = some (e.key, start) := by
    unfold State.patienceTimers
    rw [split]
    exact earliest_filterMap (by rw [waits]) (fun x hx z h => first x hx z.2 (timerOf h))
      fun x hx z h => later x hx z.2 (timerOf h)
  have mends : (s.passUntil (duePatience start s.timers.patience)).mends = s.mends :=
    s.passUntil_frame _ .mends (by decide)
  show execMendPatienceExpiry s = _
  unfold execMendPatienceExpiry
  rw [chosen]
  exact congrArg (fun t : State => Host.Outcome.next t.arbitrate)
    (State.lapse_waiting (mends.symm ▸ c.mendKeys) (mends.trans split) waits)

/-- Settles O29: the timer that is due first is chosen, time passes to its end, and its vote or entry alone is dealt
with. -/
theorem voteAndMendTimersExpire : Obligations.VoteAndMendTimersExpire := by
  unfold Obligations.VoteAndMendTimersExpire
  refine ⟨fun before after v start s c split timer first later => ?_,
    fun before after v l d s c split localisation decision first later => ?_,
    fun before after e start s c split waits first later => ?_⟩
  all_goals intro due u
  · exact ⟨s.passUntil_spec due, exec_voteTimerExpiry c split timer first later⟩
  · intro failed
    refine ⟨s.passUntil_spec due, (exec_localisationTimeout c split localisation first later).trans ?_⟩
    have hv : v ∈ s.votes := split ▸ List.mem_append_right _ List.mem_cons_self
    have votes : u.votes = s.votes := s.passUntil_frame _ .votes (by decide)
    have put := State.replaceVote_eq (s := u) rfl v.id failed
    show Host.Outcome.next (u.endUnlocated v VoteFlags.failLocate).finish = _
    rw [State.endUnlocated_decided decision, put]
    rfl
  · exact ⟨s.passUntil_spec due, exec_mendPatienceExpiry c split waits first later⟩

end Sys2Proof.Machine
end

section
/-! What the walk adds: CALLs to the line, ROUND_DONE reports, and votes with new numbers (R38 to R50). -/

namespace Sys2Proof.Machine

/-! ### Reports that are no VERDICT (R169) -/

/-- Every report stays, and no VERDICT report joins. -/
structure AddsNoVerdict (s t : State) : Prop where
  kept : s.port.reports ⊆ t.port.reports
  fresh : ∀ q ∈ t.port.reports, q ∈ s.port.reports ∨ q.report.kind ≠ 0xC0

theorem AddsNoVerdict.of_eq {s t : State} (h : t.port.reports = s.port.reports) : AddsNoVerdict s t :=
  ⟨fun _ hq => h ▸ hq, fun _ hq => Or.inl (h ▸ hq)⟩

theorem SameBut.addsNoVerdict {ps : List Part} {s t : State} (h : SameBut ps s t) (hp : Part.reports ∉ ps) :
    AddsNoVerdict s t := .of_eq (h.reports_eq hp)

theorem AddsNoVerdict.trans {s t u : State} (h : AddsNoVerdict s t) (k : AddsNoVerdict t u) : AddsNoVerdict s u :=
  ⟨List.Subset.trans h.kept k.kept, fun q hq => (k.fresh q hq).elim (h.fresh q) Or.inr⟩

theorem AddsNoVerdict.pushReport (s : State) {r : Report} (other : r.kind ≠ 0xC0) : AddsNoVerdict s (s.pushReport r) := by
  refine ⟨(State.pushReport_prefix s r).subset, fun q hq => ?_⟩
  unfold State.pushReport at hq
  split at hq
  · rcases List.mem_append.1 hq with old | new
    · exact Or.inl old
    · exact Or.inr (List.mem_singleton.1 new ▸ other)
  · exact Or.inl hq

theorem AddsNoVerdict.completeRound (s : State) : AddsNoVerdict s s.completeRound := by
  have pushed := AddsNoVerdict.pushReport (s.setHoldings (s.holdings.map s.creditPass)) (r := s.roundReport)
    (by simp [State.roundReport, Report.kind])
  exact ⟨pushed.kept, pushed.fresh⟩

/-! ### What holds of the parts of a walk holds of the walk -/

/-- A relation that holds from one end to the other of each part of a walk, and of parts one after another. -/
structure WalkRelation (R : State → State → Prop) : Prop where
  trans : ∀ s t u, R s t → R t u → R s u
  still : ∀ s t, SameBut [.sweepRun, .paceGap] s t → R s t
  round : ∀ s : State, R s s.completeRound
  opened : ∀ (s : State) (k : Key), R s (s.openCalling k .sweep)

section
variable {R : State → State → Prop} (rel : WalkRelation R)
include rel

theorem WalkRelation.moveCursor (s : State) (pos frame : Nat) : R s (s.moveCursor pos frame) := by
  have moved : R s (s.setSweep { s.sweep with cursorPos := pos, cursorFrame := frame }) :=
    rel.still _ _ ((s.setRun_frame _).mono (by decide))
  unfold State.moveCursor
  dsimp only
  split
  · exact moved
  · exact rel.trans _ _ _ moved (rel.round _)

theorem WalkRelation.cursorOn (s : State) (h : Holding) : R s (s.cursorOn h) := by
  unfold State.cursorOn
  split
  · exact rel.moveCursor s _ _
  · exact rel.moveCursor s _ _

theorem WalkRelation.callFrame (s : State) (h : Holding) (k : Key) : R s (s.callFrame h k) := by
  have tallied : R (s.openCalling k .sweep) (s.openSwept k) :=
    rel.still _ _ ((State.setRun_frame _ (s.openSwept k).sweep).mono (by decide))
  have spent : R ((s.openSwept k).cursorOn h) (s.callFrame h k) :=
    rel.still _ _ ((State.spendBurst_frame _).mono (by decide))
  exact rel.trans _ _ _ (rel.opened s k) (rel.trans _ _ _ tallied (rel.trans _ _ _ (rel.cursorOn _ h) spent))

theorem WalkRelation.walkStep (s : State) : R s s.walkStep := by
  unfold State.walkStep
  split
  · exact rel.round s
  split
  · exact rel.moveCursor s _ _
  split
  · exact rel.moveCursor s _ _
  next h _ _ _ =>
    dsimp only
    split
    · have covered : R s s.countCovered := rel.still _ _ ((s.setRun_frame _).mono (by decide))
      exact rel.trans _ _ _ covered (rel.cursorOn _ h)
    · exact rel.callFrame s h _

theorem WalkRelation.walkFuel : ∀ (n : Nat) (s : State), R s (State.walkFuel n s)
  | 0, s => rel.still _ _ (SameBut.refl _ s)
  | n + 1, s => by
    unfold State.walkFuel
    split
    · exact rel.trans _ _ _ (rel.walkStep s) (WalkRelation.walkFuel n _)
    · exact rel.still _ _ (SameBut.refl _ s)

theorem WalkRelation.walk (s : State) : R s s.walk := rel.walkFuel _ s

end

/-! ### CALLs and new votes -/

/-- A CALL that is offered joins the queue, or is lost: it calls no SUM forth. -/
theorem State.offer_call_queue (s : State) (k : Key) (listed : List Nat) (id : Nat) :
    ∀ m ∈ (s.offer (newMessage (.call k listed) (some id))).line.queue, m ∈ s.line.queue ∨ m.body.lineClass = 1 := by
  intro m hm
  have joined : ∀ {q : List Message}, m ∈ joinInOrder (newMessage (.call k listed) (some id)) q →
      m ∈ q ∨ m.body.lineClass = 1 := fun h =>
    (mem_joinInOrder_iff.1 h).symm.imp_right fun e => congrArg (fun x : Message => x.body.lineClass) e
  unfold State.offer offerDepth State.offerFuel at hm
  split at hm
  · exact Or.inl hm
  split at hm
  · rw [State.joinQueue_queue] at hm
    exact joined hm
  split at hm
  · next victim rest out =>
    split at hm
    · next behind =>
      rw [State.clearCall_behind_call _ behind] at hm
      have queue := State.joinQueue_queue (s.setLine { s.line with queue := rest })
        (newMessage (.call k listed) (some id))
      exact (joined (queue ▸ hm)).imp_left ((takeLast_sublist out).subset ·)
    · exact Or.inl hm
  · exact Or.inl hm

theorem State.offerCall_queue (s : State) (v : Vote) :
    ∀ m ∈ (s.offerCall v).line.queue, m ∈ s.line.queue ∨ m.body.lineClass = 1 := by
  unfold State.offerCall
  dsimp only
  split
  · exact fun _ => Or.inl
  · exact s.offer_call_queue _ _ _

/-- A vote is opened under the next number. -/
theorem State.openCalling_ids (s : State) (k : Key) (o : Origin) :
    (s.openCalling k o).votes.map Vote.id = s.votes.map Vote.id ++ [s.nextVote] := by
  have issued : (s.openCalling k o).votes.map Vote.id =
      ((s.addVote (s.newVote k o none)).offerCall (s.newVote k o none)).votes.map Vote.id :=
    map_of_besidesRead (State.issueFuel_besidesRead _ _) _ fun _ => rfl
  have called := map_of_core (State.offerCall_tables (s.addVote (s.newVote k o none)) (s.newVote k o none)).votes Vote.id
    fun _ _ e => (Vote.core_eq e).1
  exact (issued.trans called).trans List.map_append

/-- What the walk adds to the reports, the queue and the votes. -/
structure WalkAdds (s t : State) : Prop where
  reports : AddsNoVerdict s t
  calls : ∀ m ∈ t.line.queue, m ∈ s.line.queue ∨ m.body.lineClass = 1
  next : s.nextVote ≤ t.nextVote
  ids : ∀ id ∈ t.votes.map Vote.id, id ∈ s.votes.map Vote.id ∨ s.nextVote ≤ id

theorem WalkAdds.trans {s t u : State} (h : WalkAdds s t) (k : WalkAdds t u) : WalkAdds s u :=
  ⟨h.reports.trans k.reports, fun m hm => (k.calls m hm).elim (h.calls m) Or.inr, h.next.trans k.next,
    fun id hid => (k.ids id hid).elim (h.ids id) fun new => Or.inr (h.next.trans new)⟩

theorem SameBut.walkAdds {ps : List Part} {s t : State} (h : SameBut ps s t)
    (hp : ∀ p ∈ [Part.lineQueue, .nextVote, .votes], p ∉ ps) (reports : AddsNoVerdict s t) : WalkAdds s t := by
  have queue : t.line.queue = s.line.queue := h .lineQueue (hp _ (by decide))
  have next : t.nextVote = s.nextVote := h .nextVote (hp _ (by decide))
  have votes : t.votes = s.votes := h .votes (hp _ (by decide))
  exact ⟨reports, fun m hm => Or.inl (queue ▸ hm), Nat.le_of_eq next.symm, fun id hid => Or.inl (votes ▸ hid)⟩

theorem WalkAdds.openCalling (s : State) (k : Key) (o : Origin) : WalkAdds s (s.openCalling k o) := by
  have issued : SameBut issueParts ((s.addVote (s.newVote k o none)).offerCall (s.newVote k o none))
    (s.openCalling k o) := State.issue_frame _
  have queue := issued .lineQueue (by decide)
  refine ⟨(s.openCalling_frame k o).addsNoVerdict (by decide), fun m hm => ?_,
    Nat.le_of_lt ((s.openCalling_opens k o).2.1 ▸ Nat.lt_succ_self _), fun id hid => ?_⟩
  · exact (s.addVote (s.newVote k o none)).offerCall_queue _ m (queue ▸ hm)
  · rw [s.openCalling_ids, List.mem_append, List.mem_singleton] at hid
    exact hid.imp_right (Nat.le_of_eq ·.symm)

theorem walkAdds_walkRelation : WalkRelation WalkAdds where
  trans _ _ _ h k := h.trans k
  still _ _ h := h.walkAdds (by decide) (h.addsNoVerdict (by decide))
  round s := s.completeRound_frame.walkAdds (by decide) (AddsNoVerdict.completeRound s)
  opened s k := WalkAdds.openCalling s k .sweep

theorem WalkAdds.walk (s : State) : WalkAdds s s.walk := walkAdds_walkRelation.walk s

end Sys2Proof.Machine
end

section
/-! What the delivery of a verdict leaves: counters, mend entry, evidence, report, history bit and held SUM (R117 to
R125). -/

namespace Sys2Proof.Machine

/-! ### Station sets -/

theorem mem_insertStation {x y : Nat} : ∀ {xs : List Nat}, y ∈ insertStation x xs ↔ y = x ∨ y ∈ xs
  | [] => by simp [insertStation]
  | z :: zs => by
    unfold insertStation
    split
    · exact List.mem_cons
    split
    · next e => simp [e]
    · rw [List.mem_cons, mem_insertStation, List.mem_cons, or_left_comm]

theorem pairwise_insertStation {x : Nat} : ∀ {xs : List Nat}, xs.Pairwise (· < ·) →
    (insertStation x xs).Pairwise (· < ·)
  | [], _ => List.pairwise_singleton _ x
  | y :: ys, sorted => by
    obtain ⟨above, rest⟩ := List.pairwise_cons.1 sorted
    unfold insertStation
    split
    · next low =>
      refine List.pairwise_cons.2 ⟨fun z hz => ?_, sorted⟩
      rcases List.mem_cons.1 hz with rfl | hz
      · exact low
      · exact Nat.lt_trans low (above z hz)
    split
    · exact sorted
    · next notLow other =>
      refine List.pairwise_cons.2 ⟨fun z hz => ?_, pairwise_insertStation rest⟩
      rcases mem_insertStation.1 hz with rfl | hz
      · omega
      · exact above z hz

theorem mem_stationSet {y : Nat} : ∀ {xs : List Nat}, y ∈ stationSet xs ↔ y ∈ xs
  | [] => Iff.rfl
  | x :: xs => by rw [stationSet, List.foldr_cons, mem_insertStation, ← stationSet, mem_stationSet, List.mem_cons]

theorem pairwise_stationSet : ∀ xs : List Nat, (stationSet xs).Pairwise (· < ·)
  | [] => List.Pairwise.nil
  | _ :: xs => pairwise_insertStation (pairwise_stationSet xs)

/-! ### The good stations (R121) -/

theorem OwnStatus.summary_eq_some {o : OwnStatus} {x : Word} : o.summary = some x ↔ o = .readOk x := by
  cases o <;> simp [OwnStatus.summary]

theorem Vote.pairwise_goodStations (v : Vote) (own : Nat) (good : Option Word) :
    (v.goodStations own good).Pairwise (· < ·) := by
  unfold Vote.goodStations
  split
  · exact List.Pairwise.nil
  · exact pairwise_stationSet _

theorem Vote.mem_goodStations {v : Vote} {own x : Nat} {good : Option Word} : x ∈ v.goodStations own good ↔
    ∃ y, good = some y ∧ ((x = own ∧ v.own = .readOk y) ∨
      ∃ a ∈ v.answers, a.station = x ∧ a.status = .readOk ∧ a.summary = some y) := by
  cases good with
  | none => simp [Vote.goodStations]
  | some y =>
    have self : x ∈ (if v.own.summary = some y then [own] else []) ↔ x = own ∧ v.own = .readOk y := by
      rw [← OwnStatus.summary_eq_some]
      split
      · next same => simp [same]
      · next other => simp [other]
    simp only [Vote.goodStations, mem_stationSet, List.mem_append, Vote.mem_answerersWith, self, Option.some.injEq,
      exists_eq_left']
    exact or_comm

/-! ### The mend list's part (R118, R125) -/

theorem Decision.asksMend_iff (d : Decision) : d.asksMend = true ↔
    ((d.verdict = .bad ∨ d.verdict = .unreadable) ∧ d.leader = false ∧ d.mendAllowed = true) ∧ d.agreed ≠ none := by
  simp only [Decision.asksMend, Bool.and_eq_true, Bool.or_eq_true, decide_eq_true_eq, Bool.not_eq_true',
    Option.isSome_iff_ne_none]
  tauto

theorem State.mend?_isSome {s : State} {k : Key} : (s.mend? k).isSome = true ↔ ∃ e ∈ s.mends, e.key = k := by
  simp [State.mend?, List.find?_isSome]

theorem State.mendFull_iff (s : State) (k : Key) :
    s.mendFull k = true ↔ (∀ e ∈ s.mends, e.key ≠ k) ∧ 16 ≤ s.mends.length := by
  rw [State.mendFull, Bool.and_eq_true, decide_eq_true_eq, Option.isNone_iff_eq_none, State.mend?, List.find?_eq_none]
  simp only [decide_eq_true_eq]
  rfl

theorem State.requestMend_adds {s : State} {k : Key} (absent : ∀ e ∈ s.mends, e.key ≠ k) (room : s.mends.length < 16)
    (x : Word) (b : Option (List Nat)) : (s.requestMend k x b).mends = s.mends ++
      [{ key := k, agreed := x, badTiles := b, failed := 0, state := .awaitingRewrite s.now }] := by
  have none : ¬ (s.mend? k).isSome = true := fun h =>
    have ⟨e, he, same⟩ := State.mend?_isSome.1 h
    absent e he same
  unfold State.requestMend
  exact congrArg State.mends (if_neg (not_or.2 ⟨none, Nat.not_le.2 room⟩))

theorem State.requestMend_keeps {s : State} {k : Key} (full : (∃ e ∈ s.mends, e.key = k) ∨ 16 ≤ s.mends.length)
    (x : Word) (b : Option (List Nat)) : s.requestMend k x b = s :=
  if_pos (full.imp_left State.mend?_isSome.2)

section
variable {v : Vote} (noMend : v.origins.mend = false)
include noMend

theorem State.deliverMend_requests {d : Decision} (asks : d.asksMend = true) {x : Word} (agreed : d.agreed = some x)
    (s : State) (b : Option (List Nat)) : s.deliverMend v d b = s.requestMend v.key x b := by
  unfold State.deliverMend
  rw [noMend, asks, agreed]
  rfl

theorem State.deliverMend_unasked {d : Decision} (silent : d.asksMend = false) (s : State) (b : Option (List Nat)) :
    s.deliverMend v d b = s := by
  unfold State.deliverMend
  rw [noMend, silent]
  rfl

end

/-- The settling of a MEND vote pushes one report at most, of the mend entry. -/
theorem State.settleMend_pushes (s : State) (v : Vote) (d : Decision) (b : Option (List Nat)) :
    s.settleMend v d b = s ∨
      ∃ ms, ∃ r : Report, r.kind ≠ 0xC0 ∧ s.settleMend v d b = (s.setMends ms).pushReport r := by
  have other : ∀ (e : MendEntry) kind verdict own, (e.report kind verdict own).kind ≠ 0xC0 := by
    intro e kind verdict own
    cases kind <;> exact Nat.ne_of_gt (Nat.le_of_ble_eq_true rfl)
  unfold State.settleMend
  split
  · exact Or.inl rfl
  next e _ =>
    split
    · exact Or.inr ⟨_, _, other e _ _ _, rfl⟩
    split
    · exact Or.inr ⟨_, _, other (e.fail s.now d b) _ _ _, rfl⟩
    · exact Or.inr ⟨_, _, other e _ _ _, rfl⟩

/-- The mend list's part of a delivery pushes no VERDICT report, and at most one report. -/
theorem State.deliverMend_pushes (s : State) (v : Vote) (d : Decision) (b : Option (List Nat)) :
    AddsNoVerdict s (s.deliverMend v d b) ∧
      (s.deliverMend v d b).port.reports.length ≤ s.port.reports.length + 1 := by
  have still : ∀ {t : State}, SameBut [.mends] s t →
      AddsNoVerdict s t ∧ t.port.reports.length ≤ s.port.reports.length + 1 := fun frame =>
    ⟨frame.addsNoVerdict (by decide), by rw [frame.reports_eq (by decide)]; exact Nat.le_succ _⟩
  unfold State.deliverMend
  split
  · rcases s.settleMend_pushes v d b with same | ⟨ms, r, other, pushed⟩
    · rw [same]
      exact still (SameBut.refl _ s)
    · rw [pushed]
      have adds := AddsNoVerdict.pushReport (s.setMends ms) other
      refine ⟨⟨adds.kept, adds.fresh⟩, ?_⟩
      unfold State.pushReport
      split
      · exact Nat.le_of_eq List.length_append
      · exact Nat.le_succ _
  · split
    · exact still (s.requestMend_frame _ _ _)
    · exact still (SameBut.refl _ s)
    · exact still (SameBut.refl _ s)

/-! ### The evidence buffer's part (R119) -/

theorem State.addEvidence_evidence {s t : State} (same : t.evidence = s.evidence) (e : EvidenceEntry) :
    (t.addEvidence e).evidence = (s.addEvidence e).evidence := by
  show ({ entries := (makeRoom e.slots t.evidence.entries).1 ++ [_], next := _ } : Evidence) = _
  rw [same]
  rfl

theorem State.deliverEvidence_adds {v : Vote} {d : Decision} {x : Word}
    (keeps : d.verdict = .bad ∨ d.verdict = .leaderBad ∨ d.verdict = .split) (own : v.own = .readOk x) (s : State)
    (l : Option Located) : s.deliverEvidence v d l = s.addEvidence
      { number := 0, key := v.key, verdict := d.verdict, own := x, agreed := d.agreed, tiles := v.checks.length
        checks := v.checks, source := l.map Located.source, badTiles := l.map Located.badTiles } := by
  unfold State.deliverEvidence
  rw [own]
  rcases keeps with e | e | e <;> rw [e]

theorem State.deliverEvidence_none {d : Decision}
    (clean : d.verdict = .good ∨ d.verdict = .unreadable ∨ d.verdict = .unconfirmed) (v : Vote) (s : State)
    (l : Option Located) : s.deliverEvidence v d l = s := by
  unfold State.deliverEvidence
  rcases clean with e | e | e <;> rw [e]

/-! ### The report (R120, R121) -/

theorem isReported_iff (o : Origins) (verdict : Verdict) (refDiffers : Bool) : isReported o verdict refDiffers = true ↔
    o.order = true ∨ (o.mend = false ∧ (verdict ≠ .good ∨ refDiffers = true)) := by
  have itself : reportedVerdict verdict refDiffers = true ↔ verdict ≠ .good ∨ refDiffers = true := by
    cases verdict <;> simp [reportedVerdict]
  rw [isReported, Bool.or_eq_true, Bool.and_eq_true, Bool.not_eq_true', itself]

/-! ### The watch's part (R122, R159, R160) -/

theorem State.alarmTest_watch (s : State) (k : Option Key) :
    (s.alarmTest k).watch = { s.watch with alarm := s.watch.testedAlarm } := by
  have pushed : ∀ w r, ((s.setWatch w).pushReport r).watch = w := fun w r =>
    State.pushReport_frame (s.setWatch w) r .watch (by decide)
  unfold State.alarmTest
  dsimp only
  split
  · next same => rw [same]
  split
  · exact pushed _ _
  · rfl

/-- The watch that a history bit leaves follows from the watch alone. -/
theorem State.watchBit_watch {s t : State} (same : t.watch = s.watch) (bit : Bool) (k : Key) :
    (t.watchBit bit k).watch = (s.watchBit bit k).watch := by
  unfold State.watchBit
  rw [State.alarmTest_watch, State.alarmTest_watch, same]
  rfl

theorem AddsNoVerdict.deliverWatch (s : State) (v : Vote) (d : Decision) : AddsNoVerdict s (s.deliverWatch v d) := by
  have alarm : ∀ (u : State) (k : Option Key), AddsNoVerdict u (u.alarmTest k) := fun u k => by
    unfold State.alarmTest
    dsimp only
    split
    · exact .of_eq rfl
    split
    · have pushed := AddsNoVerdict.pushReport (u.setWatch { u.watch with alarm := u.watch.testedAlarm })
        (r := Watch.report { u.watch with alarm := u.watch.testedAlarm } k) (by simp [Watch.report, Report.kind])
      exact ⟨pushed.kept, pushed.fresh⟩
    · exact .of_eq rfl
  unfold State.deliverWatch
  split
  · have tested := alarm (s.setWatch { s.watch with
      history := pushBit s.watch.history (decide (d.verdict = .bad) || decide (d.verdict = .unreadable)) }) (some v.key)
    exact ⟨tested.kept, tested.fresh⟩
  · exact .of_eq rfl

theorem State.deliverWatch_takes {v : Vote} {d : Decision} (watched : v.origins.sweep = true ∨ v.origins.peer = true)
    (leader : d.leader = false) (s : State) : s.deliverWatch v d =
      s.watchBit (decide (d.verdict = .bad ∨ d.verdict = .unreadable)) v.key := by
  have bit : (v.origins.sweep || v.origins.peer) = true := Bool.or_eq_true_iff.2 watched
  unfold State.deliverWatch
  rw [bit, leader, Bool.decide_or]
  rfl

theorem State.deliverWatch_none {v : Vote} {d : Decision}
    (unwatched : (v.origins.sweep = false ∧ v.origins.peer = false) ∨ d.leader = true) (s : State) :
    s.deliverWatch v d = s := by
  unfold State.deliverWatch
  refine if_neg ?_
  rcases unwatched with ⟨sweep, peer⟩ | leader
  · rw [sweep, peer]
    exact Bool.false_ne_true
  · rw [leader, Bool.and_eq_true]
    exact fun h => absurd h.2 (by decide)

/-! ### The stages of a delivery (R117) -/

section
variable (s : State) (v : Vote) (d : Decision) (l : Option Located)

/-- The state of a delivery once the mend list has had its part. -/
def State.mended : State :=
  (s.countVerdict d.verdict v.flags.refDiffers).deliverMend v d (l.map Located.badTiles)

/-- The state of a delivery once the evidence has been kept and the verdict reported. -/
def State.verdictTold : State :=
  ((s.mended v d l).deliverEvidence v d l).deliverReport v d
    ((s.countVerdict d.verdict v.flags.refDiffers).deliveredFlags v d) (l.map Located.badTiles)

/-- The state of a delivery once the vote has left the table. -/
def State.delisted : State := (s.deliverMarks v d l).removeVote v.id

theorem State.deliver_eq : s.deliver v d l = ((s.delisted v d l).offerHeldSum v).walk := rfl

theorem State.counted_frame : SameBut [.counter d.verdict.counter, .counter .refDiffers] s
    (s.countVerdict d.verdict v.flags.refDiffers) := s.countVerdict_frame _ _

theorem State.mended_frame : SameBut [.counter d.verdict.counter, .counter .refDiffers, .mends, .reports,
    .counter .reportsLost] s (s.mended v d l) :=
  (s.counted_frame v d).comp (State.deliverMend_frame _ v d _) (by simp) (by simp)

theorem State.delisted_frame : SameBut [.mends, .evidence, .counter .evidenceEvicted, .watch, .reports,
    .counter .reportsLost, .counter d.verdict.counter, .counter .refDiffers, .votes] s (s.delisted v d l) :=
  (s.deliverMarks_frame v d l).comp (State.removeVote_frame _ v.id) (by simp) (by simp)

/-- What follows on the report. -/
theorem State.verdictTold_later : SameBut (.watch :: walkParts) (s.verdictTold v d l) (s.deliver v d l) :=
  ((((State.deliverWatch_frame _ v d).mono (by decide)).trans ((State.removeVote_frame _ v.id).mono (by decide))).trans
    ((State.offerHeldSum_frame _ v).mono (by decide))).trans ((State.walk_frame _).mono (by decide))

theorem State.verdictTold_of_mended : SameBut (.evidence :: .counter .evidenceEvicted :: reportParts) (s.mended v d l)
    (s.verdictTold v d l) :=
  ((State.deliverEvidence_frame _ v d l).mono (by decide)).trans
    ((State.deliverReport_frame _ v d _ _).mono (by decide))

theorem State.deliver_mends : (s.deliver v d l).mends = (s.mended v d l).mends :=
  Part.same_trans (p := .mends) (s.verdictTold_of_mended v d l .mends (by decide))
    (s.verdictTold_later v d l .mends (by decide))

theorem State.deliver_evidence :
    (s.deliver v d l).evidence = ((s.mended v d l).deliverEvidence v d l).evidence :=
  Part.same_trans (p := .evidence) (State.deliverReport_frame _ v d _ _ .evidence (by decide))
    (s.verdictTold_later v d l .evidence (by decide))

theorem State.deliver_watch : (s.deliver v d l).watch = ((s.verdictTold v d l).deliverWatch v d).watch := by
  have later : SameBut walkParts ((s.verdictTold v d l).deliverWatch v d) (s.deliver v d l) :=
    (((State.removeVote_frame _ v.id).mono (by decide)).trans ((State.offerHeldSum_frame _ v).mono (by decide))).trans
      (State.walk_frame _)
  exact later .watch (by decide)

/-- Once the verdict has been told, every report stays and no VERDICT report joins. -/
theorem State.verdictTold_addsNoVerdict : AddsNoVerdict (s.verdictTold v d l) (s.deliver v d l) :=
  (((AddsNoVerdict.deliverWatch _ v d).trans ((State.removeVote_frame _ v.id).addsNoVerdict (by decide))).trans
    ((State.offerHeldSum_frame _ v).addsNoVerdict (by decide))).trans (WalkAdds.walk _).reports

end

end Sys2Proof.Machine
end

section
/-! The delivery of a verdict, mark by mark (R92, R117 to R122, R125). -/

namespace Sys2Proof.Machine

/-! ### Mend entries and the state they are asked of -/

section
variable {s : State} {v : Vote}

theorem State.counted_mends (s : State) (v : Vote) (d : Decision) :
    (s.countVerdict d.verdict v.flags.refDiffers).mends = s.mends := s.counted_frame v d .mends (by simp)

theorem State.counted_mendFull (s : State) (v : Vote) (d : Decision) :
    (s.countVerdict d.verdict v.flags.refDiffers).mendFull v.key = s.mendFull v.key := by
  unfold State.mendFull State.mend?
  rw [s.counted_mends v d]

theorem State.countVerdict_refDiffers (s : State) (verdict : Verdict) :
    (s.countVerdict verdict true).count .refDiffers = min 4294967295 (s.count .refDiffers + 1) := by
  have untouched : (s.bump verdict.counter).count .refDiffers = s.count .refDiffers :=
    s.bump_frame _ (.counter .refDiffers) (by cases verdict <;> decide)
  refine (State.count_bump (s.bump verdict.counter) _ _).trans ((if_pos rfl).trans ?_)
  rw [untouched]
  rfl

variable (noMend : v.origins.mend = false) {d : Decision} (l : Option Located)
include noMend

theorem State.deliver_adds {x : Word} (asks : d.asksMend = true) (agreed : d.agreed = some x)
    (absent : ∀ e ∈ s.mends, e.key ≠ v.key) (room : s.mends.length < 16) : (s.deliver v d l).mends = s.mends ++
      [{ key := v.key, agreed := x, badTiles := l.map Located.badTiles, failed := 0
         state := .awaitingRewrite s.now }] := by
  have mends := s.counted_mends v d
  have now : (s.countVerdict d.verdict v.flags.refDiffers).now = s.now := s.counted_frame v d .now (by simp)
  rw [s.deliver_mends, State.mended, State.deliverMend_requests noMend asks agreed,
    State.requestMend_adds (mends.symm ▸ absent) (mends.symm ▸ room), mends, now]

theorem State.deliver_keeps (none : d.asksMend = false ∨ (∃ e ∈ s.mends, e.key = v.key) ∨ 16 ≤ s.mends.length) :
    (s.deliver v d l).mends = s.mends := by
  have mends := s.counted_mends v d
  rw [s.deliver_mends, State.mended]
  cases asks : d.asksMend with
  | false => rw [State.deliverMend_unasked noMend asks, mends]
  | true =>
    obtain ⟨x, agreed⟩ := Option.ne_none_iff_exists'.1 (d.asksMend_iff.1 asks).2
    have full := none.resolve_left (by rw [asks]; decide)
    rw [State.deliverMend_requests noMend asks agreed, State.requestMend_keeps (mends.symm ▸ full), mends]

end

/-! ### The VERDICT report -/

theorem State.pushReport_joins {s : State} (room : s.port.reports.length < 64) (r : Report) :
    ∃ q ∈ (s.pushReport r).port.reports, q.report = r := by
  rw [State.pushReport_reports room]
  exact ⟨_, List.mem_append_right _ (List.mem_singleton_self _), rfl⟩

section
variable {s : State} {v : Vote} {d : Decision} (l : Option Located)

/-- A delivery that is reported, with room for the report of its mend entry and its own. -/
theorem State.deliver_reports (reported : isReported v.origins d.verdict v.flags.refDiffers = true)
    (room : s.port.reports.length < 63) : ∃ q ∈ (s.deliver v d l).port.reports, q.report =
      s.verdictReport v d (s.deliveredFlags v d) (l.map Located.badTiles) := by
  have counted := (s.counted_frame v d).reports_eq (by simp)
  have few : (s.mended v d l).port.reports.length < 64 :=
    Nat.lt_of_le_of_lt (State.deliverMend_pushes _ v d _).2 (by rw [counted]; omega)
  have kept := State.deliverEvidence_frame (s.mended v d l) v d l
  have strap : ((s.mended v d l).deliverEvidence v d l).strap = s.strap :=
    (kept .strap (by decide)).trans (s.mended_frame v d l .strap (by simp))
  have told : s.verdictTold v d l = ((s.mended v d l).deliverEvidence v d l).pushReport
      (s.verdictReport v d (s.deliveredFlags v d) (l.map Located.badTiles)) := by
    unfold State.verdictTold State.deliverReport State.verdictReport State.deliveredFlags
    rw [strap, s.counted_mendFull v d]
    exact if_pos reported
  obtain ⟨q, hq, same⟩ := State.pushReport_joins (by rw [kept.reports_eq (by decide)]; exact few)
    (s.verdictReport v d (s.deliveredFlags v d) (l.map Located.badTiles))
  exact ⟨q, (s.verdictTold_addsNoVerdict v d l).kept (told.symm ▸ hq), same⟩

theorem State.deliver_unreported (silent : isReported v.origins d.verdict v.flags.refDiffers ≠ true) :
    AddsNoVerdict s (s.deliver v d l) := by
  have told : s.verdictTold v d l = (s.mended v d l).deliverEvidence v d l := if_neg silent
  have later := s.verdictTold_addsNoVerdict v d l
  rw [told] at later
  exact ((((s.counted_frame v d).addsNoVerdict (by simp)).trans (State.deliverMend_pushes _ v d _).1).trans
    ((State.deliverEvidence_frame _ v d l).addsNoVerdict (by decide))).trans later

end

/-! ### The SUM that is held back (R92) -/

theorem State.offerHeldSum_none {s : State} {v : Vote}
    (silent : v.callPending = false ∨ s.line.state = .mute ∨ v.expected = []) : s.offerHeldSum v = s := by
  unfold State.offerHeldSum
  rcases silent with free | shut
  · rw [free]
    rfl
  · rw [State.sumToOffer?_silent (Or.inr shut)]
    exact ite_self _

theorem State.offerHeldSum_joins {s : State} {v : Vote} (pending : v.callPending = true) (loud : s.line.state ≠ .mute)
    (expects : v.expected ≠ []) (room : s.line.queue.length < 32) {body : LineBody} (own : s.ownSum? v = some body) :
    newMessage body none ∈ (s.offerHeldSum v).line.queue := by
  unfold State.offerHeldSum
  rw [pending, State.sumToOffer?_offers loud expects, own]
  show _ ∈ (s.offer (newMessage body none)).line.queue
  rw [State.offer_join loud room, State.joinQueue_queue]
  exact mem_joinInOrder_iff.2 (Or.inl rfl)

section
variable {s : State} {v : Vote} {d : Decision} {l : Option Located}

theorem State.delisted_line (s : State) (v : Vote) (d : Decision) (l : Option Located) :
    (s.delisted v d l).line = s.line :=
  (s.delisted_frame v d l).line_eq (by simp) (by simp) (by simp) (by simp) (by simp)

theorem State.deliver_heldSum (pending : v.callPending = true) (loud : s.line.state ≠ .mute) (expects : v.expected ≠ [])
    (room : s.line.queue.length < 32) {body : LineBody} (own : s.ownSum? v = some body) :
    newMessage body none ∈ (s.deliver v d l).line.queue := by
  have line := s.delisted_line v d l
  have own' : (s.delisted v d l).ownSum? v = some body :=
    (State.ownSum?_congr rfl rfl rfl ((s.delisted_frame v d l).holdingOf_eq (by simp) (by simp) _)).trans own
  exact (Extends.walk _).sums _ (State.offerHeldSum_joins pending (line.symm ▸ loud) expects (line.symm ▸ room) own')
    (State.ownSum?_lineClass own)

theorem State.deliver_queue (silent : v.callPending = false ∨ s.line.state = .mute ∨ v.expected = []) :
    ∀ m ∈ (s.deliver v d l).line.queue, m ∈ s.line.queue ∨ m.body.lineClass = 1 := by
  have line := s.delisted_line v d l
  have calls := (WalkAdds.walk ((s.delisted v d l).offerHeldSum v)).calls
  rw [State.offerHeldSum_none (line.symm ▸ silent), line] at calls
  rw [s.deliver_eq, State.offerHeldSum_none (line.symm ▸ silent)]
  exact calls

/-- The vote has left the table, and no vote that the walk opens is given its number. -/
theorem State.deliver_gone (given : v.id < s.nextVote) : ∀ w ∈ (s.deliver v d l).votes, w.id ≠ v.id := by
  intro w hw same
  have tables := (s.delisted v d l).offerHeldSum_tables v
  rcases (WalkAdds.walk ((s.delisted v d l).offerHeldSum v)).ids w.id (List.mem_map_of_mem hw) with old | new
  · rw [map_of_core tables.votes Vote.id fun _ _ e => (Vote.core_eq e).1] at old
    obtain ⟨x, hx, e⟩ := List.mem_map.1 old
    exact (State.mem_removeVote.1 hx).2 (e.trans same)
  · have next : (s.delisted v d l).nextVote = s.nextVote := s.delisted_frame v d l .nextVote (by simp)
    rw [tables.next, next, same] at new
    exact absurd given (Nat.not_lt.2 new)

end

/-- Settles O33: each mark is one stage's, which the stages that follow leave as it is. -/
theorem deliveryLeavesItsMarks : Obligations.DeliveryLeavesItsMarks := by
  unfold Obligations.DeliveryLeavesItsMarks
  intro v d l s given t badTiles asks reported flags good
  have asksIff : d.asksMend = true ↔ asks ∧ d.agreed ≠ none := d.asksMend_iff
  have reportedIff : isReported v.origins d.verdict v.flags.refDiffers = true ↔ reported := isReported_iff _ _ _
  have mendedEvidence : (s.mended v d l).evidence = s.evidence := s.mended_frame v d l .evidence (by simp)
  have toldWatch : (s.verdictTold v d l).watch = s.watch :=
    Part.same_trans (p := .watch) (s.mended_frame v d l .watch (by simp))
      (s.verdictTold_of_mended v d l .watch (by decide))
  refine ⟨asksIff, s.mendFull_iff v.key, v.pairwise_goodStations _ _, fun x => Vote.mem_goodStations,
    s.deliver_count v d l, fun differs => ?_, fun noMend => ⟨fun x asked agreed absent room => ?_, fun none => ?_⟩,
    fun x keeps own => ?_, fun clean => ?_, fun told room => State.deliver_reports l (reportedIff.2 told) room,
    fun silent => (State.deliver_unreported l (mt reportedIff.1 silent)).fresh, fun watched leader => ?_,
    fun unwatched => ?_, fun pending loud expects room body own => ⟨_, State.deliver_heldSum pending loud expects room own,
      rfl⟩, State.deliver_queue, State.deliver_gone given, s.deliver_frame v d l⟩
  · have counted := s.deliver_counted_frame v d l (.counter .refDiffers) (by decide)
    rw [differs] at counted
    exact counted.trans (s.countVerdict_refDiffers _)
  · have asks' : d.asksMend = true := asksIff.2 ⟨asked, by rw [agreed]; exact Option.some_ne_none x⟩
    exact State.deliver_adds noMend l asks' agreed absent room
  · refine State.deliver_keeps noMend l ?_
    rcases none with no | unagreed | full
    · exact Or.inl (Bool.eq_false_iff.2 fun asked => no (asksIff.1 asked).1)
    · exact Or.inl (Bool.eq_false_iff.2 fun asked => (asksIff.1 asked).2 unagreed)
    · exact Or.inr full
  · refine (s.deliver_evidence v d l).trans ?_
    rw [State.deliverEvidence_adds keeps own]
    exact State.addEvidence_evidence mendedEvidence _
  · refine (s.deliver_evidence v d l).trans ?_
    rw [State.deliverEvidence_none clean, mendedEvidence]
  · refine (s.deliver_watch v d l).trans ?_
    rw [State.deliverWatch_takes watched leader]
    exact State.watchBit_watch toldWatch _ _
  · refine (s.deliver_watch v d l).trans ?_
    rw [State.deliverWatch_none unwatched, toldWatch]

end Sys2Proof.Machine
end

section
/-! The agreed summary: no two values have more than half of the counted copies (R105, R106). -/

namespace Sys2Proof.Machine

/-! ### Values with more than half of a list (R106) -/

/-- Two values of a list have no more places than the list. -/
theorem count_add_count_le_length {x y : Word} (other : x ≠ y) (xs : List Word) :
    xs.count x + xs.count y ≤ xs.length := by
  have apart : xs.count y ≤ xs.countP fun z => decide ¬ (z == x) = true :=
    List.countP_mono_left fun z _ isY => decide_eq_true fun isX => other ((eq_of_beq isX).symm.trans (eq_of_beq isY))
  rw [List.length_eq_countP_add_countP (l := xs) (· == x)]
  exact Nat.add_le_add_left apart _

section
variable {total : Nat} {xs : List Word} (fits : xs.length ≤ total)
include fits

theorem eq_of_counts_above_half {x y : Word} (hx : total < 2 * xs.count x) (hy : total < 2 * xs.count y) : x = y := by
  by_contra other
  have both := count_add_count_le_length other xs
  omega

/-- The first value found above half of the total is the only one. -/
theorem agreedValue_eq_some {x : Word} : agreedValue total xs = some x ↔ total < 2 * xs.count x := by
  have above : ∀ {y : Word}, agreedValue total xs = some y → total < 2 * xs.count y := fun found =>
    of_decide_eq_true (List.find?_some (p := fun y => decide (total < 2 * xs.count y)) found)
  refine ⟨above, fun agreed => ?_⟩
  have among : x ∈ xs := List.count_pos_iff.1 (by omega)
  obtain ⟨y, found⟩ := Option.isSome_iff_exists.1 (List.find?_isSome
    (p := fun y => decide (total < 2 * xs.count y)).2 ⟨x, among, decide_eq_true agreed⟩)
  rw [eq_of_counts_above_half fits agreed (above found)]
  exact found

end

/-! ### The copies of a vote (R105, R106) -/

section
variable (v : Vote)

theorem Vote.copiesHeard_eq : v.copiesHeard =
    1 + v.answers.countP fun a : Answer => a.status = .readOk || a.status = .unreadable := by
  rw [Vote.copiesHeard, List.countP_eq_length_filter]

/-- Each READ_OK copy has one summary, and is one of the copies heard. -/
theorem Vote.length_summaries_le : v.summaries.length ≤ v.copiesHeard := by
  have own : v.own.summary.toList.length ≤ 1 := Option.length_toList_le
  have peers : v.peerSummaries.length ≤ v.answers.countP
      fun a : Answer => a.status = .readOk || a.status = .unreadable := by
    rw [Vote.peerSummaries, List.length_filterMap_eq_countP]
    refine List.countP_mono_left fun a _ some => ?_
    split at some
    · next ok => simp [ok]
    · cases some
  rw [Vote.copiesHeard_eq, Vote.summaries, List.length_append]
  omega

theorem Vote.length_summaries_le_countedTotal (h : Holding) : v.summaries.length ≤ v.countedTotal h :=
  v.length_summaries_le.trans (Nat.le_max_right _ _)

theorem OwnStatus.count_summary (o : OwnStatus) (z : Word) :
    o.summary.toList.count z = if o = .readOk z then 1 else 0 := by
  cases o with
  | readOk x => simp [OwnStatus.summary, List.count_singleton]
  | pending => rfl
  | unreadable r => rfl

variable {v} (silent : ∀ a ∈ v.answers, a.status ≠ .readOk → a.summary = none)
include silent

theorem Vote.count_peerSummaries (z : Word) :
    v.peerSummaries.count z = v.answers.countP fun a : Answer => a.summary = some z := by
  rw [Vote.peerSummaries, List.count, List.countP_filterMap]
  refine List.countP_congr fun a ha => ?_
  split
  · cases a.summary <;> simp
  · next other => simp [silent a ha other]

/-- c(z): the own copy, when it reads z, and the answers that gave z. -/
theorem Vote.count_summaries (z : Word) : v.summaries.count z =
    (if v.own = .readOk z then 1 else 0) + v.answers.countP fun a : Answer => a.summary = some z := by
  rw [Vote.summaries, List.count_append, OwnStatus.count_summary, Vote.count_peerSummaries silent]

end

/-- Settles O31: the summaries number no more than N′, so two values above half of it are one. -/
theorem oneAgreedValueAtMost : Obligations.OneAgreedValueAtMost := by
  unfold Obligations.OneAgreedValueAtMost
  intro v h x y silent
  have fits := v.length_summaries_le_countedTotal h
  simp only [← Vote.count_summaries silent]
  exact ⟨eq_of_counts_above_half fits, agreedValue_eq_some fits, by rw [Vote.countedTotal, Vote.copiesHeard_eq]⟩

end Sys2Proof.Machine
end

section
/-! The verdict of a MEND vote, and what the mend list makes of its entry (R118, R130, R131, R133). -/

namespace Sys2Proof.Machine

/-! ### One entry among entries of other keys -/

theorem map_ite_of_map_nodup {α β : Type} [DecidableEq β] {f : α → β} {before after : List α} {x : α}
    (nodup : ((before ++ x :: after).map f).Nodup) (y : α) :
    ((before ++ x :: after).map fun z => if f z = f x then y else z) = before ++ y :: after := by
  rw [List.map_append, List.map_cons, List.nodup_middle, List.nodup_cons, ← List.map_append] at nodup
  have others : ∀ zs ⊆ before ++ after, (zs.map fun z => if f z = f x then y else z) = zs := fun zs sub => by
    refine Eq.trans (List.map_congr_left fun z hz => if_neg fun same => ?_) (List.map_id' zs)
    exact nodup.1 (same ▸ List.mem_map_of_mem (sub hz))
  rw [List.map_append, List.map_cons, if_pos rfl, others _ (List.subset_append_left _ _),
    others _ (List.subset_append_right _ _)]

section
variable {s : State} {before after : List MendEntry} {e : MendEntry} (nodup : (s.mends.map MendEntry.key).Nodup)
  (split : s.mends = before ++ e :: after)
include nodup split

theorem State.mend?_split : s.mend? e.key = some e :=
  find_of_map_nodup nodup (split ▸ List.mem_append_right _ List.mem_cons_self)

theorem State.removeMend_split : (s.removeMend e.key).mends = before ++ after := by
  show (s.mends.filter fun x => decide (x.key ≠ e.key)) = _
  rw [split, filter_ne_of_map_nodup (split ▸ nodup)]

theorem State.modifyMend_split (x : MendEntry) :
    (s.modifyMend e.key fun _ => x).mends = before ++ x :: after := by
  show (s.mends.map fun y => if y.key = e.key then x else y) = _
  rw [split, map_ite_of_map_nodup (split ▸ nodup)]

end

/-! ### The three outcomes (R130, R131) -/

section
variable {s : State} {v : Vote} {d : Decision} {e : MendEntry} (found : s.mend? v.key = some e) (b : Option (List Nat))
include found

theorem State.settleMend_confirms (confirmed : d.verdict = .good ∧ v.own.summary = some e.agreed) :
    s.settleMend v d b = (s.removeMend v.key).pushReport (e.report .mended none none) := by
  unfold State.settleMend
  rw [found]
  exact if_pos confirmed

variable (failed : ¬ (d.verdict = .good ∧ v.own.summary = some e.agreed))
include failed

theorem State.settleMend_fails (again : e.failed < 2) : s.settleMend v d b =
    (s.modifyMend v.key fun _ => e.fail s.now d b).pushReport
      ((e.fail s.now d b).report .failed (some d.verdict) v.own.summary) := by
  unfold State.settleMend
  rw [found]
  exact (if_neg failed).trans (if_pos again)

theorem State.settleMend_abandons (third : 2 ≤ e.failed) : s.settleMend v d b =
    (s.removeMend v.key).pushReport (e.report .abandoned (some d.verdict) v.own.summary) := by
  unfold State.settleMend
  rw [found]
  exact (if_neg failed).trans (if_neg (Nat.not_lt.2 third))

end

/-! ### The tile list after a failure (R131) -/

section
variable {e : MendEntry} {d : Decision} (now : Nat)

theorem MendEntry.fail_badTiles_replaced (bad : d.verdict = .bad) (agreed : d.agreed = some e.agreed) (l : List Nat) :
    (e.fail now d (some l)).badTiles = some l := if_pos ⟨bad, rfl, agreed⟩

theorem MendEntry.fail_badTiles_kept {b : Option (List Nat)}
    (other : b = none ∨ d.verdict ≠ .bad ∨ d.agreed ≠ some e.agreed) : (e.fail now d b).badTiles = e.badTiles := by
  refine if_neg fun ⟨bad, listed, agreed⟩ => ?_
  rcases other with rfl | notBad | differs
  · cases listed
  · exact notBad bad
  · exact differs agreed

end

/-! ### The settling within the delivery (R118, R133) -/

/-- What the mend list has reported stays among the reports to the end of the delivery. -/
theorem State.mended_reports_subset (s : State) (v : Vote) (d : Decision) (l : Option Located) :
    (s.mended v d l).port.reports ⊆ (s.deliver v d l).port.reports := by
  have evidence := (State.deliverEvidence_frame (s.mended v d l) v d l).reports_eq (by decide)
  have told : (s.mended v d l).port.reports ⊆ (s.verdictTold v d l).port.reports := by
    rw [← evidence]
    unfold State.verdictTold State.deliverReport
    split
    · exact (State.pushReport_prefix _ _).subset
    · exact List.Subset.refl _
  exact List.Subset.trans told (s.verdictTold_addsNoVerdict v d l).kept

/-- The delivery of a MEND vote whose settling changes the mend list and pushes a report. -/
theorem State.deliver_settles {s : State} {v : Vote} {d : Decision} {l : Option Located} {t : State} {r : Report}
    (mend : v.origins.mend = true)
    (settled : (s.countVerdict d.verdict v.flags.refDiffers).settleMend v d (l.map Located.badTiles) = t.pushReport r)
    (reports : t.port.reports = (s.countVerdict d.verdict v.flags.refDiffers).port.reports) :
    (s.deliver v d l).mends = t.mends ∧
      (s.port.reports.length < 64 → ∃ q ∈ (s.deliver v d l).port.reports, q.report = r) := by
  have mended : s.mended v d l = t.pushReport r := (if_pos mend).trans settled
  refine ⟨?_, fun room => ?_⟩
  · rw [s.deliver_mends, mended, State.pushReport_mends]
  · have counted := reports.trans ((s.counted_frame v d).reports_eq (by simp))
    obtain ⟨q, hq, same⟩ := State.pushReport_joins (s := t) (by rw [counted]; exact room) r
    exact ⟨q, s.mended_reports_subset v d l (mended ▸ hq), same⟩

/-- Settles O34: the counting before and the marks after leave the entry and its report as the settling makes them. -/
theorem mendVotesSettleTheirEntry : Obligations.MendVotesSettleTheirEntry := by
  unfold Obligations.MendVotesSettleTheirEntry
  intro v d l e before after s mend nodup split key t confirmed report
  let c := s.countVerdict d.verdict v.flags.refDiffers
  have mends : c.mends = s.mends := s.counted_mends v d
  have now : c.now = s.now := s.counted_frame v d .now (by simp)
  have nodup' : (c.mends.map MendEntry.key).Nodup := mends.symm ▸ nodup
  have split' : c.mends = before ++ e :: after := mends.trans split
  have found : c.mend? v.key = some e := key ▸ State.mend?_split nodup' split'
  have removed : (c.removeMend v.key).mends = before ++ after := key ▸ State.removeMend_split nodup' split'
  refine ⟨fun good => ?_, fun bad third => ?_, fun bad again => ?_⟩
  · obtain ⟨left, told⟩ := State.deliver_settles mend (State.settleMend_confirms found _ good) rfl
    exact ⟨left.trans removed, told⟩
  · obtain ⟨left, told⟩ := State.deliver_settles mend (State.settleMend_abandons found _ bad third) rfl
    exact ⟨left.trans removed, told⟩
  · obtain ⟨left, told⟩ := State.deliver_settles mend (State.settleMend_fails found _ bad again) rfl
    refine ⟨e.fail c.now d (l.map Located.badTiles),
      left.trans (key ▸ State.modifyMend_split nodup' split' _), rfl, rfl, rfl, congrArg _ now, told,
      fun x located isBad agreed => ?_, fun other => MendEntry.fail_badTiles_kept _ ?_⟩
    · rw [located]
      exact MendEntry.fail_badTiles_replaced _ isBad agreed _
    · exact other.imp_left fun none => by rw [none]; rfl

end Sys2Proof.Machine
end

section
/-! The evidence buffer: what makes way for a new entry, and what TAKE EVIDENCE carries (R136 to R139, R141). -/

namespace Sys2Proof.Machine

/-! ### Making room (R139) -/

/-- Entries among which one more of `need` check slots does not fit, so that the oldest makes way (R139). -/
def Crowded (need : Nat) (es : List EvidenceEntry) : Prop := 64 ≤ es.length ∨ 2048 < slotsOf es + need

section
variable {need : Nat} {e : EvidenceEntry} {es : List EvidenceEntry}

theorem makeRoom_crowded (crowded : Crowded need (e :: es)) :
    makeRoom need (e :: es) = ((makeRoom need es).1, (makeRoom need es).2 + 1) := if_pos crowded

theorem makeRoom_roomy (roomy : ¬ Crowded need (e :: es)) : makeRoom need (e :: es) = (e :: es, 0) := if_neg roomy

end

/-- What remains is what the evictions counted leave, oldest first. -/
theorem makeRoom_remain (need : Nat) (es : List EvidenceEntry) :
    (makeRoom need es).1 = es.drop (makeRoom need es).2 := by
  induction es with
  | nil => rfl
  | cons e es ih =>
    by_cases crowded : Crowded need (e :: es)
    · rw [makeRoom_crowded crowded, List.drop_succ_cons, ih]
    · rw [makeRoom_roomy crowded, List.drop_zero]

theorem makeRoom_evicted_le (need : Nat) (es : List EvidenceEntry) : (makeRoom need es).2 ≤ es.length := by
  induction es with
  | nil => exact Nat.le_refl 0
  | cons e es ih =>
    by_cases crowded : Crowded need (e :: es)
    · rw [makeRoom_crowded crowded]
      exact Nat.succ_le_succ ih
    · rw [makeRoom_roomy crowded]
      exact Nat.zero_le _

/-- Each eviction finds the entries still crowded. -/
theorem makeRoom_evicts_crowded (need : Nat) (es : List EvidenceEntry) :
    ∀ k < (makeRoom need es).2, Crowded need (es.drop k) := by
  induction es with
  | nil => nofun
  | cons e es ih =>
    by_cases crowded : Crowded need (e :: es)
    · rw [makeRoom_crowded crowded]
      intro k before
      cases k with
      | zero => exact crowded
      | succ k => exact ih k (Nat.lt_of_succ_lt_succ before)
    · rw [makeRoom_roomy crowded]
      nofun

/-- The evictions stop with room for the new entry, when the pool is large enough for it. -/
theorem makeRoom_ends_roomy {need : Nat} (fits : need ≤ 2048) (es : List EvidenceEntry) :
    ¬ Crowded need (es.drop (makeRoom need es).2) := by
  rw [← makeRoom_remain]
  exact not_or.2 ⟨Nat.not_le.2 (makeRoom_length need es), Nat.not_lt.2 (makeRoom_slots fits es)⟩

/-! ### The new entry (R138, R139) -/

section
variable (s : State) (e : EvidenceEntry)

theorem State.addEvidence_entries : (s.addEvidence e).evidence.entries =
    s.evidence.entries.drop (makeRoom e.slots s.evidence.entries).2 ++ [{ e with number := s.evidence.next }] := by
  rw [← makeRoom_remain]
  rfl

theorem State.addEvidence_next : (s.addEvidence e).evidence.next = s.evidence.next + 1 := rfl

theorem State.addEvidence_counts : (s.addEvidence e).count .evidenceEvicted =
    min 4294967295 (s.count .evidenceEvicted + (makeRoom e.slots s.evidence.entries).2) :=
  (State.count_bumpBy _ _ _ _).trans (if_pos rfl)

end

/-! ### TAKE EVIDENCE (R141) -/

section
variable {s : State}

theorem State.takeOldest_empty (empty : s.evidence.entries = []) : s.takeOldest = s.doneWith [0] := by
  unfold State.takeOldest
  rw [empty]
  rfl

theorem State.takeOldest_cons {e : EvidenceEntry} {rest : List EvidenceEntry} (held : s.evidence.entries = e :: rest) :
    s.takeOldest = (s.setEvidence { entries := rest, next := s.evidence.next }).doneWith (1 :: e.bytes) := by
  unfold State.takeOldest
  rw [held]
  rfl

theorem exec_takeEvidence (ready : s.ready (.takeEvidence []) = true) {a : Answered} (answer : s.takeOldest = a) :
    exec (.takeEvidence []) s = .next (a.state.answered 0x09 a.result a.payload) := by
  rw [← answer]
  exact congrArg Host.Outcome.next (State.arrive_fits ready 0x09 rfl _)

end

/-- Settles O35: the number evicted is the one making room counts, and the order is answered as the buffer stands. -/
theorem evidenceLeavesOldestFirst : Obligations.EvidenceLeavesOldestFirst := by
  unfold Obligations.EvidenceLeavesOldestFirst
  refine ⟨fun e s few => ?_, fun s ready => ⟨fun empty => ?_, fun e rest held => ?_⟩⟩
  · have fits : e.slots ≤ 2048 := few.trans (by decide)
    exact ⟨(makeRoom e.slots s.evidence.entries).2, makeRoom_evicted_le _ _, s.addEvidence_entries e,
      s.addEvidence_next e, s.addEvidence_counts e, makeRoom_evicts_crowded _ _, makeRoom_ends_roomy fits _,
      s.addEvidence_frame e⟩
  · exact exec_takeEvidence ready (State.takeOldest_empty empty)
  · exact exec_takeEvidence ready (State.takeOldest_cons held)

end Sys2Proof.Machine
end

section
/-! Time codes: the band of a code and its place in the band give its time, and each code's time is above the one before
it (R153). -/

namespace Sys2Proof.Machine

theorem timeOfCode_fine {m : Nat} (place : m < 512) : timeOfCode m = m := by
  unfold timeOfCode
  rw [Nat.div_eq_of_lt place, if_pos rfl, Nat.mod_eq_of_lt place]

theorem timeOfCode_coarse (e : Nat) {m : Nat} (place : m < 512) :
    timeOfCode (512 * (e + 1) + m) = (512 + m) * 2 ^ e := by
  have band : (512 * (e + 1) + m) / 512 = e + 1 := by omega
  have inBand : (512 * (e + 1) + m) % 512 = m := by omega
  unfold timeOfCode
  rw [band, inBand, if_neg (Nat.succ_ne_zero e), Nat.add_sub_cancel]

/-- Within a band the next time is one unit of the band later; from the last place of a band it is the first time of the
next. -/
theorem timeOfCode_lt_succ (c : Nat) : timeOfCode c < timeOfCode (c + 1) := by
  obtain ⟨e, m, place, rfl⟩ : ∃ e m, m < 512 ∧ c = 512 * e + m :=
    ⟨c / 512, c % 512, Nat.mod_lt c (by decide), (Nat.div_add_mod c 512).symm⟩
  cases e with
  | zero =>
    rw [Nat.mul_zero, Nat.zero_add, timeOfCode_fine place]
    by_cases last : m = 511
    · rw [last]
      decide
    · rw [timeOfCode_fine (show m + 1 < 512 by omega)]
      exact Nat.lt_succ_self m
  | succ e =>
    rw [timeOfCode_coarse e place]
    have unit : 0 < 2 ^ e := Nat.two_pow_pos e
    by_cases last : m = 511
    · have next : 512 * (e + 1) + m + 1 = 512 * (e + 1 + 1) + 0 := by omega
      rw [next, timeOfCode_coarse (e + 1) (by decide), last, Nat.pow_succ]
      omega
    · rw [Nat.add_assoc, timeOfCode_coarse e (show m + 1 < 512 by omega)]
      exact Nat.mul_lt_mul_of_pos_right (Nat.lt_succ_self _) unit

theorem timeOfCode_strictMono : StrictMono timeOfCode := strictMono_nat_of_lt_succ timeOfCode_lt_succ

/-- Settles O38: the order of the times, and that no two agree, come from each time being above the one before it. -/
theorem timeCodesRise : Obligations.TimeCodesRise := by
  unfold Obligations.TimeCodesRise
  have longest : timeOfCode 4095 = 65472 := timeOfCode_coarse 6 (m := 511) (by decide)
  refine ⟨fun e m _ place => ⟨fun fine => ?_, fun coarse => ?_⟩, fun a b less _ => timeOfCode_strictMono less,
    fun a b _ _ same => timeOfCode_strictMono.injective same, timeOfCode_fine (by decide),
    timeOfCode_coarse 0 (m := 0) (by decide), longest, fun a top => longest ▸ timeOfCode_strictMono.monotone top⟩
  · rw [fine, Nat.mul_zero, Nat.zero_add, timeOfCode_fine place]
  · obtain ⟨k, rfl⟩ := Nat.exists_eq_add_of_le' coarse
    exact timeOfCode_coarse k place

end Sys2Proof.Machine
end

section
/-! The pace governor: its step at a burst end and the clamp behind it (R148, R149), and the orders PACE and SETTLE (R150,
R151). -/

namespace Sys2Proof.Machine

/-! ### The clamp (R149) -/

section
variable {g : Governor} {x : Nat}

theorem Governor.clamp_of_le_gmin (limits : g.gmin ≤ g.gmax) (low : x ≤ g.gmin) : g.clamp x = g.gmin := by
  rw [Governor.clamp, max_eq_right low, min_eq_left limits]

theorem Governor.clamp_of_gmax_le (high : g.gmax ≤ x) : g.clamp x = g.gmax :=
  min_eq_right (high.trans (le_max_left x g.gmin))

theorem Governor.clamp_of_between (low : g.gmin ≤ x) (high : x ≤ g.gmax) : g.clamp x = x := by
  rw [Governor.clamp, max_eq_left low, min_eq_left high]

end

/-! ### Grow and shrink (R148, R149) -/

theorem lt_grow {x : Nat} (room : x < 65535) : x < grow x := lt_min room (by omega)

theorem grow_le (x : Nat) : grow x ≤ 65535 := min_le_left _ _

theorem shrink_lt {x : Nat} (pos : 0 < x) : shrink x < x :=
  Nat.sub_lt pos (Nat.lt_of_lt_of_le Nat.one_pos (le_max_left 1 (x / 8)))

/-! ### The step (R148) -/

section
variable {g : Governor}

theorem Governor.burstEnd_steps (steps : g.mode = .adaptive ∨ 0 < g.settle) :
    g.burstEnd = { g with gap := g.steppedGap, settle := g.settle - 1 } := if_pos steps

theorem Governor.burstEnd_rests (fixed : g.mode = .fixed) (settled : g.settle = 0) : g.burstEnd = g :=
  if_neg (by rw [fixed, settled]; decide)

theorem Governor.steppedGap_grows (above : 16 * g.target + g.band < g.average) :
    g.steppedGap = g.clamp (grow g.gap) := if_pos above

theorem Governor.steppedGap_shrinks (below : g.average + g.band < 16 * g.target) :
    g.steppedGap = g.clamp (shrink g.gap) := by
  rw [Governor.steppedGap, if_neg (by omega), if_pos below]

theorem Governor.steppedGap_holds (low : 16 * g.target ≤ g.average + g.band)
    (high : g.average ≤ 16 * g.target + g.band) : g.steppedGap = g.gap := by
  rw [Governor.steppedGap, if_neg (Nat.not_lt.2 high), if_neg (Nat.not_lt.2 low)]

end

/-- Settles O37: each row of the step's table gives its gap, and the clamp puts that gap at a limit it has reached. -/
theorem stepsLeaveTheGapInRange : Obligations.StepsLeaveTheGapInRange := by
  unfold Obligations.StepsLeaveTheGapInRange
  refine ⟨fun g => ⟨Governor.burstEnd_steps, Governor.burstEnd_rests⟩,
    fun g x limits => ⟨fun low => Governor.clamp_of_le_gmin limits low.le, fun high => Governor.clamp_of_gmax_le high.le,
      Governor.clamp_of_between⟩,
    fun x => ⟨rfl, rfl⟩, fun x room => ⟨lt_grow room, grow_le x⟩, fun x => shrink_lt, rfl, rfl, rfl, rfl, fun g h => ?_⟩
  have limits : g.gmin ≤ g.gmax := h.gapLow.trans h.gapHigh
  refine ⟨fun above => ?_, fun below => ?_, fun low high => Governor.steppedGap_holds (by omega) high, fun point => ?_⟩
  · have grown := Governor.steppedGap_grows above
    exact ⟨grown, fun past => grown.trans (Governor.clamp_of_gmax_le past)⟩
  · have shrunk : g.steppedGap = g.clamp (shrink g.gap) := Governor.steppedGap_shrinks (by omega)
    exact ⟨shrunk, fun past => shrunk.trans (Governor.clamp_of_le_gmin limits past)⟩
  · obtain ⟨low, high⟩ := h.stepped
    exact le_antisymm (point ▸ high) low

/-! ### PACE and SETTLE (R150, R151) -/

theorem paceModeOfCode_eq_none {n : Nat} (notFixed : n ≠ 1) (notAdaptive : n ≠ 2) : paceModeOfCode n = none := by
  unfold paceModeOfCode
  split
  · exact absurd rfl notFixed
  · exact absurd rfl notAdaptive
  · rfl

theorem flagAt_iff (body : List Byte) (offset : Nat) : flagAt body offset = true ↔ field body offset 1 ≠ 0 := bne_iff_ne

/-- The governor after PACE, with the clamp of the gap written out. -/
theorem Governor.paced_eq (g : Governor) (mode : PaceMode) (body : List Byte) : g.paced mode body =
    { mode := mode, gmin := field body 1 2, gmax := max (field body 1 2) (field body 3 2), target := field body 5 1
      band := field body 6 1
      gap := min (max (if field body 7 1 ≠ 0 then field body 8 2 else g.gap) (field body 1 2))
        (max (field body 1 2) (field body 3 2))
      average := 16 * field body 5 1, settle := 0 } := by
  simp only [Governor.paced, Governor.clamp, flagAt_iff]

section
variable {s : State}

theorem State.pace_known {body : List Byte} {mode : PaceMode} (known : paceModeOfCode (field body 0 1) = some mode) :
    s.pace body = (s.setGovernor (s.governor.paced mode body)).done := by
  unfold State.pace
  rw [known]

theorem State.pace_unknown {body : List Byte} (unknown : paceModeOfCode (field body 0 1) = none) :
    s.pace body = s.refuse .range := by
  unfold State.pace
  rw [unknown]

theorem exec_pace {body : List Byte} (ready : s.ready (.pace body) = true) (length : body.length = 10) {a : Answered}
    (answer : s.pace body = a) : exec (.pace body) s = .next (a.state.answered 0x0A a.result a.payload) := by
  rw [← answer]
  exact congrArg Host.Outcome.next (State.arrive_fits ready 0x0A (decide_eq_true length) _)

theorem Governor.settled_fixed {g : Governor} (fixed : g.mode = .fixed) : g.settled = { g with settle := 8 } :=
  if_pos fixed

theorem Governor.settled_adaptive {g : Governor} (adaptive : g.mode = .adaptive) : g.settled = g :=
  if_neg (by rw [adaptive]; decide)

theorem exec_settle (ready : s.ready (.settle []) = true) {g : Governor} (effect : s.governor.settled = g) :
    exec (.settle []) s = .next ((s.setGovernor g).answered 0x0B .done []) := by
  rw [← effect]
  exact congrArg Host.Outcome.next (State.arrive_fits ready 0x0B rfl _)

end

/-- Settles O36: PACE is answered by the mode its code names, SETTLE by the mode in force. -/
theorem paceAndSettleSetTheGovernor : Obligations.PaceAndSettleSetTheGovernor := by
  unfold Obligations.PaceAndSettleSetTheGovernor
  intro body s
  refine ⟨?_, fun ready => ⟨fun fixed => ?_, fun adaptive => ?_⟩⟩
  · intro ready length gmin gmax asked paced
    have known : ∀ mode, paceModeOfCode (field body 0 1) = some mode →
        exec (.pace body) s = .next ((paced mode).answered 0x0A .done []) := fun mode named => by
      rw [exec_pace ready length (State.pace_known named), Governor.paced_eq]
      rfl
    exact ⟨fun one => known .fixed (congrArg paceModeOfCode one), fun two => known .adaptive (congrArg paceModeOfCode two),
      fun notFixed notAdaptive =>
        exec_pace ready length (State.pace_unknown (paceModeOfCode_eq_none notFixed notAdaptive))⟩
  · exact exec_settle ready (Governor.settled_fixed fixed)
  · exact exec_settle ready (Governor.settled_adaptive adaptive)

end Sys2Proof.Machine
end

section
/-! TIMING sets the limits: where no timer runs nothing is due, and the expiries leave the settings as they are (R155). -/

namespace Sys2Proof.Machine

/-! ### Nothing runs, so nothing is due -/

section
variable {u : State}

theorem State.dueVotes_of_votes_nil (empty : u.votes = []) : u.dueVotes = [] := by
  rw [State.dueVotes, State.voteTimers, empty]
  rfl

theorem State.dueLocalisations_of_votes_nil (empty : u.votes = []) : u.dueLocalisations = [] := by
  rw [State.dueLocalisations, State.localisationTimers, empty]
  rfl

theorem State.dueFetches_of_fetches_nil (empty : u.read.fetches = []) : u.dueFetches = [] := by
  rw [State.dueFetches, empty]
  rfl

theorem State.dueMends_of_mends_nil (empty : u.mends = []) : u.dueMends = [] := by
  rw [State.dueMends, State.patienceTimers, empty]
  rfl

theorem LineUnit.heardStations_of_none_present {l : LineUnit} (unheard : ∀ station last, l.heardOf station ≠ .present last) :
    l.heardStations = [] := by
  unfold LineUnit.heardStations
  refine List.filterMap_eq_nil_iff.2 fun station _ => ?_
  split
  · next last heard => exact absurd heard (unheard station last)
  all_goals rfl

theorem State.dueSilences_of_none_present (unheard : ∀ station last, u.line.heardOf station ≠ .present last) :
    u.dueSilences = [] := by
  rw [State.dueSilences, LineUnit.heardStations_of_none_present unheard]
  rfl

theorem State.settledTimers_of_none_running (votes : u.votes = []) (fetches : u.read.fetches = []) (mends : u.mends = [])
    (unheard : ∀ station last, u.line.heardOf station ≠ .present last) : u.settledTimers = u := by
  rw [State.settledTimers, State.timedOut, State.expireReads, State.dueVotes_of_votes_nil votes,
    State.dueLocalisations_of_votes_nil votes, State.dueFetches_of_fetches_nil fetches, State.dueMends_of_mends_nil mends,
    State.dueSilences_of_none_present unheard]
  rfl

end

/-! ### What the answer keeps -/

theorem State.timingDone_timers (u : State) : u.timingDone.timers = u.timers := by
  have issued : u.settledTimers.expireIssued.timers = u.settledTimers.timers :=
    State.expireIssued_frame _ .timers (by decide)
  have answered : u.timingDone.timers = u.settledTimers.expireIssued.timers :=
    State.answered_frame _ 0x0C .done [] .timers (by decide)
  exact answered.trans (issued.trans u.settledTimers_timers)

/-- The expiries TIMING makes, before its reply, with those of fetches issued on its account. -/
theorem State.setTiming_expireIssued_frame (s : State) (t : TimerSettings) :
    SameBut (.timers :: .roster :: expiryParts) s (s.setTimers t).settledTimers.expireIssued := by
  rw [← State.setTiming_eq]
  exact (s.setTiming_frame t).trans ((State.expireIssued_frame _).mono (by decide))

/-- Settles O39: with no timer running no expiry has anything to do, and at any time the expiries leave the settings and
the link alone. -/
theorem timingSetsTheLimits : Obligations.TimingSetsTheLimits := by
  unfold Obligations.TimingSetsTheLimits
  intro body s ready length limits
  let u := s.setTimers limits
  have taken : exec (.timing body) s = .next u.timingDone := exec_timing ready length
  have frame : SameBut (.timers :: .roster :: expiryParts) s u.settledTimers.expireIssued :=
    s.setTiming_expireIssued_frame limits
  refine ⟨fun votes fetches mends unheard => ?_, u.timingDone, taken, ?_, u.timingDone_timers, ?_⟩
  · have still : u.settledTimers = u := State.settledTimers_of_none_running (u := u) votes fetches mends unheard
    rw [taken, State.timingDone, still, State.expireIssued_none (s := u) fetches]
    rfl
  · exact State.replied_after rfl ready frame (by decide) 0x0C .done []
  · exact frame.comp (State.answered_frame _ 0x0C .done []) (by decide) (by decide)

end Sys2Proof.Machine
end

section
/-! The corruption watch: what the alarm test does, and what WATCH and a history bit make of it (R159 to R161). -/

namespace Sys2Proof.Machine

/-! ### The alarm test (R160) -/

/-- The watch after the alarm test. -/
def Watch.tested (w : Watch) : Watch := { w with alarm := w.testedAlarm }

/-- An alarm that is ON stays so over Tf; one that is OFF rises at Tr. -/
theorem Watch.testedAlarm_eq (w : Watch) : w.testedAlarm =
    if w.alarm = true then decide (w.falling < w.count) else decide (w.rising ≤ w.count) := by
  unfold Watch.testedAlarm
  cases w.alarm with
  | true => by_cases low : w.count ≤ w.falling <;> simp [low, Nat.lt_of_not_le]
  | false => by_cases high : w.rising ≤ w.count <;> simp [high]

section
variable {s : State} {w : Watch}

theorem State.alarmTest_setWatch (s : State) (w : Watch) (k : Option Key) : (s.setWatch w).alarmTest k =
    if w.tested.alarm = w.alarm then s.setWatch w
    else if w.reportEnable then (s.setWatch w.tested).pushReport (w.tested.report k)
    else s.setWatch w.tested := rfl

theorem State.alarmTest_unreported (silent : w.tested.alarm = w.alarm ∨ w.reportEnable = false) (k : Option Key) :
    (s.setWatch w).alarmTest k = s.setWatch w.tested := by
  rw [State.alarmTest_setWatch]
  split
  · next same => exact congrArg (fun on => s.setWatch { w with alarm := on }) same.symm
  · next changed => exact if_neg (ne_true_of_eq_false (silent.resolve_left changed))

theorem State.alarmTest_reported (changed : w.tested.alarm ≠ w.alarm) (enabled : w.reportEnable = true)
    (k : Option Key) : (s.setWatch w).alarmTest k = (s.setWatch w.tested).pushReport (w.tested.report k) := by
  rw [State.alarmTest_setWatch, if_neg changed, if_pos enabled]

/-! ### WATCH (R161) -/

/-- The watch with the thresholds of a WATCH order, clamped, and its flag, before the alarm test. -/
def Watch.ordered (w : Watch) (rising falling : Nat) (enable : Bool) : Watch :=
  { w with rising := clampRising rising, falling := clampFalling (clampRising rising) falling, reportEnable := enable }

/-- A WATCH order that leaves the watch `after` where it was `before` is reported: reports are enabled, and the alarm has
changed, or the flag was set under an alarm that is ON. -/
def Watch.Told (before after : Watch) : Prop :=
  after.reportEnable = true ∧ (after.alarm ≠ before.alarm ∨ (after.alarm = true ∧ before.reportEnable = false))

variable {rising falling : Nat} {enable : Bool}

/-- The order's own report comes behind the alarm test, on an alarm the test has left ON. -/
theorem State.setWatching_eq (s : State) (rising falling : Nat) (enable : Bool) :
    let tested := (s.watch.ordered rising falling enable).tested
    let u := (s.setWatch (s.watch.ordered rising falling enable)).alarmTest none
    s.setWatching rising falling enable =
      if tested.alarm = s.watch.alarm ∧ s.watch.alarm = true ∧ enable = true ∧ s.watch.reportEnable = false then
        u.pushReport (tested.report none)
      else u := by
  intro tested u
  have left : u.watch = tested := State.alarmTest_watch _ none
  rw [← left]
  rfl

theorem State.setWatching_told (told : s.watch.Told (s.watch.ordered rising falling enable).tested) :
    s.setWatching rising falling enable = (s.setWatch (s.watch.ordered rising falling enable).tested).pushReport
      ((s.watch.ordered rising falling enable).tested.report none) := by
  obtain ⟨enabled, cause⟩ := told
  rw [State.setWatching_eq]
  by_cases same : (s.watch.ordered rising falling enable).tested.alarm = s.watch.alarm
  · obtain ⟨on, cleared⟩ := cause.resolve_left (not_not_intro same)
    rw [if_pos ⟨same, same ▸ on, enabled, cleared⟩, State.alarmTest_unreported (.inl same)]
  · rw [if_neg fun both => same both.1, State.alarmTest_reported same enabled]

theorem State.setWatching_untold (untold : ¬ s.watch.Told (s.watch.ordered rising falling enable).tested) :
    s.setWatching rising falling enable = s.setWatch (s.watch.ordered rising falling enable).tested := by
  have silent : (s.watch.ordered rising falling enable).tested.alarm = s.watch.alarm ∨ enable = false := by
    by_contra both
    obtain ⟨changed, enabled⟩ := not_or.1 both
    exact untold ⟨Bool.of_not_eq_false enabled, .inl changed⟩
  rw [State.setWatching_eq, if_neg, State.alarmTest_unreported silent]
  rintro ⟨same, on, enabled, cleared⟩
  exact untold ⟨enabled, .inr ⟨same.trans on, cleared⟩⟩

theorem exec_watch {body : List Byte} (ready : s.ready (.watch body) = true) (length : body.length = 5) :
    exec (.watch body) s =
      .next ((s.setWatching (field body 0 2) (field body 2 2) (flagAt body 4)).answered 0x0D .done []) :=
  congrArg Host.Outcome.next (State.arrive_fits ready 0x0D (decide_eq_true length) _)

end

theorem flagAt_eq (body : List Byte) (offset : Nat) : flagAt body offset = decide (field body offset 1 ≠ 0) :=
  Bool.eq_iff_iff.2 ((flagAt_iff body offset).trans decide_eq_true_iff.symm)

/-- The watch after WATCH, with the clamps and the test written out. -/
theorem Watch.ordered_tested (w : Watch) (body : List Byte) :
    (w.ordered (field body 0 2) (field body 2 2) (flagAt body 4)).tested =
      let tr := min 256 (max 1 (field body 0 2))
      let tf := min (tr - 1) (field body 2 2)
      { history := w.history
        alarm := if w.alarm = true then decide (tf < w.history.count true) else decide (tr ≤ w.history.count true)
        rising := tr, falling := tf, reportEnable := decide (field body 4 1 ≠ 0) } := by
  rw [Watch.tested, Watch.testedAlarm_eq, flagAt_eq]
  rfl

/-! ### A history bit (R159) -/

/-- The watch with a new bit behind the bits held, before the alarm test. -/
def Watch.pushed (w : Watch) (bit : Bool) : Watch := { w with history := pushBit w.history bit }

theorem State.watchBit_eq (s : State) (bit : Bool) (k : Key) :
    s.watchBit bit k = (s.setWatch (s.watch.pushed bit)).alarmTest (some k) := rfl

/-- The watch after a history bit, with the window and the test written out. -/
theorem Watch.pushed_tested (w : Watch) (bit : Bool) : (w.pushed bit).tested =
    let held := (if 256 ≤ w.history.length then w.history.drop 1 else w.history) ++ [bit]
    { w with
      history := held
      alarm := if w.alarm = true then decide (w.falling < held.count true) else decide (w.rising ≤ held.count true) } := by
  rw [Watch.tested, Watch.testedAlarm_eq]
  rfl

/-- Settles O41: WATCH reports by the test's change or by the flag it sets, a history bit by the test's change alone. -/
theorem alarmFollowsTheCount : Obligations.AlarmFollowsTheCount := by
  unfold Obligations.AlarmFollowsTheCount
  constructor
  · intro body s ready length tr tf enable ones on u report
    have tested : (s.watch.ordered (field body 0 2) (field body 2 2) (flagAt body 4)).tested = u.watch :=
      s.watch.ordered_tested body
    rw [exec_watch ready length]
    constructor
    · intro told
      rw [State.setWatching_told (tested ▸ told), tested]
      rfl
    · intro untold
      rw [State.setWatching_untold (tested ▸ untold), tested]
      rfl
  · intro bit k s held ones on u
    have tested : (s.watch.pushed bit).tested = u.watch := s.watch.pushed_tested bit
    rw [State.watchBit_eq]
    constructor
    · intro changed enabled
      have switched : (s.watch.pushed bit).tested.alarm ≠ s.watch.alarm := tested ▸ changed
      rw [State.alarmTest_reported switched enabled, tested]
      rfl
    · intro still
      have silent : (s.watch.pushed bit).tested.alarm = s.watch.alarm ∨ s.watch.reportEnable = false := tested ▸ still
      rw [State.alarmTest_unreported silent, tested]
      rfl

end Sys2Proof.Machine
end

section
/-! The counters: CLEAR COUNTERS, and an event counted (R163, R164). -/

namespace Sys2Proof.Machine

theorem exec_clearCounters {s : State} (ready : s.ready (.clearCounters []) = true) :
    exec (.clearCounters []) s = .next (s.clearCounters.answered 0x0E .done []) :=
  congrArg Host.Outcome.next (State.arrive_fits ready 0x0E rfl _)

theorem Counters.get_reset (c : Counter) : Counters.reset.get c.place = 0 :=
  Vector.getElem_replicate c.place.isLt

theorem State.count_bump_self (s : State) (c : Counter) : (s.bump c).count c = min Config.countTop (s.count c + 1) :=
  (s.count_bump c c).trans (if_pos rfl)

theorem State.count_bump_of_ne (s : State) {c d : Counter} (other : d ≠ c) : (s.bump c).count d = s.count d :=
  (s.count_bump c d).trans (if_neg other.symm)

/-- Settles O42: the order is answered from the cleared state, and counting an event touches its own place alone. -/
theorem countersCountAndClear : Obligations.CountersCountAndClear := by
  unfold Obligations.CountersCountAndClear
  exact ⟨fun _ ready => exec_clearCounters ready, Counters.get_reset,
    fun c s => ⟨s.count_bump_self c, fun _ other => s.count_bump_of_ne other⟩⟩

end Sys2Proof.Machine
end

section
/-! The shelf port unit: records that wait or are cut short, orders that are refused for their form, the outbound arbiter,
and the report queue (R165 to R169, R175, R176). -/

namespace Sys2Proof.Machine

/-! ### Records that wait (R165, R166) -/

theorem exec_recordCutShort (s : State) : exec .recordCutShort s = .next s := rfl

theorem exec_record_waits {i : Instr} {s : State} (record : (toRecord i).isSome = true) (waits : s.ready i = false) :
    exec i s = .next { s with port := { s.port with inbound := s.port.inbound ++ [i] } } := by
  rw [exec_record record, State.arrive_waits waits]
  rfl

/-- Settles O8: a record that is not ready joins those that wait, and one cut short is no record at all. -/
theorem recordsWaitInOrderOrAreCutShort : Obligations.RecordsWaitInOrderOrAreCutShort := by
  unfold Obligations.RecordsWaitInOrderOrAreCutShort
  exact fun s => ⟨fun _ record waits => exec_record_waits record waits, exec_recordCutShort s⟩

/-! ### Orders refused for their form (R167) -/

/-- Whatever its body, an order of unknown kind is refused. -/
theorem exec_unknownOrder {kind : Byte} {body : List Byte} {s : State}
    (ready : s.ready (.unknownOrder kind body) = true) :
    exec (.unknownOrder kind body) s = .next (s.answered kind .unknown []) :=
  congrArg Host.Outcome.next (State.arrive_ready ready _)

/-- An order whose body does not fit is refused before its owner acts, whatever the owner would do. -/
theorem exec_unfit {i : Instr} {s : State} {kind : Byte} {fits : Bool} {act : State → Answered}
    (takes : exec i s = .next (s.arrive i fun s => s.takeOrder kind fits act)) (ready : s.ready i = true)
    (unfit : fits = false) : exec i s = .next (s.answered kind .malformed []) := by
  rw [takes, State.arrive_malformed ready kind unfit]

/-- The orders other than LOAD HOLDING have bodies of one length n (spec/12). -/
theorem exec_wrongLength {i : Instr} {s : State} {kind : Byte} {body : List Byte} {n : Nat} {act : State → Answered}
    (takes : exec i s = .next (s.arrive i fun s => s.takeOrder kind (decide (body.length = n)) act))
    (ready : s.ready i = true) (length : body.length ≠ n) : exec i s = .next (s.answered kind .malformed []) :=
  exec_unfit takes ready (decide_eq_false length)

/-- A LOAD HOLDING fits when it holds its 19 fixed bytes and as many more as the last of them, the peer count, says. -/
theorem fitsLoadHolding_iff (body : List Byte) :
    fitsLoadHolding body = true ↔ 19 ≤ body.length ∧ body.length = 19 + (body.getD 18 0).toNat := by
  refine ⟨fun fits => ?_, fun ⟨low, length⟩ => fitsLoadHolding_of_length low length⟩
  obtain ⟨low, length⟩ := (Bool.and_eq_true _ _).mp fits
  have low : 19 ≤ body.length := of_decide_eq_true low
  exact ⟨low, field_byte (Nat.lt_of_succ_le low) ▸ of_decide_eq_true length⟩

theorem exec_loadHolding_unfit {body : List Byte} {s : State} (ready : s.ready (.loadHolding body) = true)
    (unfit : body.length < 19 ∨ body.length ≠ 19 + (body.getD 18 0).toNat) :
    exec (.loadHolding body) s = .next (s.answered 0x01 .malformed []) := by
  refine exec_unfit rfl ready (Bool.eq_false_iff.mpr fun fits => ?_)
  obtain ⟨low, length⟩ := (fitsLoadHolding_iff body).mp fits
  exact unfit.elim (Nat.not_lt.mpr low) fun wrong => wrong length

/-- Settles O10: an unknown kind, LOAD HOLDING with the peers its body counts, and the sixteen orders of one length. -/
theorem unfitOrdersAreRefused : Obligations.UnfitOrdersAreRefused := by
  unfold Obligations.UnfitOrdersAreRefused
  exact fun body s => ⟨fun _ => exec_unknownOrder, exec_loadHolding_unfit,
    exec_wrongLength (i := .dropHolding body) rfl,
    exec_wrongLength (i := .cadence body) rfl,
    exec_wrongLength (i := .burst body) rfl,
    exec_wrongLength (i := .suspend body) rfl,
    exec_wrongLength (i := .resume body) rfl,
    exec_wrongLength (i := .verify body) rfl,
    exec_wrongLength (i := .rewritten body) rfl,
    exec_wrongLength (i := .takeEvidence body) rfl,
    exec_wrongLength (i := .pace body) rfl,
    exec_wrongLength (i := .settle body) rfl,
    exec_wrongLength (i := .timing body) rfl,
    exec_wrongLength (i := .watch body) rfl,
    exec_wrongLength (i := .clearCounters body) rfl,
    exec_wrongLength (i := .view body) rfl,
    exec_wrongLength (i := .peek body) rfl,
    exec_wrongLength (i := .reset body) rfl⟩

/-! ### The outbound arbiter, record by record (R168, R169, R175, R176) -/

section
variable {p : ShelfPort}

theorem ShelfPort.arbitrate_busy {x : OutRecord} (busy : p.link = some x) : p.arbitrate = p := by
  rw [ShelfPort.arbitrate, busy]

theorem ShelfPort.arbitrate_start (free : p.link = none) {x : StartRecord} (start : p.start = some x) :
    p.arbitrate = { p with start := none, link := some (.start x) } := by
  rw [ShelfPort.arbitrate, free, start]

theorem ShelfPort.arbitrate_reply (free : p.link = none) (noStart : p.start = none) {x : Reply}
    (reply : p.reply = some x) : p.arbitrate = { p with reply := none, link := some (.reply x) } := by
  rw [ShelfPort.arbitrate, free, noStart, reply]

section
variable (free : p.link = none) (noStart : p.start = none) (noReply : p.reply = none)
include free noStart noReply

theorem ShelfPort.arbitrate_afterReset (taken : p.resetTaken = true) : p.arbitrate = p := by
  rw [ShelfPort.arbitrate, free, noStart, noReply, taken]
  rfl

theorem ShelfPort.arbitrate_request (untaken : p.resetTaken = false) {x : Request} {rest : List Request}
    (oldest : p.requests = x :: rest) : p.arbitrate = { p with requests := rest, link := some (.request x) } := by
  rw [ShelfPort.arbitrate, free, noStart, noReply, untaken, oldest]
  rfl

theorem ShelfPort.arbitrate_report (untaken : p.resetTaken = false) (noRequest : p.requests = [])
    {x : QueuedReport} {rest : List QueuedReport} (head : p.reports = x :: rest) :
    p.arbitrate = { p with link := some (.report x) } := by
  rw [ShelfPort.arbitrate, free, noStart, noReply, untaken, noRequest, head]
  rfl

theorem ShelfPort.arbitrate_nothing (untaken : p.resetTaken = false) (noRequest : p.requests = [])
    (noReport : p.reports = []) : p.arbitrate = p := by
  rw [ShelfPort.arbitrate, free, noStart, noReply, untaken, noRequest, noReport]
  rfl

end

end

/-- Settles O11: the arbiter's equations, in the order in which it looks for a record to send. -/
theorem outboundArbiterOrder : Obligations.OutboundArbiterOrder := by
  unfold Obligations.OutboundArbiterOrder
  intro p
  refine ⟨fun _ busy => ShelfPort.arbitrate_busy busy, fun free =>
    ⟨fun _ start => ShelfPort.arbitrate_start free start, fun noStart =>
      ⟨fun _ reply => ShelfPort.arbitrate_reply free noStart reply, fun noReply => ?_⟩⟩⟩
  exact ⟨ShelfPort.arbitrate_afterReset free noStart noReply, fun untaken =>
    ⟨fun _ _ oldest => ShelfPort.arbitrate_request free noStart noReply untaken oldest, fun noRequest =>
      ⟨fun _ _ head => ShelfPort.arbitrate_report free noStart noReply untaken noRequest head,
        ShelfPort.arbitrate_nothing free noStart noReply untaken noRequest⟩⟩⟩

/-! ### The report queue (R163, R169) -/

theorem State.pushReport_room {s : State} (room : s.port.reports.length < 64) (r : Report) :
    s.pushReport r = { s with port := { s.port with
      reports := s.port.reports ++ [{ number := s.port.nextReport, report := r }]
      nextReport := s.port.nextReport + 1 } } :=
  if_pos room

theorem State.pushReport_full {s : State} (full : 64 ≤ s.port.reports.length) (r : Report) :
    s.pushReport r = (s.setPort { s.port with nextReport := s.port.nextReport + 1 }).bump .reportsLost :=
  if_neg (Nat.not_lt.mpr full)

/-- Settles O12: with room the report joins at the tail, and in a full queue its loss is counted once. -/
theorem reportsAreNumberedAndQueued : Obligations.ReportsAreNumberedAndQueued := by
  unfold Obligations.ReportsAreNumberedAndQueued
  refine fun r s => ⟨fun room => State.pushReport_room room r, fun full => ⟨?_, ?_, s.pushReport_frame r⟩⟩
  · rw [State.pushReport_full full]
    rfl
  · rw [State.pushReport_full full]
    exact State.count_bump_self _ .reportsLost

end Sys2Proof.Machine
end

section
/-! The step with a command waiting: the queue's front is taken off and run. -/

namespace Sys2Proof.Machine

/-- The step's equation with a command at the front; `idleStepPassesOneSlot` has the other case, the empty queue. -/
theorem step_of_pending_cons {s : State} {c : Instr} {rest : List Instr} (front : s.pending = c :: rest) :
    step s = exec c (s.setPending rest) := by
  rw [step, front]

/-- The queue that was there is of no account once another takes its place. -/
theorem State.setPending_setPending (s : State) (old new : List Instr) :
    (s.setPending old).setPending new = s.setPending new := rfl

/-- Settles O1: the front is the command run, and taking it off leaves the state with the queue's rest. -/
theorem stepRunsTheFrontCommand : Obligations.StepRunsTheFrontCommand := by
  unfold Obligations.StepRunsTheFrontCommand
  intro c rest s
  calc step (s.setPending (c :: rest))
      _ = exec c ((s.setPending (c :: rest)).setPending rest) := step_of_pending_cons (s.setPending_pending _)
      _ = exec c (s.setPending rest) := by rw [State.setPending_setPending]

end Sys2Proof.Machine
end
